-- ==== Sys2Proof/Word.lean ====
section
/-! DEFINITION. The value types of the bus (00_scope.md R11) and the two names a request is indexed by: the CPU and
the access width. -/

namespace Sys2Proof

/-- `u8` of R11. -/
abbrev Byte := BitVec 8

/-- `u16` of R11. -/
abbrev Half := BitVec 16

/-- `u32` of R11: addresses, register values, results. -/
abbrev Word := BitVec 32

/-- `u64` of R11: the divider and square-root registers, the eight cartridge command bytes. -/
abbrev Dword := BitVec 64

/-- CPU0 (main) and CPU1 (sub), R3 and R16. -/
inductive Cpu where
  | c0
  | c1
  deriving DecidableEq, Repr, Inhabited

/-- `cpu'`, the other CPU (R16). -/
def Cpu.other : Cpu → Cpu
  | .c0 => .c1
  | .c1 => .c0

/-- The cpu bit of an opcode byte or register key (R81, R89). -/
def Cpu.bit : Cpu → Nat
  | .c0 => 0
  | .c1 => 1

/-- The three access widths the bus moves (20_memory.md R65). -/
inductive Width where
  | w8
  | w16
  | w32
  deriving DecidableEq, Repr, Inhabited

/-- `n`, the byte count of a width (R63). -/
def Width.bytes : Width → Nat
  | .w8 => 1
  | .w16 => 2
  | .w32 => 4

end Sys2Proof
end

