-- ==== Sys2Proof/Config.lean ====
section
/-! DEFINITION. What is fixed for the machine and what the spec leaves open: the names of the regions and the entries
of the region table (types), and the OPEN parameters and collaborator answers, each an opaque constant no proof can
see into (00_scope.md R10, 41_io_dispatch.md R152, 93_implementation_defined.md U3 to U9); and the configuration that R10
leaves to the machine's builder, as data. Its default values, and the parameters the spec fixes, are in
Machine/Params.lean. -/

namespace Sys2Proof

/-- The region ids of 10_state.md R23, in the order of their codes (30_encoding.md R85). -/
inductive Region where
  | sink
  | itcm
  | dtcm
  | main
  | swram
  | wram7
  | io0
  | io1
  | pal
  | oam
  | vramA
  | vramB
  | vramC
  | vramD
  | vramE
  | vramF
  | vramG
  | vramH
  | vramI
  | bios9
  | bios7
  | cartrom
  deriving DecidableEq, Repr, Inhabited

/-- The events of a TRIGGER request (30_encoding.md R84). -/
inductive Event where
  | vblank
  | hblank
  | dispStart
  | mmDisplay
  | cartSlot
  | gbaSlot
  | gxFifo
  | wifi
  deriving DecidableEq, Repr, Inhabited

/-- The start mode of a DMA channel (42_dma.md R183): immediate, or waiting for an event. -/
inductive StartMode where
  | immediate
  | on (e : Event)
  deriving DecidableEq, Repr, Inhabited

/-- The two display compositor cores of CPU0 (R16). -/
inductive Engine where
  | a
  | b
  deriving DecidableEq, Repr, Inhabited

/-- One entry of a region table, `{region, mask}` (10_state.md R26). -/
structure Entry where
  region : Region
  mask : Word
  deriving DecidableEq, Repr, Inhabited

/-- One re-point of the map controller's answer, `(c, index, region, mask)` of 41_io_dispatch.md R151; the region is
the raw region code, since the answer may name one that is not a valid REMAP. -/
structure Repoint where
  cpu : Cpu
  index : Byte
  region : Byte
  mask : Word
  deriving DecidableEq, Repr, Inhabited

/-- The sizes of the regions a configuration may choose (R10, 10_state.md R23): each is a power of two of at least 4
bytes, given by its exponent less 2. The tightly-coupled window reaches 16 KiB of DTCM (R28), so DTCM is at least that
big, given by its exponent less 14. SINK has no bytes, the raw blocks IO0 and IO1 have 2^24 (R29), and CARTROM has the
size of the cartridge (R27); log entry 18. -/
structure RegionSizes where
  itcm : Fin 30
  dtcm : Fin 18
  main : Fin 30
  swram : Fin 30
  wram7 : Fin 30
  pal : Fin 30
  oam : Fin 30
  vramA : Fin 30
  vramB : Fin 30
  vramC : Fin 30
  vramD : Fin 30
  vramE : Fin 30
  vramF : Fin 30
  vramG : Fin 30
  vramH : Fin 30
  vramI : Fin 30
  bios9 : Fin 30
  bios7 : Fin 30
  deriving DecidableEq, Repr

/-- The configuration of R10: INIT_TABLE of each CPU without a cartridge, CART_PASS_RANGE by its first and last address
in the low 28 bits, and the region sizes. -/
structure BusConfig where
  table0 : Vector Entry 256
  table1 : Vector Entry 256
  cartPassFirst : Word
  cartPassLast : Word
  sizes : RegionSizes
  deriving DecidableEq, Repr

/-- OPEN_BUS_WORD (R10, R107): the fixed open-bus pattern, never given by the source. -/
opaque Config.openBusWord : Word

/-- TCW_BASE_RESET (R10, R28, R292): the base of the tightly-coupled window after reset. -/
opaque Config.tcwBaseReset : Word

/-- Whether the offset in the CPU's own register window is masked by the table entry, as 40_decode.md R100, R101 and R105
have it, or is `a[23:0]`, as 30_encoding.md R89 and R91 and 41_io_dispatch.md R130 have it. The spec settles it nowhere, so
it is left open; log entry 22. -/
opaque Config.windowOffsetMasked : Bool

/-- DIV_FN (R10, R159): mode, numerator and denominator to quotient and remainder. It gets the two bits of the mode as
they are (R158); log entry 21. -/
opaque Config.divFn : BitVec 2 → Dword → Dword → Dword × Dword

/-- SQRT_FN (R10, R161): mode and input to root. -/
opaque Config.sqrtFn : BitVec 1 → Dword → Word

/-- DIV_CORNER_ZERO (R159, U8): the divider's answer to a zero denominator, a separate parameter of the reference
definition. -/
opaque Config.divCornerZero : Dword → Dword × Dword

/-- DIV_CORNER_OVERFLOW (R159, U9): the divider's answer to -2^63 / -1, a separate parameter of the reference
definition. -/
opaque Config.divCornerOverflow : Dword × Dword

/-- The byte a collaborator answers to the `n`-th draw (R152: "the bus assumes nothing of it beyond its width"). -/
opaque Config.answer8 : Nat → Byte

/-- The word a collaborator answers to the `n`-th draw (R152). -/
opaque Config.answer32 : Nat → Word

/-- The list of re-points MapCtl answers to the `n`-th draw (R151, R152). -/
opaque Config.answerMap : Nat → List Repoint

end Sys2Proof
end

