-- ==== Sys2Proof/Machine/Bits.lean ====
section
/-! DEFINITION. The bit-field, alignment and byte-order helpers of 00_scope.md R11 and R13, 20_memory.md R60, R63 and
R65. Values that are assembled from bytes or cut into bytes are natural numbers here and are narrowed by their users. -/

namespace Sys2Proof

/-- `addr & ~(n - 1)`, the aligned address of an access (R63). -/
def alignAddr (w : Width) (a : Word) : Word :=
  a &&& ~~~ (BitVec.ofNat 32 (w.bytes - 1))

/-- The same for a register-window offset (R63). -/
def alignOffset (w : Width) (o : Nat) : Nat :=
  o / w.bytes * w.bytes

/-- `trunc_{8n}(v)`, as a u32 with the bits above `8n` zero (R65). -/
def truncTo (w : Width) (v : Word) : Word :=
  BitVec.ofNat 32 (v.toNat % 2 ^ (8 * w.bytes))

/-- Byte `i` of a value, `v[8i+7:8i]` (R13). -/
def byteAt (v i : Nat) : Byte :=
  BitVec.ofNat 8 (v / 2 ^ (8 * i))

/-- The little-endian value of a list of bytes, the first the least significant (R60). -/
def leValue : List Byte → Nat
  | [] => 0
  | b :: bs => b.toNat + 256 * leValue bs

/-- The `n` little-endian bytes of a value (R60). -/
def leBytes : Nat → Nat → List Byte
  | 0, _ => []
  | n + 1, v => BitVec.ofNat 8 v :: leBytes n (v / 256)

/-- `sext_64` of a u32 (R11). -/
def sext64 (v : Word) : Dword :=
  v.signExtend 64

/-- `zext_64` of a u32 (R11). -/
def zext64 (v : Word) : Dword :=
  v.zeroExtend 64

/-- `v[i]` as a bit of a u32. -/
def bitAt (v : Word) (i : Nat) : Bool :=
  v.getLsbD i

/-- `zext_32` of one bit placed at bit `i`. -/
def bitTo (b : Bool) (i : Nat) : Word :=
  if b then BitVec.ofNat 32 (2 ^ i) else 0

/-- Whether a size is a power of two of at least 4 (10_state.md R23, 30_encoding.md R83). -/
def isRegionSize (size : Word) : Bool :=
  decide (4 ≤ size.toNat) && decide (size &&& (size - 1) = 0)

end Sys2Proof
end

