-- ==== Sys2Proof/Machine/Params.lean ====
section
/-! DEFINITION. The parameters to which the spec gives a value (00_scope.md section 4): region codes, the default
configuration (region sizes, INIT_TABLE, CART_PASS_RANGE), the fixed windows, the DMA masks, the timer prescalers and the
interrupt bit numbers. -/

namespace Sys2Proof

/-- The region code of 30_encoding.md R85. -/
def Region.code : Region → Nat
  | .sink => 0
  | .itcm => 1
  | .dtcm => 2
  | .main => 3
  | .swram => 4
  | .wram7 => 5
  | .io0 => 6
  | .io1 => 7
  | .pal => 8
  | .oam => 9
  | .vramA => 10
  | .vramB => 11
  | .vramC => 12
  | .vramD => 13
  | .vramE => 14
  | .vramF => 15
  | .vramG => 16
  | .vramH => 17
  | .vramI => 18
  | .bios9 => 19
  | .bios7 => 20
  | .cartrom => 21

/-- The region of a code; codes 22 to 255 are reserved (R85). -/
def Region.ofCode (b : Byte) : Option Region :=
  match b.toNat with
  | 0 => some .sink
  | 1 => some .itcm
  | 2 => some .dtcm
  | 3 => some .main
  | 4 => some .swram
  | 5 => some .wram7
  | 6 => some .io0
  | 7 => some .io1
  | 8 => some .pal
  | 9 => some .oam
  | 10 => some .vramA
  | 11 => some .vramB
  | 12 => some .vramC
  | 13 => some .vramD
  | 14 => some .vramE
  | 15 => some .vramF
  | 16 => some .vramG
  | 17 => some .vramH
  | 18 => some .vramI
  | 19 => some .bios9
  | 20 => some .bios7
  | 21 => some .cartrom
  | _ => none

/-- The size in bytes of a region in a configuration (R10, R23). SINK has no bytes, and CARTROM has the size of the
mounted cartridge, if any (R27). -/
def regionSize (g : BusConfig) (cart : Option Word) : Region → Option Nat
  | .sink => none
  | .itcm => some (2 ^ (2 + g.sizes.itcm.val))
  | .dtcm => some (2 ^ (14 + g.sizes.dtcm.val))
  | .main => some (2 ^ (2 + g.sizes.main.val))
  | .swram => some (2 ^ (2 + g.sizes.swram.val))
  | .wram7 => some (2 ^ (2 + g.sizes.wram7.val))
  | .io0 => some 0x1000000
  | .io1 => some 0x1000000
  | .pal => some (2 ^ (2 + g.sizes.pal.val))
  | .oam => some (2 ^ (2 + g.sizes.oam.val))
  | .vramA => some (2 ^ (2 + g.sizes.vramA.val))
  | .vramB => some (2 ^ (2 + g.sizes.vramB.val))
  | .vramC => some (2 ^ (2 + g.sizes.vramC.val))
  | .vramD => some (2 ^ (2 + g.sizes.vramD.val))
  | .vramE => some (2 ^ (2 + g.sizes.vramE.val))
  | .vramF => some (2 ^ (2 + g.sizes.vramF.val))
  | .vramG => some (2 ^ (2 + g.sizes.vramG.val))
  | .vramH => some (2 ^ (2 + g.sizes.vramH.val))
  | .vramI => some (2 ^ (2 + g.sizes.vramI.val))
  | .bios9 => some (2 ^ (2 + g.sizes.bios9.val))
  | .bios7 => some (2 ^ (2 + g.sizes.bios7.val))
  | .cartrom => cart.map BitVec.toNat

/-- The region that holds the raw register block of a CPU, `IO[cpu]` (40_decode.md R108). -/
def ioRegion : Cpu → Region
  | .c0 => .io0
  | .c1 => .io1

/-- The key of a byte of a region in the machine's memory: the region's code above 32 bits of offset, so that every
region has an offset space of its own (10_state.md R41). -/
def cellKey (r : Region) (o : Nat) : Nat :=
  r.code * 2 ^ 32 + o

/-- The bytes that are not zero after reset: IPCFIFOCNT = 0x00000101 on each CPU (44_ipc.md R236, R290). -/
def resetCells : List (Nat × Byte) :=
  [(cellKey .io0 0x184, 1), (cellKey .io0 0x185, 1), (cellKey .io1 0x184, 1), (cellKey .io1 0x185, 1)]

/-- Whether a REMAP of a CPU's table may name a region (R85): IO0 only for CPU0, IO1 only for CPU1, never DTCM, and
CARTROM only while a cartridge is mounted. -/
def remapAllowed (mounted : Bool) (c : Cpu) : Region → Bool
  | .dtcm => false
  | .io0 => decide (c = .c0)
  | .io1 => decide (c = .c1)
  | .cartrom => mounted
  | _ => true

/-- Whether a LOAD may name a region (30_encoding.md R86, 40_decode.md R116): not SINK, IO0, IO1 or an absent
CARTROM. -/
def loadAllowed (mounted : Bool) : Region → Bool
  | .sink => false
  | .io0 => false
  | .io1 => false
  | .cartrom => mounted
  | _ => true

/-- The entry of an unmapped index (10_state.md R25, 40_decode.md R111). -/
def sinkEntry : Entry := ⟨.sink, 0⟩

/-- The entry of a mounted cartridge, `{CARTROM, size - 1}` (R114). -/
def cartEntry (size : Word) : Entry := ⟨.cartrom, size - 1⟩

/-- Points the `n` entries from an index on at an entry (R114). -/
def setEntries (t : Vector Entry 256) (i : Nat) (e : Entry) : Nat → Vector Entry 256
  | 0 => t
  | n + 1 => setEntries (if h : i < 256 then t.set i e h else t) (i + 1) e n

/-- The default INIT_TABLE without a cartridge (R111), one run of equal entries after the other. -/
def defaultEntries : Cpu → List Entry
  | .c0 =>
    List.replicate 0x20 ⟨.itcm, 0x7FFF⟩ ++ List.replicate 0x10 ⟨.main, 0x3FFFFF⟩ ++
    List.replicate 0x10 ⟨.swram, 0x7FFF⟩ ++ List.replicate 0x10 ⟨.io0, 0xFFFFFF⟩ ++
    List.replicate 0x10 ⟨.pal, 0x7FF⟩ ++ List.replicate 0x10 sinkEntry ++
    List.replicate 0x10 ⟨.oam, 0x7FF⟩ ++ List.replicate 0x7F sinkEntry ++ [⟨.bios9, 0x7FFF⟩]
  | .c1 =>
    List.replicate 0x20 ⟨.bios7, 0x3FFF⟩ ++ List.replicate 0x10 ⟨.main, 0x3FFFFF⟩ ++
    List.replicate 0x08 ⟨.swram, 0x7FFF⟩ ++ List.replicate 0x08 ⟨.wram7, 0xFFFF⟩ ++
    List.replicate 0x10 ⟨.io1, 0xFFFFFF⟩ ++ List.replicate 0xB0 sinkEntry

/-- INIT_TABLE has 256 entries for each CPU (R26). -/
theorem defaultEntries_length (c : Cpu) : (defaultEntries c).length = 256 := by
  cases c <;>
    simp only [defaultEntries, List.length_append, List.length_replicate, List.length_cons, List.length_nil]

/-- The default INIT_TABLE of a CPU (R111). -/
def defaultTable (c : Cpu) : Vector Entry 256 :=
  ⟨⟨defaultEntries c⟩, defaultEntries_length c⟩

/-- The region sizes of the default configuration (R23). -/
def RegionSizes.default : RegionSizes where
  itcm := 13
  dtcm := 0
  main := 20
  swram := 13
  wram7 := 14
  pal := 9
  oam := 9
  vramA := 15
  vramB := 15
  vramC := 15
  vramD := 15
  vramE := 14
  vramF := 12
  vramG := 12
  vramH := 13
  vramI := 12
  bios9 := 13
  bios7 := 12

/-- The default configuration: R23, R111, and CART_PASS_RANGE of R103. -/
def BusConfig.default : BusConfig where
  table0 := defaultTable .c0
  table1 := defaultTable .c1
  cartPassFirst := 0x0A000000
  cartPassLast := 0x0AFFFFFF
  sizes := RegionSizes.default

/-- INIT_TABLE of a CPU in a configuration, without a cartridge. -/
def BusConfig.table (g : BusConfig) : Cpu → Vector Entry 256
  | .c0 => g.table0
  | .c1 => g.table1

/-- The table of a CPU after construction and after reset: INIT_TABLE, "then, if a cartridge is mounted, entries
0x80-0x9F of both CPUs <- {CARTROM, size-1}" (R111, R290). -/
def initTable (g : BusConfig) (cart : Option Word) (c : Cpu) : Vector Entry 256 :=
  match cart with
  | none => g.table c
  | some size => setEntries (g.table c) 0x80 (cartEntry size) 0x20

/-- TCW_MASK (40_decode.md R102). -/
def tcwMask : Word := 0x00003FFF

/-- `InCartPass(a)`: the cartridge pass-through window CART_PASS_RANGE, on both CPUs (R103). -/
def inCartPass (g : BusConfig) (a : Word) : Bool :=
  let m := (a &&& 0x0FFFFFFF).toNat
  decide (g.cartPassFirst.toNat ≤ m) && decide (m ≤ g.cartPassLast.toNat)

/-- `InWifi(a)`: the wireless window, which only CPU1 has (R104). -/
def inWifi (a : Word) : Bool :=
  let m := (a &&& 0x0FFFFFFF).toNat
  decide (0x04800000 ≤ m) && decide (m ≤ 0x04FFFFFF)

/-- The event of a code; 0 and 9 to 255 are reserved (30_encoding.md R84). -/
def Event.ofCode (b : Byte) : Option Event :=
  match b.toNat with
  | 1 => some .vblank
  | 2 => some .hblank
  | 3 => some .dispStart
  | 4 => some .mmDisplay
  | 5 => some .cartSlot
  | 6 => some .gbaSlot
  | 7 => some .gxFifo
  | 8 => some .wifi
  | _ => none

/-- `Mode(cpu, ch, v)` (42_dma.md R183): bits 29:27 of the control word on CPU0, bits 29:28 on CPU1. -/
def startMode (c : Cpu) (ch : Fin 4) (v : Word) : StartMode :=
  match c with
  | .c0 =>
    match v.toNat / 2 ^ 27 % 8 with
    | 0 => .immediate
    | 1 => .on .vblank
    | 2 => .on .hblank
    | 3 => .on .dispStart
    | 4 => .on .mmDisplay
    | 5 => .on .cartSlot
    | 6 => .on .gbaSlot
    | _ => .on .gxFifo
  | .c1 =>
    match v.toNat / 2 ^ 28 % 4 with
    | 0 => .immediate
    | 1 => .on .vblank
    | 2 => .on .cartSlot
    | _ => if ch.val % 2 = 0 then .on .wifi else .on .gbaSlot

/-- SADMASK (42_dma.md R181). -/
def sadMask : Cpu → Fin 4 → Word
  | .c0, _ => 0x0FFFFFFF
  | .c1, ch => if ch = 0 then 0x07FFFFFF else 0x0FFFFFFF

/-- DADMASK (R181). -/
def dadMask : Cpu → Fin 4 → Word
  | .c0, _ => 0x0FFFFFFF
  | .c1, ch => if ch = 3 then 0x0FFFFFFF else 0x07FFFFFF

/-- CNTMASK, the write mask of DMAnCNT (R182). -/
def cntMask : Cpu → Fin 4 → Word
  | .c0, _ => 0xFFFFFFFF
  | .c1, ch => if ch = 3 then 0xF7E0FFFF else 0xF7E03FFF

/-- COUNTMASK, the count field of DMAnCNT (R182). -/
def countMask : Cpu → Fin 4 → Word
  | .c0, _ => 0x1FFFFF
  | .c1, ch => if ch = 3 then 0xFFFF else 0x3FFF

/-- The main-memory-display count, 256 × 192 / 2 words (R184). -/
def mmdCount : Word := 24576

/-- The write mask of TMnCNT_H (43_timers.md R210). -/
def tmMask (t : Fin 4) : Half :=
  if t = 0 then 0x00C3 else 0x00C7

/-- `DIV[presc]` (R210): cycles for each increment. -/
def prescale : BitVec 2 → Half
  | 0 => 1
  | 1 => 64
  | 2 => 256
  | 3 => 1024

/-- The number of slots of a queue, FIFO_DEPTH (10_state.md R33). -/
def fifoDepth : Nat := 16

/-- IF bit of a timer overflow (60_exceptions.md R272). -/
def irqTimer (t : Fin 4) : Nat := 3 + t.val

/-- IF bit of a DMA completion (R272). -/
def irqDma (ch : Fin 4) : Nat := 8 + ch.val

/-- IF bit of a sync request from the other CPU (R272). -/
def irqSync : Nat := 16

/-- IF bit of the send-queue-empty condition (R272). -/
def irqSendEmpty : Nat := 17

/-- IF bit of the receive-queue-not-empty condition (R272). -/
def irqRecvNotEmpty : Nat := 18

/-- The divider's reference definition (41_io_dispatch.md R159), its two corners left as the separate parameters the
rule asks for. No meaning uses it: the machine divides with `Config.divFn`, and a claim may take
`∀ m n d, Config.divFn m n d = divReference … m n d` as a named premise only. -/
def divReference (cornerZero : Dword → Dword × Dword) (cornerOverflow : Dword × Dword)
    (_mode : BitVec 2) (num den : Dword) : Dword × Dword :=
  if den = 0 then cornerZero num
  else if num.toInt = -(2 ^ 63) ∧ den.toInt = -1 then cornerOverflow
  else (BitVec.ofInt 64 (num.toInt.tdiv den.toInt), BitVec.ofInt 64 (num.toInt.tmod den.toInt))

/-- The reference answer of DIV_CORNER_ZERO (R159, U8). -/
def divCornerZeroReference (num : Dword) : Dword × Dword :=
  (if num.toInt < 0 then 1 else -1, num)

/-- The reference answer of DIV_CORNER_OVERFLOW (R159, U9). -/
def divCornerOverflowReference : Dword × Dword :=
  (BitVec.ofInt 64 (-(2 ^ 63)), 0)

/-- The square root's reference definition, `floor(sqrt(X))` as a u32 (R161). -/
def sqrtReference (_mode : BitVec 1) (x : Dword) : Word :=
  BitVec.ofNat 32 (Nat.sqrt x.toNat)

end Sys2Proof
end

