-- ==== Sys2Proof/Syntax.lean ====
section
/-! DEFINITION. The instructions of the bus: one constructor for each row of spec/opcode_table.json. The requests of
30_encoding.md R82 carry the operands of R83. A register row (format IOREG) is an access to that logical register
through the register window, with the byte lane of its key (R89) and the access. A contract row (format INTERNAL) is a
call of that internal operation with its arguments (R88). -/

namespace Sys2Proof

/-- The access of a register row: "a write or read of any width that touches a byte of the register reaches it"
(30_encoding.md R89). The value of a write is a u32 of which the low `8n` bits are used (20_memory.md R65). -/
inductive RegAccess where
  | read (w : Width)
  | write (w : Width) (v : Word)
  deriving DecidableEq, Repr, Inhabited

/-- The instructions. -/
inductive Instr where
  /-- READ8 (40_decode.md R117). -/
  | read8 (c : Cpu) (addr : Word)
  /-- READ16 (R118). -/
  | read16 (c : Cpu) (addr : Word)
  /-- READ32 (R119). -/
  | read32 (c : Cpu) (addr : Word)
  /-- WRITE8 (R120). -/
  | write8 (c : Cpu) (addr v : Word)
  /-- WRITE16 (R121). -/
  | write16 (c : Cpu) (addr v : Word)
  /-- WRITE32 (R122). -/
  | write32 (c : Cpu) (addr v : Word)
  /-- TICK, `n` timer-clock cycles (43_timers.md R213). -/
  | tick (c : Cpu) (n : Word)
  /-- TRIGGER, with the raw event code (42_dma.md R189, 30_encoding.md R84). -/
  | trigger (c : Cpu) (event : Byte)
  /-- RAISEIRQ, with the raw bit number (45_irq_latch.md R262). -/
  | raiseirq (c : Cpu) (bit : Byte)
  /-- SETTCW (40_decode.md R112). -/
  | settcw (v : Word)
  /-- REMAP, with the raw region code (R113, 30_encoding.md R85). -/
  | remap (c : Cpu) (index region : Byte) (mask : Word)
  /-- MOUNT, the size operand and the bytes that follow it (R114). -/
  | mount (size : Word) (bytes : List Byte)
  /-- UNMOUNT (R115). -/
  | unmount
  /-- LOAD; the count `k` of R83 is the number of bytes (R116). -/
  | load (region : Byte) (offset : Word) (bytes : List Byte)
  /-- RESET (70_reset_and_hazards.md R290). -/
  | reset
  /-- DISPCNT_A, offset 0x0, CPU0 (R140). -/
  | dispcntA (lane : BitVec 2) (acc : RegAccess)
  /-- DISPSTAT, offset 0x4, both CPUs (R137). -/
  | dispstat (c : Cpu) (lane : BitVec 1) (acc : RegAccess)
  /-- VCOUNT, offset 0x6, both CPUs (R137). -/
  | vcount (c : Cpu) (lane : BitVec 1) (acc : RegAccess)
  /-- BG0CNT_A, offset 0x8, CPU0 (R141). -/
  | bg0cntA (lane : BitVec 1) (acc : RegAccess)
  /-- BG1CNT_A, offset 0xA, CPU0 (R141). -/
  | bg1cntA (lane : BitVec 1) (acc : RegAccess)
  /-- BG2CNT_A, offset 0xC, CPU0 (R141). -/
  | bg2cntA (lane : BitVec 1) (acc : RegAccess)
  /-- BG3CNT_A, offset 0xE, CPU0 (R141). -/
  | bg3cntA (lane : BitVec 1) (acc : RegAccess)
  /-- BGOFS_AFFINE_A, offset 0x10, CPU0 (R137). -/
  | bgofsAffineA (lane : BitVec 4) (acc : RegAccess)
  /-- BGOFS_AFFINE_A_2, offset 0x20, CPU0 (R137). -/
  | bgofsAffineA2 (lane : BitVec 5) (acc : RegAccess)
  /-- WIN0H_A, offset 0x40, CPU0 (R141). -/
  | win0hA (lane : BitVec 1) (acc : RegAccess)
  /-- WIN1H_A, offset 0x42, CPU0 (R141). -/
  | win1hA (lane : BitVec 1) (acc : RegAccess)
  /-- WIN0V_A, offset 0x44, CPU0 (R141). -/
  | win0vA (lane : BitVec 1) (acc : RegAccess)
  /-- WIN1V_A, offset 0x46, CPU0 (R141). -/
  | win1vA (lane : BitVec 1) (acc : RegAccess)
  /-- WININ_A, offset 0x48, CPU0 (R141). -/
  | wininA (lane : BitVec 1) (acc : RegAccess)
  /-- WINOUT_A, offset 0x4A, CPU0 (R141). -/
  | winoutA (lane : BitVec 1) (acc : RegAccess)
  /-- MOSAIC_A, offset 0x4C, CPU0 (R137). -/
  | mosaicA (lane : BitVec 1) (acc : RegAccess)
  /-- BLDCNT_A, offset 0x50, CPU0 (R141). -/
  | bldcntA (lane : BitVec 1) (acc : RegAccess)
  /-- BLDALPHA_A, offset 0x52, CPU0 (R141). -/
  | bldalphaA (lane : BitVec 1) (acc : RegAccess)
  /-- BLDY_A, offset 0x54, CPU0 (R141). -/
  | bldyA (lane : BitVec 1) (acc : RegAccess)
  /-- DISP3DCNT, offset 0x60, CPU0 (R137). -/
  | disp3dcnt (lane : BitVec 1) (acc : RegAccess)
  /-- DISPCAPCNT, offset 0x64, CPU0 (R142). -/
  | dispcapcnt (lane : BitVec 2) (acc : RegAccess)
  /-- DISP_MMEM_FIFO, offset 0x68, CPU0 (R137). -/
  | dispMmemFifo (lane : BitVec 2) (acc : RegAccess)
  /-- MASTER_BRIGHT_A, offset 0x6C, CPU0 (R137). -/
  | masterBrightA (lane : BitVec 1) (acc : RegAccess)
  /-- DMA0SAD, offset 0xB0, both CPUs (R153). -/
  | dma0sad (c : Cpu) (lane : BitVec 2) (acc : RegAccess)
  /-- DMA0DAD, offset 0xB4, both CPUs (R153). -/
  | dma0dad (c : Cpu) (lane : BitVec 2) (acc : RegAccess)
  /-- DMA0CNT, offset 0xB8, both CPUs (R184). -/
  | dma0cnt (c : Cpu) (lane : BitVec 2) (acc : RegAccess)
  /-- DMA1SAD, offset 0xBC, both CPUs (R153). -/
  | dma1sad (c : Cpu) (lane : BitVec 2) (acc : RegAccess)
  /-- DMA1DAD, offset 0xC0, both CPUs (R153). -/
  | dma1dad (c : Cpu) (lane : BitVec 2) (acc : RegAccess)
  /-- DMA1CNT, offset 0xC4, both CPUs (R184). -/
  | dma1cnt (c : Cpu) (lane : BitVec 2) (acc : RegAccess)
  /-- DMA2SAD, offset 0xC8, both CPUs (R153). -/
  | dma2sad (c : Cpu) (lane : BitVec 2) (acc : RegAccess)
  /-- DMA2DAD, offset 0xCC, both CPUs (R153). -/
  | dma2dad (c : Cpu) (lane : BitVec 2) (acc : RegAccess)
  /-- DMA2CNT, offset 0xD0, both CPUs (R184). -/
  | dma2cnt (c : Cpu) (lane : BitVec 2) (acc : RegAccess)
  /-- DMA3SAD, offset 0xD4, both CPUs (R153). -/
  | dma3sad (c : Cpu) (lane : BitVec 2) (acc : RegAccess)
  /-- DMA3DAD, offset 0xD8, both CPUs (R153). -/
  | dma3dad (c : Cpu) (lane : BitVec 2) (acc : RegAccess)
  /-- DMA3CNT, offset 0xDC, both CPUs (R184). -/
  | dma3cnt (c : Cpu) (lane : BitVec 2) (acc : RegAccess)
  /-- DMA_FILL, offset 0xE0, CPU0 (R137). -/
  | dmaFill (lane : BitVec 4) (acc : RegAccess)
  /-- TM0CNT_L, offset 0x100, both CPUs (R211). -/
  | tm0cntL (c : Cpu) (lane : BitVec 1) (acc : RegAccess)
  /-- TM0CNT_H, offset 0x102, both CPUs (R212). -/
  | tm0cntH (c : Cpu) (lane : BitVec 1) (acc : RegAccess)
  /-- TM1CNT_L, offset 0x104, both CPUs (R211). -/
  | tm1cntL (c : Cpu) (lane : BitVec 1) (acc : RegAccess)
  /-- TM1CNT_H, offset 0x106, both CPUs (R212). -/
  | tm1cntH (c : Cpu) (lane : BitVec 1) (acc : RegAccess)
  /-- TM2CNT_L, offset 0x108, both CPUs (R211). -/
  | tm2cntL (c : Cpu) (lane : BitVec 1) (acc : RegAccess)
  /-- TM2CNT_H, offset 0x10A, both CPUs (R212). -/
  | tm2cntH (c : Cpu) (lane : BitVec 1) (acc : RegAccess)
  /-- TM3CNT_L, offset 0x10C, both CPUs (R211). -/
  | tm3cntL (c : Cpu) (lane : BitVec 1) (acc : RegAccess)
  /-- TM3CNT_H, offset 0x10E, both CPUs (R212). -/
  | tm3cntH (c : Cpu) (lane : BitVec 1) (acc : RegAccess)
  /-- KEY_SIO_RTC, offset 0x130, both CPUs (R137). -/
  | keySioRtc (c : Cpu) (lane : BitVec 4) (acc : RegAccess)
  /-- IPCSYNC, offset 0x180, both CPUs (R231). -/
  | ipcsync (c : Cpu) (lane : BitVec 2) (acc : RegAccess)
  /-- IPCFIFOCNT, offset 0x184, both CPUs (R237). -/
  | ipcfifocnt (c : Cpu) (lane : BitVec 2) (acc : RegAccess)
  /-- IPCFIFOSEND, offset 0x188, both CPUs (R240). -/
  | ipcfifosend (c : Cpu) (lane : BitVec 2) (acc : RegAccess)
  /-- AUXSPICNT, offset 0x1A0, both CPUs (R147). -/
  | auxspicnt (c : Cpu) (lane : BitVec 1) (acc : RegAccess)
  /-- AUXSPIDATA, offset 0x1A2, both CPUs (R147). -/
  | auxspidata (c : Cpu) (lane : BitVec 1) (acc : RegAccess)
  /-- ROMCTRL, offset 0x1A4, both CPUs (R148). -/
  | romctrl (c : Cpu) (lane : BitVec 2) (acc : RegAccess)
  /-- CARD_COMMAND, offset 0x1A8, both CPUs (R150). -/
  | cardCommand (c : Cpu) (lane : BitVec 3) (acc : RegAccess)
  /-- CARD_SEED, offset 0x1B0, both CPUs (R137). -/
  | cardSeed (c : Cpu) (lane : BitVec 3) (acc : RegAccess)
  /-- CARD_SEED_2, offset 0x1B8, both CPUs (R137). -/
  | cardSeed2 (c : Cpu) (lane : BitVec 2) (acc : RegAccess)
  /-- SPICNT_SPIDATA, offset 0x1C0, CPU1 (R137). -/
  | spicntSpidata (lane : BitVec 2) (acc : RegAccess)
  /-- EXMEMCNT, offset 0x204, both CPUs (R137). -/
  | exmemcnt (c : Cpu) (lane : BitVec 1) (acc : RegAccess)
  /-- IME, offset 0x208, both CPUs (R260). -/
  | ime (c : Cpu) (lane : BitVec 2) (acc : RegAccess)
  /-- IE, offset 0x210, both CPUs (R261). -/
  | ie (c : Cpu) (lane : BitVec 2) (acc : RegAccess)
  /-- IF, offset 0x214, both CPUs (R263). -/
  | ifReg (c : Cpu) (lane : BitVec 2) (acc : RegAccess)
  /-- VRAMCNT_A, offset 0x240, CPU0 (R151). -/
  | vramcntA (acc : RegAccess)
  /-- VRAMCNT_B, offset 0x241, CPU0 (R151). -/
  | vramcntB (acc : RegAccess)
  /-- VRAMCNT_C, offset 0x242, CPU0 (R151). -/
  | vramcntC (acc : RegAccess)
  /-- VRAMCNT_D, offset 0x243, CPU0 (R151). -/
  | vramcntD (acc : RegAccess)
  /-- VRAMCNT_E, offset 0x244, CPU0 (R151). -/
  | vramcntE (acc : RegAccess)
  /-- VRAMCNT_F, offset 0x245, CPU0 (R151). -/
  | vramcntF (acc : RegAccess)
  /-- VRAMCNT_G, offset 0x246, CPU0 (R151). -/
  | vramcntG (acc : RegAccess)
  /-- WRAMCNT, offset 0x247, CPU0 (R151). -/
  | wramcnt (acc : RegAccess)
  /-- VRAMCNT_H, offset 0x248, CPU0 (R151). -/
  | vramcntH (acc : RegAccess)
  /-- VRAMCNT_I, offset 0x249, CPU0 (R151). -/
  | vramcntI (acc : RegAccess)
  /-- VRAMSTAT, offset 0x240, CPU1 (R137). -/
  | vramstat (acc : RegAccess)
  /-- WRAMSTAT, offset 0x241, CPU1 (R137). -/
  | wramstat (acc : RegAccess)
  /-- DIVCNT, offset 0x280, CPU0 (R156). -/
  | divcnt (lane : BitVec 1) (acc : RegAccess)
  /-- DIV_NUMER, offset 0x290, CPU0 (R155). -/
  | divNumer (lane : BitVec 3) (acc : RegAccess)
  /-- DIV_DENOM, offset 0x298, CPU0 (R155). -/
  | divDenom (lane : BitVec 3) (acc : RegAccess)
  /-- DIV_RESULT, offset 0x2A0, CPU0 (R158). -/
  | divResult (lane : BitVec 3) (acc : RegAccess)
  /-- DIVREM_RESULT, offset 0x2A8, CPU0 (R158). -/
  | divremResult (lane : BitVec 3) (acc : RegAccess)
  /-- SQRTCNT, offset 0x2B0, CPU0 (R161). -/
  | sqrtcnt (lane : BitVec 1) (acc : RegAccess)
  /-- SQRT_RESULT, offset 0x2B4, CPU0 (R161). -/
  | sqrtResult (lane : BitVec 2) (acc : RegAccess)
  /-- SQRT_PARAM, offset 0x2B8, CPU0 (R155). -/
  | sqrtParam (lane : BitVec 3) (acc : RegAccess)
  /-- POSTFLG_HALTCNT_POWCNT, offset 0x300, both CPUs (R137). -/
  | postflgHaltcntPowcnt (c : Cpu) (lane : BitVec 4) (acc : RegAccess)
  /-- RENDER3D, offset 0x320, CPU0 (R137). -/
  | render3d (lane : BitVec 5) (acc : RegAccess)
  /-- RENDER3D_2, offset 0x340, CPU0 (R137). -/
  | render3d2 (lane : BitVec 6) (acc : RegAccess)
  /-- RENDER3D_3, offset 0x380, CPU0 (R137). -/
  | render3d3 (lane : BitVec 7) (acc : RegAccess)
  /-- GEOM_PORTS, offset 0x400, CPU0 (R144). -/
  | geomPorts (lane : BitVec 9) (acc : RegAccess)
  /-- SOUND, offset 0x400, CPU1 (R146). -/
  | sound (lane : BitVec 8) (acc : RegAccess)
  /-- SOUND_2, offset 0x500, CPU1 (R146). -/
  | sound2 (lane : BitVec 5) (acc : RegAccess)
  /-- GXSTAT, offset 0x600, CPU0 (R145). -/
  | gxstat (lane : BitVec 2) (acc : RegAccess)
  /-- DISPCNT_B, offset 0x1000, CPU0 (R143). -/
  | dispcntB (lane : BitVec 2) (acc : RegAccess)
  /-- BG0CNT_B, offset 0x1008, CPU0 (R143). -/
  | bg0cntB (lane : BitVec 1) (acc : RegAccess)
  /-- BG1CNT_B, offset 0x100A, CPU0 (R143). -/
  | bg1cntB (lane : BitVec 1) (acc : RegAccess)
  /-- BG2CNT_B, offset 0x100C, CPU0 (R143). -/
  | bg2cntB (lane : BitVec 1) (acc : RegAccess)
  /-- BG3CNT_B, offset 0x100E, CPU0 (R143). -/
  | bg3cntB (lane : BitVec 1) (acc : RegAccess)
  /-- WIN0H_B, offset 0x1040, CPU0 (R143). -/
  | win0hB (lane : BitVec 1) (acc : RegAccess)
  /-- WIN1H_B, offset 0x1042, CPU0 (R143). -/
  | win1hB (lane : BitVec 1) (acc : RegAccess)
  /-- WIN0V_B, offset 0x1044, CPU0 (R143). -/
  | win0vB (lane : BitVec 1) (acc : RegAccess)
  /-- WIN1V_B, offset 0x1046, CPU0 (R143). -/
  | win1vB (lane : BitVec 1) (acc : RegAccess)
  /-- WININ_B, offset 0x1048, CPU0 (R143). -/
  | wininB (lane : BitVec 1) (acc : RegAccess)
  /-- WINOUT_B, offset 0x104A, CPU0 (R143). -/
  | winoutB (lane : BitVec 1) (acc : RegAccess)
  /-- BLDCNT_B, offset 0x1050, CPU0 (R143). -/
  | bldcntB (lane : BitVec 1) (acc : RegAccess)
  /-- BLDALPHA_B, offset 0x1052, CPU0 (R143). -/
  | bldalphaB (lane : BitVec 1) (acc : RegAccess)
  /-- BLDY_B, offset 0x1054, CPU0 (R143). -/
  | bldyB (lane : BitVec 1) (acc : RegAccess)
  /-- IPCFIFORECV, offset 0x100000, both CPUs (R241). -/
  | ipcfiforecv (c : Cpu) (lane : BitVec 2) (acc : RegAccess)
  /-- CARD_DATA_IN, offset 0x100010, both CPUs (R149). -/
  | cardDataIn (c : Cpu) (lane : BitVec 2) (acc : RegAccess)
  /-- WIFI_WINDOW, offset 0x800000, CPU1 (R104). -/
  | wifiWindow (lane : BitVec 23) (acc : RegAccess)
  /-- `OnRegisterWrite(cpu, offset, width, value)` (41_io_dispatch.md R134). -/
  | onRegisterWrite (c : Cpu) (offset : BitVec 24) (w : Width) (v : Word)
  /-- `OnRegisterRead(cpu, offset, width)` (R135). -/
  | onRegisterRead (c : Cpu) (offset : BitVec 24) (w : Width)
  /-- `ProgramChannel(cpu, ch, control_value)` (42_dma.md R184). -/
  | programChannel (c : Cpu) (ch : Fin 4) (v : Word)
  /-- `Execute(cpu, ch)` (R186). -/
  | execute (c : Cpu) (ch : Fin 4)
  /-- `SetReload(cpu, timer, value)` (43_timers.md R211). -/
  | setReload (c : Cpu) (t : Fin 4) (v : Half)
  /-- `SetControl(cpu, timer, value)` (R212). -/
  | setControl (c : Cpu) (t : Fin 4) (v : Half)
  /-- `WriteSync(cpu, value)` (44_ipc.md R231). -/
  | writeSync (c : Cpu) (v : Word)
  /-- `FifoControl(cpu, value)` (R237). -/
  | fifoControl (c : Cpu) (v : Word)
  /-- `Send(cpu, value)` (R240). -/
  | send (c : Cpu) (v : Word)
  /-- `Recv(cpu)` (R241). -/
  | recv (c : Cpu)
  /-- `SetIME(cpu, value)` (45_irq_latch.md R260). -/
  | setIME (c : Cpu) (v : Word)
  /-- `SetIE(cpu, value)` (R261). -/
  | setIE (c : Cpu) (v : Word)
  /-- `SetIF(cpu, mask)` (R262). -/
  | setIF (c : Cpu) (m : Word)
  /-- `ClearIF(cpu, mask)` (R263). -/
  | clearIF (c : Cpu) (m : Word)
  deriving DecidableEq, Repr, Inhabited

/-- Where a request enters the bus. Port `bus` carries the requests of 30_encoding.md R80. Ports `register` and
`contract` carry the register rows and the contract rows of the opcode table, which the spec reaches from inside a
request and gives no request form of their own. DESIGN CHOICE, log entry 2. -/
inductive Port where
  | bus
  | register
  | contract
  deriving DecidableEq, Repr, Inhabited

/-- A piece of the request stream waiting at a port, its bytes in request order (R80, R93). -/
structure Request where
  port : Port
  bytes : List Byte
  deriving DecidableEq, Repr, Inhabited

end Sys2Proof
end

