-- ==== Sys2Proof/Machine/State.lean ====
section
/-! DEFINITION. The state of the bus, 10_state.md, as plain data, and its value after construction and reset. -/

namespace Sys2Proof.Machine

/-- The reasons a step can stop with a fault: there are none. "The bus raises no exception, fault or error to its
callers" (60_exceptions.md R270), and 93_implementation_defined.md: "No behaviour of the bus is treated as `fault`". -/
inductive Fault where
  deriving DecidableEq, Repr

/-- The reasons a step can end without a meaning. The `refuse` of 00_scope.md R13 is not among them: the spec gives it
an effect, the refused mark of 10_state.md R47, and the machine goes on. -/
inductive Refusal where
  /-- Raised by `exec` for an instruction that has no meaning yet. Safe: the machine stops where the hardware goes on.
  No arm of `exec` raises it now. -/
  | notModelled (mnemonic : String)
  deriving DecidableEq, Repr

/-- One DMA channel, `dma[cpu][ch]` (R31). -/
structure Channel where
  sad : Word
  dad : Word
  cnt : Word
  src : Word
  dst : Word
  count : Word
  active : Bool
  executing : Bool
  deriving DecidableEq, Repr, Inhabited

/-- One timer, `tmr[cpu][t]` (R32). -/
structure Timer where
  reload : Half
  counter : Half
  presc : BitVec 2
  cascade : Bool
  irq : Bool
  enabled : Bool
  acc : Half
  deriving DecidableEq, Repr, Inhabited

/-- What the bus holds for one CPU: its region table (R26), DMA channels (R31), timers (R32), receive queue (R33), last
received word (R34), FIFO control (R35), sync state (R36) and interrupt latch (R37). Its raw register block (R29) is
region IO0 or IO1 of the memory. -/
structure CpuSide where
  table : Vector Entry 256
  dma : Vector Channel 4
  tmr : Vector Timer 4
  fifo : List Word
  lastRecv : Word
  sendEmptyIrqEn : Bool
  recvNotEmptyIrqEn : Bool
  fifoEnable : Bool
  syncOut : BitVec 4
  syncIrqEn : Bool
  ime : Bool
  ie : Word
  iflag : Word
  pending : Bool
  deriving DecidableEq, Repr

/-- A collaborator call with its arguments and the value it returned (R43, R46). -/
inductive Call where
  | setDisplayControl (core : Engine) (v : Word)
  | setBackgroundControl (core : Engine) (layer : Fin 4) (v : Half)
  | setWindowBounds (core : Engine) (which : Fin 4) (v : Half)
  | setWindowMask (core : Engine) (which : Fin 2) (v : Half)
  | setBlendControl (core : Engine) (v : Half)
  | setBlendAlpha (core : Engine) (v : Half)
  | setBlendBrightness (core : Engine) (v : Half)
  | setCaptureControl (v : Word)
  | readCaptureControl (ret : Word)
  | audioWrite (offset : BitVec 24) (w : Width) (v : Word)
  | geomCommand (offset : BitVec 24) (v : Word)
  | geomReadStatus (ret : Word)
  | backupControl (v : Half)
  | transfer (b ret : Byte)
  | cartControl (c : Cpu) (v : Word) (command : Dword)
  | cartReadControl (c : Cpu) (ret : Word)
  | cartReadData (c : Cpu) (ret : Word)
  | cartPassRead8 (c : Cpu) (addr : Word) (ret : Byte)
  | cartPassWrite8 (c : Cpu) (addr : Word) (v : Byte)
  | wifiRead (addr : Word) (w : Width) (ret : Word)
  | wifiWrite (addr : Word) (w : Width) (v : Word)
  | mapConfigure (offset : BitVec 24) (v : Byte) (ret : List Repoint)
  deriving DecidableEq, Repr

/-- What the last request returned to its caller (30_encoding.md R83): nothing, a u32, or the four overflow counts of a
TICK. -/
inductive Reply where
  | none
  | value (v : Word)
  | overflows (o0 o1 o2 o3 : Word)
  deriving DecidableEq, Repr, Inhabited

/-- The `Bus` value (R20), and four fields of the model's own, all as plain data: the configuration the bus was built
with, the requests that wait to be served, the reply to the last one, and the number of collaborator answers drawn so
far. -/
structure State where
  /-- The bytes of every region but SINK, and so of both raw register blocks (R23, R27, R29), by `cellKey`. -/
  mem : List Host.Cell
  /-- The size of the mounted cartridge, `none` while absent (R27). -/
  cart : Option Word
  /-- The base of the tightly-coupled window (R28). -/
  tcwBase : Word
  cpu0 : CpuSide
  cpu1 : CpuSide
  /-- The collaborator log, oldest call first (R46). -/
  log : List Call
  /-- The refused mark (R47). -/
  refused : Bool
  /-- The model's own place for the configuration of 00_scope.md R10: no request changes it; log entry 18. -/
  config : BusConfig
  /-- The model's own: the request stream, next request first. -/
  input : List Request
  /-- The model's own: the result of the last request. -/
  reply : Reply
  /-- The model's own: the index of the next free answer (41_io_dispatch.md R152). -/
  draws : Nat
  deriving DecidableEq, Repr

/-- A channel after reset (R31). -/
def Channel.reset : Channel := ⟨0, 0, 0, 0, 0, 0, false, false⟩

/-- A timer after reset (R32). -/
def Timer.reset : Timer := ⟨0, 0, 0, false, false, false, 0⟩

/-- One CPU's part of the bus after reset (70_reset_and_hazards.md R290). -/
def CpuSide.reset (g : BusConfig) (cart : Option Word) (c : Cpu) : CpuSide where
  table := initTable g cart c
  dma := Vector.replicate 4 Channel.reset
  tmr := Vector.replicate 4 Timer.reset
  fifo := []
  lastRecv := 0
  sendEmptyIrqEn := false
  recvNotEmptyIrqEn := false
  fifoEnable := false
  syncOut := 0
  syncIrqEn := false
  ime := false
  ie := 0
  iflag := 0
  pending := false

/-- The state after construction in a configuration: "the state after RESET with no cartridge, an empty log and
refused = 0" (R290). No request waits; the base of the tightly-coupled window is the OPEN parameter TCW_BASE_RESET
(R292). -/
def State.construct (g : BusConfig) : State where
  mem := resetCells
  cart := none
  tcwBase := Config.tcwBaseReset
  cpu0 := CpuSide.reset g none .c0
  cpu1 := CpuSide.reset g none .c1
  log := []
  refused := false
  config := g
  input := []
  reply := .none
  draws := 0

/-- The state after construction in the default configuration (00_scope.md R10). -/
def State.reset : State :=
  State.construct BusConfig.default

end Sys2Proof.Machine
end

