-- ==== Sys2Proof/Machine/Ops.lean ====
section
/-! DEFINITION. The named operations over memory, the per-CPU parts of the state and the collaborator log, and how a
request ends. The bus takes no exception (60_exceptions.md R270), so there is no exception entry here; the operation
every interrupt source shares is `setIF` in Machine/Latch.lean. -/

namespace Sys2Proof.Machine

/-! ### Memory -/

/-- The bytes of all regions, by `cellKey`. A byte that is not listed reads as 0, the value of every byte after reset
(10_state.md R23). -/
abbrev Memory := List Host.Cell

/-- The canonical form: keys strictly rising, and no byte listed that equals what an unlisted byte reads as. -/
abbrev Memory.wf (m : Memory) : Prop :=
  m.Pairwise (fun a b => a.1 < b.1) ∧ ∀ x ∈ m, x.2 ≠ 0

/-- The byte at a key. -/
def Memory.read : Memory → Nat → Byte
  | [], _ => 0
  | x :: m, k => if x.1 = k then x.2 else Memory.read m k

/-- Lists a byte at its place. -/
def Memory.insert : Memory → Nat → Byte → Memory
  | [], k, b => [(k, b)]
  | x :: m, k, b => if k < x.1 then (k, b) :: x :: m else x :: Memory.insert m k b

/-- Drops the byte at a key. -/
def Memory.erase (m : Memory) (k : Nat) : Memory :=
  m.filter (fun x => decide (x.1 ≠ k))

/-- Writes the byte at a key, keeping the canonical form. -/
def Memory.write (m : Memory) (k : Nat) (b : Byte) : Memory :=
  if b = 0 then m.erase k else (m.erase k).insert k b

/-- The `n` bytes from a key on. -/
def Memory.readBytes (m : Memory) (k : Nat) : Nat → List Byte
  | 0 => []
  | n + 1 => m.read k :: Memory.readBytes m (k + 1) n

/-- Writes bytes from a key on, in ascending order. -/
def Memory.writeBytes (m : Memory) (k : Nat) : List Byte → Memory
  | [] => m
  | b :: bs => Memory.writeBytes (m.write k b) (k + 1) bs

/-- `LE_read(buf, o, n)` (00_scope.md R13). -/
def Memory.leRead (m : Memory) (k n : Nat) : Nat :=
  leValue (m.readBytes k n)

/-- `LE_write(buf, o, n, v)` (R13). -/
def Memory.leWrite (m : Memory) (k n v : Nat) : Memory :=
  m.writeBytes k (leBytes n v)

/-- Clears every byte of every region but CARTROM (70_reset_and_hazards.md R290), or of CARTROM alone. -/
def Memory.keepCart (m : Memory) (cart : Bool) : Memory :=
  m.filter (fun x => decide (x.1 / 2 ^ 32 = Region.cartrom.code) == cart)

/-! ### Access to the state -/

/-- One CPU's part of the bus, `f[cpu]` (R12). -/
def State.side (s : State) : Cpu → CpuSide
  | .c0 => s.cpu0
  | .c1 => s.cpu1

/-- Replaces one CPU's part. -/
def State.setSide (s : State) (c : Cpu) (p : CpuSide) : State :=
  match c with
  | .c0 => { s with cpu0 := p }
  | .c1 => { s with cpu1 := p }

/-- Changes one CPU's part. -/
def State.modSide (s : State) (c : Cpu) (f : CpuSide → CpuSide) : State :=
  s.setSide c (f (s.side c))

/-- `dma[cpu][ch]` (10_state.md R31). -/
def State.chan (s : State) (c : Cpu) (ch : Fin 4) : Channel :=
  (s.side c).dma[ch]

/-- Changes `dma[cpu][ch]`. -/
def State.modChan (s : State) (c : Cpu) (ch : Fin 4) (f : Channel → Channel) : State :=
  s.modSide c fun p => { p with dma := p.dma.set ch.val (f p.dma[ch]) ch.isLt }

/-- `tmr[cpu][t]` (R32). -/
def State.timer (s : State) (c : Cpu) (t : Fin 4) : Timer :=
  (s.side c).tmr[t]

/-- Changes `tmr[cpu][t]`. -/
def State.modTimer (s : State) (c : Cpu) (t : Fin 4) (f : Timer → Timer) : State :=
  s.modSide c fun p => { p with tmr := p.tmr.set t.val (f p.tmr[t]) t.isLt }

/-- `LE_read` of a region's buffer. -/
def State.regionRead (s : State) (r : Region) (o n : Nat) : Nat :=
  Memory.leRead s.mem (cellKey r o) n

/-- `LE_write` of a region's buffer. -/
def State.regionWrite (s : State) (r : Region) (o n v : Nat) : State :=
  { s with mem := Memory.leWrite s.mem (cellKey r o) n v }

/-- `LE_read(rawIO[cpu], o, n)` (R29). -/
def State.raw (s : State) (c : Cpu) (o n : Nat) : Nat :=
  s.regionRead (ioRegion c) o n

/-- `LE_write(rawIO[cpu], o, n, v)` (R29). -/
def State.setRaw (s : State) (c : Cpu) (o n v : Nat) : State :=
  s.regionWrite (ioRegion c) o n v

/-- The table entry of an index (R26). -/
def State.entry (s : State) (c : Cpu) (i : Byte) : Entry :=
  (s.side c).table[i.toFin]

/-- Re-points a table entry (40_decode.md R113). -/
def State.setEntry (s : State) (c : Cpu) (i : Byte) (e : Entry) : State :=
  s.modSide c fun p => { p with table := p.table.set i.toNat e i.isLt }

/-- Sets the reply of the running request (30_encoding.md R83). -/
def State.answer (s : State) (r : Reply) : State :=
  { s with reply := r }

/-! ### The collaborator log and the draws -/

/-- Appends a call to the log (10_state.md R46). -/
def State.logCall (s : State) (k : Call) : State :=
  { s with log := s.log ++ [k] }

/-- Appends a call that returned the next free answer, which is then used up (41_io_dispatch.md R152). -/
def State.logDraw (s : State) (k : Call) : State :=
  { s with log := s.log ++ [k], draws := s.draws + 1 }

/-- `call Display.ReadCaptureControl()` (R142). -/
def callReadCapture (s : State) : Word × State :=
  let x := Config.answer32 s.draws
  (x, s.logDraw (.readCaptureControl x))

/-- `call Geometry.GeomReadStatus()` (R145). -/
def callGeomStatus (s : State) : Word × State :=
  let x := Config.answer32 s.draws
  (x, s.logDraw (.geomReadStatus x))

/-- `call Backup.Transfer(byte)` (R147). -/
def callTransfer (b : Byte) (s : State) : Byte × State :=
  let x := Config.answer8 s.draws
  (x, s.logDraw (.transfer b x))

/-- `call Cart.CartReadControl(cpu)` (R148). -/
def callCartControl (c : Cpu) (s : State) : Word × State :=
  let x := Config.answer32 s.draws
  (x, s.logDraw (.cartReadControl c x))

/-- `call Cart.CartReadData(cpu)` (R149). -/
def callCartData (c : Cpu) (s : State) : Word × State :=
  let x := Config.answer32 s.draws
  (x, s.logDraw (.cartReadData c x))

/-- `call Cart.CartPassRead8(cpu, addr)` (40_decode.md R103). -/
def callCartPassRead (c : Cpu) (a : Word) (s : State) : Byte × State :=
  let x := Config.answer8 s.draws
  (x, s.logDraw (.cartPassRead8 c a x))

/-- `call Wifi.WifiRead(addr, width)` (R104). -/
def callWifiRead (a : Word) (w : Width) (s : State) : Word × State :=
  let x := Config.answer32 s.draws
  (x, s.logDraw (.wifiRead a w x))

/-- `call MapCtl.MapConfigure(offset, value)` (41_io_dispatch.md R151). -/
def callMapConfigure (o : Nat) (v : Byte) (s : State) : List Repoint × State :=
  let l := Config.answerMap s.draws
  (l, s.logDraw (.mapConfigure (BitVec.ofNat 24 o) v l))

/-! ### How a request ends -/

/-- The reasons of `refuse <Reason>` (00_scope.md R13, 60_exceptions.md R271). -/
inductive Why where
  /-- a malformed request (30_encoding.md R86) -/
  | badRequest
  /-- a write touching DMAnCNT of a channel whose burst is running (42_dma.md R187) -/
  | dmaSelfProgram
  /-- an answer of MapCtl that is not a valid REMAP (41_io_dispatch.md R151) -/
  | badRemap
  /-- a fifth nested burst, which R187 makes impossible -/
  | tooDeep
  deriving DecidableEq, Repr

/-- A refusal: its reason, and how many answers were drawn before it. -/
structure Stop where
  why : Why
  draws : Nat
  deriving DecidableEq, Repr

/-- The result of an operation that can be refused. -/
abbrev Res := Except Stop State

/-- `refuse <Reason>` (R13). -/
def refuse (why : Why) (s : State) : Res :=
  .error ⟨why, s.draws⟩

/-- Runs an operation after another; a refusal ends both. -/
def andThen (r : Res) (f : State → Res) : Res :=
  match r with
  | .ok s => f s
  | .error e => .error e

/-- Runs an operation on each element of a list, in order. -/
def forEach {α : Type} (f : α → State → Res) : List α → State → Res
  | [], s => .ok s
  | x :: xs, s => andThen (f x s) (forEach f xs)

/-- The state after a request that started in `s`: the operation's, or, if it was refused, `s` with the refused mark
and nothing else changed (R13, R47, 30_encoding.md R86). The answers already drawn stay used up, so that no later draw
is tied to them; log entry 6. -/
def settle (s : State) : Res → State
  | .ok s' => s'
  | .error e => { s with refused := true, draws := e.draws }

/-- The outcome of a request. -/
abbrev Out := Host.Outcome State Fault Refusal

/-- Ends a request that can be refused. -/
def finish (s : State) (r : Res) : Out :=
  .next (settle s r)

/-- Ends a request that returns a u32. -/
def finishValue (r : Word × State) : Out :=
  .next (r.2.answer (.value r.1))

end Sys2Proof.Machine
end

