-- ==== Sys2Proof/Machine/Flags.lean ====
section
/-! DEFINITION. Every status flag of the bus (10_state.md R39) and the encoding of every mirrored register from the
fields it shows (10_state.md R30, 41_io_dispatch.md R138). -/

namespace Sys2Proof.Machine

/-- The pending equation (10_state.md R38, 45_irq_latch.md R264). -/
def pendingOf (ime : Bool) (ie iflag : Word) : Bool :=
  ime && decide (ie &&& iflag ≠ 0)

/-- `UpdatePending(cpu)` (R264). -/
def CpuSide.updatePending (p : CpuSide) : CpuSide :=
  { p with pending := pendingOf p.ime p.ie p.iflag }

/-- The empty flag of a queue (10_state.md R33). -/
def fifoEmpty (q : List Word) : Bool :=
  q.isEmpty

/-- The full flag of a queue (R33). -/
def fifoFull (q : List Word) : Bool :=
  decide (q.length = fifoDepth)

/-- The division-by-zero flag, computed from all 64 bits of DIV_DENOM (41_io_dispatch.md R160). -/
def divZero (s : State) : Bool :=
  decide (s.raw .c0 0x298 8 = 0)

/-- The value of a bit as a number. -/
def bitNat (b : Bool) : Nat :=
  if b then 1 else 0

/-- The raw IPCSYNC of a CPU (44_ipc.md R230). -/
def encodeSync (s : State) (c : Cpu) : Nat :=
  (s.side c.other).syncOut.toNat + 2 ^ 8 * (s.side c).syncOut.toNat + 2 ^ 14 * bitNat (s.side c).syncIrqEn

/-- The raw IPCFIFOCNT of a CPU: the send queue is the other CPU's receive queue (R235). -/
def encodeFifoCnt (s : State) (c : Cpu) : Nat :=
  let mine := s.side c
  let sendQueue := (s.side c.other).fifo
  bitNat (fifoEmpty sendQueue) + 2 * bitNat (fifoFull sendQueue) + 2 ^ 2 * bitNat mine.sendEmptyIrqEn
    + 2 ^ 8 * bitNat (fifoEmpty mine.fifo) + 2 ^ 9 * bitNat (fifoFull mine.fifo)
    + 2 ^ 10 * bitNat mine.recvNotEmptyIrqEn + 2 ^ 15 * bitNat mine.fifoEnable

/-- The raw TMnCNT_H of a timer (43_timers.md R210). -/
def encodeTimer (m : Timer) : Nat :=
  m.presc.toNat + 2 ^ 2 * bitNat m.cascade + 2 ^ 6 * bitNat m.irq + 2 ^ 7 * bitNat m.enabled

/-- The raw IME of a CPU (45_irq_latch.md R260). -/
def encodeIme (s : State) (c : Cpu) : Nat :=
  bitNat (s.side c).ime

/-- The four FIFO interrupt conditions, SE and RN of each CPU (44_ipc.md R239). -/
structure FifoConditions where
  se0 : Bool
  rn0 : Bool
  se1 : Bool
  rn1 : Bool
  deriving DecidableEq, Repr

/-- `SE[cpu]` (R239). -/
def sendEmptyCondition (s : State) (c : Cpu) : Bool :=
  (s.side c).sendEmptyIrqEn && fifoEmpty (s.side c.other).fifo

/-- `RN[cpu]` (R239). -/
def recvNotEmptyCondition (s : State) (c : Cpu) : Bool :=
  (s.side c).recvNotEmptyIrqEn && !fifoEmpty (s.side c).fifo

/-- `FifoIrqConditions()` (R239). -/
def fifoConditions (s : State) : FifoConditions :=
  ⟨sendEmptyCondition s .c0, recvNotEmptyCondition s .c0, sendEmptyCondition s .c1, recvNotEmptyCondition s .c1⟩

end Sys2Proof.Machine
end

