-- ==== Sys2Proof/Machine/Latch.lean ====
section
/-! DEFINITION. The interrupt latch, 45_irq_latch.md. `setIF` is the operation every interrupt source shares. -/

namespace Sys2Proof.Machine

/-- Window offset of IME (R260). -/
def imeOffset : Nat := 0x208

/-- Window offset of IE (R261). -/
def ieOffset : Nat := 0x210

/-- Window offset of IF (R263). -/
def ifOffset : Nat := 0x214

/-- Rewrites the raw IF bytes of a CPU with its IF (R262, R263). -/
def mirrorIF (c : Cpu) (s : State) : State :=
  s.setRaw c ifOffset 4 (s.side c).iflag.toNat

/-- `SetIF(cpu, m)`: ORs into IF, recomputes pending, rewrites the raw bytes (R262). -/
def setIF (c : Cpu) (m : Word) (s : State) : State :=
  mirrorIF c (s.modSide c fun p => CpuSide.updatePending { p with iflag := p.iflag ||| m })

/-- `raise IRQ(cpu, b)` (00_scope.md R13). -/
def raiseIrq (c : Cpu) (b : Nat) (s : State) : State :=
  setIF c (BitVec.ofNat 32 (2 ^ b)) s

/-- `raise IRQ(cpu, b)` where a condition holds. -/
def raiseIf (cond : Bool) (c : Cpu) (b : Nat) (s : State) : State :=
  if cond then raiseIrq c b s else s

/-- `SetIME(cpu, v)` (R260). -/
def setIME (c : Cpu) (v : Word) (s : State) : State :=
  let s := s.modSide c fun p => CpuSide.updatePending { p with ime := bitAt v 0 }
  s.setRaw c imeOffset 4 (encodeIme s c)

/-- `SetIE(cpu, v)` (R261). -/
def setIE (c : Cpu) (v : Word) (s : State) : State :=
  let s := s.modSide c fun p => CpuSide.updatePending { p with ie := v }
  s.setRaw c ieOffset 4 (s.side c).ie.toNat

/-- `ClearIF(cpu, m)`: clears the bits set in the mask (R263). -/
def clearIF (c : Cpu) (m : Word) (s : State) : State :=
  mirrorIF c (s.modSide c fun p => CpuSide.updatePending { p with iflag := p.iflag &&& ~~~ m })

end Sys2Proof.Machine
end

