-- ==== Sys2Proof/Machine/Operands.lean ====
section
/-! DEFINITION. The operand forms of the bus: what an address resolves to (40_decode.md R100 to R108), which logical
registers an access touches (41_io_dispatch.md R130 to R132), the merged value and the written lanes a handler receives
(R134), and the fields of a control word. -/

namespace Sys2Proof.Machine

/-! ### Addresses -/

/-- What an aligned address resolves to. -/
inductive Target where
  /-- the tightly-coupled window: an offset in DTCM (R102) -/
  | tcw (o : Nat)
  /-- the cartridge pass-through window (R103) -/
  | cartPass
  /-- the wireless window (R104) -/
  | wifi
  /-- the open-bus sink (R107) -/
  | sink
  /-- the CPU's register window, at a window offset (R108) -/
  | io (o : Nat)
  /-- a storage region, at an offset (R106) -/
  | storage (r : Region) (o : Nat)
  deriving DecidableEq, Repr

/-- `TcwHit(cpu, a)` (R102). -/
def tcwHit (c : Cpu) (a : Word) (s : State) : Bool :=
  decide (c = .c0) && decide (a &&& ~~~ tcwMask = s.tcwBase &&& ~~~ tcwMask)

/-- The table index of an address, bits 27:20 (R91, R105). -/
def tableIndex (a : Word) : Byte :=
  a.extractLsb' 20 8

/-- The in-region offset `a & entry.mask & regionMask` (R91, R105). -/
def regionOffset (a mask : Word) (size : Nat) : Nat :=
  (a &&& mask &&& BitVec.ofNat 32 (size - 1)).toNat

/-- The bits of an address that make the register-window offset, under an entry with a mask. With a mask that keeps bits
23:0 they are those bits. With another one the spec's rules differ: R100, R101 and R105 apply the mask, R91 and
41_io_dispatch.md R130 do not, and which it is stays open; DESIGN CHOICE, safe; log entry 22. -/
def windowMask (mask : Word) : Word :=
  if mask &&& 0x00FFFFFF = 0x00FFFFFF then 0x00FFFFFF
  else if Config.windowOffsetMasked then mask &&& 0x00FFFFFF
  else 0x00FFFFFF

/-- The register-window offset of an address (R91, R100, R130). -/
def windowOffset (a mask : Word) : Nat :=
  (a &&& windowMask mask).toNat

/-- The decoding order of R100 and R101 on an aligned address. An entry that names an absent cartridge, which no
request makes, reads as the sink; log entry 9. -/
def resolve (c : Cpu) (a : Word) (s : State) : Target :=
  if tcwHit c a s then .tcw (a &&& tcwMask).toNat
  else if inCartPass s.config a then .cartPass
  else if c = .c1 ∧ inWifi a then .wifi
  else
    let e := s.entry c (tableIndex a)
    if e.region = ioRegion c then .io (windowOffset a e.mask)
    else
      match regionSize s.config s.cart e.region with
      | none => .sink
      | some size => .storage e.region (regionOffset a e.mask size)

/-- `OpenBus(a, n)` (R107). -/
def openBus (w : Width) (a : Word) : Word :=
  truncTo w (Config.openBusWord >>> (8 * (a.toNat % 4)))

/-! ### Logical registers -/

/-- The logical registers with a handler or a computed read (R131): every register that is not pure storage. -/
inductive LReg where
  | dispCnt (core : Engine)
  | bgCnt (core : Engine) (n : Fin 4)
  | winBounds (core : Engine) (k : Fin 4)
  | winMask (core : Engine) (k : Fin 2)
  | bldCnt (core : Engine)
  | bldAlpha (core : Engine)
  | bldY (core : Engine)
  | dispCapCnt
  | dmaSad (ch : Fin 4)
  | dmaDad (ch : Fin 4)
  | dmaCnt (ch : Fin 4)
  | tmCntL (t : Fin 4)
  | tmCntH (t : Fin 4)
  | ipcSync
  | ipcFifoCnt
  | ipcFifoSend
  | ipcFifoRecv
  | auxSpiCnt
  | auxSpiData
  | romCtrl
  | cardData
  | ime
  | ie
  | iflag
  | mapCnt (k : Fin 10)
  | divCnt
  | divResult
  | divRemResult
  | sqrtCnt
  | sqrtResult
  | geomPort (k : Fin 128)
  | gxStat
  | sound
  deriving DecidableEq, Repr

/-- The window offset of engine A or B (R143). -/
def engineBase : Engine → Nat
  | .a => 0
  | .b => 0x1000

/-- `o_L` (R131). -/
def LReg.offset : LReg → Nat
  | .dispCnt g => engineBase g
  | .bgCnt g n => engineBase g + 0x008 + 2 * n.val
  | .winBounds g k => engineBase g + 0x040 + 2 * k.val
  | .winMask g k => engineBase g + 0x048 + 2 * k.val
  | .bldCnt g => engineBase g + 0x050
  | .bldAlpha g => engineBase g + 0x052
  | .bldY g => engineBase g + 0x054
  | .dispCapCnt => 0x064
  | .dmaSad ch => 0x0B0 + 12 * ch.val
  | .dmaDad ch => 0x0B4 + 12 * ch.val
  | .dmaCnt ch => 0x0B8 + 12 * ch.val
  | .tmCntL t => 0x100 + 4 * t.val
  | .tmCntH t => 0x102 + 4 * t.val
  | .ipcSync => 0x180
  | .ipcFifoCnt => 0x184
  | .ipcFifoSend => 0x188
  | .ipcFifoRecv => 0x100000
  | .auxSpiCnt => 0x1A0
  | .auxSpiData => 0x1A2
  | .romCtrl => 0x1A4
  | .cardData => 0x100010
  | .ime => 0x208
  | .ie => 0x210
  | .iflag => 0x214
  | .mapCnt k => 0x240 + k.val
  | .divCnt => 0x280
  | .divResult => 0x2A0
  | .divRemResult => 0x2A8
  | .sqrtCnt => 0x2B0
  | .sqrtResult => 0x2B4
  | .geomPort k => 0x400 + 4 * k.val
  | .gxStat => 0x600
  | .sound => 0x400

/-- `s_L` (R131); the sound registers are one range register (R146). -/
def LReg.size : LReg → Nat
  | .dispCnt _ => 4
  | .bgCnt _ _ => 2
  | .winBounds _ _ => 2
  | .winMask _ _ => 2
  | .bldCnt _ => 2
  | .bldAlpha _ => 2
  | .bldY _ => 2
  | .dispCapCnt => 4
  | .dmaSad _ => 4
  | .dmaDad _ => 4
  | .dmaCnt _ => 4
  | .tmCntL _ => 2
  | .tmCntH _ => 2
  | .ipcSync => 4
  | .ipcFifoCnt => 4
  | .ipcFifoSend => 4
  | .ipcFifoRecv => 4
  | .auxSpiCnt => 2
  | .auxSpiData => 2
  | .romCtrl => 4
  | .cardData => 4
  | .ime => 4
  | .ie => 4
  | .iflag => 4
  | .mapCnt _ => 1
  | .divCnt => 2
  | .divResult => 8
  | .divRemResult => 8
  | .sqrtCnt => 2
  | .sqrtResult => 4
  | .geomPort _ => 4
  | .gxStat => 4
  | .sound => 0x120

/-- The forwarded display controls that both engines have, by their offset in an engine's block (R140, R141, R143). -/
def displayAt (g : Engine) (k : Nat) : Option LReg :=
  if k < 0x004 then some (.dispCnt g)
  else if k < 0x008 then none
  else if k < 0x010 then some (.bgCnt g (Fin.ofNat 4 ((k - 0x008) / 2)))
  else if k < 0x040 then none
  else if k < 0x048 then some (.winBounds g (Fin.ofNat 4 ((k - 0x040) / 2)))
  else if k < 0x04C then some (.winMask g (Fin.ofNat 2 ((k - 0x048) / 2)))
  else if k < 0x050 then none
  else if k < 0x052 then some (.bldCnt g)
  else if k < 0x054 then some (.bldAlpha g)
  else if k < 0x056 then some (.bldY g)
  else none

/-- The DMA and timer registers, on both CPUs (R131). -/
def dmaTimerAt (o : Nat) : Option LReg :=
  if o < 0x0B0 then none
  else if o < 0x0E0 then
    let ch := Fin.ofNat 4 ((o - 0x0B0) / 12)
    let k := (o - 0x0B0) % 12
    if k < 4 then some (.dmaSad ch) else if k < 8 then some (.dmaDad ch) else some (.dmaCnt ch)
  else if o < 0x100 then none
  else if o < 0x110 then
    let t := Fin.ofNat 4 ((o - 0x100) / 4)
    if o % 4 < 2 then some (.tmCntL t) else some (.tmCntH t)
  else none

/-- The inter-processor, cartridge and interrupt registers, on both CPUs (R131). -/
def systemAt (o : Nat) : Option LReg :=
  if o < 0x180 then none
  else if o < 0x184 then some .ipcSync
  else if o < 0x188 then some .ipcFifoCnt
  else if o < 0x18C then some .ipcFifoSend
  else if o < 0x1A0 then none
  else if o < 0x1A2 then some .auxSpiCnt
  else if o < 0x1A4 then some .auxSpiData
  else if o < 0x1A8 then some .romCtrl
  else if o < 0x208 then none
  else if o < 0x20C then some .ime
  else if o < 0x210 then none
  else if o < 0x214 then some .ie
  else if o < 0x218 then some .iflag
  else none

/-- The map control, divider, square root and geometry registers of CPU0 (R131). -/
def mainAt (o : Nat) : Option LReg :=
  if o < 0x240 then none
  else if o < 0x24A then some (.mapCnt (Fin.ofNat 10 (o - 0x240)))
  else if o < 0x280 then none
  else if o < 0x282 then some .divCnt
  else if o < 0x2A0 then none
  else if o < 0x2A8 then some .divResult
  else if o < 0x2B0 then some .divRemResult
  else if o < 0x2B2 then some .sqrtCnt
  else if o < 0x2B4 then none
  else if o < 0x2B8 then some .sqrtResult
  else if o < 0x400 then none
  else if o < 0x600 then some (.geomPort (Fin.ofNat 128 ((o - 0x400) / 4)))
  else if o < 0x604 then some .gxStat
  else none

/-- The two registers above 0x100000, on both CPUs (R131). -/
def highAt (o : Nat) : Option LReg :=
  if o < 0x100000 then none
  else if o < 0x100004 then some .ipcFifoRecv
  else if o < 0x100010 then none
  else if o < 0x100014 then some .cardData
  else none

/-- The register map (R131): the logical register of a CPU that holds a window offset, `none` where the byte is pure
storage (R136). -/
def regAt (c : Cpu) (o : Nat) : Option LReg :=
  if 0x100000 ≤ o then highAt o
  else if 0x0B0 ≤ o ∧ o < 0x110 then dmaTimerAt o
  else if 0x180 ≤ o ∧ o < 0x218 then systemAt o
  else
    match c with
    | .c0 =>
      if o < 0x060 then displayAt .a o
      else if o < 0x064 then none
      else if o < 0x068 then some .dispCapCnt
      else if o < 0x1000 then mainAt o
      else if o < 0x1060 then displayAt .b (o - 0x1000)
      else none
    | .c1 =>
      if 0x400 ≤ o ∧ o < 0x520 then some .sound else none

/-- Drops a repetition of the element before. -/
def dropRepeats : List LReg → List LReg
  | [] => []
  | [x] => [x]
  | x :: y :: l => if x = y then dropRepeats (y :: l) else x :: dropRepeats (y :: l)

/-- The logical register of each of the `n` bytes from an offset on, in ascending order. -/
def regsOf (c : Cpu) (o : Nat) : Nat → List LReg
  | 0 => []
  | n + 1 =>
    match regAt c o with
    | none => regsOf c (o + 1) n
    | some r => r :: regsOf c (o + 1) n

/-- The logical registers an access touches, each once, in ascending order of `o_L` (R130, R132). -/
def touched (c : Cpu) (w : Width) (o : Nat) : List LReg :=
  dropRepeats (regsOf c o w.bytes)

/-- The merged value of a logical register, `LE_read(rawIO[cpu], o_L, s_L)` after the verbatim store (R134, R92). -/
def mergedValue (s : State) (c : Cpu) (r : LReg) : Nat :=
  s.raw c r.offset r.size

/-- Whether byte `i` of a register is in the lanes an access of `n` bytes at `o` touches (R134). -/
def laneTouched (r : LReg) (o n i : Nat) : Bool :=
  decide (o ≤ r.offset + i) && decide (r.offset + i < o + n)

/-- The part of a mask that one lane contributes: the byte the write put there, or nothing (45_irq_latch.md R263). -/
def laneByte (r : LReg) (o n : Nat) (v : Word) (i : Nat) : Word :=
  if laneTouched r o n i then BitVec.ofNat 32 ((byteAt v.toNat (r.offset + i - o)).toNat * 2 ^ (8 * i)) else 0

/-- `m = Σ_{i in lanes} v_i << 8·i` of a 4-byte register (R263). -/
def laneMask (r : LReg) (o n : Nat) (v : Word) : Word :=
  laneByte r o n v 0 ||| laneByte r o n v 1 ||| laneByte r o n v 2 ||| laneByte r o n v 3

/-- Replaces the bytes of an access at `o` that lie in a computed register by the register's bytes (R135). -/
def overlay (r : LReg) (v : Nat) : Nat → List Byte → List Byte
  | _, [] => []
  | o, b :: bs =>
    (if r.offset ≤ o ∧ o < r.offset + r.size then byteAt v (o - r.offset) else b) :: overlay r v (o + 1) bs

/-! ### DMA control words -/

/-- The element width, bit 26 (42_dma.md R182). -/
def elementWidth (v : Word) : Width :=
  if bitAt v 26 then .w32 else .w16

/-- The source address control, bits 24:23 (R182). -/
def srcControl (v : Word) : BitVec 2 :=
  v.extractLsb' 23 2

/-- The destination address control, bits 22:21 (R182). -/
def dstControl (v : Word) : BitVec 2 :=
  v.extractLsb' 21 2

/-- The address step (R185). -/
def stepAddr (a : Word) (k : BitVec 2) (w : Width) : Word :=
  match k with
  | 0 => a + BitVec.ofNat 32 w.bytes
  | 1 => a - BitVec.ofNat 32 w.bytes
  | 2 => a
  | 3 => a + BitVec.ofNat 32 w.bytes

/-- `EffCount(cpu, ch, v)` (R184): the main-memory-display override, or the count field. -/
def effCount (c : Cpu) (ch : Fin 4) (v : Word) : Word :=
  if c = .c0 ∧ startMode c ch v = .on .mmDisplay ∧ bitAt v 26 then mmdCount else v &&& countMask c ch

end Sys2Proof.Machine
end

