-- ==== Sys2Proof/Machine/Channels.lean ====
section
/-! DEFINITION. The DMA channels' registers and programming, 42_dma.md R180 to R185 and R188. The burst itself is in
Machine/Burst.lean; the operations here that may start one take it as their first argument. -/

namespace Sys2Proof.Machine

/-- `Execute(cpu, ch)`, as the operations that reach it see it. -/
abbrev Exe := Cpu → Fin 4 → State → Res

/-- Rewrites the raw DMAnCNT of a channel with its control word (R184, R186). -/
def mirrorCnt (c : Cpu) (ch : Fin 4) (s : State) : State :=
  s.setRaw c (LReg.dmaCnt ch).offset 4 (s.chan c ch).cnt.toNat

/-- A write touching DMAnSAD (R181). -/
def writeSad (c : Cpu) (ch : Fin 4) (v : Word) (s : State) : State :=
  let v := v &&& sadMask c ch
  (s.modChan c ch fun d => { d with sad := v }).setRaw c (LReg.dmaSad ch).offset 4 v.toNat

/-- A write touching DMAnDAD (R181). -/
def writeDad (c : Cpu) (ch : Fin 4) (v : Word) (s : State) : State :=
  let v := v &&& dadMask c ch
  (s.modChan c ch fun d => { d with dad := v }).setRaw c (LReg.dmaDad ch).offset 4 v.toNat

/-- The channel after a control write of the masked value (R184): the programmed word, and on the enable edge the
working registers. -/
def Channel.program (d : Channel) (c : Cpu) (ch : Fin 4) (v : Word) : Channel :=
  let d' := { d with cnt := v, active := bitAt v 31 }
  if bitAt v 31 && !d.active then { d' with src := d.sad, dst := d.dad, count := effCount c ch v } else d'

/-- `ProgramChannel(cpu, ch, v)` (R184, R187). -/
def programChannel (exe : Exe) (c : Cpu) (ch : Fin 4) (v : Word) (s : State) : Res :=
  let d := s.chan c ch
  if d.executing then refuse .dmaSelfProgram s
  else
    let v := v &&& cntMask c ch
    let s := s.modChan c ch fun d => d.program c ch v
    let r :=
      if bitAt v 31 && !d.active && decide (startMode c ch v = .immediate) then exe c ch s else .ok s
    andThen r fun s => .ok (mirrorCnt c ch s)

/-- The channel after `Rearm(cpu, ch)` (R188). -/
def Channel.rearm (d : Channel) (c : Cpu) (ch : Fin 4) : Channel :=
  { d with
    count := effCount c ch d.cnt
    dst := if dstControl d.cnt = 3 then d.dad else d.dst
    src := if srcControl d.cnt = 3 then d.sad else d.src }

/-- The channel after it became inactive: the active flag and bit 31 of the control word (R186). -/
def Channel.stop (d : Channel) : Channel :=
  { d with active := false, cnt := d.cnt &&& 0x7FFFFFFF }

/-- Makes a channel inactive and rewrites its raw control word (R186). -/
def stopChannel (c : Cpu) (ch : Fin 4) (s : State) : State :=
  mirrorCnt c ch (s.modChan c ch Channel.stop)

/-- The channel after one element (R186): both working addresses stepped. -/
def Channel.advance (d : Channel) (w : Width) : Channel :=
  { d with src := stepAddr d.src (srcControl d.cnt) w, dst := stepAddr d.dst (dstControl d.cnt) w }

end Sys2Proof.Machine
end

