-- ==== Sys2Proof/Machine/Divider.lean ====
section
/-! DEFINITION. The divider and square-root unit of CPU0, computed at the read from the raw inputs, 41_io_dispatch.md
R155 to R162. -/

namespace Sys2Proof.Machine

/-- DIVCNT[1:0] (R155). -/
def divMode (s : State) : BitVec 2 :=
  BitVec.ofNat 2 (s.raw .c0 0x280 1)

/-- DIVCNT as read: the mode bits and the division-by-zero bit (R156). -/
def divCntValue (s : State) : Nat :=
  (divMode s).toNat + 2 ^ 14 * bitNat (divZero s)

/-- The numerator in a mode (R157). -/
def divNumerator (s : State) : Dword :=
  let n := s.raw .c0 0x290 8
  if divMode s = 0 then sext64 (BitVec.ofNat 32 n) else BitVec.ofNat 64 n

/-- The denominator in a mode (R157). -/
def divDenominator (s : State) : Dword :=
  let d := s.raw .c0 0x298 8
  if divMode s = 2 then BitVec.ofNat 64 d else sext64 (BitVec.ofNat 32 d)

/-- `DIV_FN(m, N, D)` on the current raw inputs (R158). R155 calls mode 3 "as 1" and R158 hands DIV_FN the mode itself:
the model makes mode 3 as mode 1 in the operands (R157), and hands DIV_FN the 3, so a result in mode 3 is not tied to the
one in mode 1. DESIGN CHOICE, safe; log entry 21. -/
def divide (s : State) : Dword × Dword :=
  Config.divFn (divMode s) (divNumerator s) (divDenominator s)

/-- SQRTCNT[0] (R155). -/
def sqrtMode (s : State) : BitVec 1 :=
  BitVec.ofNat 1 (s.raw .c0 0x2B0 1)

/-- The square root's input in a mode (R161). -/
def sqrtInput (s : State) : Dword :=
  let x := s.raw .c0 0x2B8 8
  if sqrtMode s = 0 then zext64 (BitVec.ofNat 32 x) else BitVec.ofNat 64 x

/-- `SQRT_FN(s, X)` on the current raw inputs (R161). -/
def squareRoot (s : State) : Word :=
  Config.sqrtFn (sqrtMode s) (sqrtInput s)

end Sys2Proof.Machine
end

