-- ==== Sys2Proof/Machine/Ipc.lean ====
section
/-! DEFINITION. The inter-processor channel, 44_ipc.md: the sync register and the two FIFOs. -/

namespace Sys2Proof.Machine

/-- Window offset of IPCSYNC (R230). -/
def syncOffset : Nat := 0x180

/-- Window offset of IPCFIFOCNT (R235). -/
def fifoCntOffset : Nat := 0x184

/-- Rewrites the raw IPCSYNC of a CPU (R230). -/
def mirrorSync (c : Cpu) (s : State) : State :=
  s.setRaw c syncOffset 4 (encodeSync s c)

/-- Rewrites the raw IPCFIFOCNT of a CPU (R235). -/
def mirrorFifoCnt (c : Cpu) (s : State) : State :=
  s.setRaw c fifoCntOffset 4 (encodeFifoCnt s c)

/-- `WriteSync(cpu, v)` (R231). -/
def writeSync (c : Cpu) (v : Word) (s : State) : State :=
  let s := s.modSide c fun p => { p with syncOut := v.extractLsb' 8 4, syncIrqEn := bitAt v 14 }
  let s := raiseIf (bitAt v 13 && (s.side c.other).syncIrqEn) c.other irqSync s
  mirrorSync c.other (mirrorSync c s)

/-- `FifoIrqEdges(before)`: raises IF bit 17 where SE rose and IF bit 18 where RN rose (R239). -/
def fifoIrqEdges (before : FifoConditions) (s : State) : State :=
  let now := fifoConditions s
  let s := raiseIf (!before.se0 && now.se0) .c0 irqSendEmpty s
  let s := raiseIf (!before.rn0 && now.rn0) .c0 irqRecvNotEmpty s
  let s := raiseIf (!before.se1 && now.se1) .c1 irqSendEmpty s
  raiseIf (!before.rn1 && now.rn1) .c1 irqRecvNotEmpty s

/-- The end of every queue operation: the interrupt edges, then the raw IPCFIFOCNT of both CPUs. -/
def fifoSettle (before : FifoConditions) (s : State) : State :=
  mirrorFifoCnt .c1 (mirrorFifoCnt .c0 (fifoIrqEdges before s))

/-- Replaces the receive queue of a CPU. -/
def setFifo (c : Cpu) (q : List Word) (s : State) : State :=
  s.modSide c fun p => { p with fifo := q }

/-- `FifoControl(cpu, v)` (R237). -/
def fifoControl (c : Cpu) (v : Word) (s : State) : State :=
  let before := fifoConditions s
  let wasEn := (s.side c).fifoEnable
  let s := s.modSide c fun p =>
    { p with sendEmptyIrqEn := bitAt v 2, recvNotEmptyIrqEn := bitAt v 10, fifoEnable := bitAt v 15 }
  let s := if bitAt v 3 then setFifo c.other [] s else s
  let s := if bitAt v 15 && !wasEn then setFifo .c1 [] (setFifo .c0 [] s) else s
  fifoSettle before s

/-- `Send(cpu, v)` (R240). -/
def send (c : Cpu) (v : Word) (s : State) : State :=
  let before := fifoConditions s
  let q := (s.side c.other).fifo
  let s := if fifoFull q then s else setFifo c.other (q ++ [v]) s
  fifoSettle before s

/-- `Recv(cpu)` (R241). -/
def recv (c : Cpu) (s : State) : Word × State :=
  let before := fifoConditions s
  match (s.side c).fifo with
  | [] => ((s.side c).lastRecv, s)
  | v :: q => (v, fifoSettle before (s.modSide c fun p => { p with fifo := q, lastRecv := v }))

end Sys2Proof.Machine
end

