-- ==== Sys2Proof/Machine/Table.lean ====
section
/-! DEFINITION. The operations that change the decode or fill regions, 40_decode.md R112 to R116, and reset,
70_reset_and_hazards.md R290. -/

namespace Sys2Proof.Machine

/-- REMAP (R113); refused for `why` where the region code is reserved or disallowed (30_encoding.md R85). -/
def remap (why : Why) (c : Cpu) (index region : Byte) (mask : Word) (s : State) : Res :=
  match Region.ofCode region with
  | none => refuse why s
  | some r =>
    if remapAllowed s.cart.isSome c r then .ok (s.setEntry c index ⟨r, mask⟩) else refuse why s

/-- Applies one re-point of MapCtl (41_io_dispatch.md R151). -/
def applyRepoint (p : Repoint) (s : State) : Res :=
  remap .badRemap p.cpu p.index p.region p.mask s

/-- SETTCW (R112). -/
def setTcwBase (v : Word) (s : State) : State :=
  { s with tcwBase := v &&& ~~~ tcwMask }

/-- Points entries 0x80 to 0x9F of a table at an entry (R114). -/
def pointCartSlots (e : Entry) (p : CpuSide) : CpuSide :=
  { p with table := setEntries p.table 0x80 e 0x20 }

/-- Turns every entry that references CARTROM into a sink entry (R115). -/
def unpointCart (p : CpuSide) : CpuSide :=
  { p with table := p.table.map fun e => if e.region = .cartrom then sinkEntry else e }

/-- MOUNT: replaces the cartridge and re-points entries 0x80 to 0x9F of both tables (R114). -/
def mountCart (size : Word) (bytes : List Byte) (s : State) : State :=
  let s := { s with
    cart := some size
    mem := (Memory.keepCart s.mem false).writeBytes (cellKey .cartrom 0) bytes }
  (s.modSide .c0 (pointCartSlots (cartEntry size))).modSide .c1 (pointCartSlots (cartEntry size))

/-- UNMOUNT (R115). -/
def unmountCart (s : State) : State :=
  let s := { s with cart := none, mem := Memory.keepCart s.mem false }
  (s.modSide .c0 unpointCart).modSide .c1 unpointCart

/-- LOAD (R116): no decode, no dispatch, no collaborator call; refused where the region has no loadable bytes or the
range exceeds it. -/
def loadBytes (region : Byte) (offset : Word) (bytes : List Byte) (s : State) : Res :=
  match Region.ofCode region with
  | none => refuse .badRequest s
  | some r =>
    match regionSize s.config s.cart r with
    | none => refuse .badRequest s
    | some size =>
      if loadAllowed s.cart.isSome r && decide (offset.toNat + bytes.length ≤ size) then
        .ok { s with mem := Memory.writeBytes s.mem (cellKey r offset.toNat) bytes }
      else refuse .badRequest s

/-- RESET (R290): the cartridge, the log, the refused mark, the configuration, and the model's own fields stay. -/
def resetBus (s : State) : State :=
  let mem := Memory.keepCart s.mem true
  let mem := Memory.leWrite mem (cellKey .io0 0x184) 4 0x101
  let mem := Memory.leWrite mem (cellKey .io1 0x184) 4 0x101
  { s with
    mem := mem
    tcwBase := Config.tcwBaseReset
    cpu0 := CpuSide.reset s.config s.cart .c0
    cpu1 := CpuSide.reset s.config s.cart .c1 }

end Sys2Proof.Machine
end

