-- ==== Sys2Proof/Machine/Timers.lean ====
section
/-! DEFINITION. The timer engine, 43_timers.md. -/

namespace Sys2Proof.Machine

/-- Window offset of TMnCNT_H (R210). -/
def tmHOffset (t : Fin 4) : Nat := 0x102 + 4 * t.val

/-- `SetReload(cpu, t, v)` (R211). -/
def setReload (c : Cpu) (t : Fin 4) (v : Half) (s : State) : State :=
  s.modTimer c t fun m => { m with reload := v }

/-- The timer after a control write of the masked value (R212): the fields, and on the enable edge the counter and the
accumulator. The cascade bit is the written one in every write, as the rule's pseudocode has it, also in one that stops
the timer, of which its corner cases say that it keeps the cascade bit. DEDUCED, unsafe there; log entry 23. -/
def Timer.withControl (m : Timer) (v : Half) : Timer :=
  let m' := { m with
    presc := v.extractLsb' 0 2, cascade := v.getLsbD 2, irq := v.getLsbD 6, enabled := v.getLsbD 7 }
  if m'.enabled && !m.enabled then { m' with counter := m.reload, acc := 0 } else m'

/-- `SetControl(cpu, t, v)` (R212). -/
def setControl (c : Cpu) (t : Fin 4) (v : Half) (s : State) : State :=
  let v := v &&& tmMask t
  (s.modTimer c t fun m => m.withControl v).setRaw c (tmHOffset t) 2 v.toNat

/-- Whether a timer increments in a cycle, and its accumulator after it (R213). `carry` is the overflow of the timer
below in this cycle. -/
def Timer.count (m : Timer) (t : Fin 4) (carry : Bool) : Bool × Half :=
  if !m.enabled then (false, m.acc)
  else if decide (1 ≤ t.val) && m.cascade then (carry, m.acc)
  else if prescale m.presc ≤ m.acc + 1 then (true, 0)
  else (false, m.acc + 1)

/-- A timer after a cycle, and whether it overflowed (R213). -/
def Timer.cycle (m : Timer) (t : Fin 4) (carry : Bool) : Bool × Timer :=
  let r := m.count t carry
  let m' := { m with acc := r.2 }
  if !r.1 then (false, m')
  else if m.counter = 0xFFFF then (true, { m' with counter := m.reload })
  else (false, { m' with counter := m.counter + 1 })

/-- One timer of a CPU in one cycle: its overflow, and the state with its interrupt raised (R213). -/
def tickTimer (c : Cpu) (t : Fin 4) (carry : Bool) (s : State) : Bool × State :=
  let m := s.timer c t
  let r := m.cycle t carry
  let s := s.modTimer c t fun _ => r.2
  (r.1, raiseIf (r.1 && m.irq) c (irqTimer t) s)

/-- The overflow counts of the four timers (R213). -/
structure Overflows where
  o0 : Word
  o1 : Word
  o2 : Word
  o3 : Word
  deriving DecidableEq, Repr, Inhabited

/-- Adds one overflow. -/
def addOverflow (o : Word) (k : Bool) : Word :=
  if k then o + 1 else o

/-- One timer-clock cycle of a CPU: its timers in ascending order, each with the carry of the one below (R213). -/
def tickCycle (c : Cpu) (o : Overflows) (s : State) : Overflows × State :=
  let r0 := tickTimer c 0 false s
  let r1 := tickTimer c 1 r0.1 r0.2
  let r2 := tickTimer c 2 r1.1 r1.2
  let r3 := tickTimer c 3 r2.1 r2.2
  (⟨addOverflow o.o0 r0.1, addOverflow o.o1 r1.1, addOverflow o.o2 r2.1, addOverflow o.o3 r3.1⟩, r3.2)

/-- `n` timer-clock cycles (R213). -/
def tickLoop (c : Cpu) : Nat → Overflows → State → Overflows × State
  | 0, o, s => (o, s)
  | n + 1, o, s =>
    let r := tickCycle c o s
    tickLoop c n r.1 r.2

/-- `Tick(cpu, n)` (R213). -/
def tick (c : Cpu) (n : Word) (s : State) : Overflows × State :=
  tickLoop c n.toNat ⟨0, 0, 0, 0⟩ s

end Sys2Proof.Machine
end

