-- ==== Sys2Proof/Machine/Window.lean ====
section
/-! DEFINITION. The register window and its side-effect dispatcher, 41_io_dispatch.md: the handler of every logical
register, the computed reads, `IoWrite` and `IoRead`. -/

namespace Sys2Proof.Machine

/-! ### Computed reads -/

/-- `OnRegisterRead(cpu, L)` for the registers of kind C (R135): the value and the state after the read's side effect;
`none` for every other register. -/
def computedRead (c : Cpu) (r : LReg) (s : State) : Option (Nat × State) :=
  match r with
  | .dispCapCnt => let x := callReadCapture s; some (x.1.toNat, x.2)
  | .tmCntL t => some ((s.timer c t).counter.toNat, s)
  | .ipcFifoRecv => let x := recv c s; some (x.1.toNat, x.2)
  | .romCtrl => let x := callCartControl c s; some (x.1.toNat, x.2)
  | .cardData => let x := callCartData c s; some (x.1.toNat, x.2)
  | .gxStat => let x := callGeomStatus s; some (x.1.toNat, x.2)
  | .divCnt => some (divCntValue s, s)
  | .divResult => some ((divide s).1.toNat, s)
  | .divRemResult => some ((divide s).2.toNat, s)
  | .sqrtCnt => some ((sqrtMode s).toNat, s)
  | .sqrtResult => some ((squareRoot s).toNat, s)
  | .dispCnt _ | .bgCnt .. | .winBounds .. | .winMask .. | .bldCnt _ | .bldAlpha _ | .bldY _ => none
  | .dmaSad _ | .dmaDad _ | .dmaCnt _ | .tmCntH _ | .ipcSync | .ipcFifoCnt | .ipcFifoSend => none
  | .auxSpiCnt | .auxSpiData | .ime | .ie | .iflag | .mapCnt _ | .geomPort _ | .sound => none

/-- Overlays the computed registers of a list on the bytes read, in order (R135). -/
def readRegs (c : Cpu) (o : Nat) : List LReg → List Byte → State → List Byte × State
  | [], bs, s => (bs, s)
  | r :: rs, bs, s =>
    match computedRead c r s with
    | none => readRegs c o rs bs s
    | some x => readRegs c o rs (overlay r x.1 o bs) x.2

/-- `IoRead(cpu, o, n)` (R135). -/
def ioRead (c : Cpu) (o : Nat) (w : Width) (s : State) : Word × State :=
  let x := readRegs c o (touched c w o) (Memory.readBytes s.mem (cellKey (ioRegion c) o) w.bytes) s
  (BitVec.ofNat 32 (leValue x.1), x.2)

/-- Whether an access touches a computed register, that is, whether `OnRegisterRead` returns a value (R135). -/
def touchesComputed (c : Cpu) (o : Nat) (w : Width) (s : State) : Bool :=
  (touched c w o).any fun r => (computedRead c r s).isSome

/-! ### Handlers -/

/-- A write touching AUXSPIDATA (R147). -/
def writeSpiData (c : Cpu) (o : Nat) (w : Width) (s : State) : State :=
  let s :=
    if laneTouched .auxSpiData o w.bytes 0 then
      let x := callTransfer (BitVec.ofNat 8 (s.raw c 0x1A2 1)) s
      x.2.setRaw c 0x1A2 1 x.1.toNat
    else s
  s.setRaw c 0x1A3 1 0

/-- A write touching a map-control byte (R151). -/
def writeMapControl (o : Nat) (s : State) : Res :=
  let x := callMapConfigure o (BitVec.ofNat 8 (s.raw .c0 o 1)) s
  forEach applyRepoint x.1 x.2

/-- `Handle(cpu, L, merged, lanes, o, n, v)` (R134): the handler of a logical register, run after the verbatim store.
The registers without a handler (kind C only) leave the state as it is. -/
def handle (exe : Exe) (c : Cpu) (o : Nat) (w : Width) (v : Word) (r : LReg) (s : State) : Res :=
  let merged := mergedValue s c r
  let m32 : Word := BitVec.ofNat 32 merged
  let m16 : Half := BitVec.ofNat 16 merged
  match r with
  | .dispCnt g => .ok (s.logCall (.setDisplayControl g m32))
  | .bgCnt g n => .ok (s.logCall (.setBackgroundControl g n m16))
  | .winBounds g k => .ok (s.logCall (.setWindowBounds g k m16))
  | .winMask g k => .ok (s.logCall (.setWindowMask g k m16))
  | .bldCnt g => .ok (s.logCall (.setBlendControl g m16))
  | .bldAlpha g => .ok (s.logCall (.setBlendAlpha g m16))
  | .bldY g => .ok (s.logCall (.setBlendBrightness g m16))
  | .dispCapCnt => .ok (s.logCall (.setCaptureControl m32))
  | .dmaSad ch => .ok (writeSad c ch m32 s)
  | .dmaDad ch => .ok (writeDad c ch m32 s)
  | .dmaCnt ch => programChannel exe c ch m32 s
  | .tmCntL t => .ok (setReload c t m16 s)
  | .tmCntH t => .ok (setControl c t m16 s)
  | .ipcSync => .ok (writeSync c m32 s)
  | .ipcFifoCnt => .ok (fifoControl c m32 s)
  | .ipcFifoSend => .ok (send c m32 s)
  | .auxSpiCnt => .ok (s.logCall (.backupControl m16))
  | .auxSpiData => .ok (writeSpiData c o w s)
  | .romCtrl => .ok (s.logCall (.cartControl c m32 (BitVec.ofNat 64 (s.raw c 0x1A8 8))))
  | .ime => .ok (setIME c m32 s)
  | .ie => .ok (setIE c m32 s)
  | .iflag => .ok (clearIF c (laneMask .iflag o w.bytes v) s)
  | .mapCnt k => writeMapControl (LReg.mapCnt k).offset s
  | .geomPort k => .ok (s.logCall (.geomCommand (BitVec.ofNat 24 (LReg.geomPort k).offset) m32))
  | .gxStat => .ok (s.logCall (.geomCommand 0x600 m32))
  | .sound => .ok (s.logCall (.audioWrite (BitVec.ofNat 24 o) w (truncTo w v)))
  | .ipcFifoRecv | .cardData | .divCnt | .divResult | .divRemResult | .sqrtCnt | .sqrtResult => .ok s

/-- `OnRegisterWrite(cpu, o, n, v)`: the handler of each touched register, once, in ascending order (R132, R134). -/
def onRegisterWrite (exe : Exe) (c : Cpu) (o : Nat) (w : Width) (v : Word) (s : State) : Res :=
  forEach (handle exe c o w v) (touched c w o) s

/-- `IoWrite(cpu, o, n, v)`: the verbatim store (R133), then the dispatch (R134). -/
def ioWrite (exe : Exe) (c : Cpu) (o : Nat) (w : Width) (v : Word) (s : State) : Res :=
  onRegisterWrite exe c o w v (s.setRaw c o w.bytes v.toNat)

end Sys2Proof.Machine
end

