-- ==== Sys2Proof/Machine/Bus.lean ====
section
/-! DEFINITION. The full bus read and write, `MemRead` and `MemWrite`, 40_decode.md R100 and R101. -/

namespace Sys2Proof.Machine

/-- The bytes of a pass-through read, one collaborator call each, in ascending order (R103). -/
def cartPassRead (c : Cpu) (a : Word) : Nat → State → List Byte × State
  | 0, s => ([], s)
  | n + 1, s =>
    let x := callCartPassRead c a s
    let y := cartPassRead c (a + 1) n x.2
    (x.1 :: y.1, y.2)

/-- The bytes of a pass-through write, one collaborator call each, in ascending order (R103). -/
def cartPassWrite (c : Cpu) (a : Word) : List Byte → State → State
  | [], s => s
  | b :: bs, s => cartPassWrite c (a + 1) bs (s.logCall (.cartPassWrite8 c a b))

/-- `MemRead(cpu, addr, n)` (R100): the u32 result and the state after the read's side effects. -/
def memRead (c : Cpu) (addr : Word) (w : Width) (s : State) : Word × State :=
  let a := alignAddr w addr
  match resolve c a s with
  | .tcw o => (BitVec.ofNat 32 (s.regionRead .dtcm o w.bytes), s)
  | .cartPass =>
    let x := cartPassRead c a w.bytes s
    (BitVec.ofNat 32 (leValue x.1), x.2)
  | .wifi =>
    let x := callWifiRead a w s
    (truncTo w x.1, x.2)
  | .sink => (openBus w a, s)
  | .io o => ioRead c o w s
  | .storage r o => (BitVec.ofNat 32 (s.regionRead r o w.bytes), s)

/-- `MemWrite(cpu, addr, n, v)` (R101). -/
def memWrite (exe : Exe) (c : Cpu) (addr : Word) (w : Width) (v : Word) (s : State) : Res :=
  let a := alignAddr w addr
  let v := truncTo w v
  match resolve c a s with
  | .tcw o => .ok (s.regionWrite .dtcm o w.bytes v.toNat)
  | .cartPass => .ok (cartPassWrite c a (leBytes w.bytes v.toNat) s)
  | .wifi => .ok (s.logCall (.wifiWrite a w v))
  | .sink => .ok s
  | .io o => ioWrite exe c o w v s
  | .storage r o => .ok (s.regionWrite r o w.bytes v.toNat)

end Sys2Proof.Machine
end

