-- ==== Sys2Proof/Machine/Burst.lean ====
section
/-! DEFINITION. The DMA burst and the trigger, 42_dma.md R186 to R191. A burst's element writes may start another
channel's burst, nested inside (R187): the recursion is on how many more bursts may nest, and four is enough, since a
running channel is never started again by a write. -/

namespace Sys2Proof.Machine

/-- The elements of a burst, in order: read, write, step (R186, 20_memory.md R76). The channel's `count` field stays what it
was latched to, as R186's pseudocode and vector E3 have it, and does not go down element by element, as 10_state.md R22
says of the remaining count. DEDUCED, safe but for a claim about `count` inside a burst; log entry 24. -/
def elements (exe : Exe) (c : Cpu) (ch : Fin 4) (w : Width) : Nat → State → Res
  | 0, s => .ok s
  | n + 1, s =>
    let x := memRead c (s.chan c ch).src w s
    andThen (memWrite exe c (x.2.chan c ch).dst w x.1 x.2) fun s =>
      elements exe c ch w n (s.modChan c ch fun d => d.advance w)

/-- The end of a burst: re-arm or become inactive, then the completion interrupt (R186, R188). -/
def completeBurst (c : Cpu) (ch : Fin 4) (s : State) : State :=
  let s := s.modChan c ch fun d => { d with executing := false }
  let cnt := (s.chan c ch).cnt
  let s :=
    if bitAt cnt 25 && decide (startMode c ch cnt ≠ .immediate) then
      s.modChan c ch fun d => d.rearm c ch
    else stopChannel c ch s
  raiseIf (bitAt cnt 30) c (irqDma ch) s

/-- The body of `Execute(cpu, ch)` (R186), with the bursts its element writes may start. -/
def executeBody (exe : Exe) (c : Cpu) (ch : Fin 4) (s : State) : Res :=
  let d := s.chan c ch
  if !d.active then .ok s
  else if d.count = 0 ∨ d.src = d.dst then .ok (stopChannel c ch s)
  else
    andThen
      (elements exe c ch (elementWidth d.cnt) d.count.toNat
        (s.modChan c ch fun d => { d with executing := true }))
      fun s => .ok (completeBurst c ch s)

/-- `Execute(cpu, ch)` with at most `depth` bursts nested. -/
def executeDepth : Nat → Exe
  | 0 => fun _ _ s => refuse .tooDeep s
  | depth + 1 => executeBody (executeDepth depth)

/-- "At most four bursts of one CPU are nested" (R187). -/
def burstDepth : Nat := 4

/-- `Execute(cpu, ch)` (R186). -/
def execute : Exe := executeDepth burstDepth

/-- `Event(cpu, ch, v) = e` for a channel that is not Immediate (R189). -/
def startsOn (c : Cpu) (ch : Fin 4) (v : Word) (e : Event) : Bool :=
  decide (startMode c ch v = .on e)

/-- One turn of `Trigger`: runs the channel if it is active and waits for the event (R189). -/
def triggerChannel (c : Cpu) (e : Event) (ch : Fin 4) (s : State) : Res :=
  let d := s.chan c ch
  if d.active && startsOn c ch d.cnt e then execute c ch s else .ok s

/-- `Trigger(cpu, e)`: the channels in ascending order (R189). -/
def trigger (c : Cpu) (e : Event) (s : State) : Res :=
  forEach (triggerChannel c e) [0, 1, 2, 3] s

end Sys2Proof.Machine
end

