-- ==== Sys2Proof/Machine/Contracts.lean ====
section
/-! DEFINITION. The meanings of the internal contracts, 30_encoding.md R88, called with their own arguments. -/

namespace Sys2Proof.Machine

/-- `OnRegisterWrite(cpu, offset, width, value)`: the handlers alone, without the verbatim store (41_io_dispatch.md
R134). -/
def execOnRegisterWrite (c : Cpu) (offset : BitVec 24) (w : Width) (v : Word) (s : State) : Out :=
  finish s (onRegisterWrite execute c (alignOffset w offset.toNat) w (truncTo w v) s)

/-- `OnRegisterRead(cpu, offset, width)`: the bytes of the access where it touches a computed register, nothing
elsewhere (R135). -/
def execOnRegisterRead (c : Cpu) (offset : BitVec 24) (w : Width) (s : State) : Out :=
  if touchesComputed c (alignOffset w offset.toNat) w s then finishValue (ioRead c (alignOffset w offset.toNat) w s)
  else .next (s.answer .none)

/-- `ProgramChannel(cpu, ch, control_value)` (42_dma.md R184). -/
def execProgramChannel (c : Cpu) (ch : Fin 4) (v : Word) (s : State) : Out :=
  finish s (programChannel execute c ch v s)

/-- `Execute(cpu, ch)` (R186). -/
def execExecute (c : Cpu) (ch : Fin 4) (s : State) : Out :=
  finish s (execute c ch s)

/-- `SetReload(cpu, timer, value)` (43_timers.md R211). -/
def execSetReload (c : Cpu) (t : Fin 4) (v : Half) (s : State) : Out :=
  .next (setReload c t v s)

/-- `SetControl(cpu, timer, value)` (R212). -/
def execSetControl (c : Cpu) (t : Fin 4) (v : Half) (s : State) : Out :=
  .next (setControl c t v s)

/-- `WriteSync(cpu, value)` (44_ipc.md R231). -/
def execWriteSync (c : Cpu) (v : Word) (s : State) : Out :=
  .next (writeSync c v s)

/-- `FifoControl(cpu, value)` (R237). -/
def execFifoControl (c : Cpu) (v : Word) (s : State) : Out :=
  .next (fifoControl c v s)

/-- `Send(cpu, value)` (R240). -/
def execSend (c : Cpu) (v : Word) (s : State) : Out :=
  .next (send c v s)

/-- `Recv(cpu)` (R241). -/
def execRecv (c : Cpu) (s : State) : Out :=
  finishValue (recv c s)

/-- `SetIME(cpu, value)` (45_irq_latch.md R260). -/
def execSetIME (c : Cpu) (v : Word) (s : State) : Out :=
  .next (setIME c v s)

/-- `SetIE(cpu, value)` (R261). -/
def execSetIE (c : Cpu) (v : Word) (s : State) : Out :=
  .next (setIE c v s)

/-- `SetIF(cpu, mask)` (R262). -/
def execSetIF (c : Cpu) (m : Word) (s : State) : Out :=
  .next (setIF c m s)

/-- `ClearIF(cpu, mask)` (R263). -/
def execClearIF (c : Cpu) (m : Word) (s : State) : Out :=
  .next (clearIF c m s)

end Sys2Proof.Machine
end

