-- ==== Sys2Proof/Machine/RowAccess.lean ====
section
/-! DEFINITION. The access of a register row: the register window's own read and write path at the offset of the key,
without the address decode in front of it (41_io_dispatch.md R130 to R135), and the wireless window's access
(40_decode.md R104). -/

namespace Sys2Proof.Machine

/-- An access of CPU `c` at a window offset: the aligned access, so that it touches the register of the offset and every
other register in its bytes (R132, 20_memory.md R63). -/
def regAccess (c : Cpu) (o : Nat) (acc : RegAccess) (s : State) : Out :=
  match acc with
  | .read w => finishValue (ioRead c (alignOffset w o) w s)
  | .write w v => finish s (ioWrite execute c (alignOffset w o) w (truncTo w v) s)

/-- An access in the wireless window of CPU1, which is not in the raw block: one collaborator call with the aligned
address, the width and, for a write, the value (R104). -/
def wifiAccess (o : Nat) (acc : RegAccess) (s : State) : Out :=
  match acc with
  | .read w =>
    let x := callWifiRead (alignAddr w (BitVec.ofNat 32 (0x04000000 + o))) w s
    finishValue (truncTo w x.1, x.2)
  | .write w v => .next (s.logCall (.wifiWrite (alignAddr w (BitVec.ofNat 32 (0x04000000 + o))) w (truncTo w v)))

end Sys2Proof.Machine
end

