-- ==== Sys2Proof/Machine/DeviceRows.lean ====
section
/-! DEFINITION. The meanings of the register rows of the 3D engine, the sound controller and the wireless window (41_io_dispatch.md R137, R144 to R146, 40_decode.md R104). -/

namespace Sys2Proof.Machine

/-- RENDER3D (R137): pure storage. -/
def execRender3d (lane : BitVec 5) (acc : RegAccess) (s : State) : Out :=
  regAccess .c0 (0x320 + lane.toNat) acc s

/-- RENDER3D_2 (R137): pure storage. -/
def execRender3d2 (lane : BitVec 6) (acc : RegAccess) (s : State) : Out :=
  regAccess .c0 (0x340 + lane.toNat) acc s

/-- RENDER3D_3 (R137): pure storage. -/
def execRender3d3 (lane : BitVec 7) (acc : RegAccess) (s : State) : Out :=
  regAccess .c0 (0x380 + lane.toNat) acc s

/-- GEOM_PORTS (R144): a write forwards `GeomCommand`. -/
def execGeomPorts (lane : BitVec 9) (acc : RegAccess) (s : State) : Out :=
  regAccess .c0 (0x400 + lane.toNat) acc s

/-- SOUND (R146): a write forwards `AudioWrite` verbatim. -/
def execSound (lane : BitVec 8) (acc : RegAccess) (s : State) : Out :=
  regAccess .c1 (0x400 + lane.toNat) acc s

/-- SOUND_2 (R146): a write forwards `AudioWrite` verbatim. -/
def execSound2 (lane : BitVec 5) (acc : RegAccess) (s : State) : Out :=
  regAccess .c1 (0x500 + lane.toNat) acc s

/-- GXSTAT (R145): a write forwards `GeomCommand`, a read asks `GeomReadStatus`. -/
def execGxstat (lane : BitVec 2) (acc : RegAccess) (s : State) : Out :=
  regAccess .c0 (0x600 + lane.toNat) acc s

/-- WIFI_WINDOW (R104): a read or write is a call to Wifi. -/
def execWifiWindow (lane : BitVec 23) (acc : RegAccess) (s : State) : Out :=
  wifiAccess (0x800000 + lane.toNat) acc s

end Sys2Proof.Machine
end

