-- ==== Sys2Proof/Machine/DisplayRows.lean ====
section
/-! DEFINITION. The meanings of the register rows of the display registers of both engines (41_io_dispatch.md R137, R140 to R143). -/

namespace Sys2Proof.Machine

/-- DISPCNT_A (R140): a write forwards `SetDisplayControl`. -/
def execDispcntA (lane : BitVec 2) (acc : RegAccess) (s : State) : Out :=
  regAccess .c0 (0x0 + lane.toNat) acc s

/-- DISPSTAT (R137): pure storage. -/
def execDispstat (c : Cpu) (lane : BitVec 1) (acc : RegAccess) (s : State) : Out :=
  regAccess c (0x4 + lane.toNat) acc s

/-- VCOUNT (R137): pure storage. -/
def execVcount (c : Cpu) (lane : BitVec 1) (acc : RegAccess) (s : State) : Out :=
  regAccess c (0x6 + lane.toNat) acc s

/-- BG0CNT_A (R141): a write forwards `SetBackgroundControl`. -/
def execBg0cntA (lane : BitVec 1) (acc : RegAccess) (s : State) : Out :=
  regAccess .c0 (0x8 + lane.toNat) acc s

/-- BG1CNT_A (R141): a write forwards `SetBackgroundControl`. -/
def execBg1cntA (lane : BitVec 1) (acc : RegAccess) (s : State) : Out :=
  regAccess .c0 (0xA + lane.toNat) acc s

/-- BG2CNT_A (R141): a write forwards `SetBackgroundControl`. -/
def execBg2cntA (lane : BitVec 1) (acc : RegAccess) (s : State) : Out :=
  regAccess .c0 (0xC + lane.toNat) acc s

/-- BG3CNT_A (R141): a write forwards `SetBackgroundControl`. -/
def execBg3cntA (lane : BitVec 1) (acc : RegAccess) (s : State) : Out :=
  regAccess .c0 (0xE + lane.toNat) acc s

/-- BGOFS_AFFINE_A (R137): pure storage. -/
def execBgofsAffineA (lane : BitVec 4) (acc : RegAccess) (s : State) : Out :=
  regAccess .c0 (0x10 + lane.toNat) acc s

/-- BGOFS_AFFINE_A_2 (R137): pure storage. -/
def execBgofsAffineA2 (lane : BitVec 5) (acc : RegAccess) (s : State) : Out :=
  regAccess .c0 (0x20 + lane.toNat) acc s

/-- WIN0H_A (R141): a write forwards `SetWindowBounds`. -/
def execWin0hA (lane : BitVec 1) (acc : RegAccess) (s : State) : Out :=
  regAccess .c0 (0x40 + lane.toNat) acc s

/-- WIN1H_A (R141): a write forwards `SetWindowBounds`. -/
def execWin1hA (lane : BitVec 1) (acc : RegAccess) (s : State) : Out :=
  regAccess .c0 (0x42 + lane.toNat) acc s

/-- WIN0V_A (R141): a write forwards `SetWindowBounds`. -/
def execWin0vA (lane : BitVec 1) (acc : RegAccess) (s : State) : Out :=
  regAccess .c0 (0x44 + lane.toNat) acc s

/-- WIN1V_A (R141): a write forwards `SetWindowBounds`. -/
def execWin1vA (lane : BitVec 1) (acc : RegAccess) (s : State) : Out :=
  regAccess .c0 (0x46 + lane.toNat) acc s

/-- WININ_A (R141): a write forwards `SetWindowMask`. -/
def execWininA (lane : BitVec 1) (acc : RegAccess) (s : State) : Out :=
  regAccess .c0 (0x48 + lane.toNat) acc s

/-- WINOUT_A (R141): a write forwards `SetWindowMask`. -/
def execWinoutA (lane : BitVec 1) (acc : RegAccess) (s : State) : Out :=
  regAccess .c0 (0x4A + lane.toNat) acc s

/-- MOSAIC_A (R137): pure storage. -/
def execMosaicA (lane : BitVec 1) (acc : RegAccess) (s : State) : Out :=
  regAccess .c0 (0x4C + lane.toNat) acc s

/-- BLDCNT_A (R141): a write forwards `SetBlendControl`. -/
def execBldcntA (lane : BitVec 1) (acc : RegAccess) (s : State) : Out :=
  regAccess .c0 (0x50 + lane.toNat) acc s

/-- BLDALPHA_A (R141): a write forwards `SetBlendAlpha`. -/
def execBldalphaA (lane : BitVec 1) (acc : RegAccess) (s : State) : Out :=
  regAccess .c0 (0x52 + lane.toNat) acc s

/-- BLDY_A (R141): a write forwards `SetBlendBrightness`. -/
def execBldyA (lane : BitVec 1) (acc : RegAccess) (s : State) : Out :=
  regAccess .c0 (0x54 + lane.toNat) acc s

/-- DISP3DCNT (R137): pure storage. -/
def execDisp3dcnt (lane : BitVec 1) (acc : RegAccess) (s : State) : Out :=
  regAccess .c0 (0x60 + lane.toNat) acc s

/-- DISPCAPCNT (R142): a write forwards `SetCaptureControl`, a read asks `ReadCaptureControl`. -/
def execDispcapcnt (lane : BitVec 2) (acc : RegAccess) (s : State) : Out :=
  regAccess .c0 (0x64 + lane.toNat) acc s

/-- DISP_MMEM_FIFO (R137): pure storage. -/
def execDispMmemFifo (lane : BitVec 2) (acc : RegAccess) (s : State) : Out :=
  regAccess .c0 (0x68 + lane.toNat) acc s

/-- MASTER_BRIGHT_A (R137): pure storage. -/
def execMasterBrightA (lane : BitVec 1) (acc : RegAccess) (s : State) : Out :=
  regAccess .c0 (0x6C + lane.toNat) acc s

/-- DISPCNT_B (R143): a write forwards `SetDisplayControl`. -/
def execDispcntB (lane : BitVec 2) (acc : RegAccess) (s : State) : Out :=
  regAccess .c0 (0x1000 + lane.toNat) acc s

/-- BG0CNT_B (R143): a write forwards `SetBackgroundControl`. -/
def execBg0cntB (lane : BitVec 1) (acc : RegAccess) (s : State) : Out :=
  regAccess .c0 (0x1008 + lane.toNat) acc s

/-- BG1CNT_B (R143): a write forwards `SetBackgroundControl`. -/
def execBg1cntB (lane : BitVec 1) (acc : RegAccess) (s : State) : Out :=
  regAccess .c0 (0x100A + lane.toNat) acc s

/-- BG2CNT_B (R143): a write forwards `SetBackgroundControl`. -/
def execBg2cntB (lane : BitVec 1) (acc : RegAccess) (s : State) : Out :=
  regAccess .c0 (0x100C + lane.toNat) acc s

/-- BG3CNT_B (R143): a write forwards `SetBackgroundControl`. -/
def execBg3cntB (lane : BitVec 1) (acc : RegAccess) (s : State) : Out :=
  regAccess .c0 (0x100E + lane.toNat) acc s

/-- WIN0H_B (R143): a write forwards `SetWindowBounds`. -/
def execWin0hB (lane : BitVec 1) (acc : RegAccess) (s : State) : Out :=
  regAccess .c0 (0x1040 + lane.toNat) acc s

/-- WIN1H_B (R143): a write forwards `SetWindowBounds`. -/
def execWin1hB (lane : BitVec 1) (acc : RegAccess) (s : State) : Out :=
  regAccess .c0 (0x1042 + lane.toNat) acc s

/-- WIN0V_B (R143): a write forwards `SetWindowBounds`. -/
def execWin0vB (lane : BitVec 1) (acc : RegAccess) (s : State) : Out :=
  regAccess .c0 (0x1044 + lane.toNat) acc s

/-- WIN1V_B (R143): a write forwards `SetWindowBounds`. -/
def execWin1vB (lane : BitVec 1) (acc : RegAccess) (s : State) : Out :=
  regAccess .c0 (0x1046 + lane.toNat) acc s

/-- WININ_B (R143): a write forwards `SetWindowMask`. -/
def execWininB (lane : BitVec 1) (acc : RegAccess) (s : State) : Out :=
  regAccess .c0 (0x1048 + lane.toNat) acc s

/-- WINOUT_B (R143): a write forwards `SetWindowMask`. -/
def execWinoutB (lane : BitVec 1) (acc : RegAccess) (s : State) : Out :=
  regAccess .c0 (0x104A + lane.toNat) acc s

/-- BLDCNT_B (R143): a write forwards `SetBlendControl`. -/
def execBldcntB (lane : BitVec 1) (acc : RegAccess) (s : State) : Out :=
  regAccess .c0 (0x1050 + lane.toNat) acc s

/-- BLDALPHA_B (R143): a write forwards `SetBlendAlpha`. -/
def execBldalphaB (lane : BitVec 1) (acc : RegAccess) (s : State) : Out :=
  regAccess .c0 (0x1052 + lane.toNat) acc s

/-- BLDY_B (R143): a write forwards `SetBlendBrightness`. -/
def execBldyB (lane : BitVec 1) (acc : RegAccess) (s : State) : Out :=
  regAccess .c0 (0x1054 + lane.toNat) acc s

end Sys2Proof.Machine
end

