-- ==== Sys2Proof/Machine/DmaRows.lean ====
section
/-! DEFINITION. The meanings of the register rows of the registers of the DMA channels (42_dma.md R180 to R184) and the fill data (41_io_dispatch.md R137). -/

namespace Sys2Proof.Machine

/-- DMA0SAD (R153): a write sets the masked programmed source address. -/
def execDma0sad (c : Cpu) (lane : BitVec 2) (acc : RegAccess) (s : State) : Out :=
  regAccess c (0xB0 + lane.toNat) acc s

/-- DMA0DAD (R153): a write sets the masked programmed destination address. -/
def execDma0dad (c : Cpu) (lane : BitVec 2) (acc : RegAccess) (s : State) : Out :=
  regAccess c (0xB4 + lane.toNat) acc s

/-- DMA0CNT (R184): a write runs `ProgramChannel`. -/
def execDma0cnt (c : Cpu) (lane : BitVec 2) (acc : RegAccess) (s : State) : Out :=
  regAccess c (0xB8 + lane.toNat) acc s

/-- DMA1SAD (R153): a write sets the masked programmed source address. -/
def execDma1sad (c : Cpu) (lane : BitVec 2) (acc : RegAccess) (s : State) : Out :=
  regAccess c (0xBC + lane.toNat) acc s

/-- DMA1DAD (R153): a write sets the masked programmed destination address. -/
def execDma1dad (c : Cpu) (lane : BitVec 2) (acc : RegAccess) (s : State) : Out :=
  regAccess c (0xC0 + lane.toNat) acc s

/-- DMA1CNT (R184): a write runs `ProgramChannel`. -/
def execDma1cnt (c : Cpu) (lane : BitVec 2) (acc : RegAccess) (s : State) : Out :=
  regAccess c (0xC4 + lane.toNat) acc s

/-- DMA2SAD (R153): a write sets the masked programmed source address. -/
def execDma2sad (c : Cpu) (lane : BitVec 2) (acc : RegAccess) (s : State) : Out :=
  regAccess c (0xC8 + lane.toNat) acc s

/-- DMA2DAD (R153): a write sets the masked programmed destination address. -/
def execDma2dad (c : Cpu) (lane : BitVec 2) (acc : RegAccess) (s : State) : Out :=
  regAccess c (0xCC + lane.toNat) acc s

/-- DMA2CNT (R184): a write runs `ProgramChannel`. -/
def execDma2cnt (c : Cpu) (lane : BitVec 2) (acc : RegAccess) (s : State) : Out :=
  regAccess c (0xD0 + lane.toNat) acc s

/-- DMA3SAD (R153): a write sets the masked programmed source address. -/
def execDma3sad (c : Cpu) (lane : BitVec 2) (acc : RegAccess) (s : State) : Out :=
  regAccess c (0xD4 + lane.toNat) acc s

/-- DMA3DAD (R153): a write sets the masked programmed destination address. -/
def execDma3dad (c : Cpu) (lane : BitVec 2) (acc : RegAccess) (s : State) : Out :=
  regAccess c (0xD8 + lane.toNat) acc s

/-- DMA3CNT (R184): a write runs `ProgramChannel`. -/
def execDma3cnt (c : Cpu) (lane : BitVec 2) (acc : RegAccess) (s : State) : Out :=
  regAccess c (0xDC + lane.toNat) acc s

/-- DMA_FILL (R137): pure storage. -/
def execDmaFill (lane : BitVec 4) (acc : RegAccess) (s : State) : Out :=
  regAccess .c0 (0xE0 + lane.toNat) acc s

end Sys2Proof.Machine
end

