-- ==== Sys2Proof/Machine/MapRows.lean ====
section
/-! DEFINITION. The meanings of the register rows of the map control (41_io_dispatch.md R151) and its status (R137). -/

namespace Sys2Proof.Machine

/-- VRAMCNT_A (R151): a write asks `MapConfigure` and applies its re-points. -/
def execVramcntA (acc : RegAccess) (s : State) : Out :=
  regAccess .c0 0x240 acc s

/-- VRAMCNT_B (R151): a write asks `MapConfigure` and applies its re-points. -/
def execVramcntB (acc : RegAccess) (s : State) : Out :=
  regAccess .c0 0x241 acc s

/-- VRAMCNT_C (R151): a write asks `MapConfigure` and applies its re-points. -/
def execVramcntC (acc : RegAccess) (s : State) : Out :=
  regAccess .c0 0x242 acc s

/-- VRAMCNT_D (R151): a write asks `MapConfigure` and applies its re-points. -/
def execVramcntD (acc : RegAccess) (s : State) : Out :=
  regAccess .c0 0x243 acc s

/-- VRAMCNT_E (R151): a write asks `MapConfigure` and applies its re-points. -/
def execVramcntE (acc : RegAccess) (s : State) : Out :=
  regAccess .c0 0x244 acc s

/-- VRAMCNT_F (R151): a write asks `MapConfigure` and applies its re-points. -/
def execVramcntF (acc : RegAccess) (s : State) : Out :=
  regAccess .c0 0x245 acc s

/-- VRAMCNT_G (R151): a write asks `MapConfigure` and applies its re-points. -/
def execVramcntG (acc : RegAccess) (s : State) : Out :=
  regAccess .c0 0x246 acc s

/-- WRAMCNT (R151): a write asks `MapConfigure` and applies its re-points. -/
def execWramcnt (acc : RegAccess) (s : State) : Out :=
  regAccess .c0 0x247 acc s

/-- VRAMCNT_H (R151): a write asks `MapConfigure` and applies its re-points. -/
def execVramcntH (acc : RegAccess) (s : State) : Out :=
  regAccess .c0 0x248 acc s

/-- VRAMCNT_I (R151): a write asks `MapConfigure` and applies its re-points. -/
def execVramcntI (acc : RegAccess) (s : State) : Out :=
  regAccess .c0 0x249 acc s

/-- VRAMSTAT (R137): pure storage. -/
def execVramstat (acc : RegAccess) (s : State) : Out :=
  regAccess .c1 0x240 acc s

/-- WRAMSTAT (R137): pure storage. -/
def execWramstat (acc : RegAccess) (s : State) : Out :=
  regAccess .c1 0x241 acc s

end Sys2Proof.Machine
end

