-- ==== Sys2Proof/Machine/MathRows.lean ====
section
/-! DEFINITION. The meanings of the register rows of the divider and the square root (41_io_dispatch.md R155 to R162). -/

namespace Sys2Proof.Machine

/-- DIVCNT (R156): a read computes the mode and the division-by-zero bit. -/
def execDivcnt (lane : BitVec 1) (acc : RegAccess) (s : State) : Out :=
  regAccess .c0 (0x280 + lane.toNat) acc s

/-- DIV_NUMER (R155): pure storage. -/
def execDivNumer (lane : BitVec 3) (acc : RegAccess) (s : State) : Out :=
  regAccess .c0 (0x290 + lane.toNat) acc s

/-- DIV_DENOM (R155): pure storage. -/
def execDivDenom (lane : BitVec 3) (acc : RegAccess) (s : State) : Out :=
  regAccess .c0 (0x298 + lane.toNat) acc s

/-- DIV_RESULT (R158): a read computes the quotient. -/
def execDivResult (lane : BitVec 3) (acc : RegAccess) (s : State) : Out :=
  regAccess .c0 (0x2A0 + lane.toNat) acc s

/-- DIVREM_RESULT (R158): a read computes the remainder. -/
def execDivremResult (lane : BitVec 3) (acc : RegAccess) (s : State) : Out :=
  regAccess .c0 (0x2A8 + lane.toNat) acc s

/-- SQRTCNT (R161): a read gives the mode bit. -/
def execSqrtcnt (lane : BitVec 1) (acc : RegAccess) (s : State) : Out :=
  regAccess .c0 (0x2B0 + lane.toNat) acc s

/-- SQRT_RESULT (R161): a read computes the root. -/
def execSqrtResult (lane : BitVec 2) (acc : RegAccess) (s : State) : Out :=
  regAccess .c0 (0x2B4 + lane.toNat) acc s

/-- SQRT_PARAM (R155): pure storage. -/
def execSqrtParam (lane : BitVec 3) (acc : RegAccess) (s : State) : Out :=
  regAccess .c0 (0x2B8 + lane.toNat) acc s

end Sys2Proof.Machine
end

