-- ==== Sys2Proof/WellFormed.lean ====
section
/-! DEFINITION. The checks of 30_encoding.md R83 to R86 on the operands of a request that need no state. A term that
fails one spells no request: the machine marks itself refused on it. The checks that need the state (a mounted
cartridge, the range of a LOAD into a region, whose size is configuration) are made where the request runs. -/

namespace Sys2Proof

/-- A TRIGGER names an event (R84). -/
def eventOk (event : Byte) : Bool :=
  (Event.ofCode event).isSome

/-- A RAISEIRQ names one of the 32 bits (R83). -/
def irqBitOk (bit : Byte) : Bool :=
  decide (bit.toNat < 32)

/-- A REMAP names a region its CPU's table may reference (R85). -/
def remapRegionOk (c : Cpu) (region : Byte) : Bool :=
  match Region.ofCode region with
  | none => false
  | some r => remapAllowed true c r

/-- A LOAD names a region with loadable bytes (R86). -/
def loadRegionOk (region : Byte) : Bool :=
  match Region.ofCode region with
  | none => false
  | some r => loadAllowed true r

/-- A LOAD stays inside the biggest region there can be (R83, R23). -/
def loadRangeOk (offset : Word) (k : Nat) : Bool :=
  decide (offset.toNat + k ≤ 2 ^ 31)

/-- Every static check of an instruction. The operands of the register rows and of the contract rows are typed, so
those terms are all well formed. -/
def Instr.wf : Instr → Bool
  | .read8 .. | .read16 .. | .read32 .. | .write8 .. | .write16 .. | .write32 .. => true
  | .tick .. | .settcw .. | .unmount | .reset => true
  | .trigger _ event => eventOk event
  | .raiseirq _ bit => irqBitOk bit
  | .remap c _ region _ => remapRegionOk c region
  | .mount size bytes => isRegionSize size && decide (bytes.length = size.toNat)
  | .load region offset bytes =>
    loadRegionOk region && decide (bytes.length < 2 ^ 32) && loadRangeOk offset bytes.length
  | .dispcntA .. | .dispstat .. | .vcount .. | .bg0cntA .. | .bg1cntA .. | .bg2cntA .. | .bg3cntA ..
  | .bgofsAffineA .. | .bgofsAffineA2 .. | .win0hA .. | .win1hA .. | .win0vA .. | .win1vA .. | .wininA ..
  | .winoutA .. | .mosaicA .. | .bldcntA .. | .bldalphaA .. | .bldyA .. | .disp3dcnt .. | .dispcapcnt ..
  | .dispMmemFifo .. | .masterBrightA .. | .dma0sad .. | .dma0dad .. | .dma0cnt .. | .dma1sad .. | .dma1dad ..
  | .dma1cnt .. | .dma2sad .. | .dma2dad .. | .dma2cnt .. | .dma3sad .. | .dma3dad .. | .dma3cnt ..
  | .dmaFill .. | .tm0cntL .. | .tm0cntH .. | .tm1cntL .. | .tm1cntH .. | .tm2cntL .. | .tm2cntH ..
  | .tm3cntL .. | .tm3cntH .. | .keySioRtc .. | .ipcsync .. | .ipcfifocnt .. | .ipcfifosend .. | .auxspicnt ..
  | .auxspidata .. | .romctrl .. | .cardCommand .. | .cardSeed .. | .cardSeed2 .. | .spicntSpidata ..
  | .exmemcnt .. | .ime .. | .ie .. | .ifReg .. | .vramcntA .. | .vramcntB .. | .vramcntC .. | .vramcntD ..
  | .vramcntE .. | .vramcntF .. | .vramcntG .. | .wramcnt .. | .vramcntH .. | .vramcntI .. | .vramstat ..
  | .wramstat .. | .divcnt .. | .divNumer .. | .divDenom .. | .divResult .. | .divremResult .. | .sqrtcnt ..
  | .sqrtResult .. | .sqrtParam .. | .postflgHaltcntPowcnt .. | .render3d .. | .render3d2 .. | .render3d3 ..
  | .geomPorts .. | .sound .. | .sound2 .. | .gxstat .. | .dispcntB .. | .bg0cntB .. | .bg1cntB ..
  | .bg2cntB .. | .bg3cntB .. | .win0hB .. | .win1hB .. | .win0vB .. | .win1vB .. | .wininB .. | .winoutB ..
  | .bldcntB .. | .bldalphaB .. | .bldyB .. | .ipcfiforecv .. | .cardDataIn .. | .wifiWindow ..
  | .onRegisterWrite .. | .onRegisterRead .. | .programChannel .. | .execute .. | .setReload ..
  | .setControl .. | .writeSync .. | .fifoControl .. | .send .. | .recv .. | .setIME .. | .setIE .. | .setIF ..
  | .clearIF .. => true

end Sys2Proof
end

