-- ==== Sys2Proof/Machine/Requests.lean ====
section
/-! DEFINITION. The meanings of the requests, 30_encoding.md R82: the six accesses, TICK, TRIGGER, RAISEIRQ, and the
host's table, cartridge, load and reset operations. -/

namespace Sys2Proof.Machine

/-- READ8 (40_decode.md R117). -/
def execRead8 (c : Cpu) (addr : Word) (s : State) : Out :=
  finishValue (memRead c addr .w8 s)

/-- READ16 (R118). -/
def execRead16 (c : Cpu) (addr : Word) (s : State) : Out :=
  finishValue (memRead c addr .w16 s)

/-- READ32 (R119). -/
def execRead32 (c : Cpu) (addr : Word) (s : State) : Out :=
  finishValue (memRead c addr .w32 s)

/-- WRITE8 (R120). -/
def execWrite8 (c : Cpu) (addr v : Word) (s : State) : Out :=
  finish s (memWrite execute c addr .w8 v s)

/-- WRITE16 (R121). -/
def execWrite16 (c : Cpu) (addr v : Word) (s : State) : Out :=
  finish s (memWrite execute c addr .w16 v s)

/-- WRITE32 (R122). -/
def execWrite32 (c : Cpu) (addr v : Word) (s : State) : Out :=
  finish s (memWrite execute c addr .w32 v s)

/-- TICK (43_timers.md R213): the overflow counts are the result. -/
def execTick (c : Cpu) (n : Word) (s : State) : Out :=
  let r := tick c n s
  .next (r.2.answer (.overflows r.1.o0 r.1.o1 r.1.o2 r.1.o3))

/-- TRIGGER (42_dma.md R189); a reserved event code is refused (30_encoding.md R86). -/
def execTrigger (c : Cpu) (event : Byte) (s : State) : Out :=
  match Event.ofCode event with
  | none => finish s (refuse .badRequest s)
  | some e => finish s (trigger c e s)

/-- RAISEIRQ (45_irq_latch.md R262); a bit of 32 or more is refused (30_encoding.md R86). -/
def execRaiseirq (c : Cpu) (bit : Byte) (s : State) : Out :=
  if irqBitOk bit then .next (raiseIrq c bit.toNat s) else finish s (refuse .badRequest s)

/-- SETTCW (40_decode.md R112). -/
def execSettcw (v : Word) (s : State) : Out :=
  .next (setTcwBase v s)

/-- REMAP (R113). -/
def execRemap (c : Cpu) (index region : Byte) (mask : Word) (s : State) : Out :=
  finish s (remap .badRequest c index region mask s)

/-- MOUNT (R114); a size that is not a power of two of at least 4, or another number of bytes, is refused
(30_encoding.md R86). -/
def execMount (size : Word) (bytes : List Byte) (s : State) : Out :=
  if isRegionSize size && decide (bytes.length = size.toNat) then .next (mountCart size bytes s)
  else finish s (refuse .badRequest s)

/-- UNMOUNT (40_decode.md R115). -/
def execUnmount (s : State) : Out :=
  .next (unmountCart s)

/-- LOAD (R116). -/
def execLoad (region : Byte) (offset : Word) (bytes : List Byte) (s : State) : Out :=
  finish s (loadBytes region offset bytes s)

/-- RESET (70_reset_and_hazards.md R290). -/
def execReset (s : State) : Out :=
  .next (resetBus s)

end Sys2Proof.Machine
end

