-- ==== Sys2Proof/Machine/SystemRows.lean ====
section
/-! DEFINITION. The meanings of the register rows of the inter-processor, cartridge, backup, latch and system registers (41_io_dispatch.md R131, R137, R147 to R150, 44_ipc.md, 45_irq_latch.md). -/

namespace Sys2Proof.Machine

/-- KEY_SIO_RTC (R137): pure storage. -/
def execKeySioRtc (c : Cpu) (lane : BitVec 4) (acc : RegAccess) (s : State) : Out :=
  regAccess c (0x130 + lane.toNat) acc s

/-- IPCSYNC (R231): a write runs `WriteSync`. -/
def execIpcsync (c : Cpu) (lane : BitVec 2) (acc : RegAccess) (s : State) : Out :=
  regAccess c (0x180 + lane.toNat) acc s

/-- IPCFIFOCNT (R237): a write runs `FifoControl`. -/
def execIpcfifocnt (c : Cpu) (lane : BitVec 2) (acc : RegAccess) (s : State) : Out :=
  regAccess c (0x184 + lane.toNat) acc s

/-- IPCFIFOSEND (R240): a write runs `Send`. -/
def execIpcfifosend (c : Cpu) (lane : BitVec 2) (acc : RegAccess) (s : State) : Out :=
  regAccess c (0x188 + lane.toNat) acc s

/-- AUXSPICNT (R147): a write forwards `BackupControl`. -/
def execAuxspicnt (c : Cpu) (lane : BitVec 1) (acc : RegAccess) (s : State) : Out :=
  regAccess c (0x1A0 + lane.toNat) acc s

/-- AUXSPIDATA (R147): a write of its low byte runs `Transfer`. -/
def execAuxspidata (c : Cpu) (lane : BitVec 1) (acc : RegAccess) (s : State) : Out :=
  regAccess c (0x1A2 + lane.toNat) acc s

/-- ROMCTRL (R148): a write forwards `CartControl`, a read asks `CartReadControl`. -/
def execRomctrl (c : Cpu) (lane : BitVec 2) (acc : RegAccess) (s : State) : Out :=
  regAccess c (0x1A4 + lane.toNat) acc s

/-- CARD_COMMAND (R150): pure storage. -/
def execCardCommand (c : Cpu) (lane : BitVec 3) (acc : RegAccess) (s : State) : Out :=
  regAccess c (0x1A8 + lane.toNat) acc s

/-- CARD_SEED (R137): pure storage. -/
def execCardSeed (c : Cpu) (lane : BitVec 3) (acc : RegAccess) (s : State) : Out :=
  regAccess c (0x1B0 + lane.toNat) acc s

/-- CARD_SEED_2 (R137): pure storage. -/
def execCardSeed2 (c : Cpu) (lane : BitVec 2) (acc : RegAccess) (s : State) : Out :=
  regAccess c (0x1B8 + lane.toNat) acc s

/-- SPICNT_SPIDATA (R137): pure storage. -/
def execSpicntSpidata (lane : BitVec 2) (acc : RegAccess) (s : State) : Out :=
  regAccess .c1 (0x1C0 + lane.toNat) acc s

/-- EXMEMCNT (R137): pure storage. -/
def execExmemcnt (c : Cpu) (lane : BitVec 1) (acc : RegAccess) (s : State) : Out :=
  regAccess c (0x204 + lane.toNat) acc s

/-- IME (R260): a write runs `SetIME`. -/
def execIme (c : Cpu) (lane : BitVec 2) (acc : RegAccess) (s : State) : Out :=
  regAccess c (0x208 + lane.toNat) acc s

/-- IE (R261): a write runs `SetIE`. -/
def execIe (c : Cpu) (lane : BitVec 2) (acc : RegAccess) (s : State) : Out :=
  regAccess c (0x210 + lane.toNat) acc s

/-- IF (R263): a write runs `ClearIF` on its written lanes. -/
def execIfReg (c : Cpu) (lane : BitVec 2) (acc : RegAccess) (s : State) : Out :=
  regAccess c (0x214 + lane.toNat) acc s

/-- POSTFLG_HALTCNT_POWCNT (R137): pure storage. -/
def execPostflgHaltcntPowcnt (c : Cpu) (lane : BitVec 4) (acc : RegAccess) (s : State) : Out :=
  regAccess c (0x300 + lane.toNat) acc s

/-- IPCFIFORECV (R241): a read runs `Recv`. -/
def execIpcfiforecv (c : Cpu) (lane : BitVec 2) (acc : RegAccess) (s : State) : Out :=
  regAccess c (0x100000 + lane.toNat) acc s

/-- CARD_DATA_IN (R149): a read asks `CartReadData`. -/
def execCardDataIn (c : Cpu) (lane : BitVec 2) (acc : RegAccess) (s : State) : Out :=
  regAccess c (0x100010 + lane.toNat) acc s

end Sys2Proof.Machine
end

