-- ==== Sys2Proof/Machine/TimerRows.lean ====
section
/-! DEFINITION. The meanings of the register rows of the registers of the timers (43_timers.md R210 to R214). -/

namespace Sys2Proof.Machine

/-- TM0CNT_L (R211): a write runs `SetReload`, a read gives the counter. -/
def execTm0cntL (c : Cpu) (lane : BitVec 1) (acc : RegAccess) (s : State) : Out :=
  regAccess c (0x100 + lane.toNat) acc s

/-- TM0CNT_H (R212): a write runs `SetControl`. -/
def execTm0cntH (c : Cpu) (lane : BitVec 1) (acc : RegAccess) (s : State) : Out :=
  regAccess c (0x102 + lane.toNat) acc s

/-- TM1CNT_L (R211): a write runs `SetReload`, a read gives the counter. -/
def execTm1cntL (c : Cpu) (lane : BitVec 1) (acc : RegAccess) (s : State) : Out :=
  regAccess c (0x104 + lane.toNat) acc s

/-- TM1CNT_H (R212): a write runs `SetControl`. -/
def execTm1cntH (c : Cpu) (lane : BitVec 1) (acc : RegAccess) (s : State) : Out :=
  regAccess c (0x106 + lane.toNat) acc s

/-- TM2CNT_L (R211): a write runs `SetReload`, a read gives the counter. -/
def execTm2cntL (c : Cpu) (lane : BitVec 1) (acc : RegAccess) (s : State) : Out :=
  regAccess c (0x108 + lane.toNat) acc s

/-- TM2CNT_H (R212): a write runs `SetControl`. -/
def execTm2cntH (c : Cpu) (lane : BitVec 1) (acc : RegAccess) (s : State) : Out :=
  regAccess c (0x10A + lane.toNat) acc s

/-- TM3CNT_L (R211): a write runs `SetReload`, a read gives the counter. -/
def execTm3cntL (c : Cpu) (lane : BitVec 1) (acc : RegAccess) (s : State) : Out :=
  regAccess c (0x10C + lane.toNat) acc s

/-- TM3CNT_H (R212): a write runs `SetControl`. -/
def execTm3cntH (c : Cpu) (lane : BitVec 1) (acc : RegAccess) (s : State) : Out :=
  regAccess c (0x10E + lane.toNat) acc s

end Sys2Proof.Machine
end

