-- ==== Sys2Proof/Machine/Dispatch.lean ====
section
/-! DEFINITION. The dispatch: one arm for each instruction, one direct call of its meaning. -/

namespace Sys2Proof.Machine

def exec (i : Instr) (s : State) : Host.Outcome State Fault Refusal :=
  match i with
  | .read8 c addr => Sys2Proof.Machine.execRead8 c addr s
  | .read16 c addr => Sys2Proof.Machine.execRead16 c addr s
  | .read32 c addr => Sys2Proof.Machine.execRead32 c addr s
  | .write8 c addr v => Sys2Proof.Machine.execWrite8 c addr v s
  | .write16 c addr v => Sys2Proof.Machine.execWrite16 c addr v s
  | .write32 c addr v => Sys2Proof.Machine.execWrite32 c addr v s
  | .tick c n => Sys2Proof.Machine.execTick c n s
  | .trigger c event => Sys2Proof.Machine.execTrigger c event s
  | .raiseirq c bit => Sys2Proof.Machine.execRaiseirq c bit s
  | .settcw v => Sys2Proof.Machine.execSettcw v s
  | .remap c index region mask => Sys2Proof.Machine.execRemap c index region mask s
  | .mount size bytes => Sys2Proof.Machine.execMount size bytes s
  | .unmount => Sys2Proof.Machine.execUnmount s
  | .load region offset bytes => Sys2Proof.Machine.execLoad region offset bytes s
  | .reset => Sys2Proof.Machine.execReset s
  | .dispcntA lane acc => Sys2Proof.Machine.execDispcntA lane acc s
  | .dispstat c lane acc => Sys2Proof.Machine.execDispstat c lane acc s
  | .vcount c lane acc => Sys2Proof.Machine.execVcount c lane acc s
  | .bg0cntA lane acc => Sys2Proof.Machine.execBg0cntA lane acc s
  | .bg1cntA lane acc => Sys2Proof.Machine.execBg1cntA lane acc s
  | .bg2cntA lane acc => Sys2Proof.Machine.execBg2cntA lane acc s
  | .bg3cntA lane acc => Sys2Proof.Machine.execBg3cntA lane acc s
  | .bgofsAffineA lane acc => Sys2Proof.Machine.execBgofsAffineA lane acc s
  | .bgofsAffineA2 lane acc => Sys2Proof.Machine.execBgofsAffineA2 lane acc s
  | .win0hA lane acc => Sys2Proof.Machine.execWin0hA lane acc s
  | .win1hA lane acc => Sys2Proof.Machine.execWin1hA lane acc s
  | .win0vA lane acc => Sys2Proof.Machine.execWin0vA lane acc s
  | .win1vA lane acc => Sys2Proof.Machine.execWin1vA lane acc s
  | .wininA lane acc => Sys2Proof.Machine.execWininA lane acc s
  | .winoutA lane acc => Sys2Proof.Machine.execWinoutA lane acc s
  | .mosaicA lane acc => Sys2Proof.Machine.execMosaicA lane acc s
  | .bldcntA lane acc => Sys2Proof.Machine.execBldcntA lane acc s
  | .bldalphaA lane acc => Sys2Proof.Machine.execBldalphaA lane acc s
  | .bldyA lane acc => Sys2Proof.Machine.execBldyA lane acc s
  | .disp3dcnt lane acc => Sys2Proof.Machine.execDisp3dcnt lane acc s
  | .dispcapcnt lane acc => Sys2Proof.Machine.execDispcapcnt lane acc s
  | .dispMmemFifo lane acc => Sys2Proof.Machine.execDispMmemFifo lane acc s
  | .masterBrightA lane acc => Sys2Proof.Machine.execMasterBrightA lane acc s
  | .dma0sad c lane acc => Sys2Proof.Machine.execDma0sad c lane acc s
  | .dma0dad c lane acc => Sys2Proof.Machine.execDma0dad c lane acc s
  | .dma0cnt c lane acc => Sys2Proof.Machine.execDma0cnt c lane acc s
  | .dma1sad c lane acc => Sys2Proof.Machine.execDma1sad c lane acc s
  | .dma1dad c lane acc => Sys2Proof.Machine.execDma1dad c lane acc s
  | .dma1cnt c lane acc => Sys2Proof.Machine.execDma1cnt c lane acc s
  | .dma2sad c lane acc => Sys2Proof.Machine.execDma2sad c lane acc s
  | .dma2dad c lane acc => Sys2Proof.Machine.execDma2dad c lane acc s
  | .dma2cnt c lane acc => Sys2Proof.Machine.execDma2cnt c lane acc s
  | .dma3sad c lane acc => Sys2Proof.Machine.execDma3sad c lane acc s
  | .dma3dad c lane acc => Sys2Proof.Machine.execDma3dad c lane acc s
  | .dma3cnt c lane acc => Sys2Proof.Machine.execDma3cnt c lane acc s
  | .dmaFill lane acc => Sys2Proof.Machine.execDmaFill lane acc s
  | .tm0cntL c lane acc => Sys2Proof.Machine.execTm0cntL c lane acc s
  | .tm0cntH c lane acc => Sys2Proof.Machine.execTm0cntH c lane acc s
  | .tm1cntL c lane acc => Sys2Proof.Machine.execTm1cntL c lane acc s
  | .tm1cntH c lane acc => Sys2Proof.Machine.execTm1cntH c lane acc s
  | .tm2cntL c lane acc => Sys2Proof.Machine.execTm2cntL c lane acc s
  | .tm2cntH c lane acc => Sys2Proof.Machine.execTm2cntH c lane acc s
  | .tm3cntL c lane acc => Sys2Proof.Machine.execTm3cntL c lane acc s
  | .tm3cntH c lane acc => Sys2Proof.Machine.execTm3cntH c lane acc s
  | .keySioRtc c lane acc => Sys2Proof.Machine.execKeySioRtc c lane acc s
  | .ipcsync c lane acc => Sys2Proof.Machine.execIpcsync c lane acc s
  | .ipcfifocnt c lane acc => Sys2Proof.Machine.execIpcfifocnt c lane acc s
  | .ipcfifosend c lane acc => Sys2Proof.Machine.execIpcfifosend c lane acc s
  | .auxspicnt c lane acc => Sys2Proof.Machine.execAuxspicnt c lane acc s
  | .auxspidata c lane acc => Sys2Proof.Machine.execAuxspidata c lane acc s
  | .romctrl c lane acc => Sys2Proof.Machine.execRomctrl c lane acc s
  | .cardCommand c lane acc => Sys2Proof.Machine.execCardCommand c lane acc s
  | .cardSeed c lane acc => Sys2Proof.Machine.execCardSeed c lane acc s
  | .cardSeed2 c lane acc => Sys2Proof.Machine.execCardSeed2 c lane acc s
  | .spicntSpidata lane acc => Sys2Proof.Machine.execSpicntSpidata lane acc s
  | .exmemcnt c lane acc => Sys2Proof.Machine.execExmemcnt c lane acc s
  | .ime c lane acc => Sys2Proof.Machine.execIme c lane acc s
  | .ie c lane acc => Sys2Proof.Machine.execIe c lane acc s
  | .ifReg c lane acc => Sys2Proof.Machine.execIfReg c lane acc s
  | .vramcntA acc => Sys2Proof.Machine.execVramcntA acc s
  | .vramcntB acc => Sys2Proof.Machine.execVramcntB acc s
  | .vramcntC acc => Sys2Proof.Machine.execVramcntC acc s
  | .vramcntD acc => Sys2Proof.Machine.execVramcntD acc s
  | .vramcntE acc => Sys2Proof.Machine.execVramcntE acc s
  | .vramcntF acc => Sys2Proof.Machine.execVramcntF acc s
  | .vramcntG acc => Sys2Proof.Machine.execVramcntG acc s
  | .wramcnt acc => Sys2Proof.Machine.execWramcnt acc s
  | .vramcntH acc => Sys2Proof.Machine.execVramcntH acc s
  | .vramcntI acc => Sys2Proof.Machine.execVramcntI acc s
  | .vramstat acc => Sys2Proof.Machine.execVramstat acc s
  | .wramstat acc => Sys2Proof.Machine.execWramstat acc s
  | .divcnt lane acc => Sys2Proof.Machine.execDivcnt lane acc s
  | .divNumer lane acc => Sys2Proof.Machine.execDivNumer lane acc s
  | .divDenom lane acc => Sys2Proof.Machine.execDivDenom lane acc s
  | .divResult lane acc => Sys2Proof.Machine.execDivResult lane acc s
  | .divremResult lane acc => Sys2Proof.Machine.execDivremResult lane acc s
  | .sqrtcnt lane acc => Sys2Proof.Machine.execSqrtcnt lane acc s
  | .sqrtResult lane acc => Sys2Proof.Machine.execSqrtResult lane acc s
  | .sqrtParam lane acc => Sys2Proof.Machine.execSqrtParam lane acc s
  | .postflgHaltcntPowcnt c lane acc => Sys2Proof.Machine.execPostflgHaltcntPowcnt c lane acc s
  | .render3d lane acc => Sys2Proof.Machine.execRender3d lane acc s
  | .render3d2 lane acc => Sys2Proof.Machine.execRender3d2 lane acc s
  | .render3d3 lane acc => Sys2Proof.Machine.execRender3d3 lane acc s
  | .geomPorts lane acc => Sys2Proof.Machine.execGeomPorts lane acc s
  | .sound lane acc => Sys2Proof.Machine.execSound lane acc s
  | .sound2 lane acc => Sys2Proof.Machine.execSound2 lane acc s
  | .gxstat lane acc => Sys2Proof.Machine.execGxstat lane acc s
  | .dispcntB lane acc => Sys2Proof.Machine.execDispcntB lane acc s
  | .bg0cntB lane acc => Sys2Proof.Machine.execBg0cntB lane acc s
  | .bg1cntB lane acc => Sys2Proof.Machine.execBg1cntB lane acc s
  | .bg2cntB lane acc => Sys2Proof.Machine.execBg2cntB lane acc s
  | .bg3cntB lane acc => Sys2Proof.Machine.execBg3cntB lane acc s
  | .win0hB lane acc => Sys2Proof.Machine.execWin0hB lane acc s
  | .win1hB lane acc => Sys2Proof.Machine.execWin1hB lane acc s
  | .win0vB lane acc => Sys2Proof.Machine.execWin0vB lane acc s
  | .win1vB lane acc => Sys2Proof.Machine.execWin1vB lane acc s
  | .wininB lane acc => Sys2Proof.Machine.execWininB lane acc s
  | .winoutB lane acc => Sys2Proof.Machine.execWinoutB lane acc s
  | .bldcntB lane acc => Sys2Proof.Machine.execBldcntB lane acc s
  | .bldalphaB lane acc => Sys2Proof.Machine.execBldalphaB lane acc s
  | .bldyB lane acc => Sys2Proof.Machine.execBldyB lane acc s
  | .ipcfiforecv c lane acc => Sys2Proof.Machine.execIpcfiforecv c lane acc s
  | .cardDataIn c lane acc => Sys2Proof.Machine.execCardDataIn c lane acc s
  | .wifiWindow lane acc => Sys2Proof.Machine.execWifiWindow lane acc s
  | .onRegisterWrite c offset w v => Sys2Proof.Machine.execOnRegisterWrite c offset w v s
  | .onRegisterRead c offset w => Sys2Proof.Machine.execOnRegisterRead c offset w s
  | .programChannel c ch v => Sys2Proof.Machine.execProgramChannel c ch v s
  | .execute c ch => Sys2Proof.Machine.execExecute c ch s
  | .setReload c t v => Sys2Proof.Machine.execSetReload c t v s
  | .setControl c t v => Sys2Proof.Machine.execSetControl c t v s
  | .writeSync c v => Sys2Proof.Machine.execWriteSync c v s
  | .fifoControl c v => Sys2Proof.Machine.execFifoControl c v s
  | .send c v => Sys2Proof.Machine.execSend c v s
  | .recv c => Sys2Proof.Machine.execRecv c s
  | .setIME c v => Sys2Proof.Machine.execSetIME c v s
  | .setIE c v => Sys2Proof.Machine.execSetIE c v s
  | .setIF c m => Sys2Proof.Machine.execSetIF c m s
  | .clearIF c m => Sys2Proof.Machine.execClearIF c m s

end Sys2Proof.Machine
end

