-- ==== Sys2Proof/Decode.lean ====
section
/-! DEFINITION. The decoder of the request stream and the encoder (30_encoding.md). The decoder is total on any bytes,
returns the instruction and the bytes after it, and rejects by name. -/

namespace Sys2Proof

/-- Why a request spells nothing (30_encoding.md R86). -/
inductive Reject where
  /-- class 0xB to 0xF -/
  | reservedClass
  /-- wcode 0 for READ or WRITE, non-zero for any other class -/
  | badWidthCode
  /-- a reserved bit that is 1 -/
  | reservedBit
  /-- cpu bit 1 for SETTCW, MOUNT, UNMOUNT, LOAD or RESET -/
  | badCpu
  /-- fewer bytes than the operands say -/
  | truncated
  /-- a key that is in no row of the register map -/
  | noSuchRegister
  /-- an operand of a contract call outside its range -/
  | badOperand
  /-- a number that names no contract -/
  | noSuchContract
  deriving DecidableEq, Repr, Inhabited

/-- A reader: a value and the bytes after it. -/
abbrev Parsed (α : Type) := Except Reject (α × List Byte)

/-- Reads a value and goes on with the bytes after it; a rejection ends the reading. -/
def thenRead {α β : Type} (p : Parsed α) (f : α → List Byte → Parsed β) : Parsed β :=
  match p with
  | .ok (a, r) => f a r
  | .error e => .error e

/-- One `u8` operand (R83). -/
def need8 : List Byte → Parsed Byte
  | b :: bs => .ok (b, bs)
  | [] => .error .truncated

/-- One `u16` operand, little-endian (R93). -/
def need16 : List Byte → Parsed Half
  | a :: b :: bs => .ok (BitVec.ofNat 16 (leValue [a, b]), bs)
  | _ => .error .truncated

/-- One `u32` operand, little-endian (R93). -/
def need32 : List Byte → Parsed Word
  | a :: b :: c :: d :: bs => .ok (BitVec.ofNat 32 (leValue [a, b, c, d]), bs)
  | _ => .error .truncated

/-- The bytes of a MOUNT or LOAD (R83). -/
def needBytes (k : Nat) (bs : List Byte) : Parsed (List Byte) :=
  if bs.length < k then .error .truncated else .ok (bs.take k, bs.drop k)

/-- The CPU of a cpu bit (R81). -/
def cpuOfBit (x : Nat) : Cpu :=
  if x % 2 = 0 then .c0 else .c1

/-- The width of a wcode (R81). -/
def widthOfCode : Nat → Option Width
  | 1 => some .w8
  | 2 => some .w16
  | 3 => some .w32
  | _ => none

/-- The wcode of a width (R81). -/
def Width.code : Width → Nat
  | .w8 => 1
  | .w16 => 2
  | .w32 => 3

/-- The READ of a width (R82). -/
def readOf : Width → Cpu → Word → Instr
  | .w8, c, a => .read8 c a
  | .w16, c, a => .read16 c a
  | .w32, c, a => .read32 c a

/-- The WRITE of a width (R82). -/
def writeOf : Width → Cpu → Word → Word → Instr
  | .w8, c, a, v => .write8 c a v
  | .w16, c, a, v => .write16 c a v
  | .w32, c, a, v => .write32 c a v

/-- The operands of a READ (R83). -/
def decodeRead (wcode : Nat) (c : Cpu) (bs : List Byte) : Parsed Instr :=
  match widthOfCode wcode with
  | none => .error .badWidthCode
  | some w =>
    thenRead (need32 bs) fun a r =>
    .ok (readOf w c a, r)

/-- The operands of a WRITE (R83). -/
def decodeWrite (wcode : Nat) (c : Cpu) (bs : List Byte) : Parsed Instr :=
  match widthOfCode wcode with
  | none => .error .badWidthCode
  | some w =>
    thenRead (need32 bs) fun a r =>
    thenRead (need32 r) fun v r =>
    .ok (writeOf w c a v, r)

/-- The operands of the classes that admit either CPU and no width: TICK, TRIGGER, RAISEIRQ, REMAP (R82, R83). -/
def decodePerCpu (cls : Nat) (c : Cpu) (bs : List Byte) : Parsed Instr :=
  match cls with
  | 2 =>
    thenRead (need32 bs) fun n r =>
    .ok (.tick c n, r)
  | 3 =>
    thenRead (need8 bs) fun e r =>
    .ok (.trigger c e, r)
  | 4 =>
    thenRead (need8 bs) fun b r =>
    .ok (.raiseirq c b, r)
  | _ =>
    thenRead (need8 bs) fun i r =>
    thenRead (need8 r) fun g r =>
    thenRead (need32 r) fun m r =>
    .ok (.remap c i g m, r)

/-- The operands of the classes that admit CPU bit 0 only: SETTCW, MOUNT, UNMOUNT, LOAD, RESET (R82, R83). -/
def decodeHost (cls : Nat) (bs : List Byte) : Parsed Instr :=
  match cls with
  | 5 =>
    thenRead (need32 bs) fun v r =>
    .ok (.settcw v, r)
  | 7 =>
    thenRead (need32 bs) fun n r =>
    thenRead (needBytes n.toNat r) fun bytes r =>
    .ok (.mount n bytes, r)
  | 8 => .ok (.unmount, bs)
  | 9 =>
    thenRead (need8 bs) fun g r =>
    thenRead (need32 r) fun o r =>
    thenRead (need32 r) fun k r =>
    thenRead (needBytes k.toNat r) fun bytes r =>
    .ok (.load g o bytes, r)
  | _ => .ok (.reset, bs)

/-- A request at the bus port: the opcode byte of R81 by its class (R82), then the operands of R83. -/
def decodeBus : List Byte → Parsed Instr
  | [] => .error .truncated
  | op :: bs =>
    let cls := op.toNat / 16
    let wcode := op.toNat / 4 % 4
    let c := cpuOfBit op.toNat
    if 11 ≤ cls then .error .reservedClass
    else if op.toNat / 2 % 2 = 1 then .error .reservedBit
    else if cls = 0 then decodeRead wcode c bs
    else if cls = 1 then decodeWrite wcode c bs
    else if wcode ≠ 0 then .error .badWidthCode
    else if cls = 2 ∨ cls = 3 ∨ cls = 4 ∨ cls = 6 then decodePerCpu cls c bs
    else if c = .c1 then .error .badCpu
    else decodeHost cls bs

/-- A row of the register map: the CPUs it exists on, its offset and size, and the instruction of a byte lane and an
access (41_io_dispatch.md R131, 30_encoding.md R89). -/
structure KeyRow where
  cpus : Option Cpu
  lo : Nat
  size : Nat
  make : Cpu → Nat → RegAccess → Instr

/-- The rows of engine A (R131). -/
def displayKeys : List KeyRow :=
  [ ⟨some .c0, 0x0, 4, fun _ j a => .dispcntA (BitVec.ofNat 2 j) a⟩
  , ⟨none, 0x4, 2, fun c j a => .dispstat c (BitVec.ofNat 1 j) a⟩
  , ⟨none, 0x6, 2, fun c j a => .vcount c (BitVec.ofNat 1 j) a⟩
  , ⟨some .c0, 0x8, 2, fun _ j a => .bg0cntA (BitVec.ofNat 1 j) a⟩
  , ⟨some .c0, 0xA, 2, fun _ j a => .bg1cntA (BitVec.ofNat 1 j) a⟩
  , ⟨some .c0, 0xC, 2, fun _ j a => .bg2cntA (BitVec.ofNat 1 j) a⟩
  , ⟨some .c0, 0xE, 2, fun _ j a => .bg3cntA (BitVec.ofNat 1 j) a⟩
  , ⟨some .c0, 0x10, 16, fun _ j a => .bgofsAffineA (BitVec.ofNat 4 j) a⟩
  , ⟨some .c0, 0x20, 32, fun _ j a => .bgofsAffineA2 (BitVec.ofNat 5 j) a⟩
  , ⟨some .c0, 0x40, 2, fun _ j a => .win0hA (BitVec.ofNat 1 j) a⟩
  , ⟨some .c0, 0x42, 2, fun _ j a => .win1hA (BitVec.ofNat 1 j) a⟩
  , ⟨some .c0, 0x44, 2, fun _ j a => .win0vA (BitVec.ofNat 1 j) a⟩
  , ⟨some .c0, 0x46, 2, fun _ j a => .win1vA (BitVec.ofNat 1 j) a⟩
  , ⟨some .c0, 0x48, 2, fun _ j a => .wininA (BitVec.ofNat 1 j) a⟩
  , ⟨some .c0, 0x4A, 2, fun _ j a => .winoutA (BitVec.ofNat 1 j) a⟩
  , ⟨some .c0, 0x4C, 2, fun _ j a => .mosaicA (BitVec.ofNat 1 j) a⟩
  , ⟨some .c0, 0x50, 2, fun _ j a => .bldcntA (BitVec.ofNat 1 j) a⟩
  , ⟨some .c0, 0x52, 2, fun _ j a => .bldalphaA (BitVec.ofNat 1 j) a⟩
  , ⟨some .c0, 0x54, 2, fun _ j a => .bldyA (BitVec.ofNat 1 j) a⟩
  , ⟨some .c0, 0x60, 2, fun _ j a => .disp3dcnt (BitVec.ofNat 1 j) a⟩
  , ⟨some .c0, 0x64, 4, fun _ j a => .dispcapcnt (BitVec.ofNat 2 j) a⟩
  , ⟨some .c0, 0x68, 4, fun _ j a => .dispMmemFifo (BitVec.ofNat 2 j) a⟩
  , ⟨some .c0, 0x6C, 2, fun _ j a => .masterBrightA (BitVec.ofNat 1 j) a⟩ ]

/-- The rows of the DMA channels and the fill data (R131). -/
def dmaKeys : List KeyRow :=
  [ ⟨none, 0xB0, 4, fun c j a => .dma0sad c (BitVec.ofNat 2 j) a⟩
  , ⟨none, 0xB4, 4, fun c j a => .dma0dad c (BitVec.ofNat 2 j) a⟩
  , ⟨none, 0xB8, 4, fun c j a => .dma0cnt c (BitVec.ofNat 2 j) a⟩
  , ⟨none, 0xBC, 4, fun c j a => .dma1sad c (BitVec.ofNat 2 j) a⟩
  , ⟨none, 0xC0, 4, fun c j a => .dma1dad c (BitVec.ofNat 2 j) a⟩
  , ⟨none, 0xC4, 4, fun c j a => .dma1cnt c (BitVec.ofNat 2 j) a⟩
  , ⟨none, 0xC8, 4, fun c j a => .dma2sad c (BitVec.ofNat 2 j) a⟩
  , ⟨none, 0xCC, 4, fun c j a => .dma2dad c (BitVec.ofNat 2 j) a⟩
  , ⟨none, 0xD0, 4, fun c j a => .dma2cnt c (BitVec.ofNat 2 j) a⟩
  , ⟨none, 0xD4, 4, fun c j a => .dma3sad c (BitVec.ofNat 2 j) a⟩
  , ⟨none, 0xD8, 4, fun c j a => .dma3dad c (BitVec.ofNat 2 j) a⟩
  , ⟨none, 0xDC, 4, fun c j a => .dma3cnt c (BitVec.ofNat 2 j) a⟩
  , ⟨some .c0, 0xE0, 16, fun _ j a => .dmaFill (BitVec.ofNat 4 j) a⟩ ]

/-- The rows of the timers, the inter-processor channel, the cartridge port and the interrupt latch (R131). -/
def systemKeys : List KeyRow :=
  [ ⟨none, 0x100, 2, fun c j a => .tm0cntL c (BitVec.ofNat 1 j) a⟩
  , ⟨none, 0x102, 2, fun c j a => .tm0cntH c (BitVec.ofNat 1 j) a⟩
  , ⟨none, 0x104, 2, fun c j a => .tm1cntL c (BitVec.ofNat 1 j) a⟩
  , ⟨none, 0x106, 2, fun c j a => .tm1cntH c (BitVec.ofNat 1 j) a⟩
  , ⟨none, 0x108, 2, fun c j a => .tm2cntL c (BitVec.ofNat 1 j) a⟩
  , ⟨none, 0x10A, 2, fun c j a => .tm2cntH c (BitVec.ofNat 1 j) a⟩
  , ⟨none, 0x10C, 2, fun c j a => .tm3cntL c (BitVec.ofNat 1 j) a⟩
  , ⟨none, 0x10E, 2, fun c j a => .tm3cntH c (BitVec.ofNat 1 j) a⟩
  , ⟨none, 0x130, 16, fun c j a => .keySioRtc c (BitVec.ofNat 4 j) a⟩
  , ⟨none, 0x180, 4, fun c j a => .ipcsync c (BitVec.ofNat 2 j) a⟩
  , ⟨none, 0x184, 4, fun c j a => .ipcfifocnt c (BitVec.ofNat 2 j) a⟩
  , ⟨none, 0x188, 4, fun c j a => .ipcfifosend c (BitVec.ofNat 2 j) a⟩
  , ⟨none, 0x1A0, 2, fun c j a => .auxspicnt c (BitVec.ofNat 1 j) a⟩
  , ⟨none, 0x1A2, 2, fun c j a => .auxspidata c (BitVec.ofNat 1 j) a⟩
  , ⟨none, 0x1A4, 4, fun c j a => .romctrl c (BitVec.ofNat 2 j) a⟩
  , ⟨none, 0x1A8, 8, fun c j a => .cardCommand c (BitVec.ofNat 3 j) a⟩
  , ⟨none, 0x1B0, 8, fun c j a => .cardSeed c (BitVec.ofNat 3 j) a⟩
  , ⟨none, 0x1B8, 4, fun c j a => .cardSeed2 c (BitVec.ofNat 2 j) a⟩
  , ⟨some .c1, 0x1C0, 4, fun _ j a => .spicntSpidata (BitVec.ofNat 2 j) a⟩
  , ⟨none, 0x204, 2, fun c j a => .exmemcnt c (BitVec.ofNat 1 j) a⟩
  , ⟨none, 0x208, 4, fun c j a => .ime c (BitVec.ofNat 2 j) a⟩
  , ⟨none, 0x210, 4, fun c j a => .ie c (BitVec.ofNat 2 j) a⟩
  , ⟨none, 0x214, 4, fun c j a => .ifReg c (BitVec.ofNat 2 j) a⟩ ]

/-- The rows of the map control, the divider and the square root (R131). -/
def mapKeys : List KeyRow :=
  [ ⟨some .c0, 0x240, 1, fun _ _ a => .vramcntA a⟩
  , ⟨some .c0, 0x241, 1, fun _ _ a => .vramcntB a⟩
  , ⟨some .c0, 0x242, 1, fun _ _ a => .vramcntC a⟩
  , ⟨some .c0, 0x243, 1, fun _ _ a => .vramcntD a⟩
  , ⟨some .c0, 0x244, 1, fun _ _ a => .vramcntE a⟩
  , ⟨some .c0, 0x245, 1, fun _ _ a => .vramcntF a⟩
  , ⟨some .c0, 0x246, 1, fun _ _ a => .vramcntG a⟩
  , ⟨some .c0, 0x247, 1, fun _ _ a => .wramcnt a⟩
  , ⟨some .c0, 0x248, 1, fun _ _ a => .vramcntH a⟩
  , ⟨some .c0, 0x249, 1, fun _ _ a => .vramcntI a⟩
  , ⟨some .c1, 0x240, 1, fun _ _ a => .vramstat a⟩
  , ⟨some .c1, 0x241, 1, fun _ _ a => .wramstat a⟩
  , ⟨some .c0, 0x280, 2, fun _ j a => .divcnt (BitVec.ofNat 1 j) a⟩
  , ⟨some .c0, 0x290, 8, fun _ j a => .divNumer (BitVec.ofNat 3 j) a⟩
  , ⟨some .c0, 0x298, 8, fun _ j a => .divDenom (BitVec.ofNat 3 j) a⟩
  , ⟨some .c0, 0x2A0, 8, fun _ j a => .divResult (BitVec.ofNat 3 j) a⟩
  , ⟨some .c0, 0x2A8, 8, fun _ j a => .divremResult (BitVec.ofNat 3 j) a⟩
  , ⟨some .c0, 0x2B0, 2, fun _ j a => .sqrtcnt (BitVec.ofNat 1 j) a⟩
  , ⟨some .c0, 0x2B4, 4, fun _ j a => .sqrtResult (BitVec.ofNat 2 j) a⟩
  , ⟨some .c0, 0x2B8, 8, fun _ j a => .sqrtParam (BitVec.ofNat 3 j) a⟩ ]

/-- The rows of the power registers, the 3D engine and the sound controller (R131). -/
def renderKeys : List KeyRow :=
  [ ⟨none, 0x300, 16, fun c j a => .postflgHaltcntPowcnt c (BitVec.ofNat 4 j) a⟩
  , ⟨some .c0, 0x320, 32, fun _ j a => .render3d (BitVec.ofNat 5 j) a⟩
  , ⟨some .c0, 0x340, 64, fun _ j a => .render3d2 (BitVec.ofNat 6 j) a⟩
  , ⟨some .c0, 0x380, 128, fun _ j a => .render3d3 (BitVec.ofNat 7 j) a⟩
  , ⟨some .c0, 0x400, 512, fun _ j a => .geomPorts (BitVec.ofNat 9 j) a⟩
  , ⟨some .c1, 0x400, 256, fun _ j a => .sound (BitVec.ofNat 8 j) a⟩
  , ⟨some .c1, 0x500, 32, fun _ j a => .sound2 (BitVec.ofNat 5 j) a⟩
  , ⟨some .c0, 0x600, 4, fun _ j a => .gxstat (BitVec.ofNat 2 j) a⟩ ]

/-- The rows of engine B (R131, R143). -/
def engineBKeys : List KeyRow :=
  [ ⟨some .c0, 0x1000, 4, fun _ j a => .dispcntB (BitVec.ofNat 2 j) a⟩
  , ⟨some .c0, 0x1008, 2, fun _ j a => .bg0cntB (BitVec.ofNat 1 j) a⟩
  , ⟨some .c0, 0x100A, 2, fun _ j a => .bg1cntB (BitVec.ofNat 1 j) a⟩
  , ⟨some .c0, 0x100C, 2, fun _ j a => .bg2cntB (BitVec.ofNat 1 j) a⟩
  , ⟨some .c0, 0x100E, 2, fun _ j a => .bg3cntB (BitVec.ofNat 1 j) a⟩
  , ⟨some .c0, 0x1040, 2, fun _ j a => .win0hB (BitVec.ofNat 1 j) a⟩
  , ⟨some .c0, 0x1042, 2, fun _ j a => .win1hB (BitVec.ofNat 1 j) a⟩
  , ⟨some .c0, 0x1044, 2, fun _ j a => .win0vB (BitVec.ofNat 1 j) a⟩
  , ⟨some .c0, 0x1046, 2, fun _ j a => .win1vB (BitVec.ofNat 1 j) a⟩
  , ⟨some .c0, 0x1048, 2, fun _ j a => .wininB (BitVec.ofNat 1 j) a⟩
  , ⟨some .c0, 0x104A, 2, fun _ j a => .winoutB (BitVec.ofNat 1 j) a⟩
  , ⟨some .c0, 0x1050, 2, fun _ j a => .bldcntB (BitVec.ofNat 1 j) a⟩
  , ⟨some .c0, 0x1052, 2, fun _ j a => .bldalphaB (BitVec.ofNat 1 j) a⟩
  , ⟨some .c0, 0x1054, 2, fun _ j a => .bldyB (BitVec.ofNat 1 j) a⟩ ]

/-- The rows above 0x100000 (R131). -/
def highKeys : List KeyRow :=
  [ ⟨none, 0x100000, 4, fun c j a => .ipcfiforecv c (BitVec.ofNat 2 j) a⟩
  , ⟨none, 0x100010, 4, fun c j a => .cardDataIn c (BitVec.ofNat 2 j) a⟩
  , ⟨some .c1, 0x800000, 8388608, fun _ j a => .wifiWindow (BitVec.ofNat 23 j) a⟩ ]

/-- The register rows of the opcode table. -/
def keyRows : List KeyRow :=
  displayKeys ++ (dmaKeys ++ (systemKeys ++ (mapKeys ++ (renderKeys ++ (engineBKeys ++ highKeys)))))

/-- Whether a row holds an offset of a CPU's window. -/
def KeyRow.holds (k : KeyRow) (c : Cpu) (o : Nat) : Bool :=
  (k.cpus = none || k.cpus = some c) && decide (k.lo ≤ o) && decide (o < k.lo + k.size)

/-- The row of a key (R89). -/
def rowAt (c : Cpu) (o : Nat) : Option KeyRow :=
  keyRows.find? (fun k => k.holds c o)

/-- A call at the register port: a u32 with the key in bits 24:0 (R89), the width in bits 26:25 (0, 1, 2 for 8, 16, 32
bits) and the direction in bit 27 (1 for a write), then the u32 value of a write. DESIGN CHOICE, log entry 2. -/
def decodeRegister (bs : List Byte) : Parsed Instr :=
  thenRead (need32 bs) fun k r =>
  let o := k.toNat % 2 ^ 24
  let c := cpuOfBit (k.toNat / 2 ^ 24)
  if k.toNat / 2 ^ 28 ≠ 0 then .error .reservedBit
  else
    match widthOfCode (k.toNat / 2 ^ 25 % 4 + 1) with
    | none => .error .badWidthCode
    | some w =>
      match rowAt c o with
      | none => .error .noSuchRegister
      | some row =>
        if k.toNat / 2 ^ 27 % 2 = 0 then .ok (row.make c (o - row.lo) (.read w), r)
        else
          thenRead (need32 r) fun v r =>
          .ok (row.make c (o - row.lo) (.write w v), r)

/-- A channel or timer number of a contract call. -/
def need4 (bs : List Byte) : Parsed (Fin 4) :=
  thenRead (need8 bs) fun b r =>
  if h : b.toNat < 4 then .ok (⟨b.toNat, h⟩, r) else .error .badOperand

/-- A CPU number of a contract call. -/
def needCpu (bs : List Byte) : Parsed Cpu :=
  thenRead (need8 bs) fun b r =>
  if b.toNat < 2 then .ok (cpuOfBit b.toNat, r) else .error .badOperand

/-- A width of a contract call, by its wcode. -/
def needWidth (bs : List Byte) : Parsed Width :=
  thenRead (need8 bs) fun b r =>
  match widthOfCode b.toNat with
  | none => .error .badOperand
  | some w => .ok (w, r)

/-- A register-window offset of a contract call. -/
def needOffset (bs : List Byte) : Parsed (BitVec 24) :=
  thenRead (need32 bs) fun o r =>
  if o.toNat < 2 ^ 24 then .ok (BitVec.ofNat 24 o.toNat, r) else .error .badOperand

/-- The contracts that take a CPU and a u32. -/
def decodeValueCall (mk : Cpu → Word → Instr) (c : Cpu) (bs : List Byte) : Parsed Instr :=
  thenRead (need32 bs) fun v r =>
  .ok (mk c v, r)

/-- The contracts that take a CPU, a timer and a u16. -/
def decodeTimerCall (mk : Cpu → Fin 4 → Half → Instr) (c : Cpu) (bs : List Byte) : Parsed Instr :=
  thenRead (need4 bs) fun t r =>
  thenRead (need16 r) fun v r =>
  .ok (mk c t v, r)

/-- The arguments of the contract of a number, in the order of the opcode table. -/
def decodeCall (n : Nat) (c : Cpu) (bs : List Byte) : Parsed Instr :=
  match n with
  | 0 =>
    thenRead (needOffset bs) fun o r =>
    thenRead (needWidth r) fun w r =>
    thenRead (need32 r) fun v r =>
    .ok (.onRegisterWrite c o w v, r)
  | 1 =>
    thenRead (needOffset bs) fun o r =>
    thenRead (needWidth r) fun w r =>
    .ok (.onRegisterRead c o w, r)
  | 2 =>
    thenRead (need4 bs) fun ch r =>
    thenRead (need32 r) fun v r =>
    .ok (.programChannel c ch v, r)
  | 3 =>
    thenRead (need4 bs) fun ch r =>
    .ok (.execute c ch, r)
  | 4 => decodeTimerCall .setReload c bs
  | 5 => decodeTimerCall .setControl c bs
  | 6 => decodeValueCall .writeSync c bs
  | 7 => decodeValueCall .fifoControl c bs
  | 8 => decodeValueCall .send c bs
  | 9 => .ok (.recv c, bs)
  | 10 => decodeValueCall .setIME c bs
  | 11 => decodeValueCall .setIE c bs
  | 12 => decodeValueCall .setIF c bs
  | 13 => decodeValueCall .clearIF c bs
  | _ => .error .noSuchContract

/-- A call at the contract port: the contract's number, the CPU, then its arguments, little-endian. DESIGN CHOICE, log
entry 2. -/
def decodeContract (bs : List Byte) : Parsed Instr :=
  thenRead (need8 bs) fun n r =>
  thenRead (needCpu r) fun c r =>
  decodeCall n.toNat c r

/-- The decoder: the instruction at the head of a request, and the bytes after it. -/
def decode (q : Request) : Parsed Instr :=
  match q.port with
  | .bus => decodeBus q.bytes
  | .register => decodeRegister q.bytes
  | .contract => decodeContract q.bytes

/-- The opcode byte of a class, wcode and CPU (R81). -/
def opcode (cls wcode : Nat) (c : Cpu) : Byte :=
  BitVec.ofNat 8 (16 * cls + 4 * wcode + c.bit)

/-- A request at the bus port. -/
def busRequest (cls wcode : Nat) (c : Cpu) (operands : List Byte) : Request :=
  ⟨.bus, opcode cls wcode c :: operands⟩

/-- The bytes of a u32 operand. -/
def word4 (v : Word) : List Byte :=
  leBytes 4 v.toNat

/-- The bytes of a u16 operand. -/
def half2 (v : Half) : List Byte :=
  leBytes 2 v.toNat

/-- A call at the register port. -/
def registerRequest (c : Cpu) (o : Nat) (acc : RegAccess) : Request :=
  match acc with
  | .read w => ⟨.register, leBytes 4 (o + 2 ^ 24 * c.bit + 2 ^ 25 * (w.code - 1))⟩
  | .write w v => ⟨.register, leBytes 4 (o + 2 ^ 24 * c.bit + 2 ^ 25 * (w.code - 1) + 2 ^ 27) ++ word4 v⟩

/-- A call at the contract port. -/
def contractRequest (n : Nat) (c : Cpu) (args : List Byte) : Request :=
  ⟨.contract, BitVec.ofNat 8 n :: BitVec.ofNat 8 c.bit :: args⟩

/-- The encoder, written from R82, R83, R89 and R131. -/
def encode : Instr → Request
  | .read8 c a => busRequest 0 1 c (word4 a)
  | .read16 c a => busRequest 0 2 c (word4 a)
  | .read32 c a => busRequest 0 3 c (word4 a)
  | .write8 c a v => busRequest 1 1 c (word4 a ++ word4 v)
  | .write16 c a v => busRequest 1 2 c (word4 a ++ word4 v)
  | .write32 c a v => busRequest 1 3 c (word4 a ++ word4 v)
  | .tick c n => busRequest 2 0 c (word4 n)
  | .trigger c e => busRequest 3 0 c [e]
  | .raiseirq c b => busRequest 4 0 c [b]
  | .settcw v => busRequest 5 0 .c0 (word4 v)
  | .remap c i g m => busRequest 6 0 c (i :: g :: word4 m)
  | .mount n bytes => busRequest 7 0 .c0 (word4 n ++ bytes)
  | .unmount => busRequest 8 0 .c0 []
  | .load g o bytes => busRequest 9 0 .c0 (g :: (word4 o ++ (leBytes 4 bytes.length ++ bytes)))
  | .reset => busRequest 10 0 .c0 []
  | .dispcntA j a => registerRequest .c0 (0x0 + j.toNat) a
  | .dispstat c j a => registerRequest c (0x4 + j.toNat) a
  | .vcount c j a => registerRequest c (0x6 + j.toNat) a
  | .bg0cntA j a => registerRequest .c0 (0x8 + j.toNat) a
  | .bg1cntA j a => registerRequest .c0 (0xA + j.toNat) a
  | .bg2cntA j a => registerRequest .c0 (0xC + j.toNat) a
  | .bg3cntA j a => registerRequest .c0 (0xE + j.toNat) a
  | .bgofsAffineA j a => registerRequest .c0 (0x10 + j.toNat) a
  | .bgofsAffineA2 j a => registerRequest .c0 (0x20 + j.toNat) a
  | .win0hA j a => registerRequest .c0 (0x40 + j.toNat) a
  | .win1hA j a => registerRequest .c0 (0x42 + j.toNat) a
  | .win0vA j a => registerRequest .c0 (0x44 + j.toNat) a
  | .win1vA j a => registerRequest .c0 (0x46 + j.toNat) a
  | .wininA j a => registerRequest .c0 (0x48 + j.toNat) a
  | .winoutA j a => registerRequest .c0 (0x4A + j.toNat) a
  | .mosaicA j a => registerRequest .c0 (0x4C + j.toNat) a
  | .bldcntA j a => registerRequest .c0 (0x50 + j.toNat) a
  | .bldalphaA j a => registerRequest .c0 (0x52 + j.toNat) a
  | .bldyA j a => registerRequest .c0 (0x54 + j.toNat) a
  | .disp3dcnt j a => registerRequest .c0 (0x60 + j.toNat) a
  | .dispcapcnt j a => registerRequest .c0 (0x64 + j.toNat) a
  | .dispMmemFifo j a => registerRequest .c0 (0x68 + j.toNat) a
  | .masterBrightA j a => registerRequest .c0 (0x6C + j.toNat) a
  | .dma0sad c j a => registerRequest c (0xB0 + j.toNat) a
  | .dma0dad c j a => registerRequest c (0xB4 + j.toNat) a
  | .dma0cnt c j a => registerRequest c (0xB8 + j.toNat) a
  | .dma1sad c j a => registerRequest c (0xBC + j.toNat) a
  | .dma1dad c j a => registerRequest c (0xC0 + j.toNat) a
  | .dma1cnt c j a => registerRequest c (0xC4 + j.toNat) a
  | .dma2sad c j a => registerRequest c (0xC8 + j.toNat) a
  | .dma2dad c j a => registerRequest c (0xCC + j.toNat) a
  | .dma2cnt c j a => registerRequest c (0xD0 + j.toNat) a
  | .dma3sad c j a => registerRequest c (0xD4 + j.toNat) a
  | .dma3dad c j a => registerRequest c (0xD8 + j.toNat) a
  | .dma3cnt c j a => registerRequest c (0xDC + j.toNat) a
  | .dmaFill j a => registerRequest .c0 (0xE0 + j.toNat) a
  | .tm0cntL c j a => registerRequest c (0x100 + j.toNat) a
  | .tm0cntH c j a => registerRequest c (0x102 + j.toNat) a
  | .tm1cntL c j a => registerRequest c (0x104 + j.toNat) a
  | .tm1cntH c j a => registerRequest c (0x106 + j.toNat) a
  | .tm2cntL c j a => registerRequest c (0x108 + j.toNat) a
  | .tm2cntH c j a => registerRequest c (0x10A + j.toNat) a
  | .tm3cntL c j a => registerRequest c (0x10C + j.toNat) a
  | .tm3cntH c j a => registerRequest c (0x10E + j.toNat) a
  | .keySioRtc c j a => registerRequest c (0x130 + j.toNat) a
  | .ipcsync c j a => registerRequest c (0x180 + j.toNat) a
  | .ipcfifocnt c j a => registerRequest c (0x184 + j.toNat) a
  | .ipcfifosend c j a => registerRequest c (0x188 + j.toNat) a
  | .auxspicnt c j a => registerRequest c (0x1A0 + j.toNat) a
  | .auxspidata c j a => registerRequest c (0x1A2 + j.toNat) a
  | .romctrl c j a => registerRequest c (0x1A4 + j.toNat) a
  | .cardCommand c j a => registerRequest c (0x1A8 + j.toNat) a
  | .cardSeed c j a => registerRequest c (0x1B0 + j.toNat) a
  | .cardSeed2 c j a => registerRequest c (0x1B8 + j.toNat) a
  | .spicntSpidata j a => registerRequest .c1 (0x1C0 + j.toNat) a
  | .exmemcnt c j a => registerRequest c (0x204 + j.toNat) a
  | .ime c j a => registerRequest c (0x208 + j.toNat) a
  | .ie c j a => registerRequest c (0x210 + j.toNat) a
  | .ifReg c j a => registerRequest c (0x214 + j.toNat) a
  | .vramcntA a => registerRequest .c0 0x240 a
  | .vramcntB a => registerRequest .c0 0x241 a
  | .vramcntC a => registerRequest .c0 0x242 a
  | .vramcntD a => registerRequest .c0 0x243 a
  | .vramcntE a => registerRequest .c0 0x244 a
  | .vramcntF a => registerRequest .c0 0x245 a
  | .vramcntG a => registerRequest .c0 0x246 a
  | .wramcnt a => registerRequest .c0 0x247 a
  | .vramcntH a => registerRequest .c0 0x248 a
  | .vramcntI a => registerRequest .c0 0x249 a
  | .vramstat a => registerRequest .c1 0x240 a
  | .wramstat a => registerRequest .c1 0x241 a
  | .divcnt j a => registerRequest .c0 (0x280 + j.toNat) a
  | .divNumer j a => registerRequest .c0 (0x290 + j.toNat) a
  | .divDenom j a => registerRequest .c0 (0x298 + j.toNat) a
  | .divResult j a => registerRequest .c0 (0x2A0 + j.toNat) a
  | .divremResult j a => registerRequest .c0 (0x2A8 + j.toNat) a
  | .sqrtcnt j a => registerRequest .c0 (0x2B0 + j.toNat) a
  | .sqrtResult j a => registerRequest .c0 (0x2B4 + j.toNat) a
  | .sqrtParam j a => registerRequest .c0 (0x2B8 + j.toNat) a
  | .postflgHaltcntPowcnt c j a => registerRequest c (0x300 + j.toNat) a
  | .render3d j a => registerRequest .c0 (0x320 + j.toNat) a
  | .render3d2 j a => registerRequest .c0 (0x340 + j.toNat) a
  | .render3d3 j a => registerRequest .c0 (0x380 + j.toNat) a
  | .geomPorts j a => registerRequest .c0 (0x400 + j.toNat) a
  | .sound j a => registerRequest .c1 (0x400 + j.toNat) a
  | .sound2 j a => registerRequest .c1 (0x500 + j.toNat) a
  | .gxstat j a => registerRequest .c0 (0x600 + j.toNat) a
  | .dispcntB j a => registerRequest .c0 (0x1000 + j.toNat) a
  | .bg0cntB j a => registerRequest .c0 (0x1008 + j.toNat) a
  | .bg1cntB j a => registerRequest .c0 (0x100A + j.toNat) a
  | .bg2cntB j a => registerRequest .c0 (0x100C + j.toNat) a
  | .bg3cntB j a => registerRequest .c0 (0x100E + j.toNat) a
  | .win0hB j a => registerRequest .c0 (0x1040 + j.toNat) a
  | .win1hB j a => registerRequest .c0 (0x1042 + j.toNat) a
  | .win0vB j a => registerRequest .c0 (0x1044 + j.toNat) a
  | .win1vB j a => registerRequest .c0 (0x1046 + j.toNat) a
  | .wininB j a => registerRequest .c0 (0x1048 + j.toNat) a
  | .winoutB j a => registerRequest .c0 (0x104A + j.toNat) a
  | .bldcntB j a => registerRequest .c0 (0x1050 + j.toNat) a
  | .bldalphaB j a => registerRequest .c0 (0x1052 + j.toNat) a
  | .bldyB j a => registerRequest .c0 (0x1054 + j.toNat) a
  | .ipcfiforecv c j a => registerRequest c (0x100000 + j.toNat) a
  | .cardDataIn c j a => registerRequest c (0x100010 + j.toNat) a
  | .wifiWindow j a => registerRequest .c1 (0x800000 + j.toNat) a
  | .onRegisterWrite c o w v => contractRequest 0 c (leBytes 4 o.toNat ++ BitVec.ofNat 8 w.code :: word4 v)
  | .onRegisterRead c o w => contractRequest 1 c (leBytes 4 o.toNat ++ [BitVec.ofNat 8 w.code])
  | .programChannel c ch v => contractRequest 2 c (BitVec.ofNat 8 ch.val :: word4 v)
  | .execute c ch => contractRequest 3 c [BitVec.ofNat 8 ch.val]
  | .setReload c t v => contractRequest 4 c (BitVec.ofNat 8 t.val :: half2 v)
  | .setControl c t v => contractRequest 5 c (BitVec.ofNat 8 t.val :: half2 v)
  | .writeSync c v => contractRequest 6 c (word4 v)
  | .fifoControl c v => contractRequest 7 c (word4 v)
  | .send c v => contractRequest 8 c (word4 v)
  | .recv c => contractRequest 9 c []
  | .setIME c v => contractRequest 10 c (word4 v)
  | .setIE c v => contractRequest 11 c (word4 v)
  | .setIF c m => contractRequest 12 c (word4 m)
  | .clearIF c m => contractRequest 13 c (word4 m)

/-- The request of a table word with all bits above `nbits` zero: a BUSOP row's word is its opcode byte, followed by
zero operands; a register or contract row's word is the register key it is reached by. -/
def tableRequest (nbits w : Nat) : Request :=
  if nbits ≤ 8 then ⟨.bus, BitVec.ofNat 8 w :: List.replicate 9 0⟩
  else ⟨.register, leBytes 4 w ++ List.replicate 4 0⟩

/-- The instruction the decoder reads from a table word. -/
def decodeTableWord (nbits w : Nat) : Option Instr :=
  match decode (tableRequest nbits w) with
  | .ok (i, _) => some i
  | .error _ => none

end Sys2Proof
end

