-- ==== Sys2Proof/Machine/Fetch.lean ====
section
/-! DEFINITION. How the next request is taken from the request stream. The bus has no program counter and fetches
nothing itself (10_state.md R22): the callers' requests wait in the state's input, in the order the host chose
(20_memory.md R73), and a step serves the first of them. -/

namespace Sys2Proof.Machine

/-- The request stream after an instruction was read from its first piece: the bytes after it stay first. -/
def restOfInput (q : Request) (rest : List Byte) (qs : List Request) : List Request :=
  if rest.isEmpty then qs else { q with bytes := rest } :: qs

/-- The state in which a request runs: it is taken from the stream, and it has returned nothing yet. -/
def afterFetch (input : List Request) (s : State) : State :=
  { s with input := input, reply := .none }

/-- The state after a request that spells nothing: marked refused, nothing else changed (30_encoding.md R86). Its piece
of the stream is dropped, since its end is unknown. -/
def refuseRequest (qs : List Request) (s : State) : State :=
  { afterFetch qs s with refused := true }

/-- The request of a table word, without the zero bytes after it. -/
def fetchRequest (nbits w : Nat) : Request :=
  let q := tableRequest nbits w
  match decode q with
  | .ok (_, rest) => { q with bytes := q.bytes.take (q.bytes.length - rest.length) }
  | .error _ => q

/-- Places the request of a table word first in the stream. -/
def placeRequest (q : Request) (s : State) : State :=
  { s with input := q :: s.input }

end Sys2Proof.Machine
end

