-- ==== Sys2Proof/Machine/Step.lean ====
section
/-! DEFINITION. One step of the bus: it serves the first request of the stream, to completion (00_scope.md R14,
20_memory.md R66). -/

namespace Sys2Proof.Machine

/-- One step. With no request waiting nothing happens: "every change of its state is caused by one request"
(10_state.md R22). -/
def step (s : State) : Host.Outcome State Fault Refusal :=
  match s.input with
  | [] => .next s
  | q :: qs =>
    match decode q with
    | .ok (i, rest) => exec i (afterFetch (restOfInput q rest qs) s)
    | .error _ => .next (refuseRequest qs s)

/-- The state whose next step runs the instruction of a table word. -/
def State.withFetchWord (s : State) (nbits w : Nat) : State :=
  placeRequest (fetchRequest nbits w) s

end Sys2Proof.Machine
end

