-- ==== Sys2Proof/Safety.lean ====
section
/-! DEFINITION. What the claims about the machine are stated in: bytes and frames, the rows of the register map, the
merged value of a narrow write, the kinds of registers, one timer cycle, and the invariants every step keeps. Written
from the rules, not from the meanings. -/

namespace Sys2Proof.Machine

/-! ### Bytes -/

/-- Byte `o` of a region (10_state.md R23). -/
def State.byte (s : State) (r : Region) (o : Nat) : Byte :=
  Memory.read s.mem (cellKey r o)

/-- Byte `o` of a CPU's raw register block (R29). -/
def State.ioByte (s : State) (c : Cpu) (o : Nat) : Byte :=
  s.byte (ioRegion c) o

/-- The little-endian value of `n` bytes (20_memory.md R60). -/
def bytesValue (n : Nat) (f : Nat → Byte) : Nat :=
  leValue ((List.range n).map f)

/-- A u32 reply made of `n` bytes, the bits above them zero (R65). -/
def replyOf (n : Nat) (f : Nat → Byte) : Reply :=
  .value (BitVec.ofNat 32 (bytesValue n f))

/-- Whether a key of the memory lies in the `n` bytes at an offset of a region. -/
def inBytes (r : Region) (o n k : Nat) : Prop :=
  cellKey r o ≤ k ∧ k < cellKey r o + n

/-- Every byte of every region outside a set of keys reads as before. -/
def SameOutside (s t : State) (p : Nat → Prop) : Prop :=
  ∀ k, ¬ p k → Memory.read t.mem k = Memory.read s.mem k

/-- The `n` bytes at an offset of a region hold a value, little-endian (R60). -/
def HoldsAt (t : State) (r : Region) (o n v : Nat) : Prop :=
  ∀ i, i < n → t.byte r (o + i) = byteAt v i

/-- The bus read of a width (40_decode.md R117 to R119). -/
abbrev readInstr : Width → Cpu → Word → Instr := readOf

/-- The bus write of a width (R120 to R122). -/
abbrev writeInstr : Width → Cpu → Word → Word → Instr := writeOf

/-! ### Addresses -/

/-- `addr & ~(n - 1)`, for an address or a window offset (20_memory.md R63). -/
def alignTo (w : Width) (a : Nat) : Nat :=
  a / w.bytes * w.bytes

/-- An address in the tightly-coupled window: CPU0 only, all 32 bits compared above the low 14 (40_decode.md R102). -/
def InTcw (s : State) (c : Cpu) (a : Nat) : Prop :=
  c = .c0 ∧ a / 2 ^ 14 = s.tcwBase.toNat / 2 ^ 14

/-- An address in the cartridge pass-through window, CART_PASS_RANGE of the configuration (R103). -/
def InPass (s : State) (a : Nat) : Prop :=
  s.config.cartPassFirst.toNat ≤ a % 2 ^ 28 ∧ a % 2 ^ 28 ≤ s.config.cartPassLast.toNat

/-- An address in the wireless window of CPU1 (R104). -/
def InWireless (c : Cpu) (a : Nat) : Prop :=
  c = .c1 ∧ 0x04800000 ≤ a % 2 ^ 28 ∧ a % 2 ^ 28 ≤ 0x04FFFFFF

/-- An address that no window takes, so that the table decides (R100). -/
def ThroughTable (s : State) (c : Cpu) (a : Nat) : Prop :=
  ¬ InTcw s c a ∧ ¬ InPass s a ∧ ¬ InWireless c a

/-- The table entry of an address, by its bits 27:20 (R105). -/
def entryOf (s : State) (c : Cpu) (a : Nat) : Entry :=
  s.entry c (BitVec.ofNat 8 (a / 2 ^ 20))

/-- An address that the table sends to byte `o` of region `r`: `a & e.mask & regionMask(r)` (R105). Addresses of the CPU's own
register window are those of `AtWindow`. -/
def AtRegion (s : State) (c : Cpu) (a : Nat) (r : Region) (o : Nat) : Prop :=
  ThroughTable s c a ∧ (entryOf s c a).region = r ∧
    ∃ size, regionSize s.config s.cart r = some size ∧ o = a &&& (entryOf s c a).mask.toNat &&& (size - 1)

/-- The register-window offset of an address under an entry with a mask: its low 24 bits where the mask keeps them; else
masked (40_decode.md R100) or not (30_encoding.md R91, 41_io_dispatch.md R130), which is open, log entry 22. -/
def windowOffsetOf (mask : Word) (a : Nat) : Nat :=
  if mask.toNat % 2 ^ 24 ≠ 2 ^ 24 - 1 ∧ Config.windowOffsetMasked = true then a &&& mask.toNat &&& (2 ^ 24 - 1)
  else a % 2 ^ 24

/-- An address that the table sends to offset `o` of the CPU's own register window (40_decode.md R108). -/
def AtWindow (s : State) (c : Cpu) (a o : Nat) : Prop :=
  ThroughTable s c a ∧ (entryOf s c a).region = ioRegion c ∧ o = windowOffsetOf (entryOf s c a).mask a

/-- The entry of INIT_TABLE at an index, with the cartridge's entry at 0x80 to 0x9F if one is mounted (R111,
70_reset_and_hazards.md R290). -/
def initEntryAt (g : BusConfig) (cart : Option Word) (c : Cpu) (i : Byte) : Entry :=
  match cart with
  | none => (g.table c)[i.toFin]
  | some size => if 0x80 ≤ i.toNat ∧ i.toNat < 0xA0 then ⟨.cartrom, size - 1⟩ else (g.table c)[i.toFin]

/-- The default INIT_TABLE (R111). -/
def defaultEntryAt (c : Cpu) (i : Nat) : Entry :=
  match c with
  | .c0 =>
    if i < 0x20 then ⟨.itcm, 0x7FFF⟩ else if i < 0x30 then ⟨.main, 0x3FFFFF⟩
    else if i < 0x40 then ⟨.swram, 0x7FFF⟩ else if i < 0x50 then ⟨.io0, 0xFFFFFF⟩
    else if i < 0x60 then ⟨.pal, 0x7FF⟩ else if i < 0x70 then ⟨.sink, 0⟩
    else if i < 0x80 then ⟨.oam, 0x7FF⟩ else if i < 0xFF then ⟨.sink, 0⟩ else ⟨.bios9, 0x7FFF⟩
  | .c1 =>
    if i < 0x20 then ⟨.bios7, 0x3FFF⟩ else if i < 0x30 then ⟨.main, 0x3FFFFF⟩
    else if i < 0x38 then ⟨.swram, 0x7FFF⟩ else if i < 0x40 then ⟨.wram7, 0xFFFF⟩
    else if i < 0x50 then ⟨.io1, 0xFFFFFF⟩ else ⟨.sink, 0⟩

/-- The default size of a region in KiB (10_state.md R23). -/
def defaultKiB : Region → Option Nat
  | .sink | .cartrom => none
  | .main => some 4096
  | .io0 | .io1 => some 16384
  | .vramA | .vramB | .vramC | .vramD => some 128
  | .wram7 | .vramE => some 64
  | .itcm | .swram | .vramH | .bios9 => some 32
  | .dtcm | .vramF | .vramG | .vramI | .bios7 => some 16
  | .pal | .oam => some 2

/-- A region code a REMAP of a CPU's table may not name (30_encoding.md R85). -/
def BadRemapCode (s : State) (c : Cpu) (code : Nat) : Prop :=
  22 ≤ code ∨ code = 2 ∨ (code = 6 ∧ c = .c1) ∨ (code = 7 ∧ c = .c0) ∨ (code = 21 ∧ s.cart = none)

/-! ### The register window -/

/-- The CPU, the window offset and the access of a register row (41_io_dispatch.md R131): the row's offset plus the lane.
The wireless window is not in the raw block and is no row here (40_decode.md R104). -/
def rowAccess : Instr → Option (Cpu × Nat × RegAccess)
  | .dispcntA j a => some (.c0, 0x0 + j.toNat, a)
  | .dispstat c j a => some (c, 0x4 + j.toNat, a)
  | .vcount c j a => some (c, 0x6 + j.toNat, a)
  | .bg0cntA j a => some (.c0, 0x8 + j.toNat, a)
  | .bg1cntA j a => some (.c0, 0xA + j.toNat, a)
  | .bg2cntA j a => some (.c0, 0xC + j.toNat, a)
  | .bg3cntA j a => some (.c0, 0xE + j.toNat, a)
  | .bgofsAffineA j a => some (.c0, 0x10 + j.toNat, a)
  | .bgofsAffineA2 j a => some (.c0, 0x20 + j.toNat, a)
  | .win0hA j a => some (.c0, 0x40 + j.toNat, a)
  | .win1hA j a => some (.c0, 0x42 + j.toNat, a)
  | .win0vA j a => some (.c0, 0x44 + j.toNat, a)
  | .win1vA j a => some (.c0, 0x46 + j.toNat, a)
  | .wininA j a => some (.c0, 0x48 + j.toNat, a)
  | .winoutA j a => some (.c0, 0x4A + j.toNat, a)
  | .mosaicA j a => some (.c0, 0x4C + j.toNat, a)
  | .bldcntA j a => some (.c0, 0x50 + j.toNat, a)
  | .bldalphaA j a => some (.c0, 0x52 + j.toNat, a)
  | .bldyA j a => some (.c0, 0x54 + j.toNat, a)
  | .disp3dcnt j a => some (.c0, 0x60 + j.toNat, a)
  | .dispcapcnt j a => some (.c0, 0x64 + j.toNat, a)
  | .dispMmemFifo j a => some (.c0, 0x68 + j.toNat, a)
  | .masterBrightA j a => some (.c0, 0x6C + j.toNat, a)
  | .dma0sad c j a => some (c, 0xB0 + j.toNat, a)
  | .dma0dad c j a => some (c, 0xB4 + j.toNat, a)
  | .dma0cnt c j a => some (c, 0xB8 + j.toNat, a)
  | .dma1sad c j a => some (c, 0xBC + j.toNat, a)
  | .dma1dad c j a => some (c, 0xC0 + j.toNat, a)
  | .dma1cnt c j a => some (c, 0xC4 + j.toNat, a)
  | .dma2sad c j a => some (c, 0xC8 + j.toNat, a)
  | .dma2dad c j a => some (c, 0xCC + j.toNat, a)
  | .dma2cnt c j a => some (c, 0xD0 + j.toNat, a)
  | .dma3sad c j a => some (c, 0xD4 + j.toNat, a)
  | .dma3dad c j a => some (c, 0xD8 + j.toNat, a)
  | .dma3cnt c j a => some (c, 0xDC + j.toNat, a)
  | .dmaFill j a => some (.c0, 0xE0 + j.toNat, a)
  | .tm0cntL c j a => some (c, 0x100 + j.toNat, a)
  | .tm0cntH c j a => some (c, 0x102 + j.toNat, a)
  | .tm1cntL c j a => some (c, 0x104 + j.toNat, a)
  | .tm1cntH c j a => some (c, 0x106 + j.toNat, a)
  | .tm2cntL c j a => some (c, 0x108 + j.toNat, a)
  | .tm2cntH c j a => some (c, 0x10A + j.toNat, a)
  | .tm3cntL c j a => some (c, 0x10C + j.toNat, a)
  | .tm3cntH c j a => some (c, 0x10E + j.toNat, a)
  | .keySioRtc c j a => some (c, 0x130 + j.toNat, a)
  | .ipcsync c j a => some (c, 0x180 + j.toNat, a)
  | .ipcfifocnt c j a => some (c, 0x184 + j.toNat, a)
  | .ipcfifosend c j a => some (c, 0x188 + j.toNat, a)
  | .auxspicnt c j a => some (c, 0x1A0 + j.toNat, a)
  | .auxspidata c j a => some (c, 0x1A2 + j.toNat, a)
  | .romctrl c j a => some (c, 0x1A4 + j.toNat, a)
  | .cardCommand c j a => some (c, 0x1A8 + j.toNat, a)
  | .cardSeed c j a => some (c, 0x1B0 + j.toNat, a)
  | .cardSeed2 c j a => some (c, 0x1B8 + j.toNat, a)
  | .spicntSpidata j a => some (.c1, 0x1C0 + j.toNat, a)
  | .exmemcnt c j a => some (c, 0x204 + j.toNat, a)
  | .ime c j a => some (c, 0x208 + j.toNat, a)
  | .ie c j a => some (c, 0x210 + j.toNat, a)
  | .ifReg c j a => some (c, 0x214 + j.toNat, a)
  | .vramcntA a => some (.c0, 0x240, a)
  | .vramcntB a => some (.c0, 0x241, a)
  | .vramcntC a => some (.c0, 0x242, a)
  | .vramcntD a => some (.c0, 0x243, a)
  | .vramcntE a => some (.c0, 0x244, a)
  | .vramcntF a => some (.c0, 0x245, a)
  | .vramcntG a => some (.c0, 0x246, a)
  | .wramcnt a => some (.c0, 0x247, a)
  | .vramcntH a => some (.c0, 0x248, a)
  | .vramcntI a => some (.c0, 0x249, a)
  | .vramstat a => some (.c1, 0x240, a)
  | .wramstat a => some (.c1, 0x241, a)
  | .divcnt j a => some (.c0, 0x280 + j.toNat, a)
  | .divNumer j a => some (.c0, 0x290 + j.toNat, a)
  | .divDenom j a => some (.c0, 0x298 + j.toNat, a)
  | .divResult j a => some (.c0, 0x2A0 + j.toNat, a)
  | .divremResult j a => some (.c0, 0x2A8 + j.toNat, a)
  | .sqrtcnt j a => some (.c0, 0x2B0 + j.toNat, a)
  | .sqrtResult j a => some (.c0, 0x2B4 + j.toNat, a)
  | .sqrtParam j a => some (.c0, 0x2B8 + j.toNat, a)
  | .postflgHaltcntPowcnt c j a => some (c, 0x300 + j.toNat, a)
  | .render3d j a => some (.c0, 0x320 + j.toNat, a)
  | .render3d2 j a => some (.c0, 0x340 + j.toNat, a)
  | .render3d3 j a => some (.c0, 0x380 + j.toNat, a)
  | .geomPorts j a => some (.c0, 0x400 + j.toNat, a)
  | .sound j a => some (.c1, 0x400 + j.toNat, a)
  | .sound2 j a => some (.c1, 0x500 + j.toNat, a)
  | .gxstat j a => some (.c0, 0x600 + j.toNat, a)
  | .dispcntB j a => some (.c0, 0x1000 + j.toNat, a)
  | .bg0cntB j a => some (.c0, 0x1008 + j.toNat, a)
  | .bg1cntB j a => some (.c0, 0x100A + j.toNat, a)
  | .bg2cntB j a => some (.c0, 0x100C + j.toNat, a)
  | .bg3cntB j a => some (.c0, 0x100E + j.toNat, a)
  | .win0hB j a => some (.c0, 0x1040 + j.toNat, a)
  | .win1hB j a => some (.c0, 0x1042 + j.toNat, a)
  | .win0vB j a => some (.c0, 0x1044 + j.toNat, a)
  | .win1vB j a => some (.c0, 0x1046 + j.toNat, a)
  | .wininB j a => some (.c0, 0x1048 + j.toNat, a)
  | .winoutB j a => some (.c0, 0x104A + j.toNat, a)
  | .bldcntB j a => some (.c0, 0x1050 + j.toNat, a)
  | .bldalphaB j a => some (.c0, 0x1052 + j.toNat, a)
  | .bldyB j a => some (.c0, 0x1054 + j.toNat, a)
  | .ipcfiforecv c j a => some (c, 0x100000 + j.toNat, a)
  | .cardDataIn c j a => some (c, 0x100010 + j.toNat, a)
  | .read8 .. | .read16 .. | .read32 .. | .write8 .. | .write16 .. | .write32 .. | .tick .. | .trigger .. => none
  | .raiseirq .. | .settcw .. | .remap .. | .mount .. | .unmount | .load .. | .reset | .wifiWindow .. => none
  | .onRegisterWrite .. | .onRegisterRead .. | .programChannel .. | .execute .. | .setReload .. => none
  | .setControl .. | .writeSync .. | .fifoControl .. | .send .. | .recv .. | .setIME .. | .setIE .. => none
  | .setIF .. | .clearIF .. => none

/-- The width of an access. -/
def accessWidth : RegAccess → Width
  | .read w => w
  | .write w _ => w

/-- The request `i` is the access `acc` of CPU `c`'s register window at the aligned offset `o`: as a register row, or as
a bus access whose address the table sends to the CPU's own raw block (41_io_dispatch.md R130, 40_decode.md R108). -/
inductive Reaches (s : State) (i : Instr) (c : Cpu) (o : Nat) (acc : RegAccess) : Prop
  | row (o' : Nat) (hi : rowAccess i = some (c, o', acc)) (ho : o = alignTo (accessWidth acc) o')
  | busRead (w : Width) (addr : Word) (hi : i = readInstr w c addr) (hacc : acc = .read w)
      (ho : AtWindow s c (alignTo w addr.toNat) o)
  | busWrite (w : Width) (addr v : Word) (hi : i = writeInstr w c addr v) (hacc : acc = .write w v)
      (ho : AtWindow s c (alignTo w addr.toNat) o)

/-- A set of ranges of window offsets, each by its first offset and the one after its last. -/
def inRanges (l : List (Nat × Nat)) (o : Nat) : Bool :=
  l.any fun r => decide (r.1 ≤ o) && decide (o < r.2)

/-- The bytes of the registers whose read is computed, kind C of R131. -/
def computedRanges : Cpu → List (Nat × Nat)
  | .c0 => [(0x64, 0x68), (0x100, 0x102), (0x104, 0x106), (0x108, 0x10A), (0x10C, 0x10E), (0x1A4, 0x1A8),
      (0x280, 0x282), (0x2A0, 0x2B2), (0x2B4, 0x2B8), (0x600, 0x604), (0x100000, 0x100004), (0x100010, 0x100014)]
  | .c1 => [(0x100, 0x102), (0x104, 0x106), (0x108, 0x10A), (0x10C, 0x10E), (0x1A4, 0x1A8),
      (0x100000, 0x100004), (0x100010, 0x100014)]

/-- The bytes of the registers whose write runs a handler: the rows of R131 but the pure storage and the registers that
are only computed on read (R136, R149, R156, R161, R162). -/
def handlerRanges : Cpu → List (Nat × Nat)
  | .c0 => [(0x0, 0x4), (0x8, 0x10), (0x40, 0x4C), (0x50, 0x56), (0x64, 0x68), (0xB0, 0xE0), (0x100, 0x110),
      (0x180, 0x18C), (0x1A0, 0x1A8), (0x208, 0x20C), (0x210, 0x218), (0x240, 0x24A), (0x400, 0x604),
      (0x1000, 0x1004), (0x1008, 0x1010), (0x1040, 0x104C), (0x1050, 0x1056)]
  | .c1 => [(0xB0, 0xE0), (0x100, 0x110), (0x180, 0x18C), (0x1A0, 0x1A8), (0x208, 0x20C), (0x210, 0x218),
      (0x400, 0x520)]

/-- An access of `n` bytes at `o` touches no byte of a set of ranges. -/
def Avoids (l : List (Nat × Nat)) (o n : Nat) : Prop :=
  ∀ i, i < n → inRanges l (o + i) = false

/-- The value of a register of `size` bytes at `base` after the verbatim store of an access of width `w` at the aligned
offset `o`: the written bytes in the lanes the access covers, the old bytes elsewhere (R133, R134). -/
def mergedBytes (s : State) (c : Cpu) (base size o : Nat) (w : Width) (v : Word) : Nat :=
  bytesValue size fun i =>
    if o ≤ base + i ∧ base + i < o + w.bytes then byteAt v.toNat (base + i - o) else s.ioByte c (base + i)

/-- The byte of an access at `o` that lies in a computed register at `base` of `size` bytes comes from its value, the
others from the raw block (41_io_dispatch.md R135). -/
def overlaid (s : State) (c : Cpu) (base size v o i : Nat) : Byte :=
  if base ≤ o + i ∧ o + i < base + size then byteAt v (o + i - base) else s.ioByte c (o + i)

/-- The state after the verbatim store of a write, before any handler (R133). -/
def stored (c : Cpu) (o : Nat) (w : Width) (v : Word) (s : State) : State :=
  s.setRaw c o w.bytes v.toNat

/-- The request `i` runs the internal operation of a register of `size` bytes at `base` with the value `v`, starting
from the state `b`: it is the contract call `op` itself, or a write into the register, which is stored first and hands
over the merged value (30_encoding.md R88, 41_io_dispatch.md R134). -/
def Calls (s : State) (i op : Instr) (c : Cpu) (base size v : Nat) (b : State) : Prop :=
  (i = op ∧ b = s) ∨
    ∃ o w u, Reaches s i c o (.write w u) ∧ base ≤ o ∧ o + w.bytes ≤ base + size ∧
      v = mergedBytes s c base size o w u ∧ b = stored c o w u s

/-- From `b` to `t`: CPU `c`'s part becomes `p`, the `n` raw bytes at `o` of its block become the value `v`, and nothing
else changes (R138). -/
structure Rewrites (b t : State) (c : Cpu) (p : CpuSide) (o n v : Nat) : Prop where
  state : t = { b.setSide c p with mem := t.mem }
  bytes : HoldsAt t (ioRegion c) o n v
  frame : SameOutside b t (inBytes (ioRegion c) o n)

/-- The forwarded controls of a display engine: offset, size and the call of a merged value (R140, R141, R143). -/
def engineRows (g : Engine) (base : Nat) : List (Nat × Nat × (Nat → Call)) :=
  [ (base + 0x00, 4, fun v => .setDisplayControl g (BitVec.ofNat 32 v)),
    (base + 0x08, 2, fun v => .setBackgroundControl g 0 (BitVec.ofNat 16 v)),
    (base + 0x0A, 2, fun v => .setBackgroundControl g 1 (BitVec.ofNat 16 v)),
    (base + 0x0C, 2, fun v => .setBackgroundControl g 2 (BitVec.ofNat 16 v)),
    (base + 0x0E, 2, fun v => .setBackgroundControl g 3 (BitVec.ofNat 16 v)),
    (base + 0x40, 2, fun v => .setWindowBounds g 0 (BitVec.ofNat 16 v)),
    (base + 0x42, 2, fun v => .setWindowBounds g 1 (BitVec.ofNat 16 v)),
    (base + 0x44, 2, fun v => .setWindowBounds g 2 (BitVec.ofNat 16 v)),
    (base + 0x46, 2, fun v => .setWindowBounds g 3 (BitVec.ofNat 16 v)),
    (base + 0x48, 2, fun v => .setWindowMask g 0 (BitVec.ofNat 16 v)),
    (base + 0x4A, 2, fun v => .setWindowMask g 1 (BitVec.ofNat 16 v)),
    (base + 0x50, 2, fun v => .setBlendControl g (BitVec.ofNat 16 v)),
    (base + 0x52, 2, fun v => .setBlendAlpha g (BitVec.ofNat 16 v)),
    (base + 0x54, 2, fun v => .setBlendBrightness g (BitVec.ofNat 16 v)) ]

/-- The forwarded display registers of CPU0, in ascending order; only engine A has a capture control (R140 to R143). -/
def displayRows : List (Nat × Nat × (Nat → Call)) :=
  engineRows .a 0 ++ ((0x64, 4, fun v => .setCaptureControl (BitVec.ofNat 32 v)) :: engineRows .b 0x1000)

/-- The display calls of a write: one for each register it touches, in ascending order, with the merged value (R132,
R134). -/
def displayCalls (s : State) (o : Nat) (w : Width) (v : Word) : List Call :=
  (displayRows.filter fun r => decide (r.1 < o + w.bytes) && decide (o < r.1 + r.2.1)).map fun r =>
    r.2.2 (mergedBytes s .c0 r.1 r.2.1 o w v)

/-- Whether a re-point is a valid REMAP (R151, 30_encoding.md R85). -/
def validRepoint (mounted : Bool) (p : Repoint) : Bool :=
  decide (p.region.toNat ≤ 21) && decide (p.region.toNat ≠ 2) && (decide (p.region.toNat ≠ 6) || decide (p.cpu = .c0)) &&
    (decide (p.region.toNat ≠ 7) || decide (p.cpu = .c1)) && (decide (p.region.toNat ≠ 21) || mounted)

/-- The state after one re-point (40_decode.md R113). -/
def repointed (s : State) (p : Repoint) : State :=
  s.setEntry p.cpu p.index ⟨(Region.ofCode p.region).getD .sink, p.mask⟩

/-- The state after the map control at offset `k` was asked and its re-points were applied in order (R151). -/
def mapConfigured (s : State) (k : Nat) : State :=
  (Config.answerMap s.draws).foldl repointed
    { s with
      log := s.log ++ [.mapConfigure (BitVec.ofNat 24 k) (s.ioByte .c0 k) (Config.answerMap s.draws)]
      draws := s.draws + 1 }

/-- The map-control registers a write touches, in ascending order. -/
def mapBytes (o : Nat) (w : Width) : List Nat :=
  ((List.range w.bytes).map fun i => o + i).filter fun k => decide (k < 0x24A)

/-! ### Divider and square root -/

/-- The numerator of a mode (41_io_dispatch.md R157): the low word sign-extended in mode 0, else all 64 bits. -/
def numeratorOf (m : BitVec 2) (n : Nat) : Dword :=
  if m = 0 then (BitVec.ofNat 32 n).signExtend 64 else BitVec.ofNat 64 n

/-- The denominator of a mode (R157): all 64 bits in mode 2, else the low word sign-extended. -/
def denominatorOf (m : BitVec 2) (d : Nat) : Dword :=
  if m = 2 then BitVec.ofNat 64 d else (BitVec.ofNat 32 d).signExtend 64

/-- The square root's input of a mode (R161): the low word in mode 0, else all 64 bits. -/
def radicandOf (m : BitVec 1) (x : Nat) : Dword :=
  if m = 0 then BitVec.ofNat 64 (x % 2 ^ 32) else BitVec.ofNat 64 x

/-- DIV_MODE, the low two bits of DIVCNT (R155). -/
def divModeOf (s : State) : BitVec 2 :=
  BitVec.ofNat 2 (s.ioByte .c0 0x280).toNat

/-- `DIV_FN(m, N, D)` on the raw inputs (R158). -/
def dividerAnswer (s : State) : Dword × Dword :=
  Config.divFn (divModeOf s) (numeratorOf (divModeOf s) (bytesValue 8 fun i => s.ioByte .c0 (0x290 + i)))
    (denominatorOf (divModeOf s) (bytesValue 8 fun i => s.ioByte .c0 (0x298 + i)))

/-! ### Interrupts -/

/-- A CPU's part with its pending output recomputed (45_irq_latch.md R264). -/
def withPending (p : CpuSide) : CpuSide :=
  { p with pending := p.ime && decide (p.ie &&& p.iflag ≠ 0) }

/-- A CPU's part after bits of its IF were set (R262). -/
def latchedMask (p : CpuSide) (m : Word) : CpuSide :=
  withPending { p with iflag := p.iflag ||| m }

/-- A CPU's part after a source sets bit `b` of its IF, where a condition holds (R262). -/
def latchedIf (k : Bool) (p : CpuSide) (b : Nat) : CpuSide :=
  if k then latchedMask p (BitVec.ofNat 32 (2 ^ b)) else p

/-- The raw IF bytes of a CPU, where they are rewritten. -/
def ifBytes (k : Bool) (c : Cpu) (key : Nat) : Prop :=
  k = true ∧ inBytes (ioRegion c) 0x214 4 key

/-- The raw IF bytes of a CPU show its IF, where they were rewritten (R262). -/
def IfShown (k : Bool) (t : State) (c : Cpu) : Prop :=
  k = true → HoldsAt t (ioRegion c) 0x214 4 (t.side c).iflag.toNat

/-! ### Inter-processor channel -/

/-- The raw IPCSYNC of the CPU of `p`, `q` being the other (44_ipc.md R230). -/
def syncValue (p q : CpuSide) : Nat :=
  q.syncOut.toNat + 2 ^ 8 * p.syncOut.toNat + 2 ^ 14 * (if p.syncIrqEn then 1 else 0)

/-- The raw IPCFIFOCNT of the CPU of `p`, `q` being the other (R235). -/
def fifoCntValue (p q : CpuSide) : Nat :=
  (if q.fifo.length = 0 then 1 else 0) + (if q.fifo.length = 16 then 2 else 0) + (if p.sendEmptyIrqEn then 2 ^ 2 else 0)
    + (if p.fifo.length = 0 then 2 ^ 8 else 0) + (if p.fifo.length = 16 then 2 ^ 9 else 0)
    + (if p.recvNotEmptyIrqEn then 2 ^ 10 else 0) + (if p.fifoEnable then 2 ^ 15 else 0)

/-- SE rose from `(p, q)` to `(p', q')`, the CPU's own part first (R239). -/
def sendEmptyRose (p q p' q' : CpuSide) : Bool :=
  !(p.sendEmptyIrqEn && q.fifo.isEmpty) && (p'.sendEmptyIrqEn && q'.fifo.isEmpty)

/-- RN rose (R239). -/
def recvReadyRose (p p' : CpuSide) : Bool :=
  !(p.recvNotEmptyIrqEn && !p.fifo.isEmpty) && (p'.recvNotEmptyIrqEn && !p'.fifo.isEmpty)

/-- A FIFO interrupt condition of a CPU rose. -/
def fifoRose (p q p' q' : CpuSide) : Bool :=
  sendEmptyRose p q p' q' || recvReadyRose p p'

/-- A CPU's part after the FIFO interrupt edges (R239). -/
def withFifoEdges (p q p' q' : CpuSide) : CpuSide :=
  latchedIf (recvReadyRose p p') (latchedIf (sendEmptyRose p q p' q') p' 17) 18

/-- From `b` to `t` by an operation on the queues: it made CPU0's part `p` and CPU1's part `q`, then the edges raised
their bits and both raw IPCFIFOCNT were rewritten; nothing else changes (R235, R237, R239 to R241). -/
structure FifoDone (b t : State) (p q : CpuSide) : Prop where
  state : t = { b with
    cpu0 := withFifoEdges b.cpu0 b.cpu1 p q, cpu1 := withFifoEdges b.cpu1 b.cpu0 q p, mem := t.mem, reply := t.reply }
  cnt0 : HoldsAt t .io0 0x184 4 (fifoCntValue p q)
  cnt1 : HoldsAt t .io1 0x184 4 (fifoCntValue q p)
  if0 : IfShown (fifoRose b.cpu0 b.cpu1 p q) t .c0
  if1 : IfShown (fifoRose b.cpu1 b.cpu0 q p) t .c1
  frame : SameOutside b t fun k => inBytes .io0 0x184 4 k ∨ inBytes .io1 0x184 4 k ∨
    ifBytes (fifoRose b.cpu0 b.cpu1 p q) .c0 k ∨ ifBytes (fifoRose b.cpu1 b.cpu0 q p) .c1 k

/-- The parts of CPU0 and CPU1, given one CPU's part and the other's. -/
def FifoDoneFor (c : Cpu) (b t : State) (mine other : CpuSide) : Prop :=
  match c with
  | .c0 => FifoDone b t mine other
  | .c1 => FifoDone b t other mine

/-! ### DMA -/

/-- SADMASK (42_dma.md R181). -/
def sadBits (c : Cpu) (ch : Fin 4) : Word :=
  if c = .c1 ∧ ch = 0 then 0x07FFFFFF else 0x0FFFFFFF

/-- DADMASK (R181). -/
def dadBits (c : Cpu) (ch : Fin 4) : Word :=
  if c = .c1 ∧ ch ≠ 3 then 0x07FFFFFF else 0x0FFFFFFF

/-- CNTMASK (R182). -/
def cntBits (c : Cpu) (ch : Fin 4) : Word :=
  if c = .c0 then 0xFFFFFFFF else if ch = 3 then 0xF7E0FFFF else 0xF7E03FFF

/-- The start-mode field of a control word (R183). -/
def modeField (c : Cpu) (v : Word) : Nat :=
  match c with
  | .c0 => v.toNat / 2 ^ 27 % 8
  | .c1 => v.toNat / 2 ^ 28 % 4

/-- Whether a control word waits for an event, by its TRIGGER code (R183, 30_encoding.md R84). -/
def waitsFor (c : Cpu) (ch : Fin 4) (v : Word) (code : Nat) : Bool :=
  match c, modeField c v with
  | _, 0 => false
  | .c0, m => decide (code = m)
  | .c1, 1 => decide (code = 1)
  | .c1, 2 => decide (code = 5)
  | .c1, _ => decide (code = if ch.val % 2 = 0 then 8 else 6)

/-- `EffCount(cpu, ch, v)`: 24576 for a 32-bit main-memory display of CPU0, else the count field (R184). -/
def countOf (c : Cpu) (ch : Fin 4) (v : Word) : Word :=
  if c = .c0 ∧ modeField c v = 4 ∧ v.getLsbD 26 = true then 24576
  else BitVec.ofNat 32 (v.toNat % (if c = .c0 then 2 ^ 21 else if ch = 3 then 2 ^ 16 else 2 ^ 14))

/-- Whether a control write is an enable edge of the channel (R184). -/
def enables (d : Channel) (v : Word) : Bool :=
  v.getLsbD 31 && !d.active

/-- The channel as `ProgramChannel` leaves it before any burst (R184). -/
def programmed (d : Channel) (c : Cpu) (ch : Fin 4) (v : Word) : Channel :=
  let m := v &&& cntBits c ch
  let on := enables d v
  { d with
    cnt := m
    active := v.getLsbD 31
    src := if on then d.sad else d.src
    dst := if on then d.dad else d.dst
    count := if on then countOf c ch m else d.count }

/-- The channel after it became inactive (R186). -/
def stopped (d : Channel) : Channel :=
  { d with active := false, cnt := d.cnt &&& 0x7FFFFFFF }

/-- The channel after `Rearm` (R188). -/
def rearmed (d : Channel) (c : Cpu) (ch : Fin 4) : Channel :=
  { d with
    count := countOf c ch d.cnt
    dst := if d.cnt.extractLsb' 21 2 = 3 then d.dad else d.dst
    src := if d.cnt.extractLsb' 23 2 = 3 then d.sad else d.src }

/-- The element width of a control word (R182). -/
def widthOf (v : Word) : Width :=
  if v.getLsbD 26 then .w32 else .w16

/-- A working address after `i` elements (R185). -/
def steppedBy (k : BitVec 2) (w : Width) (a : Word) (i : Nat) : Word :=
  if k = 1 then a - BitVec.ofNat 32 (i * w.bytes) else if k = 2 then a else a + BitVec.ofNat 32 (i * w.bytes)

/-- The source address of element `i` of a burst. -/
def srcAt (d : Channel) (i : Nat) : Word :=
  steppedBy (d.cnt.extractLsb' 23 2) (widthOf d.cnt) d.src i

/-- The destination address of element `i` of a burst. -/
def dstAt (d : Channel) (i : Nat) : Word :=
  steppedBy (d.cnt.extractLsb' 21 2) (widthOf d.cnt) d.dst i

/-- Replaces a channel. -/
def withChan (s : State) (c : Cpu) (ch : Fin 4) (d : Channel) : State :=
  s.setSide c { s.side c with dma := (s.side c).dma.set ch.val d ch.isLt }

/-- The window offset of DMAnCNT (R180). -/
def cntOffset (ch : Fin 4) : Nat :=
  0xB8 + 12 * ch.val

/-- One element of a burst as two bus accesses of the owning CPU: `x <- MemRead(src)`, `MemWrite(dst, x)` (R186). The
reply belongs to the request around the burst. -/
def elementCopied (c : Cpu) (w : Width) (src dst : Word) (s : State) : State :=
  match exec (readInstr w c src) s with
  | .next u =>
    match u.reply with
    | .value x =>
      match exec (writeInstr w c dst x) u with
      | .next t => { t with reply := s.reply }
      | _ => s
    | _ => s
  | _ => s

/-- The first `n` elements of a channel's burst, in order (R186, 20_memory.md R76). -/
def elementsCopied (c : Cpu) (d : Channel) (s : State) : Nat → State
  | 0 => s
  | n + 1 => elementCopied c (widthOf d.cnt) (srcAt d n) (dstAt d n) (elementsCopied c d s n)

/-- One element of the burst a channel is running: the two accesses at its working addresses, then both addresses
stepped (R186). -/
def burstElement (c : Cpu) (ch : Fin 4) (s : State) : State :=
  let u := elementCopied c (widthOf (s.chan c ch).cnt) (s.chan c ch).src (s.chan c ch).dst s
  let d := u.chan c ch
  withChan u c ch { d with
    src := steppedBy (d.cnt.extractLsb' 23 2) (widthOf d.cnt) d.src 1
    dst := steppedBy (d.cnt.extractLsb' 21 2) (widthOf d.cnt) d.dst 1 }

/-- The first `n` elements of the burst a channel is running, in order (R186, 20_memory.md R76). An element that is
refused is the last one, and marks the state. -/
def burstElements (c : Cpu) (ch : Fin 4) : Nat → State → State
  | 0, s => s
  | n + 1, s =>
    let u := burstElements c ch n s
    if u.refused then u else burstElement c ch u

/-- The state in which a channel's burst makes its first access (R186). -/
def burstStarted (c : Cpu) (ch : Fin 4) (s : State) : State :=
  withChan s c ch { s.chan c ch with executing := true }

/-- The channel as its finished burst leaves it: re-armed where it repeats and is not Immediate, else inactive (R186,
R188). -/
def burstEnded (d : Channel) (c : Cpu) (ch : Fin 4) : Channel :=
  if d.cnt.getLsbD 25 && decide (modeField c d.cnt ≠ 0) then rearmed { d with executing := false } c ch
  else stopped { d with executing := false }

/-- An address whose aligned form does not reach the CPU's register window, where accesses have handlers. -/
def NotWindow (s : State) (c : Cpu) (w : Width) (a : Word) : Prop :=
  ThroughTable s c (alignTo w a.toNat) → (entryOf s c (alignTo w a.toNat)).region ≠ ioRegion c

/-- What an outcome goes on with. -/
def nextOr (s : State) : Out → State
  | .next t => t
  | _ => s

/-- One turn of `Trigger`: a channel that is active and waits for the event runs (R189). -/
def triggerTurn (c : Cpu) (code : Nat) (s : State) (ch : Fin 4) : State :=
  if s.refused then s
  else if (s.chan c ch).active && waitsFor c ch (s.chan c ch).cnt code then nextOr s (exec (.execute c ch) s)
  else s

/-! ### Timers -/

/-- Replaces a timer. -/
def withTimer (s : State) (c : Cpu) (t : Fin 4) (m : Timer) : State :=
  s.setSide c { s.side c with tmr := (s.side c).tmr.set t.val m t.isLt }

/-- The writable bits of TMnCNT_H (43_timers.md R210). -/
def controlBits (t : Fin 4) : Half :=
  if t = 0 then 0x00C3 else 0x00C7

/-- The timer as `SetControl` leaves it: the fields, and on the enable edge the counter and the accumulator (R212's
pseudocode; log entry 23). -/
def controlled (m : Timer) (t : Fin 4) (v : Half) : Timer :=
  let on := v.getLsbD 7 && !m.enabled
  { m with
    presc := v.extractLsb' 0 2
    cascade := v.getLsbD 2 && decide (t ≠ 0)
    irq := v.getLsbD 6
    enabled := v.getLsbD 7
    counter := if on then m.reload else m.counter
    acc := if on then 0 else m.acc }

/-- One timer in one timer-clock cycle (43_timers.md R213): `carryIn` is the overflow of the timer below in this cycle,
`carryOut` its own. -/
structure TimerCycle (t : Fin 4) (m m' : Timer) (carryIn carryOut : Bool) : Prop where
  /-- the programmed fields never change -/
  fields : m'.reload = m.reload ∧ m'.presc = m.presc ∧ m'.cascade = m.cascade ∧ m'.irq = m.irq ∧
    m'.enabled = m.enabled
  /-- a disabled timer does not count -/
  stopped : m.enabled = false → m'.counter = m.counter ∧ m'.acc = m.acc ∧ carryOut = false
  /-- a cascaded timer counts exactly when the timer below overflows, and ignores its accumulator -/
  cascaded : m.enabled = true → 1 ≤ t.val → m.cascade = true →
    m'.acc = m.acc ∧ (carryIn = false → m'.counter = m.counter ∧ carryOut = false)
  /-- any other timer counts its prescaler up -/
  waiting : m.enabled = true → (t.val = 0 ∨ m.cascade = false) → m.acc + 1 < prescale m.presc →
    m'.acc = m.acc + 1 ∧ m'.counter = m.counter ∧ carryOut = false
  /-- and counts once when the prescaler is full -/
  elapsed : m.enabled = true → (t.val = 0 ∨ m.cascade = false) → prescale m.presc ≤ m.acc + 1 → m'.acc = 0
  /-- a count below 0xFFFF adds one -/
  counts : m.enabled = true →
    ((1 ≤ t.val ∧ m.cascade = true ∧ carryIn = true) ∨
      ((t.val = 0 ∨ m.cascade = false) ∧ prescale m.presc ≤ m.acc + 1)) →
    m.counter ≠ 0xFFFF → m'.counter = m.counter + 1 ∧ carryOut = false
  /-- a count at 0xFFFF reloads and overflows -/
  wraps : m.enabled = true →
    ((1 ≤ t.val ∧ m.cascade = true ∧ carryIn = true) ∨
      ((t.val = 0 ∨ m.cascade = false) ∧ prescale m.presc ≤ m.acc + 1)) →
    m.counter = 0xFFFF → m'.counter = m.reload ∧ carryOut = true

/-! ### Invariants -/

/-- The pending invariant (10_state.md R38). -/
def PendingOk (s : State) : Prop :=
  ∀ c, (s.side c).pending =
    ((s.side c).ime && decide ((s.side c).ie &&& (s.side c).iflag ≠ 0))

/-- A queue holds at most 16 words (R33). -/
def FifoBounded (s : State) : Prop :=
  ∀ c, (s.side c).fifo.length ≤ 16

/-- `active` is bit 31 of the control word (R31, 42_dma.md R182). -/
def ActiveOk (s : State) : Prop :=
  ∀ c ch, (s.chan c ch).active = bitAt (s.chan c ch).cnt 31

/-- No burst is running: bursts end inside the request that starts them (20_memory.md R66). -/
def Quiet (s : State) : Prop :=
  ∀ c ch, (s.chan c ch).executing = false

/-- Timer 0 never cascades (R32, 43_timers.md R210). -/
def TimerZeroOk (s : State) : Prop :=
  ∀ c, (s.timer c 0).cascade = false

/-- A mounted cartridge has the size of a region (R23, R27). -/
def CartOk (s : State) : Prop :=
  ∀ size, s.cart = some size → isRegionSize size = true

/-- INIT_TABLE of the configuration names only regions its CPU may reach with no cartridge mounted (30_encoding.md R85,
read as a rule of the configuration too; log entry 18). -/
def ConfigOk (s : State) : Prop :=
  ∀ c (i : Byte), remapAllowed false c (s.config.table c)[i.toFin].region = true

/-- Every table entry names a region its CPU may reach (30_encoding.md R85): the other CPU's register block and DTCM
never, CARTROM only while a cartridge is mounted. -/
def TableOk (s : State) : Prop :=
  ∀ c i, remapAllowed s.cart.isSome c (s.entry c i).region = true

/-- The bytes listed lie inside their regions: "no region can be read past its own bounds" (R41). -/
def CellsInside (s : State) : Prop :=
  ∀ x ∈ s.mem, ∃ r size o, regionSize s.config s.cart r = some size ∧ o < size ∧ x.1 = cellKey r o

/-- The mirror invariant of one CPU (R30): the raw bytes of each mirrored register are the encoding of its fields. The
mirror of AUXSPIDATA is its upper byte, which is forced to 0 (41_io_dispatch.md R147): the model's reading, log entry
17. -/
structure MirrorsOf (s : State) (c : Cpu) : Prop where
  ime : s.raw c 0x208 4 = bitNat (s.side c).ime
  ie : s.raw c 0x210 4 = (s.side c).ie.toNat
  iflag : s.raw c 0x214 4 = (s.side c).iflag.toNat
  sync : s.raw c 0x180 4 = encodeSync s c
  fifoCnt : s.raw c 0x184 4 = encodeFifoCnt s c
  sad : ∀ ch : Fin 4, s.raw c (0x0B0 + 12 * ch.val) 4 = (s.chan c ch).sad.toNat
  dad : ∀ ch : Fin 4, s.raw c (0x0B4 + 12 * ch.val) 4 = (s.chan c ch).dad.toNat
  cnt : ∀ ch : Fin 4, s.raw c (0x0B8 + 12 * ch.val) 4 = (s.chan c ch).cnt.toNat
  timer : ∀ t : Fin 4, s.raw c (0x102 + 4 * t.val) 2 = encodeTimer (s.timer c t)
  spi : s.ioByte c 0x1A3 = 0

/-- The mirror invariant (R30). -/
def MirrorOk (s : State) : Prop :=
  ∀ c, MirrorsOf s c

/-- Everything that holds of the bus between two requests. -/
structure Inv (s : State) : Prop where
  mem : Memory.wf s.mem
  cells : CellsInside s
  cart : CartOk s
  config : ConfigOk s
  table : TableOk s
  pending : PendingOk s
  fifo : FifoBounded s
  active : ActiveOk s
  quiet : Quiet s
  timerZero : TimerZeroOk s
  mirror : MirrorOk s

/-- A safe run: no request so far was refused (R47: "A state with `refused = 1` is not final and refutes any
observation"). -/
def Unrefused (s : State) : Prop :=
  s.refused = false

end Sys2Proof.Machine
end

