-- ==== Sys2Proof/Certificates/Slice0/Obligations.lean ====
section
/-! DEFINITION. The statements for the provers, in the words of Safety.lean. A statement about a register holds for every
request that reaches it: the contract call of the register's internal operation, the register row of the opcode table,
and the bus access that the CPU's table sends into its own register window, at every width (`Reaches`, `Calls`). -/

section Statements

open Sys2Proof Sys2Proof.Machine

/-! ### Requests -/

/-- The fourteen request encodings of 95_test_vectors.md section 2.1 (30_encoding.md R81 to R85) decode to their requests, and a
register call and a contract call of the model's own ports (log entry 2) to theirs. -/
def Obligations.RequestSamplesDecode : Prop :=
  decode ⟨.bus, [0x05, 0x01, 0x01, 0x00, 0x08]⟩ = .ok (.read8 .c1 0x08000101, []) ∧
  decode ⟨.bus, [0x08, 0x00, 0x01, 0x00, 0x04]⟩ = .ok (.read16 .c0 0x04000100, []) ∧
  decode ⟨.bus, [0x14, 0x14, 0x02, 0x00, 0x04, 0xFF, 0x00, 0x00, 0x00]⟩ = .ok (.write8 .c0 0x04000214 0xFF, []) ∧
  decode ⟨.bus, [0x19, 0xBA, 0x00, 0x00, 0x04, 0x00, 0x80, 0x00, 0x00]⟩ = .ok (.write16 .c1 0x040000BA 0x8000, []) ∧
  decode ⟨.bus, [0x21, 0x02, 0x00, 0x00, 0x00]⟩ = .ok (.tick .c1 2, []) ∧
  decode ⟨.bus, [0x30, 0x01]⟩ = .ok (.trigger .c0 1, []) ∧
  decode ⟨.bus, [0x31, 0x08]⟩ = .ok (.trigger .c1 8, []) ∧
  decode ⟨.bus, [0x41, 0x00]⟩ = .ok (.raiseirq .c1 0, []) ∧
  decode ⟨.bus, [0x50, 0x05, 0x00, 0x7C, 0x02]⟩ = .ok (.settcw 0x027C0005, []) ∧
  decode ⟨.bus, [0x60, 0x60, 0x0A, 0xFF, 0xFF, 0x01, 0x00]⟩ = .ok (.remap .c0 0x60 10 0x1FFFF, []) ∧
  decode ⟨.bus, [0x70, 0x00, 0x01, 0x00, 0x00] ++ (List.range 256).map (BitVec.ofNat 8)⟩ =
    .ok (.mount 0x100 ((List.range 256).map (BitVec.ofNat 8)), []) ∧
  decode ⟨.bus, [0x80]⟩ = .ok (.unmount, []) ∧
  decode ⟨.bus, [0x90, 0x13, 0x00, 0x00, 0x00, 0x00, 0x04, 0x00, 0x00, 0x00, 0x00, 0x00, 0xA0, 0xE3]⟩ =
    .ok (.load 19 0 [0x00, 0x00, 0xA0, 0xE3], []) ∧
  decode ⟨.bus, [0xA0]⟩ = .ok (.reset, []) ∧
  decode ⟨.register, [0x16, 0x02, 0x00, 0x0B, 0x01, 0x00, 0x00, 0x00]⟩ = .ok (.ifReg .c1 2 (.write .w16 1), []) ∧
  decode ⟨.contract, [0x08, 0x00, 0x2A, 0x00, 0x00, 0x00]⟩ = .ok (.send .c0 0x2A, [])

/-- Every well-formed instruction, with every operand at every value, is read back from its encoding, whatever bytes
follow it (R80 to R83, R89). The register and contract ports are the model's own, log entry 2. -/
def Obligations.EncodingDecodesBack : Prop :=
  ∀ (i : Instr) (rest : List Byte), i.wf = true →
    decode { encode i with bytes := (encode i).bytes ++ rest } = .ok (i, rest)

/-- What the decoder accepts is exactly the encoding of what it answers, so no bit of a request is ignored and no two
requests spell one instruction (R80 to R83). The register and contract ports are the model's own, log entry 2. -/
def Obligations.DecodedBytesAreTheEncoding : Prop :=
  ∀ (q : Request) (i : Instr) (rest : List Byte), decode q = .ok (i, rest) →
    (encode i).port = q.port ∧ (encode i).bytes ++ rest = q.bytes

/-- R86. At the step: a reserved class, a width code that is missing or not allowed, the reserved bit, a CPU bit that is
not allowed, or fewer bytes than a MOUNT or LOAD counts mark the state refused, and nothing else of the bus changes (the
request leaves the stream unanswered, which is the model's own, log entry 1). At the instruction: so do a reserved event
code, an interrupt bit of 32 or more, a region code that is reserved or not allowed (R85), a MOUNT size that is no power
of two of at least 4, and a LOAD beyond its region or into SINK, IO0, IO1 or an absent CARTROM. -/
def Obligations.MalformedRequestsAreRefused : Prop :=
  (∀ (s : State) (op : Byte) (bs : List Byte) (qs : List Request), s.input = ⟨.bus, op :: bs⟩ :: qs →
    (11 ≤ op.toNat / 16 ∨
      (op.toNat / 16 ≤ 1 ∧ op.toNat / 4 % 4 = 0) ∨
      (2 ≤ op.toNat / 16 ∧ op.toNat / 4 % 4 ≠ 0) ∨
      op.toNat / 2 % 2 = 1 ∨
      (op.toNat / 16 ∈ [5, 7, 8, 9, 10] ∧ op.toNat % 2 = 1) ∨
      (op = 0x70 ∧ ∃ (size : Word) (b : List Byte), bs = word4 size ++ b ∧ b.length < size.toNat) ∨
      (op = 0x90 ∧ ∃ (region : Byte) (offset k : Word) (b : List Byte),
        bs = region :: (word4 offset ++ (word4 k ++ b)) ∧ b.length < k.toNat)) →
    step s = .next { s with input := qs, reply := .none, refused := true }) ∧
  ∀ s : State,
    (∀ (c : Cpu) (e : Byte), (e.toNat = 0 ∨ 9 ≤ e.toNat) →
      exec (.trigger c e) s = .next { s with refused := true }) ∧
    (∀ (c : Cpu) (b : Byte), 32 ≤ b.toNat → exec (.raiseirq c b) s = .next { s with refused := true }) ∧
    (∀ (c : Cpu) (i g : Byte) (m : Word), BadRemapCode s c g.toNat →
      exec (.remap c i g m) s = .next { s with refused := true }) ∧
    (∀ (size : Word) (bytes : List Byte), (¬ ∃ k, 2 ≤ k ∧ size.toNat = 2 ^ k) →
      exec (.mount size bytes) s = .next { s with refused := true }) ∧
    (∀ (g : Byte) (o : Word) (bytes : List Byte),
      (22 ≤ g.toNat ∨ g.toNat ∈ [0, 6, 7] ∨ (g.toNat = 21 ∧ s.cart = none) ∨
        ∃ r size, Region.ofCode g = some r ∧ regionSize s.config s.cart r = some size ∧ size < o.toNat + bytes.length) →
      exec (.load g o bytes) s = .next { s with refused := true })

/-! ### The step -/

/-- A step serves the first request of the stream: where it decodes, the step is `exec` of that instruction, with the
instruction's bytes taken from the stream and no reply yet. The stream and the reply are the model's own, log entry 1;
that requests are served one at a time is 00_scope.md R14. -/
def Obligations.StepRunsTheDecodedRequest : Prop :=
  ∀ (s : State) (q : Request) (qs : List Request) (i : Instr) (rest : List Byte),
    s.input = q :: qs → decode q = .ok (i, rest) →
    step s = exec i { s with input := if rest = [] then qs else ⟨q.port, rest⟩ :: qs, reply := .none }

/-- 60_exceptions.md R270: no request, well formed or not, ends in a fault or stops the machine; and with no request
waiting nothing changes (10_state.md R22). -/
def Obligations.EveryStepAnswersANextState : Prop :=
  (∀ s : State, ∃ t, step s = .next t) ∧
  (∀ (i : Instr) (s : State), ∃ t, exec i s = .next t) ∧
  (∀ s : State, s.input = [] → step s = .next s)

/-! ### Reset -/

/-- The state after construction (70_reset_and_hazards.md R290, 40_decode.md R111, 44_ipc.md R236), in every
configuration (00_scope.md R10; that the configuration is a field of the state is log entry 18): every field of both CPUs
zero, INIT_TABLE, no cartridge, an empty log, not refused, and every byte of every region 0 but IPCFIFOCNT, which is
0x00000101 on each CPU. `State.reset` is built in the default configuration: R111's table, R23's sizes, R103's range. -/
def Obligations.ConstructionValues : Prop :=
  (∀ g : BusConfig,
    let s := State.construct g
    s.config = g ∧ s.cart = none ∧ s.tcwBase = Config.tcwBaseReset ∧ s.log = [] ∧ s.refused = false ∧
    (∀ c, s.side c =
      { table := (s.side c).table
        dma := Vector.replicate 4 ⟨0, 0, 0, 0, 0, 0, false, false⟩
        tmr := Vector.replicate 4 ⟨0, 0, 0, false, false, false, 0⟩
        fifo := [], lastRecv := 0, sendEmptyIrqEn := false, recvNotEmptyIrqEn := false, fifoEnable := false
        syncOut := 0, syncIrqEn := false, ime := false, ie := 0, iflag := 0, pending := false }) ∧
    (∀ (c : Cpu) (i : Byte), s.entry c i = initEntryAt g none c i) ∧
    (∀ (r : Region) (o : Nat), o < 2 ^ 32 →
      s.byte r o = if (r = .io0 ∨ r = .io1) ∧ (o = 0x184 ∨ o = 0x185) then 1 else 0)) ∧
  State.reset = State.construct BusConfig.default ∧
  (∀ (c : Cpu) (i : Byte), initEntryAt BusConfig.default none c i = defaultEntryAt c i.toNat) ∧
  (∀ r : Region, regionSize BusConfig.default none r = (defaultKiB r).map (· * 1024)) ∧
  BusConfig.default.cartPassFirst = 0x0A000000 ∧ BusConfig.default.cartPassLast = 0x0AFFFFFF

/-- RESET (R290), from any state: the same values, with a mounted cartridge kept and its entries pointed at it; the
cartridge's bytes, the log and the refused mark stay. The configuration, the request stream, the reply and the count of
draws stay too, which is the model's own, log entries 1, 18 and 19. -/
def Obligations.ResetRestoresConstructionValues : Prop :=
  ∀ s : State, ∃ t, exec .reset s = .next t ∧
    t = { s with mem := t.mem, tcwBase := Config.tcwBaseReset, cpu0 := t.cpu0, cpu1 := t.cpu1 } ∧
    (∀ c, t.side c = { State.reset.side c with table := (t.side c).table }) ∧
    (∀ (c : Cpu) (i : Byte), t.entry c i = initEntryAt s.config s.cart c i) ∧
    (∀ o, o < 2 ^ 32 → t.byte .cartrom o = s.byte .cartrom o) ∧
    (∀ (r : Region) (o : Nat), r ≠ .cartrom → o < 2 ^ 32 → t.byte r o = State.reset.byte r o)

/-- The invariants of the model hold of the state after construction. -/
def Obligations.ConstructionMeetsTheInvariants : Prop :=
  Inv State.reset

/-! ### What every step keeps -/

/-- Every step keeps the memory's canonical form: keys rising and no zero byte listed (the model's own form of
10_state.md R23, log entry 10). -/
def Obligations.StepKeepsTheMemoryForm : Prop :=
  ∀ s t : State, Memory.wf s.mem → step s = .next t → Memory.wf t.mem

/-- 10_state.md R38: after every operation each CPU's pending output is `IME and (IE & IF) != 0`. -/
def Obligations.StepKeepsThePendingEquation : Prop :=
  ∀ s t : State, (∀ c, (s.side c).pending = ((s.side c).ime && decide ((s.side c).ie &&& (s.side c).iflag ≠ 0))) →
    step s = .next t →
    ∀ c, (t.side c).pending = ((t.side c).ime && decide ((t.side c).ie &&& (t.side c).iflag ≠ 0))

/-- Between requests a receive queue holds at most 16 words (10_state.md R33), every channel's active flag is bit 31 of its
control word (R31, 42_dma.md R182), no burst is left running (20_memory.md R66), and timer 0 never cascades (10_state.md
R32). -/
def Obligations.StepKeepsQueuesChannelsAndTimers : Prop :=
  ∀ s t : State, step s = .next t →
    (FifoBounded s → FifoBounded t) ∧ (ActiveOk s → ActiveOk t) ∧ (Quiet s → Quiet t) ∧
      (TimerZeroOk s → TimerZeroOk t)

/-- Every table entry keeps naming a region its CPU may reach, where INIT_TABLE of the configuration does (log entry 18), a
mounted cartridge keeps a region's size, and every byte the memory lists lies inside its region (10_state.md R23, R41,
30_encoding.md R85, 40_decode.md R106). -/
def Obligations.StepKeepsEveryAccessInsideItsRegion : Prop :=
  ∀ s t : State, CartOk s → step s = .next t →
    CartOk t ∧ (ConfigOk s → TableOk s → TableOk t) ∧ (CellsInside s → CellsInside t)

/-- The mirror invariant (10_state.md R30): after every operation the raw bytes of each mirrored register equal the
encoding of its fields. That AUXSPIDATA, which R30 lists without fields, mirrors a zero high byte alone is the model's
reading of 41_io_dispatch.md R147 (DEDUCED, log entry 17). The premises are invariants of their own: without them a table
could let a CPU write the other CPU's raw block as plain storage. -/
def Obligations.StepKeepsTheMirrors : Prop :=
  ∀ s t : State, CartOk s → ConfigOk s → TableOk s → MirrorOk s → step s = .next t → MirrorOk t

/-- 10_state.md R46 and R47: the collaborator log only grows, and nothing clears the refused mark, RESET included. Nor does a
step change the configuration the bus was built with (00_scope.md R10), whose place in the state is the model's own, log
entry 18. -/
def Obligations.LogGrowsAndRefusalStays : Prop :=
  ∀ s t : State, step s = .next t → s.log <+: t.log ∧ (s.refused = true → t.refused = true) ∧ t.config = s.config

/-! ### Address decode -/

/-- 40_decode.md R102: an access of CPU0 whose aligned address agrees with the window base above the low 14 bits reads
or writes the DTCM region at the low 14 bits and goes nowhere else, whatever lies beneath. -/
def Obligations.TightlyCoupledWindowShadows : Prop :=
  ∀ (s : State) (w : Width) (addr v : Word), InTcw s .c0 (alignTo w addr.toNat) →
    exec (readInstr w .c0 addr) s =
      .next { s with reply := replyOf w.bytes fun i => s.byte .dtcm (alignTo w addr.toNat % 2 ^ 14 + i) } ∧
    ∃ t, exec (writeInstr w .c0 addr v) s = .next t ∧ t = { s with mem := t.mem } ∧
      HoldsAt t .dtcm (alignTo w addr.toNat % 2 ^ 14) w.bytes v.toNat ∧
      SameOutside s t (inBytes .dtcm (alignTo w addr.toNat % 2 ^ 14) w.bytes)

/-- R103: an access of n bytes in the cartridge pass-through window, on either CPU, is n single-byte collaborator calls
at ascending addresses; a read assembles the answers little-endian. The window is the configuration's CART_PASS_RANGE.
The answers are free values, log entry 5. -/
def Obligations.CartPassThroughIsByteCalls : Prop :=
  ∀ (s : State) (c : Cpu) (w : Width) (addr v : Word),
    ¬ InTcw s c (alignTo w addr.toNat) → InPass s (alignTo w addr.toNat) →
    exec (readInstr w c addr) s = .next { s with
      log := s.log ++ (List.range w.bytes).map fun i =>
        .cartPassRead8 c (BitVec.ofNat 32 (alignTo w addr.toNat + i)) (Config.answer8 (s.draws + i))
      draws := s.draws + w.bytes
      reply := replyOf w.bytes fun i => Config.answer8 (s.draws + i) } ∧
    exec (writeInstr w c addr v) s = .next { s with
      log := s.log ++ (List.range w.bytes).map fun i =>
        .cartPassWrite8 c (BitVec.ofNat 32 (alignTo w addr.toNat + i)) (byteAt v.toNat i) }

/-- R104: an access of CPU1 in the wireless window is one collaborator call with the aligned address, the width and, for
a write, the value, and does not touch the raw register block; the same for the opcode table's row of that window, whose
lane is the address inside it. The answer is a free value, log entry 5; that the row is an access of its own is log
entry 2. -/
def Obligations.WirelessWindowIsOneCall : Prop :=
  ∀ (s : State) (w : Width) (v : Word) (a : Nat) (i j : Instr),
    ((∃ addr : Word, a = alignTo w addr.toNat ∧ ¬ InPass s a ∧ InWireless .c1 a ∧ i = readInstr w .c1 addr ∧
        j = writeInstr w .c1 addr v) ∨
      ∃ lane, a = alignTo w (0x04800000 + lane.toNat) ∧ i = .wifiWindow lane (.read w) ∧
        j = .wifiWindow lane (.write w v)) →
    exec i s = .next { s with
      log := s.log ++ [.wifiRead (BitVec.ofNat 32 a) w (Config.answer32 s.draws)]
      draws := s.draws + 1
      reply := replyOf w.bytes fun k => byteAt (Config.answer32 s.draws).toNat k } ∧
    exec j s = .next { s with
      log := s.log ++ [.wifiWrite (BitVec.ofNat 32 a) w (BitVec.ofNat 32 (v.toNat % 2 ^ (8 * w.bytes)))] }

/-- R105, R106 and 20_memory.md R60: an access that the table sends to a region other than the CPU's own raw block reads
or writes, little-endian, the bytes of that region at `a & e.mask & (size - 1)`, and nothing else happens. -/
def Obligations.StorageIsReadAndWritten : Prop :=
  ∀ (s : State) (c : Cpu) (w : Width) (addr v : Word) (r : Region) (o : Nat),
    AtRegion s c (alignTo w addr.toNat) r o → r ≠ ioRegion c →
    exec (readInstr w c addr) s = .next { s with reply := replyOf w.bytes fun i => s.byte r (o + i) } ∧
    ∃ t, exec (writeInstr w c addr v) s = .next t ∧ t = { s with mem := t.mem } ∧
      HoldsAt t r o w.bytes v.toNat ∧ SameOutside s t (inBytes r o w.bytes)

/-- R107: a read that reaches the sink gives the lanes of the open-bus word that the addressed bytes occupy, and a write
changes nothing and calls nobody. The pattern is a free value (93_implementation_defined.md U3). -/
def Obligations.SinkReadsOpenBusAndAbsorbsWrites : Prop :=
  ∀ (s : State) (c : Cpu) (w : Width) (addr v : Word), ThroughTable s c (alignTo w addr.toNat) →
    (entryOf s c (alignTo w addr.toNat)).region = .sink →
    exec (readInstr w c addr) s = .next { s with
      reply := replyOf w.bytes fun i => byteAt Config.openBusWord.toNat (alignTo w addr.toNat % 4 + i) } ∧
    exec (writeInstr w c addr v) s = .next s

/-- The aliasing law, R109: two addresses that the table sends, with the full mask, to one storage region at the same
place modulo its size are one location for every access; and so are two addresses that the table decodes and that agree
in their low 28 bits. The last clause is stated for regions of at most 256 MiB, the model's reading (log entry 14):
by R105 the offset into a larger one takes address bits 28 and up. -/
def Obligations.AliasedAddressesAreOneLocation : Prop :=
  ∀ (s : State) (c : Cpu) (w : Width) (a b v : Word),
    ThroughTable s c (alignTo w a.toNat) → ThroughTable s c (alignTo w b.toNat) →
    ((a.toNat % 2 ^ 28 = b.toNat % 2 ^ 28 ∧ ∀ g size, regionSize s.config s.cart g = some size → size ≤ 2 ^ 28) ∨
      ∃ (r : Region) (k : Nat), 2 ≤ k ∧ regionSize s.config s.cart r = some (2 ^ k) ∧ r ≠ ioRegion c ∧
        entryOf s c (alignTo w a.toNat) = ⟨r, BitVec.ofNat 32 (2 ^ k - 1)⟩ ∧
        entryOf s c (alignTo w b.toNat) = ⟨r, BitVec.ofNat 32 (2 ^ k - 1)⟩ ∧ a.toNat % 2 ^ k = b.toNat % 2 ^ k) →
    exec (readInstr w c a) s = exec (readInstr w c b) s ∧
    exec (writeInstr w c a v) s = exec (writeInstr w c b v) s

/-- Mixed widths, 20_memory.md R61: after a 32-bit write to storage every narrower read of the word gives its lanes, and
after a narrower write a 32-bit read gives the new lanes among the old bytes. The premise that the entry's mask keeps the
low two address bits is the model's reading: with another mask the lanes fall together. The premise that CART_PASS_RANGE
of the configuration begins at a multiple of 4, as the default does and every step keeps it (log entry 18), keeps the
bytes of the word out of the pass-through window together. -/
def Obligations.NarrowAndWideAccessesShareLanes : Prop :=
  ∀ (s : State) (c : Cpu) (a v : Word) (r : Region) (o : Nat), CartOk s → s.config.cartPassFirst.toNat % 4 = 0 →
    a.toNat % 4 = 0 →
    AtRegion s c a.toNat r o → r ≠ ioRegion c → (entryOf s c a.toNat).mask.toNat % 4 = 3 →
    (∃ t, exec (.write32 c a v) s = .next t ∧
      (∀ k, k < 4 → exec (.read8 c (a + BitVec.ofNat 32 k)) t =
        .next { t with reply := replyOf 1 fun i => byteAt v.toNat (k + i) }) ∧
      (∀ j, j < 2 → exec (.read16 c (a + BitVec.ofNat 32 (2 * j))) t =
        .next { t with reply := replyOf 2 fun i => byteAt v.toNat (2 * j + i) })) ∧
    (∀ (w : Width) (k : Nat), k % w.bytes = 0 → k < 4 →
      ∃ t, exec (writeInstr w c (a + BitVec.ofNat 32 k) v) s = .next t ∧
        exec (.read32 c a) t = .next { t with reply := replyOf 4 fun i =>
          if k ≤ i ∧ i < k + w.bytes then byteAt v.toNat (i - k) else s.byte r (o + i) })

/-! ### The register window -/

/-- 41_io_dispatch.md R133: the verbatim store puts the written bytes, little-endian, into the raw block and changes
nothing else. `stored` is what the statements on writes start their handlers from. -/
def Obligations.VerbatimStorePutsTheWrittenBytes : Prop :=
  ∀ (s : State) (c : Cpu) (o : Nat) (w : Width) (v : Word),
    stored c o w v s = { s with mem := (stored c o w v s).mem } ∧
    HoldsAt (stored c o w v s) (ioRegion c) o w.bytes v.toNat ∧
    SameOutside s (stored c o w v s) (inBytes (ioRegion c) o w.bytes)

/-- R135 and 20_memory.md R67: a read that touches no computed register gives the raw bytes and changes nothing. -/
def Obligations.StoredRegistersReadTheirBytes : Prop :=
  ∀ (s : State) (i : Instr) (c : Cpu) (o : Nat) (w : Width), Reaches s i c o (.read w) →
    Avoids (computedRanges c) o w.bytes →
    exec i s = .next { s with reply := replyOf w.bytes fun k => s.ioByte c (o + k) }

/-- R133, R136, R137, R149, R156, R161 and R162: a write that touches no register with a handler only stores. -/
def Obligations.WritesWithoutHandlerOnlyStore : Prop :=
  ∀ (s : State) (i : Instr) (c : Cpu) (o : Nat) (w : Width) (v : Word), Reaches s i c o (.write w v) →
    Avoids (handlerRanges c) o w.bytes → exec i s = .next (stored c o w v s)

/-- Pure storage, R136: for bytes of no register with a handler or a computed read, a write only stores, a read returns
the stored bytes, and a write followed by a read of the same width returns the written value. -/
def Obligations.PureStorageRoundTrip : Prop :=
  ∀ (s : State) (i j : Instr) (c : Cpu) (o : Nat) (w : Width) (v : Word), Reaches s i c o (.write w v) →
    Avoids (handlerRanges c) o w.bytes → Avoids (computedRanges c) o w.bytes →
    ∃ t, exec i s = .next t ∧ t = { s with mem := t.mem } ∧ HoldsAt t (ioRegion c) o w.bytes v.toNat ∧
      SameOutside s t (inBytes (ioRegion c) o w.bytes) ∧
      (Reaches t j c o (.read w) →
        exec j t = .next { t with reply := replyOf w.bytes fun k => byteAt v.toNat k })

/-- R140 to R143: a write into the display registers of either engine keeps the verbatim store and forwards one call for
each forwarded register it touches, in ascending order, with the register's whole merged value (R132, R134). -/
def Obligations.DisplayWritesForwardMergedValues : Prop :=
  ∀ (s : State) (i : Instr) (o : Nat) (w : Width) (v : Word), Reaches s i .c0 o (.write w v) →
    (o < 0x70 ∨ 0x1000 ≤ o ∧ o < 0x1070) →
    exec i s = .next { stored .c0 o w v s with log := s.log ++ displayCalls s o w v }

/-- R144 and the write of R145: a write into a geometry command port or GXSTAT keeps the verbatim store and forwards the
register's offset and merged word once. -/
def Obligations.GeometryWritesForwardTheMergedWord : Prop :=
  ∀ (s : State) (i : Instr) (o : Nat) (w : Width) (v : Word), Reaches s i .c0 o (.write w v) →
    0x400 ≤ o → o < 0x604 →
    exec i s = .next { stored .c0 o w v s with
      log := s.log ++ [.geomCommand (BitVec.ofNat 24 (o / 4 * 4)) (BitVec.ofNat 32 (mergedBytes s .c0 (o / 4 * 4) 4 o w v))] }

/-- R146: a write into the sound range of CPU1 keeps the verbatim store and forwards its own offset, width and value,
not merged; a read gives the stored bytes. -/
def Obligations.SoundWritesForwardVerbatim : Prop :=
  ∀ (s : State) (i : Instr) (o : Nat), 0x400 ≤ o → o < 0x520 →
    (∀ (w : Width) (v : Word), Reaches s i .c1 o (.write w v) →
      exec i s = .next { stored .c1 o w v s with
        log := s.log ++ [.audioWrite (BitVec.ofNat 24 o) w (BitVec.ofNat 32 (v.toNat % 2 ^ (8 * w.bytes)))] }) ∧
    (∀ w : Width, Reaches s i .c1 o (.read w) →
      exec i s = .next { s with reply := replyOf w.bytes fun k => s.ioByte .c1 (o + k) })

/-- R147: a write touching AUXSPICNT forwards its merged value; a write touching the low byte of AUXSPIDATA transfers the
stored byte and stores the answer in its place; a write touching AUXSPIDATA clears its high byte. The answer is a free
value, log entry 5. -/
def Obligations.BackupPortTransfersTheLowByte : Prop :=
  ∀ (s : State) (i : Instr) (c : Cpu) (o : Nat) (w : Width) (v : Word), Reaches s i c o (.write w v) →
    0x1A0 ≤ o → o < 0x1A4 →
    let sent : Bool := decide (o ≤ 0x1A2) && decide (0x1A2 < o + w.bytes)
    ∃ t, exec i s = .next t ∧
      t = { s with
        mem := t.mem
        log := s.log ++
          (if o < 0x1A2 then [.backupControl (BitVec.ofNat 16 (mergedBytes s c 0x1A0 2 o w v))] else []) ++
          (if sent then [.transfer (byteAt v.toNat (0x1A2 - o)) (Config.answer8 s.draws)] else [])
        draws := if sent then s.draws + 1 else s.draws } ∧
      (sent = true → t.ioByte c 0x1A2 = Config.answer8 s.draws) ∧
      (0x1A2 < o + w.bytes → t.ioByte c 0x1A3 = 0) ∧
      ∀ k, ¬ (sent = true ∧ k = cellKey (ioRegion c) 0x1A2) →
        ¬ (0x1A2 < o + w.bytes ∧ k = cellKey (ioRegion c) 0x1A3) →
        Memory.read t.mem k = Memory.read (stored c o w v s).mem k

/-- The write of R148, and R150: a write touching ROMCTRL keeps the verbatim store and hands the cartridge its merged
value and the eight command bytes. -/
def Obligations.RomControlWritesPassTheCommand : Prop :=
  ∀ (s : State) (i : Instr) (c : Cpu) (o : Nat) (w : Width) (v : Word), Reaches s i c o (.write w v) →
    0x1A4 ≤ o → o < 0x1A8 →
    exec i s = .next { stored c o w v s with
      log := s.log ++ [.cartControl c (BitVec.ofNat 32 (mergedBytes s c 0x1A4 4 o w v))
        (BitVec.ofNat 64 (bytesValue 8 fun k => s.ioByte c (0x1A8 + k)))] }

/-- R151: a write touching map-control bytes asks the map controller once for each, in ascending order, and applies the
re-points of each answer in order; an answer with an invalid re-point refuses the whole request, which leaves only the
mark and the answers drawn (log entry 6). The answers are free values, log entry 5. -/
def Obligations.MapControlAppliesTheRepoints : Prop :=
  ∀ (s : State) (i : Instr) (o : Nat) (w : Width) (v : Word), Reaches s i .c0 o (.write w v) →
    0x240 ≤ o → o < 0x24A →
    if (List.range (mapBytes o w).length).all fun j =>
        (Config.answerMap (s.draws + j)).all fun p => validRepoint s.cart.isSome p then
      exec i s = .next ((mapBytes o w).foldl mapConfigured (stored .c0 o w v s))
    else
      ∃ d, s.draws < d ∧ d ≤ s.draws + (mapBytes o w).length ∧
        exec i s = .next { s with refused := true, draws := d }

/-- The reads of R142, R145, R148 and R149: a read touching one of these registers asks its collaborator once, logs the
call with its answer, and returns the answer's addressed lanes. The answer is a free value, log entry 5. -/
def Obligations.CollaboratorReadsReturnTheAnswer : Prop :=
  ∀ (s : State) (i : Instr) (c : Cpu) (o : Nat) (w : Width), Reaches s i c o (.read w) →
    ∀ (base : Nat) (k : Word → Call),
      ((base = 0x64 ∧ c = .c0 ∧ k = .readCaptureControl) ∨ (base = 0x600 ∧ c = .c0 ∧ k = .geomReadStatus) ∨
        (base = 0x1A4 ∧ k = .cartReadControl c) ∨ (base = 0x100010 ∧ k = .cartReadData c)) →
      base ≤ o → o < base + 4 →
      exec i s = .next { s with
        log := s.log ++ [k (Config.answer32 s.draws)]
        draws := s.draws + 1
        reply := replyOf w.bytes fun j => byteAt (Config.answer32 s.draws).toNat (o - base + j) }

/-- 41_io_dispatch.md R156 to R158 and R160: DIVCNT reads its mode bits and, in bit 14, whether all 64 bits of the
denominator are zero; the result registers read the quotient and the remainder of the current raw inputs in the current
mode. DIV_FN is an OPEN parameter (R159); that it gets mode 3 as 3 is log entry 21. -/
def Obligations.DividerReadsAreComputedFromTheInputs : Prop :=
  ∀ (s : State) (i : Instr) (o : Nat) (w : Width), Reaches s i .c0 o (.read w) →
    (0x280 ≤ o → o < 0x284 → exec i s = .next { s with
      reply := replyOf w.bytes fun k => overlaid s .c0 0x280 2
        ((s.ioByte .c0 0x280).toNat % 4 + if (bytesValue 8 fun j => s.ioByte .c0 (0x298 + j)) = 0 then 2 ^ 14 else 0) o k }) ∧
    (0x2A0 ≤ o → o < 0x2A8 → exec i s = .next { s with
      reply := replyOf w.bytes fun k => byteAt (dividerAnswer s).1.toNat (o - 0x2A0 + k) }) ∧
    (0x2A8 ≤ o → o < 0x2B0 → exec i s = .next { s with
      reply := replyOf w.bytes fun k => byteAt (dividerAnswer s).2.toNat (o - 0x2A8 + k) })

/-- R161: SQRTCNT reads its mode bit alone, and SQRT_RESULT the root of the current input in the current mode. SQRT_FN is
an OPEN parameter. -/
def Obligations.SquareRootReadsAreComputedFromTheInput : Prop :=
  ∀ (s : State) (i : Instr) (o : Nat) (w : Width), Reaches s i .c0 o (.read w) →
    (0x2B0 ≤ o → o < 0x2B4 → exec i s = .next { s with
      reply := replyOf w.bytes fun k => overlaid s .c0 0x2B0 2 ((s.ioByte .c0 0x2B0).toNat % 2) o k }) ∧
    (0x2B4 ≤ o → o < 0x2B8 → exec i s = .next { s with
      reply := replyOf w.bytes fun k => byteAt
        (Config.sqrtFn (BitVec.ofNat 1 (s.ioByte .c0 0x2B0).toNat)
          (radicandOf (BitVec.ofNat 1 (s.ioByte .c0 0x2B0).toNat) (bytesValue 8 fun j => s.ioByte .c0 (0x2B8 + j)))).toNat
        (o - 0x2B4 + k) })

/-- The contracts of R134 and R135: `OnRegisterWrite` after the verbatim store is the write itself, or both are refused;
`OnRegisterRead` is the read itself where the access touches a computed register, and returns nothing elsewhere. That
the two are requests of their own is log entry 2, and what a call returns where nothing is computed log entry 7. -/
def Obligations.RegisterContractsAreTheDispatch : Prop :=
  ∀ (s : State) (i : Instr) (c : Cpu) (o : Nat),
    (∀ (w : Width) (v : Word), Reaches s i c o (.write w v) →
      ∃ t u, exec i s = .next t ∧ exec (.onRegisterWrite c (BitVec.ofNat 24 o) w v) (stored c o w v s) = .next u ∧
        (t = u ∨ ∃ d, t = { s with refused := true, draws := d } ∧
          u = { stored c o w v s with refused := true, draws := d })) ∧
    (∀ w : Width, Reaches s i c o (.read w) →
      (¬ Avoids (computedRanges c) o w.bytes → exec (.onRegisterRead c (BitVec.ofNat 24 o) w) s = exec i s) ∧
      (Avoids (computedRanges c) o w.bytes →
        exec (.onRegisterRead c (BitVec.ofNat 24 o) w) s = .next { s with reply := .none }))

/-- 60_exceptions.md R279: an access of one CPU outside its DMA, inter-processor and map-control registers changes
nothing of the other CPU's part of the bus and no byte of the other CPU's raw block. -/
def Obligations.WindowAccessesStayOnTheirCpu : Prop :=
  ∀ (s : State) (i : Instr) (c : Cpu) (o : Nat) (acc : RegAccess), Reaches s i c o acc →
    Avoids [(0xB0, 0xE0), (0x180, 0x18C), (0x240, 0x24A), (0x100000, 0x100004)] o (accessWidth acc).bytes →
    ∃ t, exec i s = .next t ∧ t.side c.other = s.side c.other ∧
      ∀ k, k < 2 ^ 24 → t.ioByte c.other k = s.ioByte c.other k

/-! ### DMA -/

/-- 42_dma.md R181: a write touching DMAnSAD or DMAnDAD stores its masked merged value in the programmed register and in
the raw bytes; the working addresses stay. -/
def Obligations.DmaAddressRegistersAreMasked : Prop :=
  ∀ (s : State) (i : Instr) (c : Cpu) (ch : Fin 4) (o : Nat) (w : Width) (v : Word), Reaches s i c o (.write w v) →
    (0xB0 + 12 * ch.val ≤ o → o < 0xB4 + 12 * ch.val →
      let m := BitVec.ofNat 32 (mergedBytes s c (0xB0 + 12 * ch.val) 4 o w v) &&& sadBits c ch
      ∃ t, exec i s = .next t ∧
        Rewrites s t c ((withChan s c ch { s.chan c ch with sad := m }).side c)
          (0xB0 + 12 * ch.val) 4 m.toNat) ∧
    (0xB4 + 12 * ch.val ≤ o → o < 0xB8 + 12 * ch.val →
      let m := BitVec.ofNat 32 (mergedBytes s c (0xB4 + 12 * ch.val) 4 o w v) &&& dadBits c ch
      ∃ t, exec i s = .next t ∧
        Rewrites s t c ((withChan s c ch { s.chan c ch with dad := m }).side c)
          (0xB4 + 12 * ch.val) 4 m.toNat)

/-- R184 and R187: `ProgramChannel` of a channel whose own burst is running is refused and changes nothing else; without
an enable edge, or with a start mode that waits, it sets the masked control word, the active flag and, on the edge, the
working registers, and starts nothing. How a running burst comes to write its own control word:
BurstsRunElementByElement. -/
def Obligations.ProgramChannelLatchesOnTheEnableEdge : Prop :=
  ∀ (s : State) (i : Instr) (c : Cpu) (ch : Fin 4) (v : Word) (b : State),
    Calls s i (.programChannel c ch v) c (cntOffset ch) 4 v.toNat b →
    ((s.chan c ch).executing = true → exec i s = .next { s with refused := true }) ∧
    ((s.chan c ch).executing = false →
      (enables (s.chan c ch) v = false ∨ modeField c (v &&& cntBits c ch) ≠ 0) →
      ∃ t, exec i s = .next t ∧
        Rewrites b t c
          ((withChan s c ch (programmed (s.chan c ch) c ch v)).side c)
          (cntOffset ch) 4 (programmed (s.chan c ch) c ch v).cnt.toNat)

/-- R184 and R191: the enable edge of an Immediate channel runs `Execute` on the programmed channel inside the write, and
the raw control word shows the channel's; where an access of the burst is refused, so is the whole write. -/
def Obligations.ImmediateChannelsRunInsideTheWrite : Prop :=
  ∀ (s : State) (i : Instr) (c : Cpu) (ch : Fin 4) (v : Word) (b : State),
    Calls s i (.programChannel c ch v) c (cntOffset ch) 4 v.toNat b → s.refused = false →
    (s.chan c ch).executing = false → enables (s.chan c ch) v = true → modeField c (v &&& cntBits c ch) = 0 →
    ∃ t u, exec i s = .next t ∧ exec (.execute c ch) (withChan b c ch (programmed (s.chan c ch) c ch v)) = .next u ∧
      (u.refused = true → t = { s with refused := true, draws := u.draws }) ∧
      (u.refused = false →
        t = { u with mem := t.mem } ∧ HoldsAt t (ioRegion c) (cntOffset ch) 4 (u.chan c ch).cnt.toNat ∧
        SameOutside u t (inBytes (ioRegion c) (cntOffset ch) 4))

/-- R186 and R190: `Execute` of an inactive channel does nothing; with count 0 or source equal to destination it copies
nothing, raises nothing and makes the channel inactive whatever its repeat flag. -/
def Obligations.DegenerateBurstsOnlyStop : Prop :=
  ∀ (s : State) (c : Cpu) (ch : Fin 4),
    ((s.chan c ch).active = false → exec (.execute c ch) s = .next s) ∧
    ((s.chan c ch).active = true → ((s.chan c ch).count = 0 ∨ (s.chan c ch).src = (s.chan c ch).dst) →
      ∃ t, exec (.execute c ch) s = .next t ∧
        Rewrites s t c ((withChan s c ch (stopped (s.chan c ch))).side c)
          (cntOffset ch) 4 (stopped (s.chan c ch)).cnt.toNat)

/-- R185, R186, R188 and 20_memory.md R76: a burst whose addresses stay outside the CPU's register window copies its
elements in order, each a bus read and a bus write at the stepped addresses; then a repeating channel that is not
Immediate is re-armed and any other becomes inactive, and the completion interrupt is raised if it is enabled. Bursts
that reach the window: BurstsRunElementByElement. The `count` field stays as latched: log entry 24. -/
def Obligations.BurstCopiesItsElements : Prop :=
  ∀ (s : State) (c : Cpu) (ch : Fin 4),
    let d := s.chan c ch
    let n := d.count.toNat
    d.active = true → d.count ≠ 0 → d.src ≠ d.dst →
    (∀ k, k < n → NotWindow s c (widthOf d.cnt) (srcAt d k) ∧ NotWindow s c (widthOf d.cnt) (dstAt d k)) →
    let u := elementsCopied c d s n
    let again : Bool := d.cnt.getLsbD 25 && decide (modeField c d.cnt ≠ 0)
    let after := burstEnded { d with src := srcAt d n, dst := dstAt d n } c ch
    let irq := d.cnt.getLsbD 30
    ∃ t, exec (.execute c ch) s = .next t ∧
      t = { u.setSide c (latchedIf irq { u.side c with dma := (u.side c).dma.set ch.val after ch.isLt } (8 + ch.val)) with
        mem := t.mem } ∧
      (again = false → HoldsAt t (ioRegion c) (cntOffset ch) 4 after.cnt.toNat) ∧
      IfShown irq t c ∧
      SameOutside u t fun k => (again = false ∧ inBytes (ioRegion c) (cntOffset ch) 4 k) ∨ ifBytes irq c k

/-- R185 to R188, R194 and 20_memory.md R76: wherever its addresses lead, the register window and its handlers included, a
burst is its elements in order, each one bus read and one bus write of the owning CPU at the working addresses, which are
then stepped. So each element runs the handlers it touches once and pops once from IPCFIFORECV, and a write that enables
another Immediate channel runs that channel's burst inside the element. Where an element is refused, so is the burst, and
only the mark and the answers drawn are left (log entry 6). After the last element the channel is re-armed or becomes
inactive, and the completion interrupt is raised if it is enabled. And R187: a burst whose first `k` elements ran and
whose next one writes into its own DMAnCNT is refused as a whole, whether or not the channel was running when `Execute`
was called. The `count` field stays as latched: log entry 24. -/
def Obligations.BurstsRunElementByElement : Prop :=
  ∀ (s : State) (c : Cpu) (ch : Fin 4), s.refused = false →
    (s.chan c ch).active = true → (s.chan c ch).count ≠ 0 → (s.chan c ch).src ≠ (s.chan c ch).dst →
    (let u := burstElements c ch (s.chan c ch).count.toNat (burstStarted c ch s)
      let d := u.chan c ch
      let again : Bool := d.cnt.getLsbD 25 && decide (modeField c d.cnt ≠ 0)
      let irq := d.cnt.getLsbD 30
      ∃ t, exec (.execute c ch) s = .next t ∧
        (u.refused = true → t = { s with refused := true, draws := u.draws }) ∧
        (u.refused = false →
          t = { u.setSide c (latchedIf irq
              { u.side c with dma := (u.side c).dma.set ch.val (burstEnded d c ch) ch.isLt } (8 + ch.val)) with
            mem := t.mem } ∧
          (again = false → HoldsAt t (ioRegion c) (cntOffset ch) 4 (burstEnded d c ch).cnt.toNat) ∧
          IfShown irq t c ∧
          SameOutside u t fun k => (again = false ∧ inBytes (ioRegion c) (cntOffset ch) 4 k) ∨ ifBytes irq c k)) ∧
    ∀ k o : Nat, k < (s.chan c ch).count.toNat →
      let u := burstElements c ch k (burstStarted c ch s)
      let w := widthOf (u.chan c ch).cnt
      u.refused = false → AtWindow u c (alignTo w (u.chan c ch).dst.toNat) o →
      o < cntOffset ch + 4 → cntOffset ch < o + w.bytes →
      exec (.execute c ch) s = .next { s with
        refused := true, draws := (nextOr u (exec (readInstr w c (u.chan c ch).src) u)).draws }

/-- R187: no burst ever nests a fifth inside the four of one CPU, in any state, so the bound the model puts on the
nesting (log entry 8) refuses nothing. -/
def Obligations.BurstsNestAtMostFourDeep : Prop :=
  ∀ (s : State) (c : Cpu) (ch : Fin 4) (d : Nat), execute c ch s ≠ .error ⟨.tooDeep, d⟩

/-- R189: TRIGGER with a valid event code takes the channels in ascending order, each judged when its turn comes, and
runs `Execute` of those that are active and wait for the event; if a burst is refused, so is the whole request. -/
def Obligations.TriggerRunsTheWaitingChannels : Prop :=
  ∀ (s : State) (c : Cpu) (e : Byte), 1 ≤ e.toNat → e.toNat ≤ 8 → s.refused = false →
    let u := [(0 : Fin 4), 1, 2, 3].foldl (triggerTurn c e.toNat) s
    exec (.trigger c e) s = .next (if u.refused then { s with refused := true, draws := u.draws } else u)

/-! ### Timers -/

/-- 43_timers.md R211 and R214: `SetReload` sets the reload and neither the counter nor anything else; a read of TMnCNT_L
gives the live counter, not the stored reload, whether the timer runs or not, and a 32-bit read gives it below the raw
bytes of TMnCNT_H. -/
def Obligations.TimerLowRegisterWritesReloadReadsCounter : Prop :=
  (∀ (s : State) (i : Instr) (c : Cpu) (t : Fin 4) (v : Half) (b : State),
    Calls s i (.setReload c t v) c (0x100 + 4 * t.val) 2 v.toNat b →
    exec i s = .next (withTimer b c t { s.timer c t with reload := v })) ∧
  (∀ (s : State) (i : Instr) (c : Cpu) (t : Fin 4) (o : Nat) (w : Width), Reaches s i c o (.read w) →
    0x100 + 4 * t.val ≤ o → o < 0x104 + 4 * t.val →
    exec i s = .next { s with
      reply := replyOf w.bytes fun k => overlaid s c (0x100 + 4 * t.val) 2 (s.timer c t).counter.toNat o k })

/-- R210 and R212: `SetControl` sets the masked fields, on the enable edge loads the counter from the reload and clears
the accumulator, and the raw bytes become the masked value. A 32-bit write at TMnCNT_L sets the reload first, so that
the edge loads the new one. That a write which stops the timer also takes the cascade bit it writes is the reading of
R212's pseudocode (DEDUCED, log entry 23). -/
def Obligations.ControlWritesLoadOnTheEnableEdge : Prop :=
  (∀ (s : State) (i : Instr) (c : Cpu) (t : Fin 4) (v : Half) (b : State),
    Calls s i (.setControl c t v) c (0x102 + 4 * t.val) 2 v.toNat b →
    ∃ u, exec i s = .next u ∧
      Rewrites b u c ((withTimer s c t (controlled (s.timer c t) t v)).side c)
        (0x102 + 4 * t.val) 2 (v &&& controlBits t).toNat) ∧
  (∀ (s : State) (i : Instr) (c : Cpu) (t : Fin 4) (v : Word),
    Reaches s i c (0x100 + 4 * t.val) (.write .w32 v) →
    ∃ u, exec i s = .next u ∧
      Rewrites (stored c (0x100 + 4 * t.val) .w32 v s) u c
        ((withTimer s c t
          (controlled { s.timer c t with reload := v.setWidth 16 } t (v.extractLsb' 16 16))).side c)
        (0x102 + 4 * t.val) 2 (v.extractLsb' 16 16 &&& controlBits t).toNat)

/-- R213: one timer-clock cycle takes the four timers in ascending order, each with the overflow of the one below;
each overflow is reported and, where the timer asks for it, sets its bit of IF. -/
def Obligations.OneCycleCountsEachTimer : Prop :=
  ∀ (s : State) (c : Cpu), ∃ (t : State) (k0 k1 k2 k3 : Bool),
    exec (.tick c 1) s = .next t ∧
    TimerCycle 0 (s.timer c 0) (t.timer c 0) false k0 ∧ TimerCycle 1 (s.timer c 1) (t.timer c 1) k0 k1 ∧
    TimerCycle 2 (s.timer c 2) (t.timer c 2) k1 k2 ∧ TimerCycle 3 (s.timer c 3) (t.timer c 3) k2 k3 ∧
    (let i0 := k0 && (s.timer c 0).irq
     let i1 := k1 && (s.timer c 1).irq
     let i2 := k2 && (s.timer c 2).irq
     let i3 := k3 && (s.timer c 3).irq
     t = { s.setSide c (latchedIf i3 (latchedIf i2 (latchedIf i1
          (latchedIf i0 { s.side c with tmr := (t.side c).tmr } 3) 4) 5) 6) with
        mem := t.mem
        reply := .overflows (if k0 then 1 else 0) (if k1 then 1 else 0) (if k2 then 1 else 0) (if k3 then 1 else 0) } ∧
      IfShown (i0 || i1 || i2 || i3) t c ∧ SameOutside s t (ifBytes (i0 || i1 || i2 || i3) c))

/-- R213: TICK of 0 cycles changes nothing, and TICK of a sum of cycles is the one after the other, the overflow counts
added. -/
def Obligations.TicksAddUp : Prop :=
  ∀ (s : State) (c : Cpu),
    exec (.tick c 0) s = .next { s with reply := .overflows 0 0 0 0 } ∧
    ∀ m n : Word, m.toNat + n.toNat < 2 ^ 32 →
      ∃ (t u : State) (a0 a1 a2 a3 b0 b1 b2 b3 : Word),
        exec (.tick c m) s = .next t ∧ t.reply = .overflows a0 a1 a2 a3 ∧
        exec (.tick c n) t = .next u ∧ u.reply = .overflows b0 b1 b2 b3 ∧
        exec (.tick c (m + n)) s =
          .next { u with reply := .overflows (a0 + b0) (a1 + b1) (a2 + b2) (a3 + b3) }

/-! ### Inter-processor channel -/

/-- 44_ipc.md R230 and R231: `WriteSync` sets the payload and the enable, raises IF bit 16 of the other CPU exactly when it
requests and the other CPU has its enable set, and both raw IPCSYNC show the new payloads. A byte write at 0x180, 0x182
or 0x183 takes payload and enable from the raw bytes, so it changes nothing and requests nothing. -/
def Obligations.SyncWritesReachTheOtherCpu : Prop :=
  (∀ (s : State) (i : Instr) (c : Cpu) (v : Word) (b : State), Calls s i (.writeSync c v) c 0x180 4 v.toNat b →
    let p := { s.side c with syncOut := v.extractLsb' 8 4, syncIrqEn := v.getLsbD 14 }
    let k := v.getLsbD 13 && (s.side c.other).syncIrqEn
    let q := latchedIf k (s.side c.other) 16
    ∃ t, exec i s = .next t ∧ t = { (b.setSide c p).setSide c.other q with mem := t.mem } ∧
      HoldsAt t (ioRegion c) 0x180 4 (syncValue p q) ∧ HoldsAt t (ioRegion c.other) 0x180 4 (syncValue q p) ∧
      IfShown k t c.other ∧
      SameOutside b t fun key => inBytes (ioRegion c) 0x180 4 key ∨ inBytes (ioRegion c.other) 0x180 4 key ∨
        ifBytes k c.other key) ∧
  (∀ (s : State) (i : Instr) (c : Cpu) (o : Nat) (v : Word), MirrorOk s → Reaches s i c o (.write .w8 v) →
    (o = 0x180 ∨ o = 0x182 ∨ o = 0x183) →
    ∃ t, exec i s = .next t ∧ t = { s with mem := t.mem } ∧ ∀ k, Memory.read t.mem k = Memory.read s.mem k)

/-- R235, R237 and R239: `FifoControl` sets the two interrupt enables and the enable; bit 3 empties the writer's send
queue and the enable's 0 to 1 edge both queues; the last received words stay. -/
def Obligations.FifoControlResetsTheQueues : Prop :=
  ∀ (s : State) (i : Instr) (c : Cpu) (v : Word) (b : State), Calls s i (.fifoControl c v) c 0x184 4 v.toNat b →
    let both := v.getLsbD 15 && !(s.side c).fifoEnable
    ∃ t, exec i s = .next t ∧ t.reply = s.reply ∧
      FifoDoneFor c b t
        { s.side c with
          sendEmptyIrqEn := v.getLsbD 2, recvNotEmptyIrqEn := v.getLsbD 10, fifoEnable := v.getLsbD 15
          fifo := if both then [] else (s.side c).fifo }
        { s.side c.other with fifo := if both || v.getLsbD 3 then [] else (s.side c.other).fifo }

/-- R238 to R240: `Send` appends its word to the other CPU's receive queue, or drops it if that holds 16, whatever the
enables; no queue of the sender changes. -/
def Obligations.SendAppendsOrDrops : Prop :=
  ∀ (s : State) (i : Instr) (c : Cpu) (v : Word) (b : State), Calls s i (.send c v) c 0x188 4 v.toNat b →
    ∃ t, exec i s = .next t ∧ t.reply = s.reply ∧
      FifoDoneFor c b t (s.side c)
        { s.side c.other with
          fifo := if (s.side c.other).fifo.length = 16 then (s.side c.other).fifo else (s.side c.other).fifo ++ [v] }

/-- R238, R239 and R241: `Recv`, as a call or as a read touching IPCFIFORECV, removes and returns the oldest word of the
CPU's queue and remembers it; with an empty queue it returns the remembered word and changes nothing. A narrow read pops
one word and returns its addressed lanes. -/
def Obligations.RecvPopsOrRepeats : Prop :=
  ∀ (s : State) (i : Instr) (c : Cpu) (o : Nat) (w : Width),
    ((i = .recv c ∧ o = 0x100000 ∧ w = .w32) ∨ (Reaches s i c o (.read w) ∧ 0x100000 ≤ o ∧ o < 0x100004)) →
    ((s.side c).fifo = [] → exec i s = .next { s with
      reply := replyOf w.bytes fun k => byteAt (s.side c).lastRecv.toNat (o - 0x100000 + k) }) ∧
    (∀ (v : Word) (q : List Word), (s.side c).fifo = v :: q →
      ∃ t, exec i s = .next t ∧ t.reply = replyOf w.bytes (fun k => byteAt v.toNat (o - 0x100000 + k)) ∧
        FifoDoneFor c s t { s.side c with fifo := q, lastRecv := v } (s.side c.other))

/-- The FIFO capacity law, R242: from an empty queue, 16 sends are kept in order and a 17th is dropped; 16 receives
return them in order, and a 17th returns the 16th again. -/
def Obligations.FifoKeepsSixteenWordsInOrder : Prop :=
  ∀ (s : State) (c : Cpu) (vs : List Word) (extra : Word), (s.side c.other).fifo = [] → vs.length = 16 →
    let sent := vs.foldl (fun u v => nextOr u (exec (.send c v) u)) s
    let full := nextOr sent (exec (.send c extra) sent)
    let taken := fun n => (List.range n).foldl (fun u _ => nextOr u (exec (.recv c.other) u)) full
    (sent.side c.other).fifo = vs ∧ (full.side c.other).fifo = vs ∧
    (∀ n, (h : n < vs.length) → (taken (n + 1)).reply = .value vs[n]) ∧
    ((taken 16).side c.other).fifo = [] ∧ (taken 17).reply = (taken 16).reply

/-! ### Interrupt latch -/

/-- 45_irq_latch.md R260, R261 and R264: `SetIME` takes bit 0 of its value and `SetIE` all of it; pending is recomputed
and the raw bytes show the field. -/
def Obligations.EnableWritesRecomputePending : Prop :=
  ∀ (s : State) (i : Instr) (c : Cpu) (v : Word) (b : State),
    (Calls s i (.setIME c v) c 0x208 4 v.toNat b →
      ∃ t, exec i s = .next t ∧
        Rewrites b t c (withPending { s.side c with ime := v.getLsbD 0 }) 0x208 4 (v.toNat % 2)) ∧
    (Calls s i (.setIE c v) c 0x210 4 v.toNat b →
      ∃ t, exec i s = .next t ∧ Rewrites b t c (withPending { s.side c with ie := v }) 0x210 4 v.toNat)

/-- R262 and R264: `SetIF` ORs its mask into IF, recomputes pending and rewrites the raw bytes; RAISEIRQ does it for one
bit. -/
def Obligations.RaisingOrsIntoTheFlags : Prop :=
  ∀ (s : State) (i : Instr) (c : Cpu) (m : Word),
    (i = .setIF c m ∨ ∃ b : Byte, i = .raiseirq c b ∧ b.toNat < 32 ∧ m = BitVec.ofNat 32 (2 ^ b.toNat)) →
    ∃ t, exec i s = .next t ∧
      Rewrites s t c (latchedMask (s.side c) m) 0x214 4 ((s.side c).iflag ||| m).toNat

/-- R263 and R264: `ClearIF` clears the bits of its mask and leaves the others; a write into IF takes as mask the bytes
it wrote, at their lanes, and not the merged value; pending is recomputed and the raw bytes show what remains. -/
def Obligations.ClearingTakesTheWrittenLanes : Prop :=
  ∀ (s : State) (i : Instr) (c : Cpu) (m : Word),
    (i = .clearIF c m ∨ ∃ (o : Nat) (w : Width) (v : Word), Reaches s i c o (.write w v) ∧ 0x214 ≤ o ∧ o < 0x218 ∧
      m = BitVec.ofNat 32 (v.toNat % 2 ^ (8 * w.bytes)) <<< (8 * (o - 0x214))) →
    ∃ t, exec i s = .next t ∧
      Rewrites s t c (withPending { s.side c with iflag := (s.side c).iflag &&& ~~~ m }) 0x214 4
        ((s.side c).iflag &&& ~~~ m).toNat

/-! ### Operations on the map -/

/-- 40_decode.md R112 and R113: SETTCW moves the window base, its low 14 bits cleared; REMAP with an allowed region code
replaces one entry of one table. -/
def Obligations.WindowBaseAndEntriesAreReplaced : Prop :=
  ∀ s : State,
    (∀ v : Word, exec (.settcw v) s = .next { s with tcwBase := v &&& 0xFFFFC000 }) ∧
    (∀ (c : Cpu) (i g : Byte) (m : Word), ¬ BadRemapCode s c g.toNat →
      ∃ t r, exec (.remap c i g m) s = .next t ∧ Region.ofCode g = some r ∧
        t = s.setSide c { s.side c with table := (t.side c).table } ∧
        ∀ j : Byte, t.entry c j = if j = i then ⟨r, m⟩ else s.entry c j)

/-- R114 and R115: MOUNT of a power of two of at least 4 bytes replaces the cartridge and points entries 0x80 to 0x9F of both
tables at it; UNMOUNT turns every entry that names the cartridge into a sink entry and removes the cartridge, and with
none mounted changes nothing. Every other entry and every other byte stays. -/
def Obligations.MountAndUnmountMoveTheCartridge : Prop :=
  (∀ (s : State) (size : Word) (bytes : List Byte) (k : Nat), 2 ≤ k → size.toNat = 2 ^ k → bytes.length = 2 ^ k →
    ∃ t, exec (.mount size bytes) s = .next t ∧
      t = { s with
        mem := t.mem, cart := some size
        cpu0 := { s.cpu0 with table := t.cpu0.table }, cpu1 := { s.cpu1 with table := t.cpu1.table } } ∧
      (∀ (c : Cpu) (i : Byte), t.entry c i =
        if 0x80 ≤ i.toNat ∧ i.toNat < 0xA0 then ⟨.cartrom, size - 1⟩ else s.entry c i) ∧
      (∀ o, (h : o < bytes.length) → t.byte .cartrom o = bytes[o]) ∧
      (∀ (r : Region) (o : Nat), r ≠ .cartrom → o < 2 ^ 32 → t.byte r o = s.byte r o)) ∧
  (∀ s : State, ∃ t, exec .unmount s = .next t ∧
    t = { s with
      mem := t.mem, cart := none
      cpu0 := { s.cpu0 with table := t.cpu0.table }, cpu1 := { s.cpu1 with table := t.cpu1.table } } ∧
    (∀ (c : Cpu) (i : Byte), t.entry c i = if (s.entry c i).region = .cartrom then ⟨.sink, 0⟩ else s.entry c i) ∧
    (∀ (r : Region) (o : Nat), r ≠ .cartrom → o < 2 ^ 32 → t.byte r o = s.byte r o) ∧
    (s.cart = none → TableOk s → CellsInside s → t = s))

/-- R116: LOAD of bytes that fit their region puts them there, in order, and does nothing else: no decode, no handler,
no call. -/
def Obligations.LoadFillsItsRegion : Prop :=
  ∀ (s : State) (g : Byte) (o : Word) (bytes : List Byte) (r : Region) (size : Nat), Region.ofCode g = some r →
    r ≠ .io0 → r ≠ .io1 → regionSize s.config s.cart r = some size → o.toNat + bytes.length ≤ size →
    ∃ t, exec (.load g o bytes) s = .next t ∧ t = { s with mem := t.mem } ∧
      (∀ i, (h : i < bytes.length) → t.byte r (o.toNat + i) = bytes[i]) ∧
      SameOutside s t (inBytes r o.toNat bytes.length)

end Statements
end

