-- ==== Sys2Proof/Laws/Bits.lean ====
section
/-! SUPPORT. Bytes and values: what `leValue`, `leBytes`, `byteAt` and the alignment helpers compute. -/

namespace Sys2Proof.Machine

@[simp] theorem leBytes_length (n v : Nat) : (leBytes n v).length = n := by
  induction n generalizing v with
  | zero => rfl
  | succ n ih => simp [leBytes, ih]

theorem leValue_lt (l : List Byte) : leValue l < 256 ^ l.length := by
  induction l with
  | nil => simp [leValue]
  | cons b l ih =>
    have := b.isLt
    simp only [leValue, List.length_cons, pow_succ]
    omega

/-- Byte `i` of the value of a list is its `i`-th element. -/
theorem byteAt_leValue (l : List Byte) (i : Nat) (h : i < l.length) : byteAt (leValue l) i = l[i] := by
  induction l generalizing i with
  | nil => simp at h
  | cons b l ih =>
    cases i with
    | zero =>
      apply BitVec.eq_of_toNat_eq
      have := b.isLt
      simp only [byteAt, leValue, BitVec.toNat_ofNat, List.getElem_cons_zero]
      omega
    | succ i =>
      have hi : i < l.length := by simpa using h
      rw [List.getElem_cons_succ, ← ih i hi]
      simp only [byteAt, leValue]
      have e : 2 ^ (8 * (i + 1)) = 256 * 2 ^ (8 * i) := by
        rw [Nat.mul_add, pow_add]; ring
      have hb := b.isLt
      rw [e, ← Nat.div_div_eq_div_mul]
      congr 2
      omega

theorem byteAt_div (v i j : Nat) : byteAt (v / 2 ^ (8 * j)) i = byteAt v (i + j) := by
  simp only [byteAt, Nat.div_div_eq_div_mul, ← pow_add]
  congr 3
  ring

/-- The `i`-th little-endian byte of a value. -/
theorem leBytes_getElem (n v i : Nat) (h : i < (leBytes n v).length) : (leBytes n v)[i] = byteAt v i := by
  induction n generalizing v i with
  | zero => simp at h
  | succ n ih =>
    cases i with
    | zero => simp [leBytes, byteAt]
    | succ i =>
      have hi : i < (leBytes n (v / 256)).length := by simpa using h
      simp only [leBytes, List.getElem_cons_succ, ih _ i hi]
      exact byteAt_div v i 1

/-- The little-endian bytes of a value give it back, modulo their width. -/
theorem leValue_leBytes (n v : Nat) : leValue (leBytes n v) = v % 256 ^ n := by
  induction n generalizing v with
  | zero => simp [leBytes, leValue, Nat.mod_one]
  | succ n ih =>
    simp only [leBytes, leValue, ih, BitVec.toNat_ofNat]
    rw [show 256 ^ (n + 1) = 256 * 256 ^ n by ring, Nat.mod_mul]

/-- A value below `256 ^ n` is determined by its `n` bytes. -/
theorem eq_of_byteAt (n a b : Nat) (ha : a < 256 ^ n) (hb : b < 256 ^ n)
    (h : ∀ i, i < n → byteAt a i = byteAt b i) : a = b := by
  rw [← Nat.mod_eq_of_lt ha, ← Nat.mod_eq_of_lt hb, ← leValue_leBytes, ← leValue_leBytes]
  congr 1
  apply List.ext_getElem
  · simp
  · intro i h1 h2
    rw [leBytes_getElem, leBytes_getElem]
    exact h i (by simpa using h1)

theorem leValue_append (a b : List Byte) : leValue (a ++ b) = leValue a + 256 ^ a.length * leValue b := by
  induction a with
  | nil => simp [leValue]
  | cons x a ih =>
    simp only [List.cons_append, leValue, ih, List.length_cons, pow_succ]
    ring

theorem byteAt_toNat (v i : Nat) : (byteAt v i).toNat = v / 2 ^ (8 * i) % 256 := by
  simp [byteAt]

/-- Byte `i` of a truncated value, inside the width. -/
theorem byteAt_mod (v n i : Nat) (h : i < n) : byteAt (v % 256 ^ n) i = byteAt v i := by
  have hl : i < (leBytes n v).length := by simpa using h
  rw [← leValue_leBytes, byteAt_leValue _ _ hl, leBytes_getElem]

theorem pow_8_mul (n : Nat) : 2 ^ (8 * n) = 256 ^ n := by
  rw [pow_mul]; norm_num

theorem bytesValue_lt (n : Nat) (f : Nat → Byte) : bytesValue n f < 256 ^ n := by
  have := leValue_lt ((List.range n).map f)
  simpa [bytesValue] using this

/-- Byte `i` of a value made of bytes. -/
theorem byteAt_bytesValue (n : Nat) (f : Nat → Byte) (i : Nat) (h : i < n) : byteAt (bytesValue n f) i = f i := by
  have hl : i < ((List.range n).map f).length := by simpa using h
  rw [bytesValue, byteAt_leValue _ _ hl]
  simp

theorem bytesValue_congr (n : Nat) (f g : Nat → Byte) (h : ∀ i, i < n → f i = g i) :
    bytesValue n f = bytesValue n g := by
  unfold bytesValue
  congr 1
  apply List.map_congr_left
  intro i hi
  exact h i (List.mem_range.mp hi)

/-- The bytes of a value below `256 ^ n` give it back. -/
theorem bytesValue_byteAt (n v : Nat) (h : v < 256 ^ n) : bytesValue n (byteAt v) = v :=
  eq_of_byteAt n _ _ (bytesValue_lt n _) h fun i hi => byteAt_bytesValue n _ i hi

theorem bytesValue_byteAt_mod (n v : Nat) : bytesValue n (byteAt v) = v % 256 ^ n := by
  rw [← bytesValue_byteAt n (v % 256 ^ n) (Nat.mod_lt _ (by positivity))]
  exact bytesValue_congr n _ _ fun i hi => (byteAt_mod v n i hi).symm

/-! ### Widths and alignment -/

theorem width_bytes_pos (w : Width) : 0 < w.bytes := by cases w <;> decide

theorem width_bytes_le (w : Width) : w.bytes ≤ 4 := by cases w <;> decide

theorem width_bytes_cases (w : Width) : w.bytes = 1 ∨ w.bytes = 2 ∨ w.bytes = 4 := by
  cases w <;> simp [Width.bytes]

theorem width_pow_dvd (w : Width) : 256 ^ w.bytes ∣ 2 ^ 32 := by
  cases w <;> decide

theorem truncTo_toNat (w : Width) (v : Word) : (truncTo w v).toNat = v.toNat % 256 ^ w.bytes := by
  have h := v.isLt
  simp only [truncTo, BitVec.toNat_ofNat, pow_8_mul]
  exact Nat.mod_eq_of_lt (lt_of_le_of_lt (Nat.mod_le _ _) h)

/-- Truncation keeps the bytes inside the width. -/
theorem byteAt_truncTo (w : Width) (v : Word) (i : Nat) (h : i < w.bytes) :
    byteAt (truncTo w v).toNat i = byteAt v.toNat i := by
  rw [truncTo_toNat, byteAt_mod _ _ _ h]

/-- A reply of at most four bytes is not cut by its u32 type. -/
theorem reply_toNat (w : Width) (f : Nat → Byte) :
    (BitVec.ofNat 32 (bytesValue w.bytes f)).toNat = bytesValue w.bytes f := by
  have h := bytesValue_lt w.bytes f
  have h' : (256 : Nat) ^ w.bytes ≤ 2 ^ 32 := Nat.le_of_dvd (by decide) (width_pow_dvd w)
  simp only [BitVec.toNat_ofNat]
  exact Nat.mod_eq_of_lt (lt_of_lt_of_le h h')

/-- Clearing bit 0. -/
theorem and_not1 (a : Word) : a &&& ~~~ (1#32) = (a >>> 1) <<< 1 := by
  apply BitVec.eq_of_getLsbD_eq
  intro i hi
  rcases i with _ | i
  · simp
  · simp only [BitVec.getLsbD_and, BitVec.getLsbD_not, BitVec.getLsbD_shiftLeft, BitVec.getLsbD_ushiftRight, hi, decide_true, Bool.true_and]
    have : (1#32).getLsbD (i+1) = false := by
      rw [BitVec.getLsbD_ofNat, show (1:Nat) = 2^1-1 from rfl, Nat.testBit_two_pow_sub_one]; simp
    simp [this, Nat.add_comm]

/-- Clearing bits 1 and 0. -/
theorem and_not3 (a : Word) : a &&& ~~~ (3#32) = (a >>> 2) <<< 2 := by
  apply BitVec.eq_of_getLsbD_eq
  intro i hi
  rcases i with _ | _ | i
  · simp
  · simp
  · simp only [BitVec.getLsbD_and, BitVec.getLsbD_not, BitVec.getLsbD_shiftLeft, BitVec.getLsbD_ushiftRight, hi, decide_true, Bool.true_and]
    have : (3#32).getLsbD (i+1+1) = false := by
      simp only [BitVec.getLsbD_ofNat]
      rw [show (3:Nat) = 2^2-1 from rfl, Nat.testBit_two_pow_sub_one]; simp
    simp only [this, Bool.not_false, Bool.and_true]
    rw [show 2 + (i+1+1-2) = i+1+1 by omega]; simp

/-- The aligned address, as arithmetic (20_memory.md R63). -/
theorem alignAddr_toNat (w : Width) (a : Word) : (alignAddr w a).toNat = a.toNat / w.bytes * w.bytes := by
  have h := a.isLt
  cases w
  · have e : alignAddr .w8 a = a := by
      simp only [alignAddr, Width.bytes]
      exact BitVec.and_allOnes
    rw [e]; simp [Width.bytes]
  · have e : alignAddr .w16 a = (a >>> 1) <<< 1 := and_not1 a
    rw [e]
    simp only [Width.bytes, BitVec.toNat_shiftLeft, BitVec.toNat_ushiftRight, Nat.shiftLeft_eq, Nat.shiftRight_eq_div_pow]
    omega
  · have e : alignAddr .w32 a = (a >>> 2) <<< 2 := and_not3 a
    rw [e]
    simp only [Width.bytes, BitVec.toNat_shiftLeft, BitVec.toNat_ushiftRight, Nat.shiftLeft_eq, Nat.shiftRight_eq_div_pow]
    omega

/-- An aligned offset and its bytes stay inside any multiple of four. -/
theorem alignOffset_le (w : Width) (o : Nat) : alignOffset w o ≤ o := Nat.div_mul_le_self o w.bytes

theorem lt_alignOffset (w : Width) (o : Nat) : o < alignOffset w o + w.bytes := by
  have := Nat.div_add_mod o w.bytes
  have := Nat.mod_lt o (width_bytes_pos w)
  simp only [alignOffset]
  nlinarith [Nat.mul_comm (o / w.bytes) w.bytes]

theorem alignOffset_idem (w : Width) (o : Nat) : alignOffset w (alignOffset w o) = alignOffset w o := by
  simp only [alignOffset]
  rw [Nat.mul_div_cancel _ (width_bytes_pos w)]

end Sys2Proof.Machine
end

