-- ==== Sys2Proof/Laws/Memory.lean ====
section
/-! SUPPORT. The memory: a write is read back, leaves every other byte alone, and keeps the canonical form. -/

namespace Sys2Proof.Machine

/-! ### One byte -/

theorem read_of_not_mem (m : Memory) (k : Nat) (h : ∀ x ∈ m, x.1 ≠ k) : Memory.read m k = 0 := by
  induction m with
  | nil => rfl
  | cons x m ih =>
    rw [Memory.read, if_neg (h x (by simp))]
    exact ih fun y hy => h y (by simp [hy])

theorem read_erase_same (m : Memory) (k : Nat) : (Memory.erase m k).read k = 0 := by
  apply read_of_not_mem
  intro x hx
  simpa using (List.mem_filter.mp hx).2

theorem read_filter (m : Memory) (p : Host.Cell → Bool) (k : Nat) (h : ∀ b, p (k, b) = true) :
    Memory.read (m.filter p) k = Memory.read m k := by
  induction m with
  | nil => rfl
  | cons x m ih =>
    obtain ⟨a, b⟩ := x
    by_cases e : a = k
    · subst e; simp [h, Memory.read]
    · by_cases q : p (a, b) = true
      · simp [q, Memory.read, e, ih]
      · simp [q, Memory.read, e, ih]

theorem read_filter_out (m : Memory) (p : Host.Cell → Bool) (k : Nat) (h : ∀ b, p (k, b) = false) :
    Memory.read (m.filter p) k = 0 := by
  apply read_of_not_mem
  rintro ⟨a, b⟩ hx rfl
  have := (List.mem_filter.mp hx).2
  simp [h b] at this

theorem read_erase_other (m : Memory) (k j : Nat) (h : j ≠ k) : (Memory.erase m k).read j = m.read j :=
  read_filter m _ j fun _ => by simpa using h

theorem read_insert_same (m : Memory) (k : Nat) (b : Byte) (h : ∀ x ∈ m, x.1 ≠ k) :
    (Memory.insert m k b).read k = b := by
  induction m with
  | nil => simp [Memory.insert, Memory.read]
  | cons x m ih =>
    rw [Memory.insert]
    split
    · simp [Memory.read]
    · rw [Memory.read, if_neg (h x (by simp))]
      exact ih fun y hy => h y (by simp [hy])

theorem read_insert_other (m : Memory) (k j : Nat) (b : Byte) (h : j ≠ k) :
    (Memory.insert m k b).read j = m.read j := by
  induction m with
  | nil => simp [Memory.insert, Memory.read, h.symm]
  | cons x m ih =>
    rw [Memory.insert]
    split
    · simp [Memory.read, h.symm]
    · rw [Memory.read, Memory.read, ih]

/-- A write is read back. -/
theorem read_write_same (m : Memory) (k : Nat) (b : Byte) : (Memory.write m k b).read k = b := by
  rw [Memory.write]
  split
  · next e => rw [read_erase_same, e]
  · exact read_insert_same _ _ _ fun x hx => by simpa using (List.mem_filter.mp hx).2

/-- A write leaves every other byte alone. -/
theorem read_write_other (m : Memory) (k j : Nat) (b : Byte) (h : j ≠ k) : (Memory.write m k b).read j = m.read j := by
  rw [Memory.write]
  split
  · exact read_erase_other m k j h
  · rw [read_insert_other _ _ _ _ h, read_erase_other m k j h]

theorem read_write (m : Memory) (k j : Nat) (b : Byte) :
    (Memory.write m k b).read j = if j = k then b else m.read j := by
  split
  · next e => rw [e, read_write_same]
  · next e => exact read_write_other m k j b e

/-! ### The canonical form -/

theorem filter_wf (m : Memory) (p : Host.Cell → Bool) (h : Memory.wf m) : Memory.wf (m.filter p) :=
  ⟨h.1.filter p, fun x hx => h.2 x (List.mem_filter.mp hx).1⟩

theorem mem_insert (m : Memory) (k : Nat) (b : Byte) (x : Host.Cell) :
    x ∈ Memory.insert m k b ↔ x = (k, b) ∨ x ∈ m := by
  induction m with
  | nil => simp [Memory.insert]
  | cons y m ih =>
    rw [Memory.insert]
    split
    · simp
    · rw [List.mem_cons, ih, List.mem_cons]; tauto

theorem insert_wf (m : Memory) (k : Nat) (b : Byte) (h : Memory.wf m) (hk : ∀ x ∈ m, x.1 ≠ k) (hb : b ≠ 0) :
    Memory.wf (Memory.insert m k b) := by
  constructor
  · induction m with
    | nil => simp [Memory.insert]
    | cons y m ih =>
      have hp := List.pairwise_cons.mp h.1
      rw [Memory.insert]
      split
      · next lt =>
        refine List.pairwise_cons.mpr ⟨fun x hx => ?_, h.1⟩
        rcases List.mem_cons.mp hx with rfl | hx
        · exact lt
        · exact lt_trans lt (hp.1 x hx)
      · next nlt =>
        refine List.pairwise_cons.mpr ⟨fun x hx => ?_, ih ⟨hp.2, fun z hz => h.2 z (by simp [hz])⟩ fun z hz => hk z (by simp [hz])⟩
        rcases (mem_insert m k b x).mp hx with rfl | hx
        · have := hk y (by simp)
          simp only; omega
        · exact hp.1 x hx
  · intro x hx
    rcases (mem_insert m k b x).mp hx with rfl | hx
    · exact hb
    · exact h.2 x hx

/-- A write keeps the canonical form. -/
theorem write_wf (m : Memory) (k : Nat) (b : Byte) (h : Memory.wf m) : Memory.wf (Memory.write m k b) := by
  rw [Memory.write]
  split
  · exact filter_wf m _ h
  · next hb =>
    exact insert_wf _ k b (filter_wf m _ h) (fun x hx => by simpa using (List.mem_filter.mp hx).2) hb

/-- The keys a write leaves listed. -/
theorem mem_write (m : Memory) (k : Nat) (b : Byte) (x : Host.Cell) (h : x ∈ Memory.write m k b) :
    x.1 = k ∨ x ∈ m := by
  rw [Memory.write] at h
  split at h
  · exact .inr (List.mem_filter.mp h).1
  · rcases (mem_insert _ k b x).mp h with rfl | h
    · exact .inl rfl
    · exact .inr (List.mem_filter.mp h).1

/-- Clearing part of the memory keeps the canonical form. -/
theorem keepCart_wf (m : Memory) (b : Bool) (h : Memory.wf m) : Memory.wf (Memory.keepCart m b) :=
  filter_wf m _ h

/-! ### Several bytes -/

theorem writeBytes_wf (m : Memory) (k : Nat) (l : List Byte) (h : Memory.wf m) : Memory.wf (Memory.writeBytes m k l) := by
  induction l generalizing m k with
  | nil => exact h
  | cons b l ih => exact ih _ _ (write_wf m k b h)

theorem leWrite_wf (m : Memory) (k n v : Nat) (h : Memory.wf m) : Memory.wf (Memory.leWrite m k n v) :=
  writeBytes_wf m k _ h

/-- Writing a run of bytes: what every byte reads as afterwards. -/
theorem read_writeBytes (m : Memory) (k j : Nat) (l : List Byte) :
    (Memory.writeBytes m k l).read j = if h : k ≤ j ∧ j < k + l.length then l[j - k]'(by omega) else m.read j := by
  induction l generalizing m k with
  | nil => simp [Memory.writeBytes]
  | cons b l ih =>
    rw [Memory.writeBytes, ih, read_write]
    by_cases e : j = k
    · subst e
      simp
    · by_cases q : k ≤ j ∧ j < k + (b :: l).length
      · have q' : k + 1 ≤ j ∧ j < k + 1 + l.length := by
          have := q.2; simp only [List.length_cons] at this; omega
        rw [dif_pos q', dif_pos q]
        obtain ⟨d, hd⟩ : ∃ d, j = k + 1 + d := ⟨j - (k + 1), by omega⟩
        subst hd
        have e1 : k + 1 + d - (k + 1) = d := by omega
        have e2 : k + 1 + d - k = d + 1 := by omega
        simp only [e1, e2, List.getElem_cons_succ]
      · have q' : ¬ (k + 1 ≤ j ∧ j < k + 1 + l.length) := by
          simp only [List.length_cons] at q; omega
        rw [dif_neg q', dif_neg q, if_neg e]

/-- A little-endian write: what every byte reads as afterwards (R13). -/
theorem read_leWrite (m : Memory) (k n v j : Nat) :
    (Memory.leWrite m k n v).read j = if k ≤ j ∧ j < k + n then byteAt v (j - k) else m.read j := by
  rw [Memory.leWrite, read_writeBytes]
  simp only [leBytes_length]
  split
  · exact leBytes_getElem _ _ _ _
  · rfl

theorem mem_writeBytes (m : Memory) (k : Nat) (l : List Byte) (x : Host.Cell) (h : x ∈ Memory.writeBytes m k l) :
    (k ≤ x.1 ∧ x.1 < k + l.length) ∨ x ∈ m := by
  induction l generalizing m k with
  | nil => exact .inr h
  | cons b l ih =>
    rw [List.length_cons]
    rcases ih _ _ h with h | h
    · left; omega
    · rcases mem_write m k b x h with h | h
      · left; omega
      · exact .inr h

theorem mem_leWrite (m : Memory) (k n v : Nat) (x : Host.Cell) (h : x ∈ Memory.leWrite m k n v) :
    (k ≤ x.1 ∧ x.1 < k + n) ∨ x ∈ m := by
  simpa using mem_writeBytes m k (leBytes n v) x h

theorem readBytes_eq (m : Memory) (k n : Nat) :
    Memory.readBytes m k n = (List.range n).map fun i => m.read (k + i) := by
  induction n generalizing k with
  | zero => rfl
  | succ n ih =>
    rw [Memory.readBytes, ih, List.range_succ_eq_map, List.map_cons, List.map_map, Nat.add_zero]
    congr 2
    funext i
    simp only [Function.comp]
    congr 1
    omega

theorem readBytes_length (m : Memory) (k n : Nat) : (Memory.readBytes m k n).length = n := by
  simp [readBytes_eq]

/-- A little-endian read, byte by byte (R13). -/
theorem leRead_eq (m : Memory) (k n : Nat) : Memory.leRead m k n = bytesValue n fun i => m.read (k + i) := by
  rw [Memory.leRead, readBytes_eq, bytesValue]

theorem leRead_lt (m : Memory) (k n : Nat) : Memory.leRead m k n < 256 ^ n := by
  rw [leRead_eq]; exact bytesValue_lt _ _

theorem leRead_congr (m m' : Memory) (k n : Nat) (h : ∀ i, i < n → m.read (k + i) = m'.read (k + i)) :
    Memory.leRead m k n = Memory.leRead m' k n := by
  rw [leRead_eq, leRead_eq]; exact bytesValue_congr _ _ _ h

/-- A little-endian read sees the write of the same bytes. -/
theorem leRead_leWrite_same (m : Memory) (k n v : Nat) : Memory.leRead (Memory.leWrite m k n v) k n = v % 256 ^ n := by
  rw [leRead_eq, ← bytesValue_byteAt_mod]
  apply bytesValue_congr
  intro i hi
  rw [read_leWrite, if_pos (by omega)]
  congr 1
  omega

/-- A little-endian read does not see a write of other bytes. -/
theorem leRead_leWrite_other (m : Memory) (k n v j l : Nat) (h : j + l ≤ k ∨ k + n ≤ j) :
    Memory.leRead (Memory.leWrite m k n v) j l = Memory.leRead m j l := by
  apply leRead_congr
  intro i hi
  rw [read_leWrite, if_neg (by omega)]

/-! ### Keys -/

theorem code_lt (r : Region) : r.code < 22 := by cases r <;> decide

theorem code_inj (r r' : Region) (h : r.code = r'.code) : r = r' := by
  cases r <;> cases r' <;> first | rfl | (exfalso; revert h; decide)

theorem pow_size_lt {n : Nat} (h : n < 32) : 2 ^ n < 2 ^ 32 := Nat.pow_lt_pow_right (by decide) h

theorem regionSize_le (g : BusConfig) (cart : Option Word) (r : Region) (size : Nat)
    (h : regionSize g cart r = some size) : size < 2 ^ 32 := by
  cases r
  case cartrom =>
    simp only [regionSize, Option.map_eq_some_iff] at h
    obtain ⟨w, -, rfl⟩ := h
    exact w.isLt
  all_goals
    simp only [regionSize, Option.some.injEq, reduceCtorEq] at h
    try (subst h; first | decide | exact pow_size_lt (by omega))

theorem ioRegion_size (g : BusConfig) (cart : Option Word) (c : Cpu) : regionSize g cart (ioRegion c) = some 0x1000000 := by
  cases c <;> rfl

/-- DTCM holds the whole tightly-coupled window (10_state.md R28). -/
theorem dtcm_size (g : BusConfig) (cart : Option Word) : ∃ size, regionSize g cart .dtcm = some size ∧ 0x4000 ≤ size :=
  ⟨_, rfl, Nat.pow_le_pow_right (n := 2) (i := 14) (by decide) (Nat.le_add_right 14 g.sizes.dtcm.val)⟩

/-- Two keys of in-range offsets agree only for the same region and offset (10_state.md R41). -/
theorem cellKey_inj (r r' : Region) (o o' : Nat) (h : cellKey r o = cellKey r' o') (ho : o < 2 ^ 32)
    (ho' : o' < 2 ^ 32) : r = r' ∧ o = o' := by
  simp only [cellKey] at h
  have : r.code = r'.code := by omega
  exact ⟨code_inj _ _ this, by omega⟩

theorem cellKey_add (r : Region) (o i : Nat) : cellKey r (o + i) = cellKey r o + i := by
  simp only [cellKey]; omega

end Sys2Proof.Machine
end

