-- ==== Sys2Proof/Laws/State.lean ====
section
/-! SUPPORT. One lemma for each field under each update of the state, so that no later proof unfolds an update. -/

namespace Sys2Proof.Machine

@[simp] theorem other_other (c : Cpu) : c.other.other = c := by cases c <;> rfl

@[simp] theorem other_ne (c : Cpu) : c.other ≠ c := by cases c <;> decide

@[simp] theorem ne_other (c : Cpu) : c ≠ c.other := by cases c <;> decide

theorem eq_or_other (c d : Cpu) : d = c ∨ d = c.other := by cases c <;> cases d <;> simp [Cpu.other]

/-! ### Replacing one CPU's part -/

@[simp] theorem setSide_mem (s : State) (c : Cpu) (p : CpuSide) : (s.setSide c p).mem = s.mem := by cases c <;> rfl

@[simp] theorem setSide_cart (s : State) (c : Cpu) (p : CpuSide) : (s.setSide c p).cart = s.cart := by cases c <;> rfl

@[simp] theorem setSide_tcwBase (s : State) (c : Cpu) (p : CpuSide) : (s.setSide c p).tcwBase = s.tcwBase := by cases c <;> rfl

@[simp] theorem setSide_log (s : State) (c : Cpu) (p : CpuSide) : (s.setSide c p).log = s.log := by cases c <;> rfl

@[simp] theorem setSide_refused (s : State) (c : Cpu) (p : CpuSide) : (s.setSide c p).refused = s.refused := by cases c <;> rfl

@[simp] theorem setSide_config (s : State) (c : Cpu) (p : CpuSide) : (s.setSide c p).config = s.config := by cases c <;> rfl

@[simp] theorem setSide_input (s : State) (c : Cpu) (p : CpuSide) : (s.setSide c p).input = s.input := by cases c <;> rfl

@[simp] theorem setSide_reply (s : State) (c : Cpu) (p : CpuSide) : (s.setSide c p).reply = s.reply := by cases c <;> rfl

@[simp] theorem setSide_draws (s : State) (c : Cpu) (p : CpuSide) : (s.setSide c p).draws = s.draws := by cases c <;> rfl

@[simp] theorem setSide_side (s : State) (c : Cpu) (p : CpuSide) : (s.setSide c p).side c = p := by cases c <;> rfl

@[simp] theorem setSide_side_other (s : State) (c : Cpu) (p : CpuSide) :
    (s.setSide c p).side c.other = s.side c.other := by cases c <;> rfl

@[simp] theorem setSide_other_side (s : State) (c : Cpu) (p : CpuSide) :
    (s.setSide c.other p).side c = s.side c := by cases c <;> rfl

theorem setSide_side_eq (s : State) (c d : Cpu) (p : CpuSide) :
    (s.setSide c p).side d = if d = c then p else s.side d := by cases c <;> cases d <;> rfl

@[simp] theorem setSide_self (s : State) (c : Cpu) : s.setSide c (s.side c) = s := by cases c <;> rfl

@[simp] theorem setSide_setSide (s : State) (c : Cpu) (p q : CpuSide) : (s.setSide c p).setSide c q = s.setSide c q := by
  cases c <;> rfl

/-- Two states with the same parts are equal. -/
theorem state_ext_sides (s t : State) (h0 : s.mem = t.mem) (h1 : s.cart = t.cart) (h2 : s.tcwBase = t.tcwBase)
    (h3 : ∀ c, s.side c = t.side c) (h4 : s.log = t.log) (h5 : s.refused = t.refused) (h6 : s.input = t.input)
    (h7 : s.reply = t.reply) (h8 : s.draws = t.draws) (h9 : s.config = t.config) : s = t := by
  obtain ⟨m, ca, b, p0, p1, l, r, g, i, rp, d⟩ := s
  obtain ⟨m', ca', b', p0', p1', l', r', g', i', rp', d'⟩ := t
  have a := h3 .c0
  have e := h3 .c1
  simp only [State.side] at *
  subst h0; subst h1; subst h2; subst h4; subst h5; subst h6; subst h7; subst h8; subst h9; subst a; subst e
  rfl


@[simp] theorem modSide_mem (s : State) (c : Cpu) (f : CpuSide → CpuSide) : (s.modSide c f).mem = s.mem := by
  cases c <;> rfl

@[simp] theorem modSide_cart (s : State) (c : Cpu) (f : CpuSide → CpuSide) : (s.modSide c f).cart = s.cart := by
  cases c <;> rfl

@[simp] theorem modSide_tcwBase (s : State) (c : Cpu) (f : CpuSide → CpuSide) : (s.modSide c f).tcwBase = s.tcwBase := by
  cases c <;> rfl

@[simp] theorem modSide_log (s : State) (c : Cpu) (f : CpuSide → CpuSide) : (s.modSide c f).log = s.log := by
  cases c <;> rfl

@[simp] theorem modSide_refused (s : State) (c : Cpu) (f : CpuSide → CpuSide) : (s.modSide c f).refused = s.refused := by
  cases c <;> rfl

@[simp] theorem modSide_config (s : State) (c : Cpu) (f : CpuSide → CpuSide) : (s.modSide c f).config = s.config := by
  cases c <;> rfl

@[simp] theorem modSide_input (s : State) (c : Cpu) (f : CpuSide → CpuSide) : (s.modSide c f).input = s.input := by
  cases c <;> rfl

@[simp] theorem modSide_reply (s : State) (c : Cpu) (f : CpuSide → CpuSide) : (s.modSide c f).reply = s.reply := by
  cases c <;> rfl

@[simp] theorem modSide_draws (s : State) (c : Cpu) (f : CpuSide → CpuSide) : (s.modSide c f).draws = s.draws := by
  cases c <;> rfl

@[simp] theorem modSide_side (s : State) (c : Cpu) (f : CpuSide → CpuSide) :
    (s.modSide c f).side c = f (s.side c) := by cases c <;> rfl

@[simp] theorem modSide_side_other (s : State) (c : Cpu) (f : CpuSide → CpuSide) :
    (s.modSide c f).side c.other = s.side c.other := by cases c <;> rfl

@[simp] theorem modSide_other_side (s : State) (c : Cpu) (f : CpuSide → CpuSide) :
    (s.modSide c.other f).side c = s.side c := by cases c <;> rfl

theorem modSide_side_eq (s : State) (c d : Cpu) (f : CpuSide → CpuSide) :
    (s.modSide c f).side d = if d = c then f (s.side c) else s.side d := by cases c <;> cases d <;> rfl

theorem modSide_modSide (s : State) (c : Cpu) (f g : CpuSide → CpuSide) :
    (s.modSide c f).modSide c g = s.modSide c fun p => g (f p) := by cases c <;> rfl

/-! ### Channels and timers -/

@[simp] theorem modChan_mem (s : State) (c : Cpu) (ch : Fin 4) (f : Channel → Channel) : (s.modChan c ch f).mem = s.mem :=
  modSide_mem s c _

@[simp] theorem modChan_cart (s : State) (c : Cpu) (ch : Fin 4) (f : Channel → Channel) : (s.modChan c ch f).cart = s.cart :=
  modSide_cart s c _

@[simp] theorem modChan_tcwBase (s : State) (c : Cpu) (ch : Fin 4) (f : Channel → Channel) : (s.modChan c ch f).tcwBase = s.tcwBase :=
  modSide_tcwBase s c _

@[simp] theorem modChan_log (s : State) (c : Cpu) (ch : Fin 4) (f : Channel → Channel) : (s.modChan c ch f).log = s.log :=
  modSide_log s c _

@[simp] theorem modChan_refused (s : State) (c : Cpu) (ch : Fin 4) (f : Channel → Channel) : (s.modChan c ch f).refused = s.refused :=
  modSide_refused s c _

@[simp] theorem modChan_config (s : State) (c : Cpu) (ch : Fin 4) (f : Channel → Channel) : (s.modChan c ch f).config = s.config :=
  modSide_config s c _

@[simp] theorem modChan_input (s : State) (c : Cpu) (ch : Fin 4) (f : Channel → Channel) : (s.modChan c ch f).input = s.input :=
  modSide_input s c _

@[simp] theorem modChan_reply (s : State) (c : Cpu) (ch : Fin 4) (f : Channel → Channel) : (s.modChan c ch f).reply = s.reply :=
  modSide_reply s c _

@[simp] theorem modChan_draws (s : State) (c : Cpu) (ch : Fin 4) (f : Channel → Channel) : (s.modChan c ch f).draws = s.draws :=
  modSide_draws s c _

@[simp] theorem modChan_side_table (s : State) (c d : Cpu) (ch : Fin 4) (f : Channel → Channel) :
    ((s.modChan c ch f).side d).table = (s.side d).table := by
  rw [State.modChan, modSide_side_eq]; split <;> simp_all

@[simp] theorem modChan_side_tmr (s : State) (c d : Cpu) (ch : Fin 4) (f : Channel → Channel) :
    ((s.modChan c ch f).side d).tmr = (s.side d).tmr := by
  rw [State.modChan, modSide_side_eq]; split <;> simp_all

@[simp] theorem modChan_side_fifo (s : State) (c d : Cpu) (ch : Fin 4) (f : Channel → Channel) :
    ((s.modChan c ch f).side d).fifo = (s.side d).fifo := by
  rw [State.modChan, modSide_side_eq]; split <;> simp_all

@[simp] theorem modChan_side_lastRecv (s : State) (c d : Cpu) (ch : Fin 4) (f : Channel → Channel) :
    ((s.modChan c ch f).side d).lastRecv = (s.side d).lastRecv := by
  rw [State.modChan, modSide_side_eq]; split <;> simp_all

@[simp] theorem modChan_side_sendEmptyIrqEn (s : State) (c d : Cpu) (ch : Fin 4) (f : Channel → Channel) :
    ((s.modChan c ch f).side d).sendEmptyIrqEn = (s.side d).sendEmptyIrqEn := by
  rw [State.modChan, modSide_side_eq]; split <;> simp_all

@[simp] theorem modChan_side_recvNotEmptyIrqEn (s : State) (c d : Cpu) (ch : Fin 4) (f : Channel → Channel) :
    ((s.modChan c ch f).side d).recvNotEmptyIrqEn = (s.side d).recvNotEmptyIrqEn := by
  rw [State.modChan, modSide_side_eq]; split <;> simp_all

@[simp] theorem modChan_side_fifoEnable (s : State) (c d : Cpu) (ch : Fin 4) (f : Channel → Channel) :
    ((s.modChan c ch f).side d).fifoEnable = (s.side d).fifoEnable := by
  rw [State.modChan, modSide_side_eq]; split <;> simp_all

@[simp] theorem modChan_side_syncOut (s : State) (c d : Cpu) (ch : Fin 4) (f : Channel → Channel) :
    ((s.modChan c ch f).side d).syncOut = (s.side d).syncOut := by
  rw [State.modChan, modSide_side_eq]; split <;> simp_all

@[simp] theorem modChan_side_syncIrqEn (s : State) (c d : Cpu) (ch : Fin 4) (f : Channel → Channel) :
    ((s.modChan c ch f).side d).syncIrqEn = (s.side d).syncIrqEn := by
  rw [State.modChan, modSide_side_eq]; split <;> simp_all

@[simp] theorem modChan_side_ime (s : State) (c d : Cpu) (ch : Fin 4) (f : Channel → Channel) :
    ((s.modChan c ch f).side d).ime = (s.side d).ime := by
  rw [State.modChan, modSide_side_eq]; split <;> simp_all

@[simp] theorem modChan_side_ie (s : State) (c d : Cpu) (ch : Fin 4) (f : Channel → Channel) :
    ((s.modChan c ch f).side d).ie = (s.side d).ie := by
  rw [State.modChan, modSide_side_eq]; split <;> simp_all

@[simp] theorem modChan_side_iflag (s : State) (c d : Cpu) (ch : Fin 4) (f : Channel → Channel) :
    ((s.modChan c ch f).side d).iflag = (s.side d).iflag := by
  rw [State.modChan, modSide_side_eq]; split <;> simp_all

@[simp] theorem modChan_side_pending (s : State) (c d : Cpu) (ch : Fin 4) (f : Channel → Channel) :
    ((s.modChan c ch f).side d).pending = (s.side d).pending := by
  rw [State.modChan, modSide_side_eq]; split <;> simp_all

@[simp] theorem modTimer_mem (s : State) (c : Cpu) (t : Fin 4) (f : Timer → Timer) : (s.modTimer c t f).mem = s.mem :=
  modSide_mem s c _

@[simp] theorem modTimer_cart (s : State) (c : Cpu) (t : Fin 4) (f : Timer → Timer) : (s.modTimer c t f).cart = s.cart :=
  modSide_cart s c _

@[simp] theorem modTimer_tcwBase (s : State) (c : Cpu) (t : Fin 4) (f : Timer → Timer) : (s.modTimer c t f).tcwBase = s.tcwBase :=
  modSide_tcwBase s c _

@[simp] theorem modTimer_log (s : State) (c : Cpu) (t : Fin 4) (f : Timer → Timer) : (s.modTimer c t f).log = s.log :=
  modSide_log s c _

@[simp] theorem modTimer_refused (s : State) (c : Cpu) (t : Fin 4) (f : Timer → Timer) : (s.modTimer c t f).refused = s.refused :=
  modSide_refused s c _

@[simp] theorem modTimer_config (s : State) (c : Cpu) (t : Fin 4) (f : Timer → Timer) : (s.modTimer c t f).config = s.config :=
  modSide_config s c _

@[simp] theorem modTimer_input (s : State) (c : Cpu) (t : Fin 4) (f : Timer → Timer) : (s.modTimer c t f).input = s.input :=
  modSide_input s c _

@[simp] theorem modTimer_reply (s : State) (c : Cpu) (t : Fin 4) (f : Timer → Timer) : (s.modTimer c t f).reply = s.reply :=
  modSide_reply s c _

@[simp] theorem modTimer_draws (s : State) (c : Cpu) (t : Fin 4) (f : Timer → Timer) : (s.modTimer c t f).draws = s.draws :=
  modSide_draws s c _

@[simp] theorem modTimer_side_table (s : State) (c d : Cpu) (t : Fin 4) (f : Timer → Timer) :
    ((s.modTimer c t f).side d).table = (s.side d).table := by
  rw [State.modTimer, modSide_side_eq]; split <;> simp_all

@[simp] theorem modTimer_side_dma (s : State) (c d : Cpu) (t : Fin 4) (f : Timer → Timer) :
    ((s.modTimer c t f).side d).dma = (s.side d).dma := by
  rw [State.modTimer, modSide_side_eq]; split <;> simp_all

@[simp] theorem modTimer_side_fifo (s : State) (c d : Cpu) (t : Fin 4) (f : Timer → Timer) :
    ((s.modTimer c t f).side d).fifo = (s.side d).fifo := by
  rw [State.modTimer, modSide_side_eq]; split <;> simp_all

@[simp] theorem modTimer_side_lastRecv (s : State) (c d : Cpu) (t : Fin 4) (f : Timer → Timer) :
    ((s.modTimer c t f).side d).lastRecv = (s.side d).lastRecv := by
  rw [State.modTimer, modSide_side_eq]; split <;> simp_all

@[simp] theorem modTimer_side_sendEmptyIrqEn (s : State) (c d : Cpu) (t : Fin 4) (f : Timer → Timer) :
    ((s.modTimer c t f).side d).sendEmptyIrqEn = (s.side d).sendEmptyIrqEn := by
  rw [State.modTimer, modSide_side_eq]; split <;> simp_all

@[simp] theorem modTimer_side_recvNotEmptyIrqEn (s : State) (c d : Cpu) (t : Fin 4) (f : Timer → Timer) :
    ((s.modTimer c t f).side d).recvNotEmptyIrqEn = (s.side d).recvNotEmptyIrqEn := by
  rw [State.modTimer, modSide_side_eq]; split <;> simp_all

@[simp] theorem modTimer_side_fifoEnable (s : State) (c d : Cpu) (t : Fin 4) (f : Timer → Timer) :
    ((s.modTimer c t f).side d).fifoEnable = (s.side d).fifoEnable := by
  rw [State.modTimer, modSide_side_eq]; split <;> simp_all

@[simp] theorem modTimer_side_syncOut (s : State) (c d : Cpu) (t : Fin 4) (f : Timer → Timer) :
    ((s.modTimer c t f).side d).syncOut = (s.side d).syncOut := by
  rw [State.modTimer, modSide_side_eq]; split <;> simp_all

@[simp] theorem modTimer_side_syncIrqEn (s : State) (c d : Cpu) (t : Fin 4) (f : Timer → Timer) :
    ((s.modTimer c t f).side d).syncIrqEn = (s.side d).syncIrqEn := by
  rw [State.modTimer, modSide_side_eq]; split <;> simp_all

@[simp] theorem modTimer_side_ime (s : State) (c d : Cpu) (t : Fin 4) (f : Timer → Timer) :
    ((s.modTimer c t f).side d).ime = (s.side d).ime := by
  rw [State.modTimer, modSide_side_eq]; split <;> simp_all

@[simp] theorem modTimer_side_ie (s : State) (c d : Cpu) (t : Fin 4) (f : Timer → Timer) :
    ((s.modTimer c t f).side d).ie = (s.side d).ie := by
  rw [State.modTimer, modSide_side_eq]; split <;> simp_all

@[simp] theorem modTimer_side_iflag (s : State) (c d : Cpu) (t : Fin 4) (f : Timer → Timer) :
    ((s.modTimer c t f).side d).iflag = (s.side d).iflag := by
  rw [State.modTimer, modSide_side_eq]; split <;> simp_all

@[simp] theorem modTimer_side_pending (s : State) (c d : Cpu) (t : Fin 4) (f : Timer → Timer) :
    ((s.modTimer c t f).side d).pending = (s.side d).pending := by
  rw [State.modTimer, modSide_side_eq]; split <;> simp_all

theorem modChan_chan (s : State) (c d : Cpu) (ch k : Fin 4) (f : Channel → Channel) :
    (s.modChan c ch f).chan d k = if d = c ∧ k = ch then f (s.chan c ch) else s.chan d k := by
  rw [State.modChan, State.chan, modSide_side_eq]
  by_cases h : d = c
  · subst h
    simp only [if_true, true_and, State.chan]
    by_cases e : k = ch
    · subst e; simp
    · have : ch.val ≠ k.val := fun h => e (Fin.ext h.symm)
      simp [e, this]
  · simp [h, State.chan]

@[simp] theorem modChan_chan_same (s : State) (c : Cpu) (ch : Fin 4) (f : Channel → Channel) :
    (s.modChan c ch f).chan c ch = f (s.chan c ch) := by simp [modChan_chan]

theorem modTimer_timer (s : State) (c d : Cpu) (t k : Fin 4) (f : Timer → Timer) :
    (s.modTimer c t f).timer d k = if d = c ∧ k = t then f (s.timer c t) else s.timer d k := by
  rw [State.modTimer, State.timer, modSide_side_eq]
  by_cases h : d = c
  · subst h
    simp only [if_true, true_and, State.timer]
    by_cases e : k = t
    · subst e; simp
    · have : t.val ≠ k.val := fun h => e (Fin.ext h.symm)
      simp [e, this]
  · simp [h, State.timer]

@[simp] theorem modTimer_timer_same (s : State) (c : Cpu) (t : Fin 4) (f : Timer → Timer) :
    (s.modTimer c t f).timer c t = f (s.timer c t) := by simp [modTimer_timer]

@[simp] theorem modTimer_chan (s : State) (c d : Cpu) (t k : Fin 4) (f : Timer → Timer) :
    (s.modTimer c t f).chan d k = s.chan d k := by simp [State.chan]

@[simp] theorem modChan_timer (s : State) (c d : Cpu) (ch k : Fin 4) (f : Channel → Channel) :
    (s.modChan c ch f).timer d k = s.timer d k := by simp [State.timer]

/-! ### Memory writes -/

@[simp] theorem regionWrite_cart (s : State) (r : Region) (o n v : Nat) : (s.regionWrite r o n v).cart = s.cart := rfl

@[simp] theorem setRaw_cart (s : State) (c : Cpu) (o n v : Nat) : (s.setRaw c o n v).cart = s.cart := rfl

@[simp] theorem regionWrite_tcwBase (s : State) (r : Region) (o n v : Nat) : (s.regionWrite r o n v).tcwBase = s.tcwBase := rfl

@[simp] theorem setRaw_tcwBase (s : State) (c : Cpu) (o n v : Nat) : (s.setRaw c o n v).tcwBase = s.tcwBase := rfl

@[simp] theorem regionWrite_log (s : State) (r : Region) (o n v : Nat) : (s.regionWrite r o n v).log = s.log := rfl

@[simp] theorem setRaw_log (s : State) (c : Cpu) (o n v : Nat) : (s.setRaw c o n v).log = s.log := rfl

@[simp] theorem regionWrite_refused (s : State) (r : Region) (o n v : Nat) : (s.regionWrite r o n v).refused = s.refused := rfl

@[simp] theorem regionWrite_config (s : State) (r : Region) (o n v : Nat) : (s.regionWrite r o n v).config = s.config := rfl

@[simp] theorem setRaw_refused (s : State) (c : Cpu) (o n v : Nat) : (s.setRaw c o n v).refused = s.refused := rfl

@[simp] theorem setRaw_config (s : State) (c : Cpu) (o n v : Nat) : (s.setRaw c o n v).config = s.config := rfl

@[simp] theorem regionWrite_input (s : State) (r : Region) (o n v : Nat) : (s.regionWrite r o n v).input = s.input := rfl

@[simp] theorem setRaw_input (s : State) (c : Cpu) (o n v : Nat) : (s.setRaw c o n v).input = s.input := rfl

@[simp] theorem regionWrite_reply (s : State) (r : Region) (o n v : Nat) : (s.regionWrite r o n v).reply = s.reply := rfl

@[simp] theorem setRaw_reply (s : State) (c : Cpu) (o n v : Nat) : (s.setRaw c o n v).reply = s.reply := rfl

@[simp] theorem regionWrite_draws (s : State) (r : Region) (o n v : Nat) : (s.regionWrite r o n v).draws = s.draws := rfl

@[simp] theorem setRaw_draws (s : State) (c : Cpu) (o n v : Nat) : (s.setRaw c o n v).draws = s.draws := rfl

@[simp] theorem regionWrite_side (s : State) (r : Region) (o n v : Nat) (d : Cpu) :
    (s.regionWrite r o n v).side d = s.side d := by cases d <;> rfl

@[simp] theorem setRaw_side (s : State) (c d : Cpu) (o n v : Nat) :
    (s.setRaw c o n v).side d = s.side d := by cases d <;> rfl

@[simp] theorem regionWrite_chan (s : State) (r : Region) (o n v : Nat) (d : Cpu) (k : Fin 4) :
    (s.regionWrite r o n v).chan d k = s.chan d k := by cases d <;> rfl

@[simp] theorem setRaw_chan (s : State) (c d : Cpu) (o n v : Nat) (k : Fin 4) :
    (s.setRaw c o n v).chan d k = s.chan d k := by cases d <;> rfl

@[simp] theorem regionWrite_timer (s : State) (r : Region) (o n v : Nat) (d : Cpu) (k : Fin 4) :
    (s.regionWrite r o n v).timer d k = s.timer d k := by cases d <;> rfl

@[simp] theorem setRaw_timer (s : State) (c d : Cpu) (o n v : Nat) (k : Fin 4) :
    (s.setRaw c o n v).timer d k = s.timer d k := by cases d <;> rfl

theorem regionWrite_eq (s : State) (r : Region) (o n v : Nat) :
    s.regionWrite r o n v = { s with mem := (s.regionWrite r o n v).mem } := rfl

/-! ### The reply, the log and the draws -/

@[simp] theorem answer_mem (s : State) (r : Reply) : (s.answer r).mem = s.mem := rfl

@[simp] theorem answer_cart (s : State) (r : Reply) : (s.answer r).cart = s.cart := rfl

@[simp] theorem answer_tcwBase (s : State) (r : Reply) : (s.answer r).tcwBase = s.tcwBase := rfl

@[simp] theorem answer_log (s : State) (r : Reply) : (s.answer r).log = s.log := rfl

@[simp] theorem answer_refused (s : State) (r : Reply) : (s.answer r).refused = s.refused := rfl

@[simp] theorem answer_config (s : State) (r : Reply) : (s.answer r).config = s.config := rfl

@[simp] theorem answer_input (s : State) (r : Reply) : (s.answer r).input = s.input := rfl

@[simp] theorem answer_draws (s : State) (r : Reply) : (s.answer r).draws = s.draws := rfl

@[simp] theorem answer_side (s : State) (r : Reply) (d : Cpu) : (s.answer r).side d = s.side d := by cases d <;> rfl

@[simp] theorem answer_chan (s : State) (r : Reply) (d : Cpu) (j : Fin 4) : (s.answer r).chan d j = s.chan d j := by cases d <;> rfl

@[simp] theorem answer_timer (s : State) (r : Reply) (d : Cpu) (j : Fin 4) : (s.answer r).timer d j = s.timer d j := by cases d <;> rfl

@[simp] theorem logCall_mem (s : State) (k : Call) : (s.logCall k).mem = s.mem := rfl

@[simp] theorem logCall_cart (s : State) (k : Call) : (s.logCall k).cart = s.cart := rfl

@[simp] theorem logCall_tcwBase (s : State) (k : Call) : (s.logCall k).tcwBase = s.tcwBase := rfl

@[simp] theorem logCall_refused (s : State) (k : Call) : (s.logCall k).refused = s.refused := rfl

@[simp] theorem logCall_config (s : State) (k : Call) : (s.logCall k).config = s.config := rfl

@[simp] theorem logCall_input (s : State) (k : Call) : (s.logCall k).input = s.input := rfl

@[simp] theorem logCall_reply (s : State) (k : Call) : (s.logCall k).reply = s.reply := rfl

@[simp] theorem logCall_draws (s : State) (k : Call) : (s.logCall k).draws = s.draws := rfl

@[simp] theorem logCall_side (s : State) (k : Call) (d : Cpu) : (s.logCall k).side d = s.side d := by cases d <;> rfl

@[simp] theorem logCall_chan (s : State) (k : Call) (d : Cpu) (j : Fin 4) : (s.logCall k).chan d j = s.chan d j := by cases d <;> rfl

@[simp] theorem logCall_timer (s : State) (k : Call) (d : Cpu) (j : Fin 4) : (s.logCall k).timer d j = s.timer d j := by cases d <;> rfl

@[simp] theorem logDraw_mem (s : State) (k : Call) : (s.logDraw k).mem = s.mem := rfl

@[simp] theorem logDraw_cart (s : State) (k : Call) : (s.logDraw k).cart = s.cart := rfl

@[simp] theorem logDraw_tcwBase (s : State) (k : Call) : (s.logDraw k).tcwBase = s.tcwBase := rfl

@[simp] theorem logDraw_refused (s : State) (k : Call) : (s.logDraw k).refused = s.refused := rfl

@[simp] theorem logDraw_config (s : State) (k : Call) : (s.logDraw k).config = s.config := rfl

@[simp] theorem logDraw_input (s : State) (k : Call) : (s.logDraw k).input = s.input := rfl

@[simp] theorem logDraw_reply (s : State) (k : Call) : (s.logDraw k).reply = s.reply := rfl

@[simp] theorem logDraw_side (s : State) (k : Call) (d : Cpu) : (s.logDraw k).side d = s.side d := by cases d <;> rfl

@[simp] theorem logDraw_chan (s : State) (k : Call) (d : Cpu) (j : Fin 4) : (s.logDraw k).chan d j = s.chan d j := by cases d <;> rfl

@[simp] theorem logDraw_timer (s : State) (k : Call) (d : Cpu) (j : Fin 4) : (s.logDraw k).timer d j = s.timer d j := by cases d <;> rfl

@[simp] theorem answer_reply (s : State) (r : Reply) : (s.answer r).reply = r := rfl

@[simp] theorem logCall_log (s : State) (k : Call) : (s.logCall k).log = s.log ++ [k] := rfl

@[simp] theorem logDraw_log (s : State) (k : Call) : (s.logDraw k).log = s.log ++ [k] := rfl

@[simp] theorem logDraw_draws (s : State) (k : Call) : (s.logDraw k).draws = s.draws + 1 := rfl

/-! ### Table entries -/

@[simp] theorem setEntry_mem (s : State) (c : Cpu) (i : Byte) (e : Entry) : (s.setEntry c i e).mem = s.mem :=
  modSide_mem s c _

@[simp] theorem setEntry_cart (s : State) (c : Cpu) (i : Byte) (e : Entry) : (s.setEntry c i e).cart = s.cart :=
  modSide_cart s c _

@[simp] theorem setEntry_tcwBase (s : State) (c : Cpu) (i : Byte) (e : Entry) : (s.setEntry c i e).tcwBase = s.tcwBase :=
  modSide_tcwBase s c _

@[simp] theorem setEntry_log (s : State) (c : Cpu) (i : Byte) (e : Entry) : (s.setEntry c i e).log = s.log :=
  modSide_log s c _

@[simp] theorem setEntry_refused (s : State) (c : Cpu) (i : Byte) (e : Entry) : (s.setEntry c i e).refused = s.refused :=
  modSide_refused s c _

@[simp] theorem setEntry_config (s : State) (c : Cpu) (i : Byte) (e : Entry) : (s.setEntry c i e).config = s.config :=
  modSide_config s c _

@[simp] theorem setEntry_input (s : State) (c : Cpu) (i : Byte) (e : Entry) : (s.setEntry c i e).input = s.input :=
  modSide_input s c _

@[simp] theorem setEntry_reply (s : State) (c : Cpu) (i : Byte) (e : Entry) : (s.setEntry c i e).reply = s.reply :=
  modSide_reply s c _

@[simp] theorem setEntry_draws (s : State) (c : Cpu) (i : Byte) (e : Entry) : (s.setEntry c i e).draws = s.draws :=
  modSide_draws s c _

@[simp] theorem setEntry_side_dma (s : State) (c d : Cpu) (i : Byte) (e : Entry) :
    ((s.setEntry c i e).side d).dma = (s.side d).dma := by
  rw [State.setEntry, modSide_side_eq]; split <;> simp_all

@[simp] theorem setEntry_side_tmr (s : State) (c d : Cpu) (i : Byte) (e : Entry) :
    ((s.setEntry c i e).side d).tmr = (s.side d).tmr := by
  rw [State.setEntry, modSide_side_eq]; split <;> simp_all

@[simp] theorem setEntry_side_fifo (s : State) (c d : Cpu) (i : Byte) (e : Entry) :
    ((s.setEntry c i e).side d).fifo = (s.side d).fifo := by
  rw [State.setEntry, modSide_side_eq]; split <;> simp_all

@[simp] theorem setEntry_side_lastRecv (s : State) (c d : Cpu) (i : Byte) (e : Entry) :
    ((s.setEntry c i e).side d).lastRecv = (s.side d).lastRecv := by
  rw [State.setEntry, modSide_side_eq]; split <;> simp_all

@[simp] theorem setEntry_side_sendEmptyIrqEn (s : State) (c d : Cpu) (i : Byte) (e : Entry) :
    ((s.setEntry c i e).side d).sendEmptyIrqEn = (s.side d).sendEmptyIrqEn := by
  rw [State.setEntry, modSide_side_eq]; split <;> simp_all

@[simp] theorem setEntry_side_recvNotEmptyIrqEn (s : State) (c d : Cpu) (i : Byte) (e : Entry) :
    ((s.setEntry c i e).side d).recvNotEmptyIrqEn = (s.side d).recvNotEmptyIrqEn := by
  rw [State.setEntry, modSide_side_eq]; split <;> simp_all

@[simp] theorem setEntry_side_fifoEnable (s : State) (c d : Cpu) (i : Byte) (e : Entry) :
    ((s.setEntry c i e).side d).fifoEnable = (s.side d).fifoEnable := by
  rw [State.setEntry, modSide_side_eq]; split <;> simp_all

@[simp] theorem setEntry_side_syncOut (s : State) (c d : Cpu) (i : Byte) (e : Entry) :
    ((s.setEntry c i e).side d).syncOut = (s.side d).syncOut := by
  rw [State.setEntry, modSide_side_eq]; split <;> simp_all

@[simp] theorem setEntry_side_syncIrqEn (s : State) (c d : Cpu) (i : Byte) (e : Entry) :
    ((s.setEntry c i e).side d).syncIrqEn = (s.side d).syncIrqEn := by
  rw [State.setEntry, modSide_side_eq]; split <;> simp_all

@[simp] theorem setEntry_side_ime (s : State) (c d : Cpu) (i : Byte) (e : Entry) :
    ((s.setEntry c i e).side d).ime = (s.side d).ime := by
  rw [State.setEntry, modSide_side_eq]; split <;> simp_all

@[simp] theorem setEntry_side_ie (s : State) (c d : Cpu) (i : Byte) (e : Entry) :
    ((s.setEntry c i e).side d).ie = (s.side d).ie := by
  rw [State.setEntry, modSide_side_eq]; split <;> simp_all

@[simp] theorem setEntry_side_iflag (s : State) (c d : Cpu) (i : Byte) (e : Entry) :
    ((s.setEntry c i e).side d).iflag = (s.side d).iflag := by
  rw [State.setEntry, modSide_side_eq]; split <;> simp_all

@[simp] theorem setEntry_side_pending (s : State) (c d : Cpu) (i : Byte) (e : Entry) :
    ((s.setEntry c i e).side d).pending = (s.side d).pending := by
  rw [State.setEntry, modSide_side_eq]; split <;> simp_all

@[simp] theorem setEntry_chan (s : State) (c d : Cpu) (i : Byte) (e : Entry) (k : Fin 4) :
    (s.setEntry c i e).chan d k = s.chan d k := by simp [State.chan]

@[simp] theorem setEntry_timer (s : State) (c d : Cpu) (i : Byte) (e : Entry) (k : Fin 4) :
    (s.setEntry c i e).timer d k = s.timer d k := by simp [State.timer]

theorem setEntry_entry (s : State) (c d : Cpu) (i j : Byte) (e : Entry) :
    (s.setEntry c i e).entry d j = if d = c ∧ j = i then e else s.entry d j := by
  rw [State.setEntry, State.entry, modSide_side_eq]
  by_cases h : d = c
  · subst h
    simp only [if_true, true_and, State.entry]
    by_cases q : j = i
    · subst q; simp
    · have : i.toNat ≠ j.toNat := fun h => q (BitVec.eq_of_toNat_eq h.symm)
      simp [q, this]
  · simp [h, State.entry]

end Sys2Proof.Machine
end

