-- ==== Sys2Proof/Laws/Raw.lean ====
section
/-! SUPPORT. Region bytes and raw register bytes under the memory writes of the machine. -/

namespace Sys2Proof.Machine

theorem raw_eq (s : State) (c : Cpu) (o n : Nat) : s.raw c o n = bytesValue n fun i => s.ioByte c (o + i) := by
  simp only [State.raw, State.regionRead, leRead_eq, State.ioByte, State.byte, cellKey_add]

theorem raw_lt (s : State) (c : Cpu) (o n : Nat) : s.raw c o n < 256 ^ n := by
  rw [raw_eq]; exact bytesValue_lt _ _

theorem raw_congr (s t : State) (c : Cpu) (o n : Nat) (h : ∀ i, i < n → t.ioByte c (o + i) = s.ioByte c (o + i)) :
    t.raw c o n = s.raw c o n := by
  rw [raw_eq, raw_eq]; exact bytesValue_congr _ _ _ h

theorem byteAt_raw (s : State) (c : Cpu) (o n i : Nat) (h : i < n) : byteAt (s.raw c o n) i = s.ioByte c (o + i) := by
  rw [raw_eq, byteAt_bytesValue _ _ _ h]

/-- States with one memory have the same bytes. -/
theorem raw_of_mem (s t : State) (h : t.mem = s.mem) (c : Cpu) (o n : Nat) : t.raw c o n = s.raw c o n := by
  simp only [State.raw, State.regionRead, h]

theorem byte_of_mem (s t : State) (h : t.mem = s.mem) (r : Region) (o : Nat) : t.byte r o = s.byte r o := by
  simp only [State.byte, h]

/-- What a region write leaves in each byte of the memory. -/
theorem read_regionWrite (s : State) (r : Region) (o n v k : Nat) :
    Memory.read (s.regionWrite r o n v).mem k =
      if cellKey r o ≤ k ∧ k < cellKey r o + n then byteAt v (k - cellKey r o) else Memory.read s.mem k :=
  read_leWrite _ _ _ _ _

theorem regionWrite_sameOutside (s : State) (r : Region) (o n v : Nat) :
    SameOutside s (s.regionWrite r o n v) (inBytes r o n) := fun k hk => by
  rw [read_regionWrite]; exact if_neg hk

theorem regionWrite_holds (s : State) (r : Region) (o n v : Nat) : HoldsAt (s.regionWrite r o n v) r o n v := by
  intro i hi
  rw [State.byte, read_regionWrite, cellKey_add, if_pos (by omega)]
  congr 1
  omega

theorem setRaw_sameOutside (s : State) (c : Cpu) (o n v : Nat) :
    SameOutside s (s.setRaw c o n v) (inBytes (ioRegion c) o n) := regionWrite_sameOutside _ _ _ _ _

/-- A raw byte after a raw write of the same CPU. -/
theorem ioByte_setRaw (s : State) (c : Cpu) (o n v j : Nat) :
    (s.setRaw c o n v).ioByte c j = if o ≤ j ∧ j < o + n then byteAt v (j - o) else s.ioByte c j := by
  have e : ∀ x, cellKey (ioRegion c) x = (ioRegion c).code * 2 ^ 32 + x := fun _ => rfl
  rw [State.ioByte, State.byte, State.setRaw, read_regionWrite]
  by_cases h : o ≤ j ∧ j < o + n
  · rw [if_pos h, if_pos (by rw [e, e]; omega)]
    congr 1
    rw [e, e]
    omega
  · rw [if_neg h, if_neg (by rw [e, e]; omega)]
    rfl

/-- The two raw blocks are separate (10_state.md R29). -/
theorem ioByte_setRaw_other (s : State) (c d : Cpu) (o n v j : Nat) (h : d ≠ c) (ho : o + n ≤ 2 ^ 32)
    (hj : j < 2 ^ 32) : (s.setRaw c o n v).ioByte d j = s.ioByte d j := by
  rw [State.ioByte, State.byte, State.setRaw, read_regionWrite, if_neg]
  · rfl
  · cases c <;> cases d <;> simp [ioRegion, cellKey, Region.code] at * <;> omega

theorem raw_setRaw_same (s : State) (c : Cpu) (o n v : Nat) : (s.setRaw c o n v).raw c o n = v % 256 ^ n :=
  leRead_leWrite_same _ _ _ _

theorem raw_setRaw_disjoint (s : State) (c : Cpu) (o n v j l : Nat) (h : j + l ≤ o ∨ o + n ≤ j) :
    (s.setRaw c o n v).raw c j l = s.raw c j l := by
  apply raw_congr
  intro i hi
  rw [ioByte_setRaw, if_neg (by omega)]

theorem raw_setRaw_other (s : State) (c d : Cpu) (o n v j l : Nat) (h : d ≠ c) (ho : o + n ≤ 2 ^ 32)
    (hj : j + l ≤ 2 ^ 32) : (s.setRaw c o n v).raw d j l = s.raw d j l := by
  apply raw_congr
  intro i hi
  exact ioByte_setRaw_other s c d o n v _ h ho (by omega)

theorem SameOutside.refl (s : State) (p : Nat → Prop) : SameOutside s s p := fun _ _ => rfl

theorem SameOutside.trans {s t u : State} {p q r : Nat → Prop} (h : SameOutside s t p) (h' : SameOutside t u q)
    (hp : ∀ k, p k → r k) (hq : ∀ k, q k → r k) : SameOutside s u r := fun k hk => by
  rw [h' k fun x => hk (hq k x), h k fun x => hk (hp k x)]

theorem SameOutside.of_mem {s t : State} (h : t.mem = s.mem) (p : Nat → Prop) : SameOutside s t p := fun k _ => by
  rw [h]

/-- The bytes a register write merges into (41_io_dispatch.md R134). -/
theorem mergedValue_stored (s : State) (c : Cpu) (r : LReg) (o : Nat) (w : Width) (v : Word) :
    mergedValue (stored c o w v s) c r = mergedBytes s c r.offset r.size o w v := by
  rw [mergedValue, raw_eq, mergedBytes]
  apply bytesValue_congr
  intro i _
  rw [stored, ioByte_setRaw]

theorem mergedBytes_lt (s : State) (c : Cpu) (base size o : Nat) (w : Width) (v : Word) :
    mergedBytes s c base size o w v < 256 ^ size := bytesValue_lt _ _

/-- A write that covers exactly the register gives its own value. -/
theorem mergedBytes_full (s : State) (c : Cpu) (base : Nat) (w : Width) (v : Word) :
    mergedBytes s c base w.bytes base w v = v.toNat % 256 ^ w.bytes := by
  rw [mergedBytes, ← bytesValue_byteAt_mod]
  apply bytesValue_congr
  intro i hi
  rw [if_pos (by omega)]
  congr 1
  omega

end Sys2Proof.Machine
end

