-- ==== Sys2Proof/Laws/Effects.lean ====
section
/-! SUPPORT. What each shared operation does, once: the latch, the timer and DMA registers, the inter-processor channel,
in the words of Safety.lean. -/

namespace Sys2Proof.Machine

/-! ### Registers rewritten from their fields -/

theorem rewrites_setRaw (s : State) (c : Cpu) (p : CpuSide) (o n v : Nat) :
    Rewrites s ((s.setSide c p).setRaw c o n v) c p o n v := by
  refine ⟨rfl, regionWrite_holds _ _ _ _ _, fun k hk => ?_⟩
  rw [setRaw_sameOutside _ _ _ _ _ k hk, setSide_mem]

theorem rewrites_modSide (s : State) (c : Cpu) (f : CpuSide → CpuSide) (o n v : Nat) :
    Rewrites s ((s.modSide c f).setRaw c o n v) c (f (s.side c)) o n v :=
  rewrites_setRaw s c (f (s.side c)) o n v

theorem Rewrites.side {s t : State} {c : Cpu} {p : CpuSide} {o n v : Nat} (h : Rewrites s t c p o n v) :
    t.side c = p := by
  rw [h.state]
  cases c <;> rfl

theorem Rewrites.side_other {s t : State} {c : Cpu} {p : CpuSide} {o n v : Nat} (h : Rewrites s t c p o n v) :
    t.side c.other = s.side c.other := by
  rw [h.state]
  cases c <;> rfl

/-- SetIF (45_irq_latch.md R262). -/
theorem setIF_rewrites (c : Cpu) (m : Word) (s : State) :
    Rewrites s (setIF c m s) c (latchedMask (s.side c) m) 0x214 4 ((s.side c).iflag ||| m).toNat := by
  have h := rewrites_modSide s c (fun p => CpuSide.updatePending { p with iflag := p.iflag ||| m }) ifOffset 4
    ((s.side c).iflag ||| m).toNat
  have e : setIF c m s =
      (s.modSide c fun p => CpuSide.updatePending { p with iflag := p.iflag ||| m }).setRaw c ifOffset 4
        ((s.side c).iflag ||| m).toNat := by
    rw [setIF, mirrorIF, modSide_side]
    rfl
  rw [e]
  exact h

/-- ClearIF (R263). -/
theorem clearIF_rewrites (c : Cpu) (m : Word) (s : State) :
    Rewrites s (clearIF c m s) c (withPending { s.side c with iflag := (s.side c).iflag &&& ~~~ m }) 0x214 4
      ((s.side c).iflag &&& ~~~ m).toNat := by
  have h := rewrites_modSide s c (fun p => CpuSide.updatePending { p with iflag := p.iflag &&& ~~~ m }) ifOffset 4
    ((s.side c).iflag &&& ~~~ m).toNat
  have e : clearIF c m s =
      (s.modSide c fun p => CpuSide.updatePending { p with iflag := p.iflag &&& ~~~ m }).setRaw c ifOffset 4
        ((s.side c).iflag &&& ~~~ m).toNat := by
    rw [clearIF, mirrorIF, modSide_side]
    rfl
  rw [e]
  exact h

theorem bit0_mod (v : Word) : bitNat (bitAt v 0) = v.toNat % 2 := by
  rw [bitNat, bitAt, BitVec.getLsbD, Nat.testBit_zero]
  rcases Nat.mod_two_eq_zero_or_one v.toNat with h | h <;> simp [h]

/-- SetIME (R260). -/
theorem setIME_rewrites (c : Cpu) (v : Word) (s : State) :
    Rewrites s (setIME c v s) c (withPending { s.side c with ime := v.getLsbD 0 }) 0x208 4 (v.toNat % 2) := by
  have h := rewrites_modSide s c (fun p => CpuSide.updatePending { p with ime := bitAt v 0 }) imeOffset 4 (v.toNat % 2)
  have e : setIME c v s =
      (s.modSide c fun p => CpuSide.updatePending { p with ime := bitAt v 0 }).setRaw c imeOffset 4 (v.toNat % 2) := by
    rw [setIME, encodeIme, modSide_side, ← bit0_mod]
    rfl
  rw [e]
  exact h

/-- SetIE (R261). -/
theorem setIE_rewrites (c : Cpu) (v : Word) (s : State) :
    Rewrites s (setIE c v s) c (withPending { s.side c with ie := v }) 0x210 4 v.toNat := by
  have h := rewrites_modSide s c (fun p => CpuSide.updatePending { p with ie := v }) ieOffset 4 v.toNat
  have e : setIE c v s =
      (s.modSide c fun p => CpuSide.updatePending { p with ie := v }).setRaw c ieOffset 4 v.toNat := by
    rw [setIE, modSide_side]
    rfl
  rw [e]
  exact h

/-- A source's interrupt, where a condition holds (00_scope.md R13). -/
theorem raiseIf_effect (k : Bool) (c : Cpu) (b : Nat) (s : State) :
    raiseIf k c b s = { s.setSide c (latchedIf k (s.side c) b) with mem := (raiseIf k c b s).mem } ∧
    IfShown k (raiseIf k c b s) c ∧ SameOutside s (raiseIf k c b s) (ifBytes k c) := by
  cases k with
  | false =>
    refine ⟨?_, (fun h => nomatch h), fun k _ => rfl⟩
    cases c <;> rfl
  | true =>
    have h := setIF_rewrites c (BitVec.ofNat 32 (2 ^ b)) s
    refine ⟨h.state, fun _ => ?_, fun k hk => h.frame k fun hb => hk ⟨rfl, hb⟩⟩
    have h2 : ((raiseIf true c b s).side c).iflag = (s.side c).iflag ||| BitVec.ofNat 32 (2 ^ b) := by
      have h3 : (raiseIf true c b s).side c = _ := h.side
      rw [h3]
      rfl
    rw [h2]
    exact h.bytes

/-- One more interrupt after others of the same CPU. -/
theorem raiseIf_more {s t : State} {c : Cpu} {p : CpuSide} {k : Bool} (h1 : t = { s.setSide c p with mem := t.mem })
    (h2 : IfShown k t c) (h3 : SameOutside s t (ifBytes k c)) (k' : Bool) (b : Nat) :
    raiseIf k' c b t = { s.setSide c (latchedIf k' p b) with mem := (raiseIf k' c b t).mem } ∧
    IfShown (k || k') (raiseIf k' c b t) c ∧ SameOutside s (raiseIf k' c b t) (ifBytes (k || k') c) := by
  have hp : t.side c = p := by
    rw [h1]
    cases c <;> rfl
  obtain ⟨e1, e2, e3⟩ := raiseIf_effect k' c b t
  rw [hp] at e1
  refine ⟨?_, ?_, ?_⟩
  · rw [e1]
    generalize (raiseIf k' c b t).mem = m
    rw [h1]
    cases c <;> rfl
  · cases k' with
    | true => exact fun _ => e2 rfl
    | false =>
      rw [Bool.or_false]
      exact h2
  · intro x hx
    rw [e3 x fun h => hx ⟨by rw [h.1, Bool.or_true], h.2⟩]
    exact h3 x fun h => hx ⟨by rw [h.1, Bool.true_or], h.2⟩

/-! ### Timers -/

/-- SetReload (43_timers.md R211). -/
theorem setReload_eq (c : Cpu) (t : Fin 4) (v : Half) (s : State) :
    setReload c t v s = withTimer s c t { s.timer c t with reload := v } := rfl

theorem tmMask_eq (t : Fin 4) : tmMask t = controlBits t := by
  fin_cases t <;> rfl

theorem withControl_eq (m : Timer) (t : Fin 4) (v : Half) : m.withControl (v &&& controlBits t) = controlled m t v := by
  rw [← tmMask_eq]
  have h0 : (v &&& tmMask t).extractLsb' 0 2 = v.extractLsb' 0 2 := by
    apply BitVec.eq_of_getLsbD_eq
    intro i hi
    have hm : (tmMask t).getLsbD i = true := by
      interval_cases i <;> (fin_cases t <;> rfl)
    simp [hi, hm]
  have h2 : (v &&& tmMask t).getLsbD 2 = (v.getLsbD 2 && decide (t ≠ 0)) := by
    rw [BitVec.getLsbD_and]
    congr 1
    fin_cases t <;> rfl
  have h6 : (v &&& tmMask t).getLsbD 6 = v.getLsbD 6 := by
    rw [BitVec.getLsbD_and, show (tmMask t).getLsbD 6 = true by fin_cases t <;> rfl, Bool.and_true]
  have h7 : (v &&& tmMask t).getLsbD 7 = v.getLsbD 7 := by
    rw [BitVec.getLsbD_and, show (tmMask t).getLsbD 7 = true by fin_cases t <;> rfl, Bool.and_true]
  simp only [Timer.withControl, controlled, h0, h2, h6, h7]
  split <;> simp_all

/-- SetControl (R212). -/
theorem setControl_rewrites (c : Cpu) (t : Fin 4) (v : Half) (s : State) :
    Rewrites s (setControl c t v s) c ((withTimer s c t (controlled (s.timer c t) t v)).side c) (0x102 + 4 * t.val) 2
      (v &&& controlBits t).toNat := by
  have h := rewrites_modSide s c
    (fun p => { p with tmr := p.tmr.set t.val (controlled p.tmr[t] t v) t.isLt }) (tmHOffset t) 2
    (v &&& controlBits t).toNat
  have e : setControl c t v s =
      (s.modSide c fun p => { p with tmr := p.tmr.set t.val (controlled p.tmr[t] t v) t.isLt }).setRaw c (tmHOffset t) 2
        (v &&& controlBits t).toNat := by
    rw [setControl, State.modTimer]
    simp only [tmMask_eq, withControl_eq]
  rw [e, withTimer, setSide_side]
  exact h

/-! ### DMA registers -/

theorem sadMask_eq (c : Cpu) (ch : Fin 4) : sadMask c ch = sadBits c ch := by
  cases c <;> fin_cases ch <;> rfl

theorem dadMask_eq (c : Cpu) (ch : Fin 4) : dadMask c ch = dadBits c ch := by
  cases c <;> fin_cases ch <;> rfl

theorem cntMask_eq (c : Cpu) (ch : Fin 4) : cntMask c ch = cntBits c ch := by
  cases c <;> fin_cases ch <;> rfl

/-- A DMAnSAD write's handler (42_dma.md R181). -/
theorem writeSad_rewrites (c : Cpu) (ch : Fin 4) (v : Word) (s : State) :
    Rewrites s (writeSad c ch v s) c ((withChan s c ch { s.chan c ch with sad := v &&& sadBits c ch }).side c)
      (0xB0 + 12 * ch.val) 4 (v &&& sadBits c ch).toNat := by
  have h := rewrites_modSide s c
    (fun p => { p with dma := p.dma.set ch.val { p.dma[ch] with sad := v &&& sadBits c ch } ch.isLt })
    (LReg.dmaSad ch).offset 4 (v &&& sadBits c ch).toNat
  have e : writeSad c ch v s =
      (s.modSide c fun p =>
        { p with dma := p.dma.set ch.val { p.dma[ch] with sad := v &&& sadBits c ch } ch.isLt }).setRaw c
          (LReg.dmaSad ch).offset 4 (v &&& sadBits c ch).toNat := by
    rw [writeSad, State.modChan]
    simp only [sadMask_eq]
  rw [e, withChan, setSide_side]
  exact h

/-- A DMAnDAD write's handler (R181). -/
theorem writeDad_rewrites (c : Cpu) (ch : Fin 4) (v : Word) (s : State) :
    Rewrites s (writeDad c ch v s) c ((withChan s c ch { s.chan c ch with dad := v &&& dadBits c ch }).side c)
      (0xB4 + 12 * ch.val) 4 (v &&& dadBits c ch).toNat := by
  have h := rewrites_modSide s c
    (fun p => { p with dma := p.dma.set ch.val { p.dma[ch] with dad := v &&& dadBits c ch } ch.isLt })
    (LReg.dmaDad ch).offset 4 (v &&& dadBits c ch).toNat
  have e : writeDad c ch v s =
      (s.modSide c fun p =>
        { p with dma := p.dma.set ch.val { p.dma[ch] with dad := v &&& dadBits c ch } ch.isLt }).setRaw c
          (LReg.dmaDad ch).offset 4 (v &&& dadBits c ch).toNat := by
    rw [writeDad, State.modChan]
    simp only [dadMask_eq]
  rw [e, withChan, setSide_side]
  exact h

/-- A channel that becomes inactive (R186). -/
theorem stopChannel_rewrites (c : Cpu) (ch : Fin 4) (s : State) :
    Rewrites s (stopChannel c ch s) c ((withChan s c ch (stopped (s.chan c ch))).side c) (cntOffset ch) 4
      (stopped (s.chan c ch)).cnt.toNat := by
  have h := rewrites_modSide s c (fun p => { p with dma := p.dma.set ch.val (stopped p.dma[ch]) ch.isLt })
    (LReg.dmaCnt ch).offset 4 (stopped (s.chan c ch)).cnt.toNat
  have e : stopChannel c ch s =
      (s.modSide c fun p => { p with dma := p.dma.set ch.val (stopped p.dma[ch]) ch.isLt }).setRaw c
        (LReg.dmaCnt ch).offset 4 (stopped (s.chan c ch)).cnt.toNat := by
    rw [stopChannel, mirrorCnt, modChan_chan_same]
    rfl
  rw [e, withChan, setSide_side]
  exact h

/-! ### Inter-processor channel -/

theorem encodeSync_eq (s : State) (c : Cpu) : encodeSync s c = syncValue (s.side c) (s.side c.other) := rfl

theorem encodeFifoCnt_eq (s : State) (c : Cpu) : encodeFifoCnt s c = fifoCntValue (s.side c) (s.side c.other) := by
  have he : ∀ q : List Word, bitNat (fifoEmpty q) = if q.length = 0 then 1 else 0 := by
    intro q
    cases q <;> rfl
  have hf : ∀ q : List Word, 2 * bitNat (fifoFull q) = if q.length = 16 then 2 else 0 := by
    intro q
    by_cases h : q.length = 16 <;> simp [bitNat, fifoFull, fifoDepth, h]
  have hf9 : ∀ q : List Word, 2 ^ 9 * bitNat (fifoFull q) = if q.length = 16 then 2 ^ 9 else 0 := by
    intro q
    by_cases h : q.length = 16 <;> simp [bitNat, fifoFull, fifoDepth, h]
  have hb : ∀ (n : Nat) (b : Bool), 2 ^ n * bitNat b = if b then 2 ^ n else 0 := by
    intro n b
    cases b <;> simp [bitNat]
  have he8 : ∀ q : List Word, 2 ^ 8 * bitNat (fifoEmpty q) = if q.length = 0 then 2 ^ 8 else 0 := by
    intro q
    cases q <;> rfl
  simp only [encodeFifoCnt, fifoCntValue]
  rw [he8, hf9, hf]
  simp only [he, hb]

/-- The raw bytes of IF and of a register below it are apart. -/
theorem inBytes_io_apart (c d : Cpu) (o n o' n' k : Nat) (h : c ≠ d ∨ o + n ≤ o' ∨ o' + n' ≤ o) (ho : o + n ≤ 2 ^ 32)
    (ho' : o' + n' ≤ 2 ^ 32) (hk : inBytes (ioRegion c) o n k) : ¬ inBytes (ioRegion d) o' n' k := by
  simp only [inBytes, cellKey] at hk ⊢
  rcases h with h | h
  · cases c <;> cases d <;> simp [ioRegion, Region.code] at h hk ⊢ <;> omega
  · by_cases hcd : c = d
    · subst hcd
      omega
    · cases c <;> cases d <;> simp [ioRegion, Region.code] at hcd hk ⊢ <;> omega

theorem HoldsAt.keep {s t : State} {r : Region} {o n v : Nat} (h : HoldsAt s r o n v) {p : Nat → Prop}
    (hf : SameOutside s t p) (hp : ∀ k, inBytes r o n k → ¬ p k) : HoldsAt t r o n v := by
  intro i hi
  rw [← h i hi]
  exact hf _ (hp _ (by rw [inBytes, cellKey_add]; omega))

theorem fifoConditions_se0 (s : State) :
    (fifoConditions s).se0 = (s.cpu0.sendEmptyIrqEn && s.cpu1.fifo.isEmpty) := rfl

theorem fifoConditions_rn0 (s : State) :
    (fifoConditions s).rn0 = (s.cpu0.recvNotEmptyIrqEn && !s.cpu0.fifo.isEmpty) := rfl

theorem fifoConditions_se1 (s : State) :
    (fifoConditions s).se1 = (s.cpu1.sendEmptyIrqEn && s.cpu0.fifo.isEmpty) := rfl

theorem fifoConditions_rn1 (s : State) :
    (fifoConditions s).rn1 = (s.cpu1.recvNotEmptyIrqEn && !s.cpu1.fifo.isEmpty) := rfl

theorem latchedIf_fifo (k : Bool) (p : CpuSide) (b : Nat) : (latchedIf k p b).fifo = p.fifo := by
  cases k <;> rfl

theorem fifoCntValue_latched (k k' j j' : Bool) (p q : CpuSide) (b b' d d' : Nat) :
    fifoCntValue (latchedIf k' (latchedIf k p b) b') (latchedIf j' (latchedIf j q d) d') = fifoCntValue p q := by
  cases k <;> cases k' <;> cases j <;> cases j' <;> rfl

/-- The end of every queue operation (44_ipc.md R235, R239): from `b`, with the parts of the CPUs already changed. -/
theorem fifoSettle_done (b u : State) (hu : u = { b with cpu0 := u.cpu0, cpu1 := u.cpu1 }) :
    FifoDone b (fifoSettle (fifoConditions b) u) u.cpu0 u.cpu1 := by
  let k0 := sendEmptyRose b.cpu0 b.cpu1 u.cpu0 u.cpu1
  let k1 := recvReadyRose b.cpu0 u.cpu0
  let k2 := sendEmptyRose b.cpu1 b.cpu0 u.cpu1 u.cpu0
  let k3 := recvReadyRose b.cpu1 u.cpu1
  let s1 := raiseIf k0 .c0 irqSendEmpty u
  let s2 := raiseIf k1 .c0 irqRecvNotEmpty s1
  let s3 := raiseIf k2 .c1 irqSendEmpty s2
  let s4 := raiseIf k3 .c1 irqRecvNotEmpty s3
  have ht : fifoSettle (fifoConditions b) u = mirrorFifoCnt .c1 (mirrorFifoCnt .c0 s4) := rfl
  obtain ⟨a1, a2, a3⟩ := raiseIf_effect k0 .c0 irqSendEmpty u
  obtain ⟨b1, b2, b3⟩ := raiseIf_more a1 a2 a3 k1 irqRecvNotEmpty
  obtain ⟨c1, c2, c3⟩ := raiseIf_effect k2 .c1 irqSendEmpty s2
  obtain ⟨d1, d2, d3⟩ := raiseIf_more c1 c2 c3 k3 irqRecvNotEmpty
  have hs4 : s4 = { b with
      cpu0 := withFifoEdges b.cpu0 b.cpu1 u.cpu0 u.cpu1, cpu1 := withFifoEdges b.cpu1 b.cpu0 u.cpu1 u.cpu0
      mem := s4.mem } := by
    change s4 = _ at d1
    change s2 = _ at b1
    rw [d1, b1]
    generalize s4.mem = m
    rw [hu]
    rfl
  have hs2 : s2.cpu0 = withFifoEdges b.cpu0 b.cpu1 u.cpu0 u.cpu1 := by
    change s2 = _ at b1
    rw [b1]
    rfl
  have v0 : encodeFifoCnt s4 .c0 = fifoCntValue u.cpu0 u.cpu1 := by
    rw [encodeFifoCnt_eq, hs4]
    exact fifoCntValue_latched _ _ _ _ _ _ _ _ _ _
  have v1 : encodeFifoCnt (mirrorFifoCnt .c0 s4) .c1 = fifoCntValue u.cpu1 u.cpu0 := by
    rw [encodeFifoCnt_eq]
    change fifoCntValue s4.cpu1 s4.cpu0 = _
    rw [hs4]
    exact fifoCntValue_latched _ _ _ _ _ _ _ _ _ _
  have h5 : SameOutside s4 (mirrorFifoCnt .c0 s4) (inBytes .io0 0x184 4) := setRaw_sameOutside _ _ _ _ _
  have h6 : SameOutside (mirrorFifoCnt .c0 s4) (mirrorFifoCnt .c1 (mirrorFifoCnt .c0 s4)) (inBytes .io1 0x184 4) :=
    setRaw_sameOutside _ _ _ _ _
  have g5 : HoldsAt (mirrorFifoCnt .c0 s4) .io0 0x184 4 (fifoCntValue u.cpu0 u.cpu1) := by
    rw [← v0]
    exact regionWrite_holds _ _ _ _ _
  have g6 : HoldsAt (mirrorFifoCnt .c1 (mirrorFifoCnt .c0 s4)) .io1 0x184 4 (fifoCntValue u.cpu1 u.cpu0) := by
    rw [← v1]
    exact regionWrite_holds _ _ _ _ _
  have apart := inBytes_io_apart
  rw [ht]
  refine ⟨?_, ?_, g6, ?_, ?_, ?_⟩
  · generalize hm : (mirrorFifoCnt .c1 (mirrorFifoCnt .c0 s4)).mem = m
    have e : mirrorFifoCnt .c1 (mirrorFifoCnt .c0 s4) = { s4 with mem := m } := by
      rw [← hm]
      rfl
    rw [e, hs4]
  · exact g5.keep h6 fun k hk => apart .c0 .c1 _ _ _ _ _ (.inl (by decide)) (by decide) (by decide) hk
  · intro hk
    have h := b2 hk
    change HoldsAt s2 .io0 0x214 4 (s2.side .c0).iflag.toNat at h
    have e : ((mirrorFifoCnt .c1 (mirrorFifoCnt .c0 s4)).side .c0).iflag = (s2.side .c0).iflag := by
      change s4.cpu0.iflag = s2.cpu0.iflag
      rw [hs2, hs4]
    rw [e]
    refine ((h.keep d3 fun k hk hb => ?_).keep h5 fun k hk => ?_).keep h6 fun k hk => ?_
    · exact apart .c0 .c1 _ _ _ _ _ (.inl (by decide)) (by decide) (by decide) hk hb.2
    · exact apart .c0 .c0 _ _ _ _ _ (.inr (by decide)) (by decide) (by decide) hk
    · exact apart .c0 .c1 _ _ _ _ _ (.inl (by decide)) (by decide) (by decide) hk
  · intro hk
    have h := d2 hk
    refine (HoldsAt.keep h h5 fun k hk => ?_).keep h6 fun k hk => ?_
    · exact apart .c1 .c0 _ _ _ _ _ (.inl (by decide)) (by decide) (by decide) hk
    · exact apart .c1 .c1 _ _ _ _ _ (.inr (by decide)) (by decide) (by decide) hk
  · intro k hk
    simp only [not_or] at hk
    rw [h6 k hk.2.1, h5 k hk.1, d3 k hk.2.2.2, b3 k hk.2.2.1, hu]

/-- Send (44_ipc.md R240). -/
theorem send_done (c : Cpu) (v : Word) (s : State) :
    FifoDoneFor c s (send c v s) (s.side c)
      { s.side c.other with
        fifo := if (s.side c.other).fifo.length = 16 then (s.side c.other).fifo else (s.side c.other).fifo ++ [v] } := by
  by_cases h : (s.side c.other).fifo.length = 16
  · have e : send c v s = fifoSettle (fifoConditions s) s := by
      rw [send, fifoFull, fifoDepth]
      simp only [h, decide_true, if_true]
    rw [e, if_pos h]
    have := fifoSettle_done s s rfl
    cases c <;> exact this
  · have e : send c v s =
        fifoSettle (fifoConditions s) (setFifo c.other ((s.side c.other).fifo ++ [v]) s) := by
      rw [send, fifoFull, fifoDepth]
      simp only [h, decide_false, Bool.false_eq_true, if_false]
    rw [e, if_neg h]
    cases c
    · exact fifoSettle_done s (setFifo .c1 (s.cpu1.fifo ++ [v]) s) rfl
    · exact fifoSettle_done s (setFifo .c0 (s.cpu0.fifo ++ [v]) s) rfl

/-- FifoControl (R237). -/
theorem fifoControl_done (c : Cpu) (v : Word) (s : State) :
    FifoDoneFor c s (fifoControl c v s)
      { s.side c with
        sendEmptyIrqEn := v.getLsbD 2, recvNotEmptyIrqEn := v.getLsbD 10, fifoEnable := v.getLsbD 15
        fifo := if (v.getLsbD 15 && !(s.side c).fifoEnable) = true then [] else (s.side c).fifo }
      { s.side c.other with
        fifo := if (v.getLsbD 15 && !(s.side c).fifoEnable || v.getLsbD 3) = true then []
          else (s.side c.other).fifo } := by
  let s1 := s.modSide c fun p =>
    { p with sendEmptyIrqEn := bitAt v 2, recvNotEmptyIrqEn := bitAt v 10, fifoEnable := bitAt v 15 }
  let s2 := if bitAt v 3 then setFifo c.other [] s1 else s1
  let s3 := if bitAt v 15 && !(s.side c).fifoEnable then setFifo .c1 [] (setFifo .c0 [] s2) else s2
  have e : fifoControl c v s = fifoSettle (fifoConditions s) s3 := rfl
  have hu : s3 = { s with cpu0 := s3.cpu0, cpu1 := s3.cpu1 } := by
    simp only [s3, s2, s1]
    cases c <;> split <;> split <;> rfl
  have h := fifoSettle_done s s3 hu
  rw [e]
  have hb : (bitAt v 15 && !(s.side c).fifoEnable) = (v.getLsbD 15 && !(s.side c).fifoEnable) := rfl
  simp only [s3, s2, s1, hb] at h ⊢
  generalize (v.getLsbD 15 && !(s.side c).fifoEnable) = k at h ⊢
  have h3 : bitAt v 3 = v.getLsbD 3 := rfl
  rw [h3] at h ⊢
  generalize v.getLsbD 3 = j at h ⊢
  cases c <;> cases k <;> cases j <;> exact h

/-- Recv of a queue that holds a word (R241). -/
theorem recv_done (c : Cpu) (s : State) (v : Word) (q : List Word) (h : (s.side c).fifo = v :: q) :
    (recv c s).1 = v ∧ FifoDoneFor c s (recv c s).2 { s.side c with fifo := q, lastRecv := v } (s.side c.other) := by
  have e : recv c s =
      (v, fifoSettle (fifoConditions s) (s.modSide c fun p => { p with fifo := q, lastRecv := v })) := by
    rw [recv, h]
  rw [e]
  refine ⟨rfl, ?_⟩
  cases c
  · exact fifoSettle_done s (s.modSide .c0 fun p => { p with fifo := q, lastRecv := v }) rfl
  · exact fifoSettle_done s (s.modSide .c1 fun p => { p with fifo := q, lastRecv := v }) rfl

/-- Recv of an empty queue (R241). -/
theorem recv_empty (c : Cpu) (s : State) (h : (s.side c).fifo = []) : recv c s = ((s.side c).lastRecv, s) := by
  rw [recv, h]

/-- WriteSync (R230, R231). -/
theorem writeSync_effect (c : Cpu) (v : Word) (s : State) :
    let p := { s.side c with syncOut := v.extractLsb' 8 4, syncIrqEn := v.getLsbD 14 }
    let k := v.getLsbD 13 && (s.side c.other).syncIrqEn
    let q := latchedIf k (s.side c.other) 16
    let t := writeSync c v s
    t = { (s.setSide c p).setSide c.other q with mem := t.mem } ∧
      HoldsAt t (ioRegion c) 0x180 4 (syncValue p q) ∧ HoldsAt t (ioRegion c.other) 0x180 4 (syncValue q p) ∧
      IfShown k t c.other ∧
      SameOutside s t fun key => inBytes (ioRegion c) 0x180 4 key ∨ inBytes (ioRegion c.other) 0x180 4 key ∨
        ifBytes k c.other key := by
  intro p k q t
  let s1 := s.setSide c p
  let s2 := raiseIf k c.other irqSync s1
  have hk : (bitAt v 13 && (s1.side c.other).syncIrqEn) = k := by
    cases c <;> rfl
  have ht : t = mirrorSync c.other (mirrorSync c s2) := by
    change writeSync c v s = _
    simp only [s2]
    rw [← hk]
    rfl
  obtain ⟨a1, a2, a3⟩ := raiseIf_effect k c.other irqSync s1
  have hq : s1.side c.other = s.side c.other := by
    cases c <;> rfl
  rw [hq] at a1
  change s2 = _ at a1
  have hs : ∀ d, (mirrorSync c s2).side d = s2.side d := fun d => by cases d <;> rfl
  have hp2 : s2.side c = p := by
    rw [a1]
    cases c <;> rfl
  have hq2 : s2.side c.other = q := by
    rw [a1]
    cases c <;> rfl
  have v0 : encodeSync s2 c = syncValue p q := by rw [encodeSync_eq, hp2, hq2]
  have v1 : encodeSync (mirrorSync c s2) c.other = syncValue q p := by
    rw [encodeSync_eq, hs, hs, other_other, hp2, hq2]
  have h5 : SameOutside s2 (mirrorSync c s2) (inBytes (ioRegion c) 0x180 4) := setRaw_sameOutside _ _ _ _ _
  have h6 : SameOutside (mirrorSync c s2) t (inBytes (ioRegion c.other) 0x180 4) := by
    rw [ht]
    exact setRaw_sameOutside _ _ _ _ _
  have g5 : HoldsAt (mirrorSync c s2) (ioRegion c) 0x180 4 (syncValue p q) := by
    rw [← v0]
    exact regionWrite_holds _ _ _ _ _
  have g6 : HoldsAt t (ioRegion c.other) 0x180 4 (syncValue q p) := by
    rw [← v1, ht]
    exact regionWrite_holds _ _ _ _ _
  refine ⟨?_, ?_, g6, ?_, ?_⟩
  · generalize hm : t.mem = m
    have e : t = { s2 with mem := m } := by
      rw [← hm, ht]
      rfl
    rw [e, a1]
    cases c <;> rfl
  · exact g5.keep h6 fun x hx => inBytes_io_apart c c.other _ _ _ _ _ (.inl (by simp)) (by decide) (by decide) hx
  · intro hk
    have h := a2 hk
    change HoldsAt s2 (ioRegion c.other) 0x214 4 (s2.side c.other).iflag.toNat at h
    have e : t.side c.other = s2.side c.other := by
      rw [ht]
      cases c <;> rfl
    rw [e]
    refine (h.keep h5 fun x hx => ?_).keep h6 fun x hx => ?_
    · exact inBytes_io_apart c.other c _ _ _ _ _ (.inl (by simp)) (by decide) (by decide) hx
    · exact inBytes_io_apart c.other c.other _ _ _ _ _ (.inr (.inr (by decide))) (by decide) (by decide) hx
  · intro x hx
    simp only [not_or] at hx
    rw [h6 x hx.2.1, h5 x hx.1, a3 x hx.2.2, setSide_mem]

end Sys2Proof.Machine
end

