-- ==== Sys2Proof/Laws/Ops.lean ====
section
/-! SUPPORT. How operations compose and how a request ends. -/

namespace Sys2Proof.Machine

@[simp] theorem andThen_ok (s : State) (f : State → Res) : andThen (.ok s) f = f s := rfl

@[simp] theorem andThen_error (e : Stop) (f : State → Res) : andThen (.error e) f = .error e := rfl

/-- Everything `andThen` can do when it succeeds. -/
theorem andThen_eq_ok {r : Res} {f : State → Res} {t : State} (h : andThen r f = .ok t) :
    ∃ s, r = .ok s ∧ f s = .ok t := by
  cases r with
  | error e => cases h
  | ok s => exact ⟨s, rfl, h⟩

@[simp] theorem forEach_nil {α : Type} (f : α → State → Res) (s : State) : forEach f [] s = .ok s := rfl

@[simp] theorem forEach_cons {α : Type} (f : α → State → Res) (x : α) (xs : List α) (s : State) :
    forEach f (x :: xs) s = andThen (f x s) (forEach f xs) := rfl

/-- A property each turn keeps is kept by all of them. -/
theorem forEach_keeps {α : Type} {f : α → State → Res} {P : State → Prop} (l : List α)
    (h : ∀ x ∈ l, ∀ s t, P s → f x s = .ok t → P t) : ∀ s t, P s → forEach f l s = .ok t → P t := by
  induction l with
  | nil => intro s t hs ht; cases ht; exact hs
  | cons x xs ih =>
    intro s t hs ht
    obtain ⟨u, hu, ht⟩ := andThen_eq_ok ht
    exact ih (fun y hy => h y (by simp [hy])) u t (h x (by simp) s u hs hu) ht

@[simp] theorem settle_ok (s t : State) : settle s (.ok t) = t := rfl

@[simp] theorem settle_error (s : State) (e : Stop) :
    settle s (.error e) = { s with refused := true, draws := e.draws } := rfl

@[simp] theorem finish_ok (s t : State) : finish s (.ok t) = .next t := rfl

@[simp] theorem finish_error (s : State) (e : Stop) :
    finish s (.error e) = .next { s with refused := true, draws := e.draws } := rfl

/-- A request that ends in an unrefused state was not refused. -/
theorem finish_eq_next {s t : State} {r : Res} (h : finish s r = .next t) :
    r = .ok t ∨ ∃ e, r = .error e ∧ t = { s with refused := true, draws := e.draws } := by
  cases r with
  | ok u => left; cases h; rfl
  | error e => right; cases h; exact ⟨e, rfl, rfl⟩

theorem finishValue_eq_next {x : Word × State} {t : State} (h : finishValue x = .next t) :
    t = x.2.answer (.value x.1) := by
  cases h; rfl

end Sys2Proof.Machine
end

