-- ==== Sys2Proof/Laws/Resolve.lean ====
section
/-! SUPPORT. Where an address resolves to: aligned offsets whose bytes stay inside the region, and the registers an
access touches. -/

namespace Sys2Proof.Machine

/-- Whether a key is a byte of a region (10_state.md R41). -/
def Inside (s : State) (k : Nat) : Prop :=
  ∃ r size o, regionSize s.config s.cart r = some size ∧ o < size ∧ k = cellKey r o

theorem and_mod_bytes (w : Width) (a b : Nat) (h : a % w.bytes = 0) : (a &&& b) % w.bytes = 0 := by
  obtain ⟨k, hk⟩ : ∃ k, w.bytes = 2 ^ k := by
    cases w
    · exact ⟨0, rfl⟩
    · exact ⟨1, rfl⟩
    · exact ⟨2, rfl⟩
  rw [hk] at h ⊢
  rw [Nat.and_mod_two_pow, h, Nat.zero_and]

theorem alignAddr_mod (w : Width) (a : Word) : (alignAddr w a).toNat % w.bytes = 0 := by
  rw [alignAddr_toNat]; exact Nat.mul_mod_left _ _

theorem alignOffset_mod (w : Width) (o : Nat) : alignOffset w o % w.bytes = 0 := Nat.mul_mod_left _ _

/-- A region size is a multiple of four. -/
theorem isRegionSize_mod (size : Word) (h : isRegionSize size = true) : size.toNat % 4 = 0 ∧ 4 ≤ size.toNat := by
  simp only [isRegionSize, Bool.and_eq_true, decide_eq_true_eq] at h
  refine ⟨?_, h.1⟩
  have h2 : size.toNat &&& (size.toNat - 1) = 0 := by
    have := congrArg BitVec.toNat h.2
    rw [BitVec.toNat_and, BitVec.toNat_sub_of_le] at this
    · simpa using this
    · rw [BitVec.le_def]; simp; omega
  by_contra hc
  have h3 : (size.toNat &&& (size.toNat - 1)) / 2 ^ 2 = size.toNat / 2 ^ 2 := by
    rw [Nat.and_div_two_pow, show (size.toNat - 1) / 2 ^ 2 = size.toNat / 2 ^ 2 by omega, Nat.and_self]
  rw [h2] at h3
  omega

/-- A size with two factors of two is a multiple of four. -/
theorem pow_size_mod (n k : Nat) (h : 2 ≤ n) : 2 ^ (n + k) % 4 = 0 ∧ 4 ≤ 2 ^ (n + k) := by
  obtain ⟨m, rfl⟩ := Nat.exists_eq_add_of_le h
  have h1 : 2 ^ (2 + m + k) = 4 * 2 ^ (m + k) := by rw [Nat.add_assoc, Nat.pow_add]
  have h2 : 0 < 2 ^ (m + k) := Nat.two_pow_pos _
  omega

theorem regionSize_mod (g : BusConfig) (cart : Option Word) (hc : ∀ size, cart = some size → isRegionSize size = true) (r : Region)
    (size : Nat) (h : regionSize g cart r = some size) : size % 4 = 0 ∧ 4 ≤ size := by
  cases r
  case cartrom =>
    simp only [regionSize, Option.map_eq_some_iff] at h
    obtain ⟨w, hw, rfl⟩ := h
    exact isRegionSize_mod w (hc w hw)
  all_goals
    simp only [regionSize, Option.some.injEq, reduceCtorEq] at h
    try (subst h; first | decide | exact pow_size_mod _ _ (by decide))

/-- The in-region offset is aligned and its bytes stay inside (20_memory.md R63, 40_decode.md R106). -/
theorem regionOffset_bound (w : Width) (a mask : Word) (size : Nat) (hs : size % 4 = 0) (h4 : 4 ≤ size)
    (h32 : size < 2 ^ 32) (ha : a.toNat % w.bytes = 0) :
    regionOffset a mask size % w.bytes = 0 ∧ regionOffset a mask size + w.bytes ≤ size := by
  have e : regionOffset a mask size = (a.toNat &&& mask.toNat) &&& (size - 1) := by
    simp only [regionOffset, BitVec.toNat_and, BitVec.toNat_ofNat]
    rw [Nat.mod_eq_of_lt (by omega)]
  have h1 : regionOffset a mask size % w.bytes = 0 := by
    rw [e]; exact and_mod_bytes _ _ _ (and_mod_bytes _ _ _ ha)
  refine ⟨h1, ?_⟩
  have h2 : regionOffset a mask size ≤ size - 1 := by rw [e]; exact Nat.and_le_right
  rcases width_bytes_cases w with h | h | h <;> rw [h] at h1 ⊢ <;> omega

/-- The window offset in the words of Safety.lean (log entry 22). -/
theorem windowOffset_eq (a mask : Word) : windowOffset a mask = windowOffsetOf mask a.toNat := by
  have hm : mask &&& 0x00FFFFFF = 0x00FFFFFF ↔ mask.toNat % 2 ^ 24 = 2 ^ 24 - 1 := by
    rw [← BitVec.toNat_inj, BitVec.toNat_and]
    exact iff_of_eq (congrArg (· = _) (Nat.and_two_pow_sub_one_eq_mod _ 24))
  have hw : (a &&& 0x00FFFFFF).toNat = a.toNat % 2 ^ 24 := by
    rw [BitVec.toNat_and]; exact Nat.and_two_pow_sub_one_eq_mod _ 24
  rw [windowOffset, windowMask, windowOffsetOf]
  by_cases h : mask.toNat % 2 ^ 24 = 2 ^ 24 - 1
  · rw [if_pos (hm.mpr h), if_neg (fun x => x.1 h), hw]
  · rw [if_neg (fun x => h (hm.mp x))]
    by_cases k : Config.windowOffsetMasked = true
    · rw [if_pos k, if_pos ⟨h, k⟩, BitVec.toNat_and, BitVec.toNat_and, ← Nat.and_assoc]
      exact rfl
    · rw [if_neg k, if_neg (fun x => k x.2), hw]

/-- A register-window offset is aligned and its bytes stay inside the raw block (41_io_dispatch.md R130). -/
theorem windowOffset_bound (w : Width) (a mask : Word) (ha : a.toNat % w.bytes = 0) :
    windowOffset a mask % w.bytes = 0 ∧ windowOffset a mask + w.bytes ≤ 0x1000000 := by
  have h1 : windowOffset a mask % w.bytes = 0 := by
    rw [windowOffset, BitVec.toNat_and]; exact and_mod_bytes _ _ _ ha
  have h2 : windowOffset a mask < 2 ^ 24 := by
    rw [windowOffset_eq, windowOffsetOf]
    split
    · exact Nat.lt_of_le_of_lt Nat.and_le_right (by decide)
    · exact Nat.mod_lt _ (by decide)
  rcases width_bytes_cases w with hw | hw | hw <;> rw [hw] at h1 ⊢ <;> omega

/-- Everything the decode of an aligned address can answer (40_decode.md R100). -/
theorem resolve_cases (w : Width) (c : Cpu) (addr : Word) (s : State) :
    (∃ o, resolve c (alignAddr w addr) s = .tcw o ∧ o % w.bytes = 0 ∧ o + w.bytes ≤ 0x4000) ∨
    resolve c (alignAddr w addr) s = .cartPass ∨
    resolve c (alignAddr w addr) s = .wifi ∨
    resolve c (alignAddr w addr) s = .sink ∨
    (∃ o, resolve c (alignAddr w addr) s = .io o ∧ o % w.bytes = 0 ∧ o + w.bytes ≤ 0x1000000) ∨
    (∃ r o size, resolve c (alignAddr w addr) s = .storage r o ∧ regionSize s.config s.cart r = some size ∧
      (CartOk s → o % w.bytes = 0 ∧ o + w.bytes ≤ size)) := by
  have ha := alignAddr_mod w addr
  generalize alignAddr w addr = a at *
  rw [resolve]
  split
  · left
    refine ⟨_, rfl, ?_, ?_⟩
    · rw [BitVec.toNat_and]; exact and_mod_bytes _ _ _ ha
    · have h1 : (a &&& tcwMask).toNat % w.bytes = 0 := by rw [BitVec.toNat_and]; exact and_mod_bytes _ _ _ ha
      have h2 : (a &&& tcwMask).toNat ≤ 0x3FFF := by rw [BitVec.toNat_and]; exact Nat.and_le_right
      rcases width_bytes_cases w with h | h | h <;> rw [h] at h1 ⊢ <;> omega
  · split
    · simp
    · split
      · simp
      · simp only
        split
        · right; right; right; right; left
          exact ⟨_, rfl, windowOffset_bound w a _ ha⟩
        · split
          · simp
          · next size hsz =>
            right; right; right; right; right
            refine ⟨_, _, size, rfl, hsz, fun hc => ?_⟩
            have hm := regionSize_mod s.config s.cart hc _ _ hsz
            exact regionOffset_bound w a _ size hm.1 hm.2 (regionSize_le _ _ _ _ hsz) ha

/-! ### Registers -/

/-- The register found for an offset holds it. -/
def Holds (x : Option LReg) (o : Nat) : Prop := ∀ r, x = some r → r.offset ≤ o ∧ o < r.offset + r.size

theorem holds_none (o : Nat) : Holds none o := fun _ h => by cases h

theorem holds_some {r : LReg} {o : Nat} (h : r.offset ≤ o ∧ o < r.offset + r.size) : Holds (some r) o := fun q e => by
  rw [← Option.some.inj e]; exact h

theorem holds_ite {p : Prop} [Decidable p] {a b : Option LReg} {o : Nat} (ha : p → Holds a o) (hb : ¬ p → Holds b o) :
    Holds (if p then a else b) o := by
  split
  · exact ha ‹_›
  · exact hb ‹_›

theorem displayAt_holds (g : Engine) (k : Nat) : Holds (displayAt g k) (engineBase g + k) := by
  unfold displayAt
  with_reducible
    repeat' first
      | (refine holds_ite (fun _ => ?_) (fun _ => ?_)) | exact holds_none _ | refine holds_some ?_
  all_goals simp only [LReg.offset, LReg.size, Fin.ofNat]; omega

theorem dmaTimerAt_holds (o : Nat) : Holds (dmaTimerAt o) o := by
  unfold dmaTimerAt
  simp only
  with_reducible
    repeat' first
      | (refine holds_ite (fun _ => ?_) (fun _ => ?_)) | exact holds_none _ | refine holds_some ?_
  all_goals simp only [LReg.offset, LReg.size, Fin.ofNat]; omega

theorem systemAt_holds (o : Nat) : Holds (systemAt o) o := by
  unfold systemAt
  with_reducible
    repeat' first
      | (refine holds_ite (fun _ => ?_) (fun _ => ?_)) | exact holds_none _ | refine holds_some ?_
  all_goals simp only [LReg.offset, LReg.size]; omega

theorem mainAt_holds (o : Nat) : Holds (mainAt o) o := by
  unfold mainAt
  with_reducible
    repeat' first
      | (refine holds_ite (fun _ => ?_) (fun _ => ?_)) | exact holds_none _ | refine holds_some ?_
  all_goals simp only [LReg.offset, LReg.size, Fin.ofNat]; omega

theorem highAt_holds (o : Nat) : Holds (highAt o) o := by
  unfold highAt
  with_reducible
    repeat' first
      | (refine holds_ite (fun _ => ?_) (fun _ => ?_)) | exact holds_none _ | refine holds_some ?_
  all_goals simp only [LReg.offset, LReg.size]; omega

/-- The register that holds an offset holds it (41_io_dispatch.md R130). -/
theorem regAt_holds (c : Cpu) (o : Nat) (r : LReg) (h : regAt c o = some r) :
    r.offset ≤ o ∧ o < r.offset + r.size := by
  cases c
  · simp only [regAt] at h
    split_ifs at h
    · exact highAt_holds o r h
    · exact dmaTimerAt_holds o r h
    · exact systemAt_holds o r h
    · simpa [engineBase] using displayAt_holds _ _ r h
    · cases h; simp only [LReg.offset, LReg.size]; omega
    · exact mainAt_holds o r h
    · have := displayAt_holds _ _ r h
      simp only [engineBase] at this
      omega
  · simp only [regAt] at h
    split_ifs at h
    · exact highAt_holds o r h
    · exact dmaTimerAt_holds o r h
    · exact systemAt_holds o r h
    · cases h
      simp only [LReg.offset, LReg.size]
      omega

theorem mem_dropRepeats (l : List LReg) (r : LReg) : r ∈ dropRepeats l ↔ r ∈ l := by
  induction l using dropRepeats.induct with
  | case1 => simp [dropRepeats]
  | case2 => simp [dropRepeats]
  | case3 x l ih => simp [dropRepeats, ih]
  | case4 x y l h ih => simp [dropRepeats, h, ih]

theorem mem_regsOf (c : Cpu) (o n : Nat) (r : LReg) (h : r ∈ regsOf c o n) :
    ∃ i, i < n ∧ regAt c (o + i) = some r := by
  induction n generalizing o with
  | zero => simp [regsOf] at h
  | succ n ih =>
    rw [regsOf] at h
    split at h
    · obtain ⟨i, hi, e⟩ := ih _ h
      exact ⟨i + 1, by omega, by rw [← e]; congr 1; omega⟩
    · next x hx =>
      rcases List.mem_cons.mp h with rfl | h
      · exact ⟨0, by omega, hx⟩
      · obtain ⟨i, hi, e⟩ := ih _ h
        exact ⟨i + 1, by omega, by rw [← e]; congr 1; omega⟩

/-- A touched register holds a byte of the access (R130). -/
theorem mem_touched (c : Cpu) (w : Width) (o : Nat) (r : LReg) (h : r ∈ touched c w o) :
    ∃ i, i < w.bytes ∧ regAt c (o + i) = some r :=
  mem_regsOf c o _ r ((mem_dropRepeats _ r).mp h)

theorem regsOf_of_regAt (c : Cpu) (n : Nat) (r : LReg) : ∀ o i, i < n → regAt c (o + i) = some r →
    r ∈ regsOf c o n := by
  induction n with
  | zero => omega
  | succ n ih =>
    intro o i hi hr
    rw [regsOf]
    rcases i with _ | i
    · rw [Nat.add_zero] at hr; simp [hr]
    · have := ih (o + 1) i (by omega) (by rw [← hr]; congr 1; omega)
      split <;> simp [this]

/-- A register that holds a byte of the access is touched (R130). -/
theorem touched_of_regAt (c : Cpu) (w : Width) (o i : Nat) (r : LReg) (hi : i < w.bytes)
    (h : regAt c (o + i) = some r) : r ∈ touched c w o :=
  (mem_dropRepeats _ r).mpr (regsOf_of_regAt c _ r o i hi h)

theorem touched_nil_iff (c : Cpu) (w : Width) (o : Nat) :
    touched c w o = [] ↔ ∀ i, i < w.bytes → regAt c (o + i) = none := by
  constructor
  · intro h i hi
    by_contra hn
    obtain ⟨r, hr⟩ := Option.ne_none_iff_exists'.mp hn
    have hm := touched_of_regAt c w o i r hi hr
    rw [h] at hm
    simp at hm
  · intro h
    rw [List.eq_nil_iff_forall_not_mem]
    intro r hr
    obtain ⟨i, hi, e⟩ := mem_touched c w o r hr
    rw [h i hi] at e
    cases e

/-- Every register with a handler lies below 0x100014. -/
theorem lreg_bound (r : LReg) : r.offset + r.size ≤ 0x100014 := by
  cases r <;> simp only [LReg.offset, LReg.size] <;> first | omega | (rename_i g _; cases g <;> simp [engineBase] <;> omega) | (rename_i g; cases g <;> simp [engineBase])

end Sys2Proof.Machine
end

