-- ==== Sys2Proof/Laws/Stable.lean ====
section
/-! SUPPORT. What a step can do, said once: a property that each primitive change of the state keeps is kept by every
request. The primitive changes are the fields of `Stable`; the rest of this file carries them through the shared
operations up to `exec` and `step`. -/

namespace Sys2Proof.Machine

/-- The primitive changes a request makes of the state, each keeping `P`. -/
structure Stable (P : State → Prop) : Prop where
  /-- one byte, of a region while the cartridge has a region's size -/
  write : ∀ s k b, P s → (CartOk s → Inside s k) → P { s with mem := Memory.write s.mem k b }
  logCall : ∀ s k, P s → P (s.logCall k)
  logDraw : ∀ s k, P s → P (s.logDraw k)
  answer : ∀ s r, P s → P (s.answer r)
  /-- a table entry REMAP admits -/
  entry : ∀ s c i r m, P s → remapAllowed s.cart.isSome c r = true → P (s.setEntry c i ⟨r, m⟩)
  /-- a latch field, with pending recomputed -/
  latch : ∀ s c (ime : CpuSide → Bool) (ie iflag : CpuSide → Word), P s →
    P (s.modSide c fun p => CpuSide.updatePending { p with ime := ime p, ie := ie p, iflag := iflag p })
  sync : ∀ s c o e, P s → P (s.modSide c fun p => { p with syncOut := o, syncIrqEn := e })
  fifoBits : ∀ s c a b d, P s → P (s.modSide c fun p =>
    { p with sendEmptyIrqEn := a, recvNotEmptyIrqEn := b, fifoEnable := d })
  fifoClear : ∀ s c, P s → P (setFifo c [] s)
  fifoPush : ∀ s c v, P s → (s.side c).fifo.length ≠ 16 → P (setFifo c ((s.side c).fifo ++ [v]) s)
  fifoPop : ∀ s c v q, P s → (s.side c).fifo = v :: q →
    P (s.modSide c fun p => { p with fifo := q, lastRecv := v })
  reload : ∀ s c t v, P s → P (s.modTimer c t fun m => { m with reload := v })
  control : ∀ s c t v, P s → P (s.modTimer c t fun m => m.withControl (v &&& tmMask t))
  cycle : ∀ s c t k, P s → P (s.modTimer c t fun _ => ((s.timer c t).cycle t k).2)
  sad : ∀ s c ch v, P s → P (s.modChan c ch fun d => { d with sad := v })
  dad : ∀ s c ch v, P s → P (s.modChan c ch fun d => { d with dad := v })
  program : ∀ s c ch v, P s → (s.chan c ch).executing = false →
    P (s.modChan c ch fun d => d.program c ch (v &&& cntMask c ch))
  rearm : ∀ s c ch, P s → P (s.modChan c ch fun d => d.rearm c ch)
  stop : ∀ s c ch, P s → P (s.modChan c ch Channel.stop)
  advance : ∀ s c ch w, P s → P (s.modChan c ch fun d => d.advance w)
  tcw : ∀ s v, P s → P (setTcwBase v s)
  mount : ∀ s size bytes, P s → isRegionSize size = true → bytes.length = size.toNat → P (mountCart size bytes s)
  unmount : ∀ s, P s → P (unmountCart s)
  reset : ∀ s, P s → P (resetBus s)

/-- The change that brackets a burst. -/
structure StableBurst (P : State → Prop) : Prop extends Stable P where
  executing : ∀ s c ch b, P s → P (s.modChan c ch fun d => { d with executing := b })

/-- How a request is taken and how it can end refused. -/
structure StableStep (P : State → Prop) : Prop where
  fetch : ∀ s input, P s → P (afterFetch input s)
  refuse : ∀ s d, P s → P { s with refused := true, draws := d }

/-- An `Exe` keeps `P` on a channel that is not running. -/
def ExeKeeps (P : State → Prop) (exe : Exe) : Prop :=
  ∀ c ch s t, P s → (s.chan c ch).executing = false → exe c ch s = .ok t → P t

variable {P : State → Prop}

theorem Stable.writeBytes (h : Stable P) (l : List Byte) : ∀ s k, P s →
    (CartOk s → ∀ i, i < l.length → Inside s (k + i)) → P { s with mem := Memory.writeBytes s.mem k l } := by
  induction l with
  | nil => intro s k hs _; exact hs
  | cons b l ih =>
    intro s k hs hi
    have h1 := h.write s k b hs fun hc => hi hc 0 (by simp)
    exact ih { s with mem := Memory.write s.mem k b } (k + 1) h1 fun hc i hl => by
      have := hi hc (i + 1) (by simpa using hl)
      rwa [show k + 1 + i = k + (i + 1) by omega]

theorem Stable.regionWrite (h : Stable P) (s : State) (r : Region) (o n v : Nat) (hs : P s)
    (hi : CartOk s → ∃ size, regionSize s.config s.cart r = some size ∧ o + n ≤ size) : P (s.regionWrite r o n v) :=
  h.writeBytes _ s _ hs fun hc i hl => by
    obtain ⟨size, h1, h2⟩ := hi hc
    rw [leBytes_length] at hl
    exact ⟨r, size, o + i, h1, by omega, by rw [cellKey_add]⟩

theorem Stable.setRaw (h : Stable P) (s : State) (c : Cpu) (o n v : Nat) (hs : P s) (hb : o + n ≤ 0x1000000) :
    P (s.setRaw c o n v) :=
  h.regionWrite s _ o n v hs fun _ => ⟨_, ioRegion_size _ _ c, hb⟩

/-! ### The latch -/

theorem Stable.setIF (h : Stable P) (c : Cpu) (m : Word) (s : State) (hs : P s) : P (setIF c m s) :=
  h.setRaw _ _ _ _ _ (h.latch s c (·.ime) (·.ie) (fun p => p.iflag ||| m) hs) (by decide)

theorem Stable.raiseIrq (h : Stable P) (c : Cpu) (b : Nat) (s : State) (hs : P s) : P (raiseIrq c b s) :=
  h.setIF c _ s hs

theorem Stable.raiseIf (h : Stable P) (k : Bool) (c : Cpu) (b : Nat) (s : State) (hs : P s) : P (raiseIf k c b s) := by
  unfold Machine.raiseIf
  split
  · exact h.raiseIrq c b s hs
  · exact hs

theorem Stable.setIME (h : Stable P) (c : Cpu) (v : Word) (s : State) (hs : P s) : P (setIME c v s) :=
  h.setRaw _ _ _ _ _ (h.latch s c (fun _ => bitAt v 0) (·.ie) (·.iflag) hs) (by decide)

theorem Stable.setIE (h : Stable P) (c : Cpu) (v : Word) (s : State) (hs : P s) : P (setIE c v s) :=
  h.setRaw _ _ _ _ _ (h.latch s c (·.ime) (fun _ => v) (·.iflag) hs) (by decide)

theorem Stable.clearIF (h : Stable P) (c : Cpu) (m : Word) (s : State) (hs : P s) : P (clearIF c m s) :=
  h.setRaw _ _ _ _ _ (h.latch s c (·.ime) (·.ie) (fun p => p.iflag &&& ~~~ m) hs) (by decide)

/-! ### Timers -/

theorem Stable.setReload (h : Stable P) (c : Cpu) (t : Fin 4) (v : Half) (s : State) (hs : P s) :
    P (setReload c t v s) := h.reload s c t v hs

theorem Stable.setControl (h : Stable P) (c : Cpu) (t : Fin 4) (v : Half) (s : State) (hs : P s) :
    P (setControl c t v s) :=
  h.setRaw _ _ _ _ _ (h.control s c t v hs) (by have := t.isLt; simp only [tmHOffset]; omega)

theorem Stable.tickTimer (h : Stable P) (c : Cpu) (t : Fin 4) (k : Bool) (s : State) (hs : P s) :
    P (tickTimer c t k s).2 := h.raiseIf _ _ _ _ (h.cycle s c t k hs)

theorem Stable.tickCycle (h : Stable P) (c : Cpu) (o : Overflows) (s : State) (hs : P s) : P (tickCycle c o s).2 :=
  h.tickTimer _ _ _ _ (h.tickTimer _ _ _ _ (h.tickTimer _ _ _ _ (h.tickTimer _ _ _ _ hs)))

theorem Stable.tickLoop (h : Stable P) (c : Cpu) (n : Nat) : ∀ o s, P s → P (tickLoop c n o s).2 := by
  induction n with
  | zero => intro o s hs; exact hs
  | succ n ih => intro o s hs; exact ih _ _ (h.tickCycle c o s hs)

/-! ### The inter-processor channel -/

theorem Stable.mirrorSync (h : Stable P) (c : Cpu) (s : State) (hs : P s) : P (mirrorSync c s) :=
  h.setRaw _ _ _ _ _ hs (by decide)

theorem Stable.mirrorFifoCnt (h : Stable P) (c : Cpu) (s : State) (hs : P s) : P (mirrorFifoCnt c s) :=
  h.setRaw _ _ _ _ _ hs (by decide)

theorem Stable.writeSync (h : Stable P) (c : Cpu) (v : Word) (s : State) (hs : P s) : P (writeSync c v s) :=
  h.mirrorSync _ _ (h.mirrorSync _ _ (h.raiseIf _ _ _ _ (h.sync s c _ _ hs)))

theorem Stable.fifoSettle (h : Stable P) (b : FifoConditions) (s : State) (hs : P s) : P (fifoSettle b s) :=
  h.mirrorFifoCnt _ _ (h.mirrorFifoCnt _ _
    (h.raiseIf _ _ _ _ (h.raiseIf _ _ _ _ (h.raiseIf _ _ _ _ (h.raiseIf _ _ _ _ hs)))))

theorem Stable.fifoControl (h : Stable P) (c : Cpu) (v : Word) (s : State) (hs : P s) : P (fifoControl c v s) := by
  apply h.fifoSettle
  have h1 := h.fifoBits s c (bitAt v 2) (bitAt v 10) (bitAt v 15) hs
  split <;> split
  · exact h.fifoClear _ _ (h.fifoClear _ _ (h.fifoClear _ _ h1))
  · exact h.fifoClear _ _ (h.fifoClear _ _ h1)
  · exact h.fifoClear _ _ h1
  · exact h1

theorem Stable.send (h : Stable P) (c : Cpu) (v : Word) (s : State) (hs : P s) : P (send c v s) := by
  apply h.fifoSettle
  split
  · exact hs
  · next hf =>
    refine h.fifoPush s _ v hs fun hl => hf ?_
    simp [fifoFull, fifoDepth, hl]

theorem Stable.recv (h : Stable P) (c : Cpu) (s : State) (hs : P s) : P (recv c s).2 := by
  rw [Machine.recv]
  split
  · exact hs
  · next v q hq => exact h.fifoSettle _ _ (h.fifoPop s c v q hs hq)

/-! ### The table -/

theorem Stable.remap (h : Stable P) {why : Why} {c : Cpu} {i g : Byte} {m : Word} {s t : State} (hs : P s)
    (e : Machine.remap why c i g m s = .ok t) : P t := by
  unfold Machine.remap at e
  split at e
  · cases e
  · split at e
    · cases e; exact h.entry s c i _ m hs ‹_›
    · cases e

theorem Stable.loadBytes (h : Stable P) {g : Byte} {o : Word} {bs : List Byte} {s t : State} (hs : P s)
    (e : Machine.loadBytes g o bs s = .ok t) : P t := by
  unfold Machine.loadBytes at e
  split at e
  · cases e
  · next r _ =>
    split at e
    · cases e
    · next size hsz =>
      split at e
      · next hc =>
        cases e
        simp only [Bool.and_eq_true, decide_eq_true_eq] at hc
        exact h.writeBytes _ s _ hs fun _ i hi =>
          ⟨r, size, o.toNat + i, hsz, by omega, by rw [cellKey_add]⟩
      · cases e

/-! ### The register window -/

theorem Stable.computedRead (h : Stable P) {c : Cpu} {r : LReg} {s : State} (hs : P s) {x : Nat × State}
    (e : Machine.computedRead c r s = some x) : P x.2 := by
  cases r <;> simp only [Machine.computedRead, Option.some.injEq, reduceCtorEq] at e <;> subst e <;>
    first | exact hs | exact h.logDraw s _ hs | exact h.recv c s hs

theorem Stable.readRegs (h : Stable P) (c : Cpu) (o : Nat) (l : List LReg) : ∀ bs s, P s →
    P (readRegs c o l bs s).2 := by
  induction l with
  | nil => intro bs s hs; exact hs
  | cons r l ih =>
    intro bs s hs
    rw [Machine.readRegs]
    split
    · exact ih _ _ hs
    · next x hx => exact ih _ _ (h.computedRead hs hx)

theorem Stable.ioRead (h : Stable P) (c : Cpu) (o : Nat) (w : Width) (s : State) (hs : P s) : P (ioRead c o w s).2 :=
  h.readRegs c o _ _ s hs

theorem Stable.programChannel (h : Stable P) {exe : Exe} (he : ExeKeeps P exe) {c : Cpu} {ch : Fin 4} {v : Word}
    {s t : State} (hs : P s) (e : Machine.programChannel exe c ch v s = .ok t) : P t := by
  unfold Machine.programChannel at e
  simp only at e
  split at e
  · cases e
  · next hx =>
    have hx : (s.chan c ch).executing = false := by simpa using hx
    have h1 := h.program s c ch v hs hx
    obtain ⟨u, hu, ht⟩ := andThen_eq_ok e
    cases ht
    have hu' : P u := by
      split at hu
      · refine he c ch _ u h1 ?_ hu
        rw [modChan_chan_same]
        simp only [Channel.program]
        split <;> exact hx
      · cases hu; exact h1
    refine h.setRaw _ _ _ _ _ hu' ?_
    have := ch.isLt
    simp only [LReg.offset]
    omega

theorem Stable.writeSpiData (h : Stable P) (c : Cpu) (o : Nat) (w : Width) (s : State) (hs : P s) :
    P (writeSpiData c o w s) := by
  refine h.setRaw _ _ _ _ _ ?_ (by decide)
  split
  · exact h.setRaw _ _ _ _ _ (h.logDraw s _ hs) (by decide)
  · exact hs

theorem Stable.writeMapControl (h : Stable P) {o : Nat} {s t : State} (hs : P s)
    (e : Machine.writeMapControl o s = .ok t) : P t :=
  forEach_keeps _ (fun _ _ _ _ hu hv => h.remap hu hv) _ t (h.logDraw s _ hs) e

theorem Stable.handle (h : Stable P) {exe : Exe} (he : ExeKeeps P exe) {c : Cpu} {o : Nat} {w : Width} {v : Word}
    {r : LReg} {s t : State} (hs : P s) (e : Machine.handle exe c o w v r s = .ok t) : P t := by
  have hb : ∀ (ch : Fin 4) (k : Nat), k ≤ 0xB8 → k + 12 * ch.val + 4 ≤ 0x1000000 := fun ch k hk => by
    have := ch.isLt; omega
  cases r
  case dispCnt => cases e; exact h.logCall s _ hs
  case bgCnt => cases e; exact h.logCall s _ hs
  case winBounds => cases e; exact h.logCall s _ hs
  case winMask => cases e; exact h.logCall s _ hs
  case bldCnt => cases e; exact h.logCall s _ hs
  case bldAlpha => cases e; exact h.logCall s _ hs
  case bldY => cases e; exact h.logCall s _ hs
  case dispCapCnt => cases e; exact h.logCall s _ hs
  case auxSpiCnt => cases e; exact h.logCall s _ hs
  case romCtrl => cases e; exact h.logCall s _ hs
  case geomPort => cases e; exact h.logCall s _ hs
  case gxStat => cases e; exact h.logCall s _ hs
  case sound => cases e; exact h.logCall s _ hs
  case dmaSad => cases e; exact h.setRaw _ _ _ _ _ (h.sad s _ _ _ hs) (hb _ 0xB0 (by decide))
  case dmaDad => cases e; exact h.setRaw _ _ _ _ _ (h.dad s _ _ _ hs) (hb _ 0xB4 (by decide))
  case dmaCnt => exact h.programChannel he hs e
  case tmCntL => cases e; exact h.setReload _ _ _ s hs
  case tmCntH => cases e; exact h.setControl _ _ _ s hs
  case ipcSync => cases e; exact h.writeSync _ _ s hs
  case ipcFifoCnt => cases e; exact h.fifoControl _ _ s hs
  case ipcFifoSend => cases e; exact h.send _ _ s hs
  case auxSpiData => cases e; exact h.writeSpiData _ _ _ s hs
  case ime => cases e; exact h.setIME _ _ s hs
  case ie => cases e; exact h.setIE _ _ s hs
  case iflag => cases e; exact h.clearIF _ _ s hs
  case mapCnt => exact h.writeMapControl hs e
  case ipcFifoRecv => cases e; exact hs
  case cardData => cases e; exact hs
  case divCnt => cases e; exact hs
  case divResult => cases e; exact hs
  case divRemResult => cases e; exact hs
  case sqrtCnt => cases e; exact hs
  case sqrtResult => cases e; exact hs

theorem Stable.onRegisterWrite (h : Stable P) {exe : Exe} (he : ExeKeeps P exe) {c : Cpu} {o : Nat} {w : Width}
    {v : Word} {s t : State} (hs : P s) (e : Machine.onRegisterWrite exe c o w v s = .ok t) : P t :=
  forEach_keeps _ (fun _ _ _ _ hu hv => h.handle he hu hv) s t hs e

theorem Stable.ioWrite (h : Stable P) {exe : Exe} (he : ExeKeeps P exe) {c : Cpu} {o : Nat} {w : Width} {v : Word}
    {s t : State} (hs : P s) (hb : o + w.bytes ≤ 0x1000000) (e : Machine.ioWrite exe c o w v s = .ok t) : P t :=
  h.onRegisterWrite he (h.setRaw s c o _ _ hs hb) e

/-! ### The bus -/

theorem Stable.cartPassRead (h : Stable P) (c : Cpu) (n : Nat) : ∀ a s, P s → P (cartPassRead c a n s).2 := by
  induction n with
  | zero => intro a s hs; exact hs
  | succ n ih => intro a s hs; exact ih _ _ (h.logDraw s _ hs)

theorem Stable.cartPassWrite (h : Stable P) (c : Cpu) (l : List Byte) : ∀ a s, P s → P (cartPassWrite c a l s) := by
  induction l with
  | nil => intro a s hs; exact hs
  | cons b l ih => intro a s hs; exact ih _ _ (h.logCall s _ hs)

theorem Stable.memRead (h : Stable P) (c : Cpu) (addr : Word) (w : Width) (s : State) (hs : P s) :
    P (memRead c addr w s).2 := by
  dsimp only [Machine.memRead]
  split
  · exact hs
  · exact h.cartPassRead _ _ _ _ hs
  · exact h.logDraw s _ hs
  · exact hs
  · exact h.ioRead _ _ _ _ hs
  · exact hs

theorem Stable.memWrite (h : Stable P) {exe : Exe} (he : ExeKeeps P exe) {c : Cpu} {addr : Word} {w : Width}
    {v : Word} {s t : State} (hs : P s) (e : Machine.memWrite exe c addr w v s = .ok t) : P t := by
  dsimp only [Machine.memWrite] at e
  rcases resolve_cases w c addr s with ⟨o, hr, -, ho⟩ | hr | hr | hr | ⟨o, hr, -, ho⟩ | ⟨r, o, size, hr, hsz, ho⟩ <;>
    rw [hr] at e
  · cases e
    obtain ⟨size, hsz, hle⟩ := dtcm_size s.config s.cart
    exact h.regionWrite s _ o _ _ hs fun _ => ⟨size, hsz, Nat.le_trans ho hle⟩
  · cases e; exact h.cartPassWrite _ _ _ _ hs
  · cases e; exact h.logCall s _ hs
  · cases e; exact hs
  · exact h.ioWrite he hs ho e
  · cases e; exact h.regionWrite s _ o _ _ hs fun hc => ⟨size, hsz, (ho hc).2⟩

/-! ### Bursts -/

theorem Stable.elements (h : Stable P) {exe : Exe} (he : ExeKeeps P exe) (c : Cpu) (ch : Fin 4) (w : Width) (n : Nat) :
    ∀ s t, P s → Machine.elements exe c ch w n s = .ok t → P t := by
  induction n with
  | zero => intro s t hs e; cases e; exact hs
  | succ n ih =>
    intro s t hs e
    obtain ⟨u, hu, ht⟩ := andThen_eq_ok e
    exact ih _ t (h.advance u c ch w (h.memWrite he (h.memRead _ _ _ s hs) hu)) ht

theorem Stable.stopChannel (h : Stable P) (c : Cpu) (ch : Fin 4) (s : State) (hs : P s) : P (stopChannel c ch s) := by
  refine h.setRaw _ _ _ _ _ (h.stop s c ch hs) ?_
  have := ch.isLt
  simp only [LReg.offset]
  omega

theorem StableBurst.completeBurst (h : StableBurst P) (c : Cpu) (ch : Fin 4) (s : State) (hs : P s) :
    P (completeBurst c ch s) := by
  apply h.raiseIf
  have h1 := h.executing s c ch false hs
  split
  · exact h.rearm _ c ch h1
  · exact h.stopChannel c ch _ h1

theorem StableBurst.executeBody (h : StableBurst P) {exe : Exe} (he : ExeKeeps P exe) {c : Cpu} {ch : Fin 4}
    {s t : State} (hs : P s) (e : Machine.executeBody exe c ch s = .ok t) : P t := by
  unfold Machine.executeBody at e
  simp only at e
  split at e
  · cases e; exact hs
  · split at e
    · cases e; exact h.stopChannel c ch s hs
    · obtain ⟨u, hu, ht⟩ := andThen_eq_ok e
      cases ht
      exact h.completeBurst c ch u (h.elements he c ch _ _ _ u (h.executing s c ch true hs) hu)

theorem StableBurst.executeDepth (h : StableBurst P) (n : Nat) : ∀ c ch s t, P s →
    Machine.executeDepth n c ch s = .ok t → P t := by
  induction n with
  | zero => intro c ch s t _ e; cases e
  | succ n ih =>
    intro c ch s t hs e
    exact h.executeBody (fun c ch s t hs _ e => ih c ch s t hs e) hs e

theorem StableBurst.execute (h : StableBurst P) : ExeKeeps P Machine.execute :=
  fun c ch s t hs _ e => h.executeDepth _ c ch s t hs e

theorem StableBurst.trigger (h : StableBurst P) {c : Cpu} {ev : Event} {s t : State} (hs : P s)
    (e : Machine.trigger c ev s = .ok t) : P t := by
  refine forEach_keeps _ (fun ch _ u v hu hv => ?_) s t hs e
  unfold triggerChannel at hv
  simp only at hv
  split at hv
  · exact h.executeDepth _ c ch u v hu hv
  · cases hv; exact hu

/-! ### Requests -/

/-- A request that can be refused. -/
theorem StableStep.finish (q : StableStep P) {s t : State} {r : Res} (hs : P s) (hr : ∀ u, r = .ok u → P u)
    (e : Machine.finish s r = .next t) : P t := by
  rcases finish_eq_next e with h | ⟨x, -, rfl⟩
  · exact hr t h
  · exact q.refuse s _ hs

theorem Stable.finishValue (h : Stable P) {x : Word × State} {t : State} (hs : P x.2)
    (e : Machine.finishValue x = .next t) : P t := by
  rw [finishValue_eq_next e]; exact h.answer _ _ hs

/-- An access of a register row keeps what its window accesses keep. -/
theorem StableBurst.regAccess (h : StableBurst P) (q : StableStep P) {c : Cpu} {o : Nat} {acc : RegAccess}
    {s t : State} (hs : P s) (hb : o < 0x1000000) (e : Machine.regAccess c o acc s = .next t) : P t := by
  cases acc with
  | read w => exact h.finishValue (h.ioRead _ _ _ s hs) e
  | write w v =>
    refine q.finish hs (fun u hu => h.ioWrite h.execute hs ?_ hu) e
    have h1 := alignOffset_le w o
    have h2 := alignOffset_mod w o
    rcases width_bytes_cases w with hw | hw | hw <;> rw [hw] at h2 ⊢ <;> omega

/-- The offset of a register row lies in the window. -/
theorem rowAccess_lt (i : Instr) (c : Cpu) (o : Nat) (acc : RegAccess) (h : rowAccess i = some (c, o, acc)) :
    o < 0x1000000 := by
  cases i <;> simp only [rowAccess, Option.some.injEq, Prod.mk.injEq, reduceCtorEq] at h
  all_goals
    obtain ⟨-, rfl, -⟩ := h
    first | decide | (rename_i j _; have := j.isLt; omega)

/-- A register row is an access of the window at its offset. -/
theorem exec_row (i : Instr) (c : Cpu) (o : Nat) (acc : RegAccess) (s : State)
    (h : rowAccess i = some (c, o, acc)) : exec i s = regAccess c o acc s := by
  cases i <;> simp only [rowAccess, Option.some.injEq, Prod.mk.injEq, reduceCtorEq] at h
  all_goals
    obtain ⟨rfl, rfl, rfl⟩ := h
    rfl

/-- A property every primitive change keeps is kept by every instruction. -/
theorem exec_keeps (h : StableBurst P) (q : StableStep P) (i : Instr) (s t : State) (hs : P s)
    (e : exec i s = .next t) : P t := by
  cases hr : rowAccess i with
  | some x =>
    obtain ⟨c, o, acc⟩ := x
    rw [exec_row i c o acc s hr] at e
    exact h.regAccess q hs (rowAccess_lt i c o acc hr) e
  | none =>
    cases i <;> simp only [rowAccess, reduceCtorEq] at hr
    case read8 c a => exact h.finishValue (h.memRead _ _ _ s hs) e
    case read16 c a => exact h.finishValue (h.memRead _ _ _ s hs) e
    case read32 c a => exact h.finishValue (h.memRead _ _ _ s hs) e
    case write8 c a v => exact q.finish hs (fun u hu => h.memWrite h.execute hs hu) e
    case write16 c a v => exact q.finish hs (fun u hu => h.memWrite h.execute hs hu) e
    case write32 c a v => exact q.finish hs (fun u hu => h.memWrite h.execute hs hu) e
    case tick c n => cases e; exact h.answer _ _ (h.tickLoop c _ _ s hs)
    case trigger c ev =>
      change execTrigger c ev s = _ at e
      unfold execTrigger at e
      split at e
      · exact q.finish hs (fun u hu => by cases hu) e
      · exact q.finish hs (fun u hu => h.trigger hs hu) e
    case raiseirq c b =>
      change execRaiseirq c b s = _ at e
      unfold execRaiseirq at e
      split at e
      · cases e; exact h.raiseIrq _ _ s hs
      · exact q.finish hs (fun u hu => by cases hu) e
    case settcw v => cases e; exact h.tcw s v hs
    case remap c i g m => exact q.finish hs (fun u hu => h.remap hs hu) e
    case mount size bytes =>
      change execMount size bytes s = _ at e
      unfold execMount at e
      split at e
      · next hc =>
        simp only [Bool.and_eq_true, decide_eq_true_eq] at hc
        cases e
        exact h.mount s size bytes hs hc.1 hc.2
      · exact q.finish hs (fun u hu => by cases hu) e
    case unmount => cases e; exact h.unmount s hs
    case load g o bs => exact q.finish hs (fun u hu => h.loadBytes hs hu) e
    case reset => cases e; exact h.reset s hs
    case wifiWindow j acc =>
      cases acc with
      | read w => exact h.finishValue (h.logDraw s _ hs) e
      | write w v => cases e; exact h.logCall s _ hs
    case onRegisterWrite c o w v => exact q.finish hs (fun u hu => h.onRegisterWrite h.execute hs hu) e
    case onRegisterRead c o w =>
      change execOnRegisterRead c o w s = _ at e
      unfold execOnRegisterRead at e
      split at e
      · exact h.finishValue (h.ioRead _ _ _ s hs) e
      · cases e; exact h.answer _ _ hs
    case programChannel c ch v => exact q.finish hs (fun u hu => h.programChannel h.execute hs hu) e
    case execute c ch => exact q.finish hs (fun u hu => h.executeDepth _ c ch s u hs hu) e
    case setReload c t v => cases e; exact h.setReload _ _ _ s hs
    case setControl c t v => cases e; exact h.setControl _ _ _ s hs
    case writeSync c v => cases e; exact h.writeSync _ _ s hs
    case fifoControl c v => cases e; exact h.fifoControl _ _ s hs
    case send c v => cases e; exact h.send _ _ s hs
    case recv c => exact h.finishValue (h.recv c s hs) e
    case setIME c v => cases e; exact h.setIME _ _ s hs
    case setIE c v => cases e; exact h.setIE _ _ s hs
    case setIF c m => cases e; exact h.setIF _ _ s hs
    case clearIF c m => cases e; exact h.clearIF _ _ s hs

/-- And by every step. -/
theorem step_keeps (h : StableBurst P) (q : StableStep P) (s t : State) (hs : P s) (e : step s = .next t) : P t := by
  unfold step at e
  split at e
  · cases e; exact hs
  · split at e
    · exact exec_keeps h q _ _ t (q.fetch s _ hs) e
    · cases e; exact q.refuse _ _ (q.fetch s _ hs)

end Sys2Proof.Machine
end

