-- ==== Sys2Proof/Laws/Mirror.lean ====
section
/-! SUPPORT. The mirrored registers (10_state.md R30), register by register: which writes of the raw block disturb one,
and which shared operations rewrite it. -/

namespace Sys2Proof.Machine

/-- The mirror of one register: its raw bytes are the encoding of its fields; nothing for a register that is not
mirrored. -/
def Mirrored (s : State) (c : Cpu) : LReg → Prop
  | .ime => s.raw c 0x208 4 = bitNat (s.side c).ime
  | .ie => s.raw c 0x210 4 = (s.side c).ie.toNat
  | .iflag => s.raw c 0x214 4 = (s.side c).iflag.toNat
  | .ipcSync => s.raw c 0x180 4 = encodeSync s c
  | .ipcFifoCnt => s.raw c 0x184 4 = encodeFifoCnt s c
  | .dmaSad ch => s.raw c (0x0B0 + 12 * ch.val) 4 = (s.chan c ch).sad.toNat
  | .dmaDad ch => s.raw c (0x0B4 + 12 * ch.val) 4 = (s.chan c ch).dad.toNat
  | .dmaCnt ch => s.raw c (0x0B8 + 12 * ch.val) 4 = (s.chan c ch).cnt.toNat
  | .tmCntH t => s.raw c (0x102 + 4 * t.val) 2 = encodeTimer (s.timer c t)
  | .auxSpiData => s.ioByte c 0x1A3 = 0
  | _ => True

/-- The mirror invariant but for a set of registers. -/
def MirrorExcept (E : Cpu → LReg → Prop) (s : State) : Prop :=
  ∀ c r, ¬ E c r → Mirrored s c r

theorem mirrorOk_iff (s : State) : MirrorOk s ↔ MirrorExcept (fun _ _ => False) s := by
  constructor
  · intro h c r _
    have := h c
    cases r <;> first | trivial | skip
    · exact this.sad _
    · exact this.dad _
    · exact this.cnt _
    · exact this.timer _
    · exact this.sync
    · exact this.fifoCnt
    · exact this.spi
    · exact this.ime
    · exact this.ie
    · exact this.iflag
  · intro h c
    exact ⟨h c .ime id, h c .ie id, h c .iflag id, h c .ipcSync id, h c .ipcFifoCnt id, fun ch => h c (.dmaSad ch) id,
      fun ch => h c (.dmaDad ch) id, fun ch => h c (.dmaCnt ch) id, fun t => h c (.tmCntH t) id,
      h c .auxSpiData id⟩

/-- Registers with a mirror. -/
def isMirrored : LReg → Bool
  | .ime | .ie | .iflag | .ipcSync | .ipcFifoCnt | .dmaSad _ | .dmaDad _ | .dmaCnt _ | .tmCntH _ | .auxSpiData => true
  | _ => false

theorem mirrored_of_not (s : State) (c : Cpu) (r : LReg) (h : isMirrored r = false) : Mirrored s c r := by
  cases r <;> trivial

/-- A mirror depends on the raw bytes of its register and on the two CPU parts. -/
theorem Mirrored.congr {s t : State} {c : Cpu} {r : LReg} (hs : ∀ d, t.side d = s.side d)
    (hb : ∀ i, i < r.size → t.ioByte c (r.offset + i) = s.ioByte c (r.offset + i)) (h : Mirrored s c r) :
    Mirrored t c r := by
  have hr : ∀ n, n ≤ r.size → t.raw c r.offset n = s.raw c r.offset n := fun n hn =>
    raw_congr s t c _ _ fun i hi => hb i (by omega)
  cases r <;> first | trivial | skip
  case dmaSad ch => simp only [Mirrored, State.chan, hs] at *; exact (hr 4 (by simp [LReg.size])).trans h
  case dmaDad ch => simp only [Mirrored, State.chan, hs] at *; exact (hr 4 (by simp [LReg.size])).trans h
  case dmaCnt ch => simp only [Mirrored, State.chan, hs] at *; exact (hr 4 (by simp [LReg.size])).trans h
  case tmCntH t => simp only [Mirrored, State.timer, hs] at *; exact (hr 2 (by simp [LReg.size])).trans h
  case auxSpiData => simp only [Mirrored] at *; exact (hb 1 (by simp [LReg.size])).trans h
  case ipcFifoCnt => simp only [Mirrored, encodeFifoCnt, hs] at *; exact (hr 4 (by simp [LReg.size])).trans h
  case ipcSync => simp only [Mirrored, encodeSync, hs] at *; exact (hr 4 (by simp [LReg.size])).trans h
  all_goals simp only [Mirrored, hs] at *; exact (hr 4 (by simp [LReg.size])).trans h

/-- The register map gives every byte of a mirrored register to it (41_io_dispatch.md R131). -/
theorem regAt_mirrored (c : Cpu) (r : LReg) (h : isMirrored r = true) (i : Nat) (hi : i < r.size) :
    regAt c (r.offset + i) = some r := by
  cases r <;> simp only [isMirrored, reduceCtorEq] at h <;> simp only [LReg.size] at hi <;>
    simp only [LReg.offset]
  case dmaSad ch =>
    revert i; revert ch; cases c <;> decide
  case dmaDad ch =>
    revert i; revert ch; cases c <;> decide
  case dmaCnt ch =>
    revert i; revert ch; cases c <;> decide
  case tmCntH t =>
    revert i; revert t; cases c <;> decide
  all_goals revert i; cases c <;> decide

/-! ### Writes of the raw block -/

/-- A byte write changes no mirror but that of a register it touches. -/
theorem Mirrored.store {s : State} {c d : Cpu} {o n v : Nat} {r : LReg} (hb : o + n ≤ 0x1000000)
    (hd : d = c → ∀ i, i < n → regAt c (o + i) ≠ some r) (h : Mirrored s d r) : Mirrored (s.setRaw c o n v) d r := by
  by_cases hm : isMirrored r = true
  · refine Mirrored.congr (fun _ => setRaw_side _ _ _ _ _ _) (fun i hi => ?_) h
    by_cases e : d = c
    · subst e
      rw [ioByte_setRaw, if_neg]
      intro ⟨h1, h2⟩
      refine hd rfl (r.offset + i - o) (by omega) ?_
      rw [show o + (r.offset + i - o) = r.offset + i by omega]
      exact regAt_mirrored d r hm i hi
    · refine ioByte_setRaw_other s c d o n v _ e (by omega) ?_
      have := lreg_bound r
      omega
  · exact mirrored_of_not _ _ _ (by simpa using hm)

/-- A write into the bytes of one register changes no other register's mirror. -/
theorem Mirrored.store_reg {s : State} {c d : Cpu} {o n v : Nat} {r q : LReg} (hq : isMirrored q = true)
    (ho : q.offset ≤ o) (hn : o + n ≤ q.offset + q.size) (hne : ¬ (d = c ∧ r = q)) (h : Mirrored s d r) :
    Mirrored (s.setRaw c o n v) d r := by
  refine h.store (by have := lreg_bound q; omega) fun e i hi hr => hne ⟨e, ?_⟩
  have := regAt_mirrored c q hq (o + i - q.offset) (by omega)
  rw [show q.offset + (o + i - q.offset) = o + i by omega, hr] at this
  exact Option.some.inj this

/-- The verbatim store of a window write disturbs the mirrors it touches only (41_io_dispatch.md R133). -/
theorem MirrorExcept.stored {E : Cpu → LReg → Prop} {s : State} {c : Cpu} {o : Nat} {w : Width} {v : Nat}
    (hb : o + w.bytes ≤ 0x1000000) (h : MirrorExcept E s) :
    MirrorExcept (fun d r => E d r ∨ (d = c ∧ r ∈ touched c w o)) (s.setRaw c o w.bytes v) := by
  intro d r hE
  refine (h d r fun x => hE (.inl x)).store hb fun e i hi hr => hE (.inr ⟨e, touched_of_regAt c w o i r hi hr⟩)

theorem MirrorExcept.mono {E F : Cpu → LReg → Prop} {s : State} (h : MirrorExcept E s) (hEF : ∀ c r, E c r → F c r) :
    MirrorExcept F s := fun c r hF => h c r fun x => hF (hEF c r x)

/-- A change that keeps the memory disturbs the mirrors whose fields it changes only. -/
theorem MirrorExcept.fields {E X : Cpu → LReg → Prop} {s t : State} (hm : t.mem = s.mem)
    (hf : ∀ d, (¬ X d .ime → (t.side d).ime = (s.side d).ime) ∧ (¬ X d .ie → (t.side d).ie = (s.side d).ie) ∧
      (¬ X d .iflag → (t.side d).iflag = (s.side d).iflag) ∧
      (¬ X d .ipcSync → (t.side d).syncOut = (s.side d).syncOut ∧
        (t.side d.other).syncOut = (s.side d.other).syncOut ∧ (t.side d).syncIrqEn = (s.side d).syncIrqEn) ∧
      (¬ X d .ipcFifoCnt → (t.side d).fifo = (s.side d).fifo ∧ (t.side d.other).fifo = (s.side d.other).fifo ∧
        (t.side d).sendEmptyIrqEn = (s.side d).sendEmptyIrqEn ∧
        (t.side d).recvNotEmptyIrqEn = (s.side d).recvNotEmptyIrqEn ∧
        (t.side d).fifoEnable = (s.side d).fifoEnable))
    (hd : ∀ d ch, (¬ X d (.dmaSad ch) → (t.chan d ch).sad = (s.chan d ch).sad) ∧
      (¬ X d (.dmaDad ch) → (t.chan d ch).dad = (s.chan d ch).dad) ∧
      (¬ X d (.dmaCnt ch) → (t.chan d ch).cnt = (s.chan d ch).cnt))
    (ht : ∀ d k, ¬ X d (.tmCntH k) → encodeTimer (t.timer d k) = encodeTimer (s.timer d k))
    (h : MirrorExcept E s) : MirrorExcept (fun d r => E d r ∨ X d r) t := by
  intro c r hE
  have hX : ¬ X c r := fun x => hE (.inr x)
  have h1 := h c r fun x => hE (.inl x)
  obtain ⟨a1, a2, a3, a4, a5⟩ := hf c
  cases r <;> first | trivial | skip
  case dmaSad ch => simp only [Mirrored, raw_of_mem s t hm, (hd c ch).1 hX] at *; exact h1
  case dmaDad ch => simp only [Mirrored, raw_of_mem s t hm, (hd c ch).2.1 hX] at *; exact h1
  case dmaCnt ch => simp only [Mirrored, raw_of_mem s t hm, (hd c ch).2.2 hX] at *; exact h1
  case tmCntH k => simp only [Mirrored, raw_of_mem s t hm, ht c k hX] at *; exact h1
  case auxSpiData => simp only [Mirrored, State.ioByte, byte_of_mem s t hm] at *; exact h1
  case ipcFifoCnt =>
    obtain ⟨b1, b2, b3, b4, b5⟩ := a5 hX
    simp only [Mirrored, encodeFifoCnt, raw_of_mem s t hm, b1, b2, b3, b4, b5] at *; exact h1
  case ipcSync =>
    obtain ⟨b1, b2, b3⟩ := a4 hX
    simp only [Mirrored, encodeSync, raw_of_mem s t hm, b1, b2, b3] at *; exact h1
  case ime => simp only [Mirrored, raw_of_mem s t hm, a1 hX] at *; exact h1
  case ie => simp only [Mirrored, raw_of_mem s t hm, a2 hX] at *; exact h1
  case iflag => simp only [Mirrored, raw_of_mem s t hm, a3 hX] at *; exact h1

/-- Rewriting the raw bytes of one register with its encoding restores its mirror (41_io_dispatch.md R138). -/
theorem MirrorExcept.rewrite {E F : Cpu → LReg → Prop} {s : State} {c : Cpu} {o n v : Nat} {q : LReg}
    (hq : isMirrored q = true) (ho : q.offset ≤ o) (hn : o + n ≤ q.offset + q.size) (h : MirrorExcept E s)
    (hEF : ∀ d r, ¬ F d r → ¬ (d = c ∧ r = q) → ¬ E d r) (hv : Mirrored (s.setRaw c o n v) c q) :
    MirrorExcept F (s.setRaw c o n v) := by
  intro d r hF
  by_cases e : d = c ∧ r = q
  · obtain ⟨rfl, rfl⟩ := e; exact hv
  · exact (h d r (hEF d r hF e)).store_reg hq ho hn e

/-- The set without one register. -/
def without (E : Cpu → LReg → Prop) (c : Cpu) (q : LReg) : Cpu → LReg → Prop := fun d r => E d r ∧ ¬ (d = c ∧ r = q)

theorem modSide_field {α : Type} (g : CpuSide → α) (s : State) (c d : Cpu) (f : CpuSide → CpuSide)
    (h : g (f (s.side c)) = g (s.side c)) : g ((s.modSide c f).side d) = g (s.side d) := by
  rw [modSide_side_eq]
  split
  · next e => rw [e, h]
  · rfl

theorem modSide_chan_of (s : State) (c d : Cpu) (ch : Fin 4) (f : CpuSide → CpuSide)
    (h : (f (s.side c)).dma = (s.side c).dma) : (s.modSide c f).chan d ch = s.chan d ch := by
  rw [State.chan, State.chan, modSide_field (·.dma) s c d f h]

theorem modSide_timer_of (s : State) (c d : Cpu) (k : Fin 4) (f : CpuSide → CpuSide)
    (h : (f (s.side c)).tmr = (s.side c).tmr) : (s.modSide c f).timer d k = s.timer d k := by
  rw [State.timer, State.timer, modSide_field (·.tmr) s c d f h]

/-! ### The latch -/

/-- A latch change disturbs the mirrors of the fields it changes. -/
theorem MirrorExcept.latch {E X : Cpu → LReg → Prop} {s : State} (c : Cpu) (ime : CpuSide → Bool)
    (ie iflag : CpuSide → Word) (h : MirrorExcept E s) (h1 : X c .ime ∨ ime = (·.ime)) (h2 : X c .ie ∨ ie = (·.ie))
    (h3 : X c .iflag ∨ iflag = (·.iflag)) :
    MirrorExcept (fun d r => E d r ∨ X d r)
      (s.modSide c fun p => CpuSide.updatePending { p with ime := ime p, ie := ie p, iflag := iflag p }) := by
  refine h.fields (modSide_mem _ _ _) (fun d => ⟨?_, ?_, ?_, ?_, ?_⟩) (fun d ch => ?_) fun d k _ => ?_
  · intro hx
    rw [modSide_side_eq]
    split
    · next e =>
      subst e
      rcases h1 with h1 | h1
      · exact absurd h1 hx
      · rw [h1]; rfl
    · rfl
  · intro hx
    rw [modSide_side_eq]
    split
    · next e =>
      subst e
      rcases h2 with h1 | h1
      · exact absurd h1 hx
      · rw [h1]; rfl
    · rfl
  · intro hx
    rw [modSide_side_eq]
    split
    · next e =>
      subst e
      rcases h3 with h1 | h1
      · exact absurd h1 hx
      · rw [h1]; rfl
    · rfl
  · intro _
    exact ⟨modSide_field (·.syncOut) s c d _ rfl, modSide_field (·.syncOut) s c _ _ rfl,
      modSide_field (·.syncIrqEn) s c d _ rfl⟩
  · intro _
    exact ⟨modSide_field (·.fifo) s c d _ rfl, modSide_field (·.fifo) s c _ _ rfl,
      modSide_field (·.sendEmptyIrqEn) s c d _ rfl, modSide_field (·.recvNotEmptyIrqEn) s c d _ rfl,
      modSide_field (·.fifoEnable) s c d _ rfl⟩
  · rw [modSide_chan_of s c d ch _ rfl]
    exact ⟨fun _ => rfl, fun _ => rfl, fun _ => rfl⟩
  · rw [modSide_timer_of s c d k _ rfl]

theorem bitNat_lt (b : Bool) : bitNat b < 2 := by cases b <;> decide

theorem MirrorExcept.iflag {E : Cpu → LReg → Prop} {s : State} (c : Cpu) (f : CpuSide → Word) (h : MirrorExcept E s) :
    MirrorExcept (without E c .iflag)
      (mirrorIF c (s.modSide c fun p => CpuSide.updatePending { p with iflag := f p })) := by
  have h1 := h.latch (X := fun d r => d = c ∧ r = .iflag) c (·.ime) (·.ie) f (.inr rfl) (.inr rfl) (.inl ⟨rfl, rfl⟩)
  refine h1.rewrite (q := .iflag) rfl (by decide) (by decide) ?_ ?_
  · rintro d r hF hne (hE | hE)
    · exact hF ⟨hE, hne⟩
    · exact hne hE
  · rw [Mirrored, setRaw_side]
    change (State.setRaw _ _ 0x214 _ _).raw _ _ _ = _
    rw [raw_setRaw_same]
    exact Nat.mod_eq_of_lt (BitVec.isLt _)

theorem MirrorExcept.setIF {E : Cpu → LReg → Prop} {s : State} (c : Cpu) (m : Word) (h : MirrorExcept E s) :
    MirrorExcept (without E c .iflag) (setIF c m s) := h.iflag c fun p => p.iflag ||| m

theorem MirrorExcept.clearIF {E : Cpu → LReg → Prop} {s : State} (c : Cpu) (m : Word) (h : MirrorExcept E s) :
    MirrorExcept (without E c .iflag) (clearIF c m s) := h.iflag c fun p => p.iflag &&& ~~~ m

theorem MirrorExcept.raiseIf {E : Cpu → LReg → Prop} {s : State} (k : Bool) (c : Cpu) (b : Nat)
    (h : MirrorExcept E s) : MirrorExcept E (raiseIf k c b s) := by
  unfold Machine.raiseIf
  split
  · exact (h.setIF c _).mono fun _ _ x => x.1
  · exact h

theorem MirrorExcept.setIME {E : Cpu → LReg → Prop} {s : State} (c : Cpu) (v : Word) (h : MirrorExcept E s) :
    MirrorExcept (without E c .ime) (setIME c v s) := by
  have h1 := h.latch (X := fun d r => d = c ∧ r = .ime) c (fun _ => bitAt v 0) (·.ie) (·.iflag) (.inl ⟨rfl, rfl⟩)
    (.inr rfl) (.inr rfl)
  refine h1.rewrite (q := .ime) rfl (by decide) (by decide) ?_ ?_
  · rintro d r hF hne (hE | hE)
    · exact hF ⟨hE, hne⟩
    · exact hne hE
  · rw [Mirrored, setRaw_side]
    change (State.setRaw _ _ 0x208 _ _).raw _ _ _ = _
    rw [raw_setRaw_same]
    refine Nat.mod_eq_of_lt (lt_trans (bitNat_lt _) (by decide))

theorem MirrorExcept.setIE {E : Cpu → LReg → Prop} {s : State} (c : Cpu) (v : Word) (h : MirrorExcept E s) :
    MirrorExcept (without E c .ie) (setIE c v s) := by
  have h1 := h.latch (X := fun d r => d = c ∧ r = .ie) c (·.ime) (fun _ => v) (·.iflag) (.inr rfl)
    (.inl ⟨rfl, rfl⟩) (.inr rfl)
  refine h1.rewrite (q := .ie) rfl (by decide) (by decide) ?_ ?_
  · rintro d r hF hne (hE | hE)
    · exact hF ⟨hE, hne⟩
    · exact hne hE
  · rw [Mirrored, setRaw_side]
    change (State.setRaw _ _ 0x210 _ _).raw _ _ _ = _
    rw [raw_setRaw_same]
    exact Nat.mod_eq_of_lt (BitVec.isLt _)

/-! ### Timers -/

/-- The raw control word of a timer after a control write is the masked value (43_timers.md R212). -/
theorem encodeTimer_control (m : Timer) (t : Fin 4) (v : Half) :
    encodeTimer (m.withControl (v &&& tmMask t)) = (v &&& tmMask t).toNat := by
  have key : ∀ y : BitVec 8, ∀ k : Bool,
      let x := (y.setWidth 16 &&& if k then 0xC3#16 else 0xC7#16)
      (x.extractLsb' 0 2).toNat + 2 ^ 2 * bitNat (x.getLsbD 2) + 2 ^ 6 * bitNat (x.getLsbD 6)
        + 2 ^ 7 * bitNat (x.getLsbD 7) = x.toNat := by decide
  have hv : v &&& tmMask t = (v.setWidth 8).setWidth 16 &&& if decide (t = 0) then 0xC3#16 else 0xC7#16 := by
    apply BitVec.eq_of_toNat_eq
    have e : ∀ a : Nat, a < 256 → v.toNat &&& a = v.toNat % 256 &&& a := fun a ha => by
      have h1 := Nat.and_mod_two_pow (a := v.toNat) (b := a) (n := 8)
      rw [Nat.mod_eq_of_lt (lt_of_le_of_lt Nat.and_le_right (by simpa using ha))] at h1
      rw [h1, Nat.mod_eq_of_lt (a := a) (by simpa using ha)]
    by_cases h : t = 0
    · simp only [tmMask, h, if_true, decide_true, BitVec.toNat_and, BitVec.toNat_setWidth, BitVec.toNat_ofNat]
      rw [e _ (by decide)]
      congr 1
      omega
    · simp only [tmMask, h, if_false, decide_false, BitVec.toNat_and, BitVec.toNat_setWidth]
      rw [e _ (by decide)]
      congr 1
      omega
  have h2 := key (v.setWidth 8) (decide (t = 0))
  simp only at h2
  rw [← hv] at h2
  rw [← h2]
  simp only [Timer.withControl, encodeTimer]
  split <;> rfl

theorem encodeTimer_cycle (m : Timer) (t : Fin 4) (k : Bool) : encodeTimer (m.cycle t k).2 = encodeTimer m := by
  simp only [Timer.cycle]
  split
  · rfl
  · split <;> rfl

theorem MirrorExcept.modTimer {E X : Cpu → LReg → Prop} {s : State} (c : Cpu) (t : Fin 4) (f : Timer → Timer)
    (h : MirrorExcept E s) (hx : X c (.tmCntH t) ∨ encodeTimer (f (s.timer c t)) = encodeTimer (s.timer c t)) :
    MirrorExcept (fun d r => E d r ∨ X d r) (s.modTimer c t f) := by
  refine h.fields (modTimer_mem _ _ _ _) (fun d => ?_) (fun d ch => ?_) fun d k hk => ?_
  · simp
  · simp
  · rw [modTimer_timer]
    split
    · next e =>
      obtain ⟨rfl, rfl⟩ := e
      exact hx.resolve_left hk
    · rfl

theorem MirrorExcept.setReload {E : Cpu → LReg → Prop} {s : State} (c : Cpu) (t : Fin 4) (v : Half)
    (h : MirrorExcept E s) : MirrorExcept E (setReload c t v s) :=
  (h.modTimer (X := fun _ _ => False) c t _ (.inr rfl)).mono fun _ _ x => x.resolve_right id

theorem MirrorExcept.setControl {E : Cpu → LReg → Prop} {s : State} (c : Cpu) (t : Fin 4) (v : Half)
    (h : MirrorExcept E s) : MirrorExcept (without E c (.tmCntH t)) (setControl c t v s) := by
  have h1 := h.modTimer (X := fun d r => d = c ∧ r = .tmCntH t) c t (fun m => m.withControl (v &&& tmMask t))
    (.inl ⟨rfl, rfl⟩)
  refine h1.rewrite (q := .tmCntH t) rfl (by simp [LReg.offset, tmHOffset]) (by simp [LReg.offset, tmHOffset, LReg.size])
    ?_ ?_
  · rintro d r hF hne (hE | hE)
    · exact hF ⟨hE, hne⟩
    · exact hne hE
  · rw [Mirrored, setRaw_timer, modTimer_timer_same, encodeTimer_control]
    change (State.setRaw _ _ (0x102 + 4 * t.val) _ _).raw _ _ _ = _
    rw [raw_setRaw_same]
    exact Nat.mod_eq_of_lt (BitVec.isLt _)

theorem MirrorExcept.tickTimer {E : Cpu → LReg → Prop} {s : State} (c : Cpu) (t : Fin 4) (k : Bool)
    (h : MirrorExcept E s) : MirrorExcept E (tickTimer c t k s).2 :=
  MirrorExcept.raiseIf _ _ _ ((h.modTimer (X := fun _ _ => False) c t _ (.inr (encodeTimer_cycle _ _ _))).mono
    fun _ _ x => x.resolve_right id)

theorem MirrorExcept.tickLoop {E : Cpu → LReg → Prop} (c : Cpu) (n : Nat) : ∀ o s, MirrorExcept E s →
    MirrorExcept E (tickLoop c n o s).2 := by
  induction n with
  | zero => intro o s h; exact h
  | succ n ih =>
    intro o s h
    exact ih _ _ ((((h.tickTimer _ _ _).tickTimer _ _ _).tickTimer _ _ _).tickTimer _ _ _)

/-! ### The inter-processor channel -/

theorem encodeSync_lt (s : State) (c : Cpu) : encodeSync s c < 256 ^ 4 := by
  have h1 := (s.side c.other).syncOut.isLt
  have h2 := (s.side c).syncOut.isLt
  have h3 := bitNat_lt (s.side c).syncIrqEn
  simp only [encodeSync]
  omega

theorem encodeFifoCnt_lt (s : State) (c : Cpu) : encodeFifoCnt s c < 256 ^ 4 := by
  have h := bitNat_lt
  have h1 := h (fifoEmpty (s.side c.other).fifo)
  have h2 := h (fifoFull (s.side c.other).fifo)
  have h3 := h (s.side c).sendEmptyIrqEn
  have h4 := h (fifoEmpty (s.side c).fifo)
  have h5 := h (fifoFull (s.side c).fifo)
  have h6 := h (s.side c).recvNotEmptyIrqEn
  have h7 := h (s.side c).fifoEnable
  simp only [encodeFifoCnt]
  omega

theorem MirrorExcept.mirrorSync {E : Cpu → LReg → Prop} {s : State} (c : Cpu) (h : MirrorExcept E s) :
    MirrorExcept (without E c .ipcSync) (mirrorSync c s) := by
  refine h.rewrite (q := .ipcSync) rfl (by decide) (by decide) ?_ ?_
  · intro d r hF hne hE
    exact hF ⟨hE, hne⟩
  · rw [Mirrored]
    change (State.setRaw _ _ 0x180 _ _).raw _ _ _ = _
    rw [raw_setRaw_same, Nat.mod_eq_of_lt (encodeSync_lt s c)]
    simp only [encodeSync, setRaw_side]

theorem MirrorExcept.mirrorFifoCnt {E : Cpu → LReg → Prop} {s : State} (c : Cpu) (h : MirrorExcept E s) :
    MirrorExcept (without E c .ipcFifoCnt) (mirrorFifoCnt c s) := by
  refine h.rewrite (q := .ipcFifoCnt) rfl (by decide) (by decide) ?_ ?_
  · intro d r hF hne hE
    exact hF ⟨hE, hne⟩
  · rw [Mirrored]
    change (State.setRaw _ _ 0x184 _ _).raw _ _ _ = _
    rw [raw_setRaw_same, Nat.mod_eq_of_lt (encodeFifoCnt_lt s c)]
    simp only [encodeFifoCnt, setRaw_side]

theorem MirrorExcept.writeSync {E : Cpu → LReg → Prop} {s : State} (c : Cpu) (v : Word) (h : MirrorExcept E s) :
    MirrorExcept (without E c .ipcSync) (writeSync c v s) := by
  have h1 : MirrorExcept (fun d r => E d r ∨ r = .ipcSync)
      (s.modSide c fun p => { p with syncOut := v.extractLsb' 8 4, syncIrqEn := bitAt v 14 }) := by
    refine h.fields (X := fun _ r => r = .ipcSync) (modSide_mem _ _ _) (fun d => ⟨?_, ?_, ?_, ?_, ?_⟩)
      (fun d ch => ?_) fun d k _ => ?_
    · exact fun _ => modSide_field (·.ime) s c d _ rfl
    · exact fun _ => modSide_field (·.ie) s c d _ rfl
    · exact fun _ => modSide_field (·.iflag) s c d _ rfl
    · exact fun hx => absurd rfl hx
    · intro _
      exact ⟨modSide_field (·.fifo) s c d _ rfl, modSide_field (·.fifo) s c _ _ rfl,
        modSide_field (·.sendEmptyIrqEn) s c d _ rfl, modSide_field (·.recvNotEmptyIrqEn) s c d _ rfl,
        modSide_field (·.fifoEnable) s c d _ rfl⟩
    · rw [modSide_chan_of s c d ch _ rfl]
      exact ⟨fun _ => rfl, fun _ => rfl, fun _ => rfl⟩
    · rw [modSide_timer_of s c d k _ rfl]
  refine (((h1.raiseIf _ _ _).mirrorSync c).mirrorSync c.other).mono ?_
  rintro d r ⟨⟨hE | hr, h2⟩, h3⟩
  · exact ⟨hE, h2⟩
  · rcases eq_or_other c d with rfl | rfl
    · exact absurd ⟨rfl, hr⟩ h2
    · exact absurd ⟨rfl, hr⟩ h3

/-- A change of the FIFO fields disturbs the mirrors of IPCFIFOCNT only. -/
theorem MirrorExcept.fifoFields {E : Cpu → LReg → Prop} {s : State} (c : Cpu) (f : CpuSide → CpuSide)
    (h : MirrorExcept E s) (hf : ∀ p, (f p).ime = p.ime ∧ (f p).ie = p.ie ∧ (f p).iflag = p.iflag ∧
      (f p).syncOut = p.syncOut ∧ (f p).syncIrqEn = p.syncIrqEn ∧ (f p).dma = p.dma ∧ (f p).tmr = p.tmr) :
    MirrorExcept (fun d r => E d r ∨ r = .ipcFifoCnt) (s.modSide c f) := by
  obtain ⟨a1, a2, a3, a4, a5, a6, a7⟩ := hf (s.side c)
  refine h.fields (X := fun _ r => r = .ipcFifoCnt) (modSide_mem _ _ _) (fun d => ⟨?_, ?_, ?_, ?_, ?_⟩)
    (fun d ch => ?_) fun d k _ => ?_
  · exact fun _ => modSide_field (·.ime) s c d _ a1
  · exact fun _ => modSide_field (·.ie) s c d _ a2
  · exact fun _ => modSide_field (·.iflag) s c d _ a3
  · exact fun _ => ⟨modSide_field (·.syncOut) s c d _ a4, modSide_field (·.syncOut) s c _ _ a4,
      modSide_field (·.syncIrqEn) s c d _ a5⟩
  · exact fun hx => absurd rfl hx
  · rw [modSide_chan_of s c d ch _ a6]
    exact ⟨fun _ => rfl, fun _ => rfl, fun _ => rfl⟩
  · rw [modSide_timer_of s c d k _ a7]

theorem MirrorExcept.fifoSettle {E : Cpu → LReg → Prop} {s : State} (b : FifoConditions)
    (h : MirrorExcept (fun d r => E d r ∨ r = .ipcFifoCnt) s) :
    MirrorExcept (fun d r => E d r ∧ r ≠ .ipcFifoCnt) (fifoSettle b s) := by
  refine (((((h.raiseIf _ _ _).raiseIf _ _ _).raiseIf _ _ _).raiseIf _ _ _).mirrorFifoCnt .c0
    |>.mirrorFifoCnt .c1).mono ?_
  rintro d r ⟨⟨h1, h2⟩, h3⟩
  have hr : r ≠ .ipcFifoCnt := fun e => by cases d
                                           · exact h2 ⟨rfl, e⟩
                                           · exact h3 ⟨rfl, e⟩
  exact ⟨h1.resolve_right hr, hr⟩

theorem MirrorExcept.again {E : Cpu → LReg → Prop} {s : State} {q : LReg}
    (h : MirrorExcept (fun d r => (E d r ∨ r = q) ∨ r = q) s) : MirrorExcept (fun d r => E d r ∨ r = q) s :=
  h.mono fun _ _ x => x.elim id .inr

theorem MirrorExcept.setFifo {E : Cpu → LReg → Prop} {s : State} (c : Cpu) (q : List Word) (h : MirrorExcept E s) :
    MirrorExcept (fun d r => E d r ∨ r = .ipcFifoCnt) (setFifo c q s) :=
  h.fifoFields c _ fun _ => ⟨rfl, rfl, rfl, rfl, rfl, rfl, rfl⟩

theorem MirrorExcept.fifoControl {E : Cpu → LReg → Prop} {s : State} (c : Cpu) (v : Word) (h : MirrorExcept E s) :
    MirrorExcept (fun d r => E d r ∧ r ≠ .ipcFifoCnt) (fifoControl c v s) := by
  have h1 := h.fifoFields c (fun p => { p with
    sendEmptyIrqEn := bitAt v 2, recvNotEmptyIrqEn := bitAt v 10, fifoEnable := bitAt v 15 })
    fun _ => ⟨rfl, rfl, rfl, rfl, rfl, rfl, rfl⟩
  have h2 : ∀ u k, MirrorExcept (fun d r => E d r ∨ r = .ipcFifoCnt) u →
      MirrorExcept (fun d r => E d r ∨ r = .ipcFifoCnt) (Machine.setFifo k [] u) :=
    fun u k hu => (hu.setFifo k []).again
  have h3 : ∀ (b : Bool) u k, MirrorExcept (fun d r => E d r ∨ r = .ipcFifoCnt) u →
      MirrorExcept (fun d r => E d r ∨ r = .ipcFifoCnt) (if b then Machine.setFifo k [] u else u) := by
    intro b u k hu
    cases b
    · exact hu
    · exact h2 u k hu
  have h4 : ∀ (b : Bool) u, MirrorExcept (fun d r => E d r ∨ r = .ipcFifoCnt) u →
      MirrorExcept (fun d r => E d r ∨ r = .ipcFifoCnt)
        (if b then Machine.setFifo .c1 [] (Machine.setFifo .c0 [] u) else u) := by
    intro b u hu
    cases b
    · exact hu
    · exact h2 _ _ (h2 _ _ hu)
  exact (h4 _ _ (h3 _ _ _ h1)).fifoSettle _

theorem MirrorExcept.send {E : Cpu → LReg → Prop} {s : State} (c : Cpu) (v : Word) (h : MirrorExcept E s) :
    MirrorExcept (fun d r => E d r ∧ r ≠ .ipcFifoCnt) (send c v s) := by
  apply MirrorExcept.fifoSettle
  split
  · exact h.mono fun _ _ => .inl
  · exact h.setFifo _ _

theorem MirrorExcept.recv {E : Cpu → LReg → Prop} {s : State} (c : Cpu) (h : MirrorExcept E s) :
    MirrorExcept E (recv c s).2 := by
  rw [Machine.recv]
  split
  · exact h
  · next v q _ =>
    have h1 := h.fifoFields c (fun p => { p with fifo := q, lastRecv := v })
      fun _ => ⟨rfl, rfl, rfl, rfl, rfl, rfl, rfl⟩
    exact (h1.fifoSettle _).mono fun _ _ x => x.1

/-! ### Channels -/

theorem MirrorExcept.modChan {E X : Cpu → LReg → Prop} {s : State} (c : Cpu) (ch : Fin 4) (f : Channel → Channel)
    (h : MirrorExcept E s) (h1 : X c (.dmaSad ch) ∨ (f (s.chan c ch)).sad = (s.chan c ch).sad)
    (h2 : X c (.dmaDad ch) ∨ (f (s.chan c ch)).dad = (s.chan c ch).dad)
    (h3 : X c (.dmaCnt ch) ∨ (f (s.chan c ch)).cnt = (s.chan c ch).cnt) :
    MirrorExcept (fun d r => E d r ∨ X d r) (s.modChan c ch f) := by
  refine h.fields (modChan_mem _ _ _ _) (fun d => ?_) (fun d k => ?_) fun d k _ => ?_
  · simp
  · rw [modChan_chan]
    split
    · next e =>
      obtain ⟨rfl, rfl⟩ := e
      exact ⟨fun x => h1.resolve_left x, fun x => h2.resolve_left x, fun x => h3.resolve_left x⟩
    · exact ⟨fun _ => rfl, fun _ => rfl, fun _ => rfl⟩
  · simp

/-- A channel change that keeps the programmed words keeps the mirrors. -/
theorem MirrorExcept.modChan_same {E : Cpu → LReg → Prop} {s : State} (c : Cpu) (ch : Fin 4) (f : Channel → Channel)
    (h : MirrorExcept E s) (hf : (f (s.chan c ch)).sad = (s.chan c ch).sad ∧
      (f (s.chan c ch)).dad = (s.chan c ch).dad ∧ (f (s.chan c ch)).cnt = (s.chan c ch).cnt) :
    MirrorExcept E (s.modChan c ch f) :=
  (h.modChan (X := fun _ _ => False) c ch f (.inr hf.1) (.inr hf.2.1) (.inr hf.2.2)).mono
    fun _ _ x => x.resolve_right id

theorem MirrorExcept.writeSad {E : Cpu → LReg → Prop} {s : State} (c : Cpu) (ch : Fin 4) (v : Word)
    (h : MirrorExcept E s) : MirrorExcept (without E c (.dmaSad ch)) (writeSad c ch v s) := by
  have h1 := h.modChan (X := fun d r => d = c ∧ r = .dmaSad ch) c ch (fun d => { d with sad := v &&& sadMask c ch })
    (.inl ⟨rfl, rfl⟩) (.inr rfl) (.inr rfl)
  refine h1.rewrite (q := .dmaSad ch) rfl (by simp [LReg.offset]) (by simp [LReg.offset, LReg.size]) ?_ ?_
  · rintro d r hF hne (hE | hE)
    · exact hF ⟨hE, hne⟩
    · exact hne hE
  · rw [Mirrored, setRaw_chan, modChan_chan_same]
    change (State.setRaw _ _ (0x0B0 + 12 * ch.val) _ _).raw _ _ _ = _
    rw [raw_setRaw_same]
    exact Nat.mod_eq_of_lt (BitVec.isLt _)

theorem MirrorExcept.writeDad {E : Cpu → LReg → Prop} {s : State} (c : Cpu) (ch : Fin 4) (v : Word)
    (h : MirrorExcept E s) : MirrorExcept (without E c (.dmaDad ch)) (writeDad c ch v s) := by
  have h1 := h.modChan (X := fun d r => d = c ∧ r = .dmaDad ch) c ch (fun d => { d with dad := v &&& dadMask c ch })
    (.inr rfl) (.inl ⟨rfl, rfl⟩) (.inr rfl)
  refine h1.rewrite (q := .dmaDad ch) rfl (by simp [LReg.offset]) (by simp [LReg.offset, LReg.size]) ?_ ?_
  · rintro d r hF hne (hE | hE)
    · exact hF ⟨hE, hne⟩
    · exact hne hE
  · rw [Mirrored, setRaw_chan, modChan_chan_same]
    change (State.setRaw _ _ (0x0B4 + 12 * ch.val) _ _).raw _ _ _ = _
    rw [raw_setRaw_same]
    exact Nat.mod_eq_of_lt (BitVec.isLt _)

/-- Rewriting the raw DMAnCNT restores its mirror. -/
theorem MirrorExcept.mirrorCnt {E F : Cpu → LReg → Prop} {s : State} (c : Cpu) (ch : Fin 4) (h : MirrorExcept E s)
    (hEF : ∀ d r, E d r → F d r ∨ (d = c ∧ r = .dmaCnt ch)) :
    MirrorExcept (without F c (.dmaCnt ch)) (mirrorCnt c ch s) := by
  refine h.rewrite (q := .dmaCnt ch) rfl (by simp [LReg.offset]) (by simp [LReg.offset, LReg.size]) ?_ ?_
  · intro d r hF hne hE
    exact hF ⟨(hEF d r hE).resolve_right hne, hne⟩
  · rw [Mirrored, setRaw_chan]
    change (State.setRaw _ _ (0x0B8 + 12 * ch.val) _ _).raw _ _ _ = _
    rw [raw_setRaw_same]
    exact Nat.mod_eq_of_lt (BitVec.isLt _)

theorem MirrorExcept.stopChannel {E : Cpu → LReg → Prop} {s : State} (c : Cpu) (ch : Fin 4) (h : MirrorExcept E s) :
    MirrorExcept E (stopChannel c ch s) := by
  have h1 := h.modChan (X := fun d r => d = c ∧ r = .dmaCnt ch) c ch Channel.stop (.inr rfl) (.inr rfl)
    (.inl ⟨rfl, rfl⟩)
  exact (h1.mirrorCnt c ch fun _ _ x => x).mono fun _ _ x => x.1

theorem MirrorExcept.completeBurst {E : Cpu → LReg → Prop} {s : State} (c : Cpu) (ch : Fin 4)
    (h : MirrorExcept E s) : MirrorExcept E (completeBurst c ch s) := by
  apply MirrorExcept.raiseIf
  have h1 := h.modChan_same c ch (fun d => { d with executing := false }) ⟨rfl, rfl, rfl⟩
  split
  · exact h1.modChan_same c ch _ ⟨rfl, rfl, rfl⟩
  · exact h1.stopChannel c ch

/-- Programming a channel restores the mirror of its control word, whatever it was (42_dma.md R184); the burst it may
start keeps the mirrors it finds. -/
theorem MirrorExcept.programChannel {E : Cpu → LReg → Prop} {exe : Exe} {Q : State → Prop}
    (hQ : ∀ s c ch v, Q s → (s.chan c ch).executing = false →
      Q (s.modChan c ch fun d => d.program c ch (v &&& cntMask c ch)))
    (he : ∀ F c ch s t, Q s → MirrorExcept F s → exe c ch s = .ok t → MirrorExcept F t) {c : Cpu} {ch : Fin 4}
    {v : Word} {s t : State} (hq : Q s) (h : MirrorExcept E s) (e : Machine.programChannel exe c ch v s = .ok t) :
    MirrorExcept (without E c (.dmaCnt ch)) t := by
  unfold Machine.programChannel at e
  simp only at e
  split at e
  · cases e
  · next hx =>
    obtain ⟨u, hu, ht⟩ := andThen_eq_ok e
    cases ht
    have hp : ∀ d : Channel, (d.program c ch (v &&& cntMask c ch)).sad = d.sad ∧
        (d.program c ch (v &&& cntMask c ch)).dad = d.dad := fun d => by
      simp only [Channel.program]; split <;> exact ⟨rfl, rfl⟩
    have h1 := h.modChan (X := fun d r => d = c ∧ r = .dmaCnt ch) c ch
      (fun d => d.program c ch (v &&& cntMask c ch)) (.inr (hp _).1) (.inr (hp _).2) (.inl ⟨rfl, rfl⟩)
    have hu' : MirrorExcept (fun d r => E d r ∨ d = c ∧ r = .dmaCnt ch) u := by
      split at hu
      · exact he _ c ch _ u (hQ s c ch v hq (by simpa using hx)) h1 hu
      · cases hu; exact h1
    exact hu'.mirrorCnt c ch fun _ _ x => x

/-! ### The register window -/

theorem MirrorExcept.logCall {E : Cpu → LReg → Prop} {s : State} (k : Call) (h : MirrorExcept E s) :
    MirrorExcept E (s.logCall k) := h

theorem MirrorExcept.logDraw {E : Cpu → LReg → Prop} {s : State} (k : Call) (h : MirrorExcept E s) :
    MirrorExcept E (s.logDraw k) := h

theorem MirrorExcept.setEntry {E : Cpu → LReg → Prop} {s : State} (c : Cpu) (i : Byte) (e : Entry)
    (h : MirrorExcept E s) : MirrorExcept E (s.setEntry c i e) := by
  refine (h.fields (X := fun _ _ => False) (setEntry_mem _ _ _ _) (fun d => ?_) (fun d k => ?_) fun d k _ => ?_).mono
    fun _ _ x => x.resolve_right id
  · simp
  · simp
  · simp

theorem MirrorExcept.remap {E : Cpu → LReg → Prop} {why : Why} {c : Cpu} {i g : Byte} {m : Word} {s t : State}
    (h : MirrorExcept E s) (e : Machine.remap why c i g m s = .ok t) : MirrorExcept E t := by
  unfold Machine.remap at e
  split at e
  · cases e
  · split at e
    · cases e; exact h.setEntry c i _
    · cases e

theorem MirrorExcept.writeSpiData {E : Cpu → LReg → Prop} {s : State} (c : Cpu) (o : Nat) (w : Width)
    (h : MirrorExcept E s) : MirrorExcept (without E c .auxSpiData) (writeSpiData c o w s) := by
  unfold Machine.writeSpiData
  have h1 : ∀ u, MirrorExcept (fun d r => E d r ∨ d = c ∧ r = .auxSpiData) u →
      MirrorExcept (without E c .auxSpiData) (u.setRaw c 0x1A3 1 0) := by
    intro u hu
    refine hu.rewrite (q := .auxSpiData) rfl (by decide) (by decide) ?_ ?_
    · rintro d r hF hne (hE | hE)
      · exact hF ⟨hE, hne⟩
      · exact hne hE
    · rw [Mirrored, ioByte_setRaw, if_pos (by decide)]
      rfl
  apply h1
  split
  · intro d r hF
    exact (h.logDraw _ d r fun x => hF (.inl x)).store_reg (q := .auxSpiData) rfl (by decide) (by decide)
      fun x => hF (.inr x)
  · exact h.mono fun _ _ => .inl

/-- A register's handler restores its mirror and keeps every other one. -/
theorem MirrorExcept.handle {E : Cpu → LReg → Prop} {exe : Exe} {Q : State → Prop}
    (hQ : ∀ s c ch v, Q s → (s.chan c ch).executing = false →
      Q (s.modChan c ch fun d => d.program c ch (v &&& cntMask c ch)))
    (he : ∀ F c ch s t, Q s → MirrorExcept F s → exe c ch s = .ok t → MirrorExcept F t) {c : Cpu} {o : Nat}
    {w : Width} {v : Word} {r : LReg} {s t : State} (hq : Q s) (h : MirrorExcept E s)
    (e : Machine.handle exe c o w v r s = .ok t) : MirrorExcept (without E c r) t := by
  have hn : ∀ {u : State}, isMirrored r = false → MirrorExcept E u → MirrorExcept (without E c r) u := by
    intro u hr hu d q hF
    by_cases x : E d q
    · have : d = c ∧ q = r := by
        by_contra hne
        exact hF ⟨x, hne⟩
      rw [this.2]
      exact mirrored_of_not _ _ _ hr
    · exact hu d q x
  cases r
  case dmaSad => cases e; exact h.writeSad _ _ _
  case dmaDad => cases e; exact h.writeDad _ _ _
  case dmaCnt => exact MirrorExcept.programChannel hQ he hq h e
  case tmCntL => cases e; exact hn rfl (h.setReload _ _ _)
  case tmCntH => cases e; exact h.setControl _ _ _
  case ipcSync => cases e; exact h.writeSync _ _
  case ipcFifoCnt =>
    cases e
    exact (h.fifoControl _ _).mono fun d r x => ⟨x.1, fun y => x.2 y.2⟩
  case ipcFifoSend => cases e; exact hn rfl ((h.send _ _).mono fun _ _ x => x.1)
  case auxSpiData => cases e; exact h.writeSpiData _ _ _
  case ime => cases e; exact h.setIME _ _
  case ie => cases e; exact h.setIE _ _
  case iflag => cases e; exact h.clearIF _ _
  case mapCnt k =>
    refine hn rfl (forEach_keeps (P := MirrorExcept E) _ (fun p _ a b ha hb => ha.remap hb) _ t ?_ e)
    exact h.logDraw _
  all_goals cases e; exact hn rfl h

end Sys2Proof.Machine
end

