-- ==== Sys2Proof/Laws/Reach.lean ====
section
/-! SUPPORT. From the requests of the statements to the operations: what a bus access and a register row run, and where
an address resolves to, in the words of Safety.lean. -/

namespace Sys2Proof.Machine

/-- A bus read is `MemRead` (40_decode.md R117 to R119). -/
theorem exec_readInstr (w : Width) (c : Cpu) (addr : Word) (s : State) :
    exec (readInstr w c addr) s = finishValue (memRead c addr w s) := by
  cases w <;> rfl

/-- A bus write is `MemWrite` (R120 to R122). -/
theorem exec_writeInstr (w : Width) (c : Cpu) (addr v : Word) (s : State) :
    exec (writeInstr w c addr v) s = finish s (memWrite execute c addr w v s) := by
  cases w <;> rfl

theorem alignAddr_alignTo (w : Width) (a : Word) : (alignAddr w a).toNat = alignTo w a.toNat := alignAddr_toNat w a

theorem alignTo_mod (w : Width) (a : Nat) : alignTo w a % w.bytes = 0 := Nat.mul_mod_left _ _

/-! ### Windows -/

/-- Keeping the low bits of a word under a mask of ones. -/
theorem and_ones_toNat (a : Word) (n : Nat) (h : n ≤ 32) :
    (a &&& BitVec.ofNat 32 (2 ^ n - 1)).toNat = a.toNat % 2 ^ n := by
  have h1 : 2 ^ n ≤ 2 ^ 32 := Nat.pow_le_pow_right (by decide) h
  have h2 : 0 < 2 ^ n := Nat.two_pow_pos n
  rw [BitVec.toNat_and, BitVec.toNat_ofNat, Nat.mod_eq_of_lt (by omega), Nat.and_two_pow_sub_one_eq_mod]

theorem and_not_tcwMask (a : Word) : a &&& ~~~ tcwMask = (a >>> 14) <<< 14 := by
  apply BitVec.eq_of_getLsbD_eq
  intro i hi
  have hm : tcwMask.getLsbD i = decide (i < 14) := by
    rw [tcwMask, show (0x3FFF : Word) = BitVec.ofNat 32 (2 ^ 14 - 1) from rfl, BitVec.getLsbD_ofNat,
      Nat.testBit_two_pow_sub_one]
    simp [hi]
  rw [BitVec.getLsbD_and, BitVec.getLsbD_not, hm, BitVec.getLsbD_shiftLeft]
  by_cases h : i < 14
  · simp [h]
  · simp [h, hi, BitVec.getLsbD_ushiftRight, show 14 + (i - 14) = i by omega]

/-- Two words agree above the low 14 bits exactly when their quotients agree. -/
theorem and_not_tcwMask_eq (a b : Word) :
    a &&& ~~~ tcwMask = b &&& ~~~ tcwMask ↔ a.toNat / 2 ^ 14 = b.toNat / 2 ^ 14 := by
  have e : ∀ x : Word, (x &&& ~~~ tcwMask).toNat = x.toNat / 2 ^ 14 * 2 ^ 14 := by
    intro x
    have := x.isLt
    rw [and_not_tcwMask, BitVec.toNat_shiftLeft, BitVec.toNat_ushiftRight, Nat.shiftLeft_eq, Nat.shiftRight_eq_div_pow,
      Nat.mod_eq_of_lt (by omega)]
  rw [← BitVec.toNat_inj, e, e]
  omega

theorem tcwHit_iff (c : Cpu) (a : Word) (s : State) : tcwHit c a s = true ↔ InTcw s c a.toNat := by
  rw [tcwHit, Bool.and_eq_true, decide_eq_true_eq, decide_eq_true_eq, and_not_tcwMask_eq, InTcw]

theorem inCartPass_iff (a : Word) (s : State) : inCartPass s.config a = true ↔ InPass s a.toNat := by
  have h : (a &&& 0x0FFFFFFF).toNat = a.toNat % 2 ^ 28 := and_ones_toNat a 28 (by decide)
  simp only [inCartPass, h, Bool.and_eq_true, decide_eq_true_eq, InPass]

theorem inWifi_iff (c : Cpu) (a : Word) : (c = .c1 ∧ inWifi a = true) ↔ InWireless c a.toNat := by
  have h : (a &&& 0x0FFFFFFF).toNat = a.toNat % 2 ^ 28 := and_ones_toNat a 28 (by decide)
  simp only [inWifi, h, Bool.and_eq_true, decide_eq_true_eq, InWireless]

theorem tableIndex_eq (a : Word) : tableIndex a = BitVec.ofNat 8 (a.toNat / 2 ^ 20) := by
  rw [tableIndex, BitVec.extractLsb', Nat.shiftRight_eq_div_pow]

theorem entryOf_eq (s : State) (c : Cpu) (a : Word) : entryOf s c a.toNat = s.entry c (tableIndex a) := by
  rw [entryOf, tableIndex_eq]

/-! ### Address decode -/

theorem resolve_tcw (c : Cpu) (a : Word) (s : State) (h : InTcw s c a.toNat) :
    resolve c a s = .tcw (a.toNat % 2 ^ 14) := by
  rw [resolve, if_pos ((tcwHit_iff c a s).mpr h)]
  congr 1
  exact and_ones_toNat a 14 (by decide)

theorem resolve_pass (c : Cpu) (a : Word) (s : State) (h1 : ¬ InTcw s c a.toNat) (h2 : InPass s a.toNat) :
    resolve c a s = .cartPass := by
  rw [resolve, if_neg (fun h => h1 ((tcwHit_iff c a s).mp h)), if_pos ((inCartPass_iff a s).mpr h2)]

theorem resolve_wifi (c : Cpu) (a : Word) (s : State) (h1 : ¬ InTcw s c a.toNat) (h2 : ¬ InPass s a.toNat)
    (h3 : InWireless c a.toNat) : resolve c a s = .wifi := by
  rw [resolve, if_neg (fun h => h1 ((tcwHit_iff c a s).mp h)), if_neg (fun h => h2 ((inCartPass_iff a s).mp h)),
    if_pos ((inWifi_iff c a).mpr h3)]

/-- Past the windows the table decides (40_decode.md R100, R105). -/
theorem resolve_table (c : Cpu) (a : Word) (s : State) (h : ThroughTable s c a.toNat) :
    resolve c a s =
      if (entryOf s c a.toNat).region = ioRegion c then .io (windowOffset a (entryOf s c a.toNat).mask)
      else match regionSize s.config s.cart (entryOf s c a.toNat).region with
        | none => .sink
        | some size => .storage (entryOf s c a.toNat).region (regionOffset a (entryOf s c a.toNat).mask size) := by
  have h1 : ¬ tcwHit c a s = true := fun x => h.1 ((tcwHit_iff c a s).mp x)
  have h2 : ¬ inCartPass s.config a = true := fun x => h.2.1 ((inCartPass_iff a s).mp x)
  have h3 : ¬ (c = .c1 ∧ inWifi a = true) := fun x => h.2.2 ((inWifi_iff c a).mp x)
  rw [entryOf_eq]
  exact (if_neg h1).trans ((if_neg h2).trans (if_neg h3))

theorem regionOffset_eq (a mask : Word) (g : BusConfig) (cart : Option Word) (r : Region) (size : Nat)
    (h : regionSize g cart r = some size) : regionOffset a mask size = a.toNat &&& mask.toNat &&& (size - 1) := by
  have := regionSize_le g cart r size h
  rw [regionOffset, BitVec.toNat_and, BitVec.toNat_and, BitVec.toNat_ofNat, Nat.mod_eq_of_lt (by omega)]

theorem resolve_sink (c : Cpu) (a : Word) (s : State) (h : ThroughTable s c a.toNat)
    (he : (entryOf s c a.toNat).region = .sink) : resolve c a s = .sink := by
  rw [resolve_table c a s h, he, if_neg (by cases c <;> decide), regionSize]

theorem resolve_io (c : Cpu) (a : Word) (s : State) (o : Nat) (h : AtWindow s c a.toNat o) : resolve c a s = .io o := by
  obtain ⟨h1, h2, rfl⟩ := h
  rw [resolve_table c a s h1, if_pos h2, windowOffset_eq]

theorem resolve_storage (c : Cpu) (a : Word) (s : State) (r : Region) (o : Nat) (h : AtRegion s c a.toNat r o)
    (hr : r ≠ ioRegion c) : resolve c a s = .storage r o := by
  obtain ⟨h1, h2, size, h3, rfl⟩ := h
  rw [resolve_table c a s h1, h2, if_neg hr, h3]
  simp only
  rw [regionOffset_eq a _ _ _ _ size h3]

/-! ### Registers -/

/-- The offset of an aligned access of the register window is aligned and stays in it. -/
theorem atWindow_bound (w : Width) (c : Cpu) (addr : Word) (s : State) (o : Nat)
    (h : AtWindow s c (alignTo w addr.toNat) o) : o % w.bytes = 0 ∧ o + w.bytes ≤ 0x1000000 := by
  obtain ⟨-, -, rfl⟩ := h
  rw [← alignAddr_alignTo, ← windowOffset_eq]
  exact windowOffset_bound w _ _ (alignAddr_mod w addr)

/-- A request that reaches a read of the register window runs its read path there, at an aligned offset. -/
theorem reaches_read {s : State} {i : Instr} {c : Cpu} {o : Nat} {w : Width} (h : Reaches s i c o (.read w)) :
    exec i s = finishValue (ioRead c o w s) ∧ o % w.bytes = 0 ∧ o + w.bytes ≤ 0x1000000 := by
  cases h with
  | row o' hi ho =>
    subst ho
    refine ⟨by rw [exec_row i c o' _ s hi]; rfl, alignOffset_mod w o', ?_⟩
    have h1 := rowAccess_lt i c o' _ hi
    have h2 := alignOffset_le w o'
    have h3 := alignOffset_mod w o'
    simp only [accessWidth]
    change alignOffset w o' + w.bytes ≤ _
    rcases width_bytes_cases w with hw | hw | hw <;> rw [hw] at h3 ⊢ <;> omega
  | busRead w' addr hi hacc ho =>
    cases hacc
    refine ⟨?_, atWindow_bound w c addr s o ho⟩
    rw [hi, exec_readInstr, memRead]
    rw [← alignAddr_alignTo] at ho
    simp only [resolve_io c _ s o ho]
  | busWrite w' addr v hi hacc ho => cases hacc

/-- A request that reaches a write of the register window runs its write path there, at an aligned offset. -/
theorem reaches_write {s : State} {i : Instr} {c : Cpu} {o : Nat} {w : Width} {v : Word}
    (h : Reaches s i c o (.write w v)) :
    exec i s = finish s (ioWrite execute c o w (truncTo w v) s) ∧ o % w.bytes = 0 ∧ o + w.bytes ≤ 0x1000000 := by
  cases h with
  | row o' hi ho =>
    subst ho
    refine ⟨by rw [exec_row i c o' _ s hi]; rfl, alignOffset_mod w o', ?_⟩
    have h1 := rowAccess_lt i c o' _ hi
    have h2 := alignOffset_le w o'
    have h3 := alignOffset_mod w o'
    simp only [accessWidth]
    change alignOffset w o' + w.bytes ≤ _
    rcases width_bytes_cases w with hw | hw | hw <;> rw [hw] at h3 ⊢ <;> omega
  | busRead w' addr hi hacc ho => cases hacc
  | busWrite w' addr v' hi hacc ho =>
    cases hacc
    refine ⟨?_, atWindow_bound w c addr s o ho⟩
    rw [hi, exec_writeInstr, memWrite]
    rw [← alignAddr_alignTo] at ho
    simp only [resolve_io c _ s o ho]

/-- The verbatim store of a truncated value is that of the value. -/
theorem setRaw_truncTo (c : Cpu) (o : Nat) (w : Width) (v : Word) (s : State) :
    s.setRaw c o w.bytes (truncTo w v).toNat = stored c o w v s := by
  rw [stored, State.setRaw, State.setRaw, State.regionWrite, State.regionWrite]
  congr 1
  rw [Memory.leWrite, Memory.leWrite]
  congr 1
  apply List.ext_getElem
  · simp
  · intro i h1 h2
    rw [leBytes_getElem, leBytes_getElem]
    exact byteAt_truncTo w v i (by simpa using h1)

/-- What a write runs, from the verbatim store (41_io_dispatch.md R133, R134). -/
theorem ioWrite_eq (exe : Exe) (c : Cpu) (o : Nat) (w : Width) (v : Word) (s : State) :
    ioWrite exe c o w (truncTo w v) s = onRegisterWrite exe c o w (truncTo w v) (stored c o w v s) := by
  rw [ioWrite, setRaw_truncTo]

theorem regsOf_one (c : Cpu) (r : LReg) : ∀ (n o : Nat), (∀ i, i < n → regAt c (o + i) = some r) →
    regsOf c o n = List.replicate n r := by
  intro n
  induction n with
  | zero => intro o _; rfl
  | succ n ih =>
    intro o h
    have h0 := h 0 (by omega)
    rw [Nat.add_zero] at h0
    rw [regsOf, h0, ih (o + 1) fun i hi => by rw [← h (i + 1) (by omega)]; congr 1; omega]
    rfl

theorem dropRepeats_replicate (r : LReg) (n : Nat) : dropRepeats (List.replicate (n + 1) r) = [r] := by
  induction n with
  | zero => rfl
  | succ n ih =>
    rw [List.replicate_succ, List.replicate_succ, dropRepeats, if_pos rfl, ← List.replicate_succ]
    exact ih

/-- An access inside one register touches it alone (41_io_dispatch.md R132). -/
theorem touched_one (c : Cpu) (w : Width) (o : Nat) (r : LReg) (h : ∀ i, i < w.bytes → regAt c (o + i) = some r) :
    touched c w o = [r] := by
  rw [touched, regsOf_one c r _ _ h]
  cases w
  · exact dropRepeats_replicate r 0
  · exact dropRepeats_replicate r 1
  · exact dropRepeats_replicate r 3

/-- A write inside one register stores, then runs its handler (R133, R134). -/
theorem reaches_write_one {s : State} {i : Instr} {c : Cpu} {o : Nat} {w : Width} {v : Word} (r : LReg)
    (h : Reaches s i c o (.write w v)) (hr : ∀ k, k < w.bytes → regAt c (o + k) = some r) :
    exec i s = finish s (handle execute c o w (truncTo w v) r (stored c o w v s)) := by
  rw [(reaches_write h).1, ioWrite_eq, onRegisterWrite, touched_one c w o r hr, forEach]
  congr 1
  generalize handle execute c o w (truncTo w v) r (stored c o w v s) = x
  cases x <;> rfl

/-- A read inside one register without a computed read gives the stored bytes (R135). -/
theorem readRegs_none (c : Cpu) (o : Nat) (bs : List Byte) (s : State) : ∀ rs : List LReg,
    (∀ r ∈ rs, computedRead c r s = none) → readRegs c o rs bs s = (bs, s) := by
  intro rs
  induction rs with
  | nil => intro _; rfl
  | cons r rs ih =>
    intro h
    rw [readRegs, h r (by simp)]
    exact ih fun q hq => h q (by simp [hq])

end Sys2Proof.Machine
end

