-- ==== Sys2Proof/Laws/Sides.lean ====
section
/-! SUPPORT. Properties of the two CPU parts alone: what a request can do to one part, said once. -/

namespace Sys2Proof.Machine

/-- The changes a request makes of a timer. -/
inductive TimerStep (t : Fin 4) (m : Timer) : Timer → Prop where
  | reload (v : Half) : TimerStep t m { m with reload := v }
  | control (v : Half) : TimerStep t m (m.withControl (v &&& tmMask t))
  | cycle (k : Bool) : TimerStep t m (m.cycle t k).2

/-- The changes a request makes of a channel, but for the mark of a running burst. -/
inductive ChannelStep (c : Cpu) (ch : Fin 4) (d : Channel) : Channel → Prop where
  | sad (v : Word) : ChannelStep c ch d { d with sad := v }
  | dad (v : Word) : ChannelStep c ch d { d with dad := v }
  | program (v : Word) : d.executing = false → ChannelStep c ch d (d.program c ch (v &&& cntMask c ch))
  | rearm : ChannelStep c ch d (d.rearm c ch)
  | stop : ChannelStep c ch d d.stop
  | advance (w : Width) : ChannelStep c ch d (d.advance w)

/-- The changes a request makes of one CPU's part, each keeping `Q`. -/
structure SideStable (Q : Cpu → CpuSide → Prop) : Prop where
  table : ∀ c p t, Q c p → Q c { p with table := t }
  latch : ∀ c p x y z, Q c p → Q c (CpuSide.updatePending { p with ime := x, ie := y, iflag := z })
  sync : ∀ c p o e, Q c p → Q c { p with syncOut := o, syncIrqEn := e }
  fifoBits : ∀ c p a b d, Q c p → Q c { p with sendEmptyIrqEn := a, recvNotEmptyIrqEn := b, fifoEnable := d }
  fifoClear : ∀ c p, Q c p → Q c { p with fifo := [] }
  fifoPush : ∀ c p v, Q c p → p.fifo.length ≠ 16 → Q c { p with fifo := p.fifo ++ [v] }
  fifoPop : ∀ c p v q, Q c p → p.fifo = v :: q → Q c { p with fifo := q, lastRecv := v }
  timer : ∀ c p (t : Fin 4) m, Q c p → TimerStep t p.tmr[t] m → Q c { p with tmr := p.tmr.set t.val m t.isLt }
  channel : ∀ c p (ch : Fin 4) d, Q c p → ChannelStep c ch p.dma[ch] d →
    Q c { p with dma := p.dma.set ch.val d ch.isLt }
  reset : ∀ g cart c, Q c (CpuSide.reset g cart c)

theorem modSide_sides {Q : Cpu → CpuSide → Prop} {s : State} {c : Cpu} {f : CpuSide → CpuSide}
    (h : ∀ d, Q d (s.side d)) (hf : Q c (s.side c) → Q c (f (s.side c))) : ∀ d, Q d ((s.modSide c f).side d) := by
  intro d
  rw [modSide_side_eq]
  split
  · next e => rw [e]; exact hf (h c)
  · exact h d

/-- A property of each part that the part changes keep is kept by the primitive changes of a request. -/
theorem SideStable.stable {Q : Cpu → CpuSide → Prop} (q : SideStable Q) : Stable fun s => ∀ c, Q c (s.side c) where
  write _ _ _ h _ := h
  logCall _ _ h := h
  logDraw _ _ h := h
  answer _ _ h := h
  entry _ _ _ _ _ h _ := modSide_sides h fun x => q.table _ _ _ x
  latch _ _ _ _ _ h := modSide_sides h fun x => q.latch _ _ _ _ _ x
  sync _ _ _ _ h := modSide_sides h fun x => q.sync _ _ _ _ x
  fifoBits _ _ _ _ _ h := modSide_sides h fun x => q.fifoBits _ _ _ _ _ x
  fifoClear _ _ h := modSide_sides h fun x => q.fifoClear _ _ x
  fifoPush _ _ _ h hl := modSide_sides h fun x => q.fifoPush _ _ _ x hl
  fifoPop _ _ _ _ h he := modSide_sides h fun x => q.fifoPop _ _ _ _ x he
  reload _ _ _ _ h := modSide_sides h fun x => q.timer _ _ _ _ x (.reload _)
  control _ _ _ _ h := modSide_sides h fun x => q.timer _ _ _ _ x (.control _)
  cycle _ _ _ _ h := modSide_sides h fun x => q.timer _ _ _ _ x (.cycle _)
  sad _ _ _ _ h := modSide_sides h fun x => q.channel _ _ _ _ x (.sad _)
  dad _ _ _ _ h := modSide_sides h fun x => q.channel _ _ _ _ x (.dad _)
  program _ _ _ _ h he := modSide_sides h fun x => q.channel _ _ _ _ x (.program _ he)
  rearm _ _ _ h := modSide_sides h fun x => q.channel _ _ _ _ x .rearm
  stop _ _ _ h := modSide_sides h fun x => q.channel _ _ _ _ x .stop
  advance _ _ _ _ h := modSide_sides h fun x => q.channel _ _ _ _ x (.advance _)
  tcw _ _ h := h
  mount _ _ _ h _ _ := modSide_sides (modSide_sides h fun x => q.table _ _ _ x) fun x => q.table _ _ _ x
  unmount _ h := modSide_sides (modSide_sides h fun x => q.table _ _ _ x) fun x => q.table _ _ _ x
  reset _ _ c := by cases c <;> exact q.reset _ _ _

/-- And by every request, if the mark of a running burst does not matter to it. -/
theorem SideStable.burst {Q : Cpu → CpuSide → Prop} (q : SideStable Q)
    (hx : ∀ c p (ch : Fin 4) b, Q c p →
      Q c { p with dma := p.dma.set ch.val { p.dma[ch] with executing := b } ch.isLt }) :
    StableBurst fun s => ∀ c, Q c (s.side c) where
  toStable := q.stable
  executing _ _ _ _ h := modSide_sides h fun x => hx _ _ _ _ x

/-- Such a property survives the fetch and a refusal, which do not touch the parts. -/
theorem sides_step {Q : Cpu → CpuSide → Prop} : StableStep fun s => ∀ c, Q c (s.side c) where
  fetch _ _ h := h
  refuse _ _ h := h

end Sys2Proof.Machine
end

