-- ==== Sys2Proof/Tests/Slice0.lean ====
section
/-! SUPPORT. Tests of the model: decoding from the encodings of the spec, ill-formed operands, single steps with the
expected values of 95_test_vectors.md, and for each statement with hypotheses a witness that something meets them. -/

namespace Sys2Proof.Tests

open Sys2Proof Sys2Proof.Machine

set_option Elab.async false

/-! ### Helpers -/

/-- The bytes at a port spell exactly one instruction. -/
def readsAs (p : Port) (bytes : List Byte) (i : Instr) : Bool :=
  match decode ⟨p, bytes⟩ with
  | .ok (j, []) => decide (j = i)
  | _ => false

/-- The bytes at a port are rejected for a reason. -/
def rejects (p : Port) (bytes : List Byte) (e : Reject) : Bool :=
  match decode ⟨p, bytes⟩ with
  | .ok _ => false
  | .error e' => decide (e' = e)

/-- The start state of 95_test_vectors.md section 0: after construction, with the window base at 0x00800000. -/
def start : State :=
  { State.reset with tcwBase := 0x00800000 }

/-- `start` with bytes in main memory from its first byte. -/
def startMain (bytes : List Byte) : State :=
  nextOr start (exec (.load 3 0 bytes) start)

/-- `start` with a channel of a CPU in a given condition. -/
def startChan (c : Cpu) (ch : Fin 4) (d : Channel) : State :=
  withChan start c ch d

/-- `start` with a timer of a CPU in a given condition. -/
def startTimer (c : Cpu) (t : Fin 4) (m : Timer) : State :=
  withTimer start c t m

/-- The state after an instruction. -/
def after (i : Instr) (s : State) : State :=
  nextOr s (exec i s)

/-- An instruction answers a value. -/
def answers (i : Instr) (s : State) (v : Word) : Bool :=
  decide ((after i s).reply = .value v)

/-! ### Decoding -/

/-- The request forms of 95_test_vectors.md 2.1 and 3, byte by byte. -/
theorem test_decode_requests :
  readsAs .bus [0x05, 0x01, 0x01, 0x00, 0x08] (.read8 .c1 0x08000101) ∧
  readsAs .bus [0x08, 0x00, 0x01, 0x00, 0x04] (.read16 .c0 0x04000100) ∧
  readsAs .bus [0x0D, 0x00, 0x00, 0x40, 0x02] (.read32 .c1 0x02400000) ∧
  readsAs .bus [0x14, 0x14, 0x02, 0x00, 0x04, 0xFF, 0x00, 0x00, 0x00] (.write8 .c0 0x04000214 0xFF) ∧
  readsAs .bus [0x19, 0xBA, 0x00, 0x00, 0x04, 0x00, 0x80, 0x00, 0x00] (.write16 .c1 0x040000BA 0x8000) ∧
  readsAs .bus [0x1C, 0x00, 0x00, 0x80, 0x02, 0x0D, 0xF0, 0xFE, 0xCA] (.write32 .c0 0x02800000 0xCAFEF00D) ∧
  readsAs .bus [0x21, 0x02, 0x00, 0x00, 0x00] (.tick .c1 2) ∧
  readsAs .bus [0x30, 0x01] (.trigger .c0 1) ∧
  readsAs .bus [0x31, 0x08] (.trigger .c1 8) ∧
  readsAs .bus [0x41, 0x00] (.raiseirq .c1 0) ∧
  readsAs .bus [0x50, 0x05, 0x00, 0x7C, 0x02] (.settcw 0x027C0005) ∧
  readsAs .bus [0x60, 0x60, 0x0A, 0xFF, 0xFF, 0x01, 0x00] (.remap .c0 0x60 10 0x1FFFF) ∧
  readsAs .bus [0x70, 0x04, 0x00, 0x00, 0x00, 0x01, 0x02, 0x03, 0x04] (.mount 4 [1, 2, 3, 4]) ∧
  readsAs .bus [0x80] .unmount ∧
  readsAs .bus [0x90, 0x13, 0x00, 0x00, 0x00, 0x00, 0x04, 0x00, 0x00, 0x00, 0x00, 0x00, 0xA0, 0xE3]
    (.load 19 0 [0x00, 0x00, 0xA0, 0xE3]) ∧
  readsAs .bus ([0x70, 0x00, 0x01, 0x00, 0x00] ++ (List.range 256).map (BitVec.ofNat 8))
    (.mount 0x100 ((List.range 256).map (BitVec.ofNat 8))) ∧
  readsAs .bus [0xA0] .reset := by decide +kernel

/-- The refused encodings of 95_test_vectors.md 2.2. -/
theorem test_decode_refused_requests :
  rejects .bus [0xB0] .reservedClass ∧ rejects .bus [0xFF] .reservedClass ∧
  rejects .bus [0x00, 0x00, 0x00, 0x00, 0x02] .badWidthCode ∧
  rejects .bus [0x10, 0x00, 0x00, 0x00, 0x02, 0x00, 0x00, 0x00, 0x00] .badWidthCode ∧
  rejects .bus [0x06, 0x00, 0x00, 0x00, 0x02] .reservedBit ∧
  rejects .bus [0x24, 0x01, 0x00, 0x00, 0x00] .badWidthCode ∧
  rejects .bus [0x51, 0x00, 0x00, 0x80, 0x00] .badCpu ∧ rejects .bus [0xA1] .badCpu ∧
  rejects .bus [0x70, 0x04, 0x00, 0x00, 0x00, 0x01, 0x02, 0x03] .truncated ∧
  rejects .bus [0x0C, 0x00, 0x00, 0x00] .truncated := by decide +kernel

/-- The contract calls, in the model's own form (log entry 2): number, CPU, arguments. -/
theorem test_decode_contracts :
  readsAs .contract [0, 0, 0x04, 0x02, 0x00, 0x00, 2, 0xEF, 0xBE, 0x00, 0x00] (.onRegisterWrite .c0 0x204 .w16 0xBEEF) ∧
  readsAs .contract [1, 1, 0x14, 0x02, 0x00, 0x00, 3] (.onRegisterRead .c1 0x214 .w32) ∧
  readsAs .contract [2, 0, 3, 0x04, 0x00, 0x00, 0x84] (.programChannel .c0 3 0x84000004) ∧
  readsAs .contract [3, 1, 2] (.execute .c1 2) ∧
  readsAs .contract [4, 0, 1, 0xFE, 0xFF] (.setReload .c0 1 0xFFFE) ∧
  readsAs .contract [5, 1, 3, 0xC4, 0x00] (.setControl .c1 3 0xC4) ∧
  readsAs .contract [6, 0, 0x00, 0x2B, 0x00, 0x00] (.writeSync .c0 0x2B00) ∧
  readsAs .contract [7, 1, 0x04, 0x84, 0x00, 0x00] (.fifoControl .c1 0x8404) ∧
  readsAs .contract [8, 0, 0x78, 0x56, 0x34, 0x12] (.send .c0 0x12345678) ∧
  readsAs .contract [9, 1] (.recv .c1) ∧
  readsAs .contract [10, 0, 0x01, 0x00, 0x00, 0x00] (.setIME .c0 1) ∧
  readsAs .contract [11, 0, 0x08, 0x01, 0x00, 0x00] (.setIE .c0 0x108) ∧
  readsAs .contract [12, 1, 0x00, 0x00, 0x01, 0x00] (.setIF .c1 0x10000) ∧
  readsAs .contract [13, 0, 0x08, 0x00, 0x00, 0x00] (.clearIF .c0 8) ∧
  rejects .contract [14, 0] .noSuchContract ∧ rejects .contract [3, 0, 4] .badOperand ∧
  rejects .register [0x03, 0x02, 0x00, 0x00] .noSuchRegister := by decide +kernel

/-- Keys of `opcode_table.json` (R89) at lane 0, 32-bit reads, on CPU1 where both CPUs have the row. -/
theorem test_decode_display_1_reads :
  readsAs .register [0x00, 0x00, 0x00, 0x04] (.dispcntA 0 (.read .w32)) ∧
  readsAs .register [0x04, 0x00, 0x00, 0x05] (.dispstat .c1 0 (.read .w32)) ∧
  readsAs .register [0x06, 0x00, 0x00, 0x05] (.vcount .c1 0 (.read .w32)) ∧
  readsAs .register [0x08, 0x00, 0x00, 0x04] (.bg0cntA 0 (.read .w32)) ∧
  readsAs .register [0x0A, 0x00, 0x00, 0x04] (.bg1cntA 0 (.read .w32)) ∧
  readsAs .register [0x0C, 0x00, 0x00, 0x04] (.bg2cntA 0 (.read .w32)) ∧
  readsAs .register [0x0E, 0x00, 0x00, 0x04] (.bg3cntA 0 (.read .w32)) ∧
  readsAs .register [0x10, 0x00, 0x00, 0x04] (.bgofsAffineA 0 (.read .w32)) ∧
  readsAs .register [0x20, 0x00, 0x00, 0x04] (.bgofsAffineA2 0 (.read .w32)) ∧
  readsAs .register [0x40, 0x00, 0x00, 0x04] (.win0hA 0 (.read .w32)) ∧
  readsAs .register [0x42, 0x00, 0x00, 0x04] (.win1hA 0 (.read .w32)) ∧
  readsAs .register [0x44, 0x00, 0x00, 0x04] (.win0vA 0 (.read .w32)) := by decide +kernel

/-- The same keys at their last lane, 8-bit writes. -/
theorem test_decode_display_1_writes :
  readsAs .register [0x03, 0x00, 0x00, 0x08, 0x5A, 0x00, 0x00, 0x00]
    (.dispcntA 3 (.write .w8 0x5A)) ∧
  readsAs .register [0x05, 0x00, 0x00, 0x08, 0x5A, 0x00, 0x00, 0x00]
    (.dispstat .c0 1 (.write .w8 0x5A)) ∧
  readsAs .register [0x07, 0x00, 0x00, 0x08, 0x5A, 0x00, 0x00, 0x00]
    (.vcount .c0 1 (.write .w8 0x5A)) ∧
  readsAs .register [0x09, 0x00, 0x00, 0x08, 0x5A, 0x00, 0x00, 0x00]
    (.bg0cntA 1 (.write .w8 0x5A)) ∧
  readsAs .register [0x0B, 0x00, 0x00, 0x08, 0x5A, 0x00, 0x00, 0x00]
    (.bg1cntA 1 (.write .w8 0x5A)) ∧
  readsAs .register [0x0D, 0x00, 0x00, 0x08, 0x5A, 0x00, 0x00, 0x00]
    (.bg2cntA 1 (.write .w8 0x5A)) ∧
  readsAs .register [0x0F, 0x00, 0x00, 0x08, 0x5A, 0x00, 0x00, 0x00]
    (.bg3cntA 1 (.write .w8 0x5A)) ∧
  readsAs .register [0x1F, 0x00, 0x00, 0x08, 0x5A, 0x00, 0x00, 0x00]
    (.bgofsAffineA 15 (.write .w8 0x5A)) ∧
  readsAs .register [0x3F, 0x00, 0x00, 0x08, 0x5A, 0x00, 0x00, 0x00]
    (.bgofsAffineA2 31 (.write .w8 0x5A)) ∧
  readsAs .register [0x41, 0x00, 0x00, 0x08, 0x5A, 0x00, 0x00, 0x00]
    (.win0hA 1 (.write .w8 0x5A)) ∧
  readsAs .register [0x43, 0x00, 0x00, 0x08, 0x5A, 0x00, 0x00, 0x00]
    (.win1hA 1 (.write .w8 0x5A)) ∧
  readsAs .register [0x45, 0x00, 0x00, 0x08, 0x5A, 0x00, 0x00, 0x00]
    (.win0vA 1 (.write .w8 0x5A)) := by decide +kernel

/-- Keys of `opcode_table.json` (R89) at lane 0, 32-bit reads, on CPU1 where both CPUs have the row. -/
theorem test_decode_display_2_reads :
  readsAs .register [0x46, 0x00, 0x00, 0x04] (.win1vA 0 (.read .w32)) ∧
  readsAs .register [0x48, 0x00, 0x00, 0x04] (.wininA 0 (.read .w32)) ∧
  readsAs .register [0x4A, 0x00, 0x00, 0x04] (.winoutA 0 (.read .w32)) ∧
  readsAs .register [0x4C, 0x00, 0x00, 0x04] (.mosaicA 0 (.read .w32)) ∧
  readsAs .register [0x50, 0x00, 0x00, 0x04] (.bldcntA 0 (.read .w32)) ∧
  readsAs .register [0x52, 0x00, 0x00, 0x04] (.bldalphaA 0 (.read .w32)) ∧
  readsAs .register [0x54, 0x00, 0x00, 0x04] (.bldyA 0 (.read .w32)) ∧
  readsAs .register [0x60, 0x00, 0x00, 0x04] (.disp3dcnt 0 (.read .w32)) ∧
  readsAs .register [0x64, 0x00, 0x00, 0x04] (.dispcapcnt 0 (.read .w32)) ∧
  readsAs .register [0x68, 0x00, 0x00, 0x04] (.dispMmemFifo 0 (.read .w32)) ∧
  readsAs .register [0x6C, 0x00, 0x00, 0x04] (.masterBrightA 0 (.read .w32)) := by decide +kernel

/-- The same keys at their last lane, 8-bit writes. -/
theorem test_decode_display_2_writes :
  readsAs .register [0x47, 0x00, 0x00, 0x08, 0x5A, 0x00, 0x00, 0x00]
    (.win1vA 1 (.write .w8 0x5A)) ∧
  readsAs .register [0x49, 0x00, 0x00, 0x08, 0x5A, 0x00, 0x00, 0x00]
    (.wininA 1 (.write .w8 0x5A)) ∧
  readsAs .register [0x4B, 0x00, 0x00, 0x08, 0x5A, 0x00, 0x00, 0x00]
    (.winoutA 1 (.write .w8 0x5A)) ∧
  readsAs .register [0x4D, 0x00, 0x00, 0x08, 0x5A, 0x00, 0x00, 0x00]
    (.mosaicA 1 (.write .w8 0x5A)) ∧
  readsAs .register [0x51, 0x00, 0x00, 0x08, 0x5A, 0x00, 0x00, 0x00]
    (.bldcntA 1 (.write .w8 0x5A)) ∧
  readsAs .register [0x53, 0x00, 0x00, 0x08, 0x5A, 0x00, 0x00, 0x00]
    (.bldalphaA 1 (.write .w8 0x5A)) ∧
  readsAs .register [0x55, 0x00, 0x00, 0x08, 0x5A, 0x00, 0x00, 0x00]
    (.bldyA 1 (.write .w8 0x5A)) ∧
  readsAs .register [0x61, 0x00, 0x00, 0x08, 0x5A, 0x00, 0x00, 0x00]
    (.disp3dcnt 1 (.write .w8 0x5A)) ∧
  readsAs .register [0x67, 0x00, 0x00, 0x08, 0x5A, 0x00, 0x00, 0x00]
    (.dispcapcnt 3 (.write .w8 0x5A)) ∧
  readsAs .register [0x6B, 0x00, 0x00, 0x08, 0x5A, 0x00, 0x00, 0x00]
    (.dispMmemFifo 3 (.write .w8 0x5A)) ∧
  readsAs .register [0x6D, 0x00, 0x00, 0x08, 0x5A, 0x00, 0x00, 0x00]
    (.masterBrightA 1 (.write .w8 0x5A)) := by decide +kernel

/-- Keys of `opcode_table.json` (R89) at lane 0, 32-bit reads, on CPU1 where both CPUs have the row. -/
theorem test_decode_dma_1_reads :
  readsAs .register [0xB0, 0x00, 0x00, 0x05] (.dma0sad .c1 0 (.read .w32)) ∧
  readsAs .register [0xB4, 0x00, 0x00, 0x05] (.dma0dad .c1 0 (.read .w32)) ∧
  readsAs .register [0xB8, 0x00, 0x00, 0x05] (.dma0cnt .c1 0 (.read .w32)) ∧
  readsAs .register [0xBC, 0x00, 0x00, 0x05] (.dma1sad .c1 0 (.read .w32)) ∧
  readsAs .register [0xC0, 0x00, 0x00, 0x05] (.dma1dad .c1 0 (.read .w32)) ∧
  readsAs .register [0xC4, 0x00, 0x00, 0x05] (.dma1cnt .c1 0 (.read .w32)) ∧
  readsAs .register [0xC8, 0x00, 0x00, 0x05] (.dma2sad .c1 0 (.read .w32)) ∧
  readsAs .register [0xCC, 0x00, 0x00, 0x05] (.dma2dad .c1 0 (.read .w32)) ∧
  readsAs .register [0xD0, 0x00, 0x00, 0x05] (.dma2cnt .c1 0 (.read .w32)) ∧
  readsAs .register [0xD4, 0x00, 0x00, 0x05] (.dma3sad .c1 0 (.read .w32)) ∧
  readsAs .register [0xD8, 0x00, 0x00, 0x05] (.dma3dad .c1 0 (.read .w32)) ∧
  readsAs .register [0xDC, 0x00, 0x00, 0x05] (.dma3cnt .c1 0 (.read .w32)) := by decide +kernel

/-- The same keys at their last lane, 8-bit writes. -/
theorem test_decode_dma_1_writes :
  readsAs .register [0xB3, 0x00, 0x00, 0x08, 0x5A, 0x00, 0x00, 0x00]
    (.dma0sad .c0 3 (.write .w8 0x5A)) ∧
  readsAs .register [0xB7, 0x00, 0x00, 0x08, 0x5A, 0x00, 0x00, 0x00]
    (.dma0dad .c0 3 (.write .w8 0x5A)) ∧
  readsAs .register [0xBB, 0x00, 0x00, 0x08, 0x5A, 0x00, 0x00, 0x00]
    (.dma0cnt .c0 3 (.write .w8 0x5A)) ∧
  readsAs .register [0xBF, 0x00, 0x00, 0x08, 0x5A, 0x00, 0x00, 0x00]
    (.dma1sad .c0 3 (.write .w8 0x5A)) ∧
  readsAs .register [0xC3, 0x00, 0x00, 0x08, 0x5A, 0x00, 0x00, 0x00]
    (.dma1dad .c0 3 (.write .w8 0x5A)) ∧
  readsAs .register [0xC7, 0x00, 0x00, 0x08, 0x5A, 0x00, 0x00, 0x00]
    (.dma1cnt .c0 3 (.write .w8 0x5A)) ∧
  readsAs .register [0xCB, 0x00, 0x00, 0x08, 0x5A, 0x00, 0x00, 0x00]
    (.dma2sad .c0 3 (.write .w8 0x5A)) ∧
  readsAs .register [0xCF, 0x00, 0x00, 0x08, 0x5A, 0x00, 0x00, 0x00]
    (.dma2dad .c0 3 (.write .w8 0x5A)) ∧
  readsAs .register [0xD3, 0x00, 0x00, 0x08, 0x5A, 0x00, 0x00, 0x00]
    (.dma2cnt .c0 3 (.write .w8 0x5A)) ∧
  readsAs .register [0xD7, 0x00, 0x00, 0x08, 0x5A, 0x00, 0x00, 0x00]
    (.dma3sad .c0 3 (.write .w8 0x5A)) ∧
  readsAs .register [0xDB, 0x00, 0x00, 0x08, 0x5A, 0x00, 0x00, 0x00]
    (.dma3dad .c0 3 (.write .w8 0x5A)) ∧
  readsAs .register [0xDF, 0x00, 0x00, 0x08, 0x5A, 0x00, 0x00, 0x00]
    (.dma3cnt .c0 3 (.write .w8 0x5A)) := by decide +kernel

/-- Keys of `opcode_table.json` (R89) at lane 0, 32-bit reads, on CPU1 where both CPUs have the row. -/
theorem test_decode_dma_2_reads :
  readsAs .register [0xE0, 0x00, 0x00, 0x04] (.dmaFill 0 (.read .w32)) := by decide +kernel

/-- The same keys at their last lane, 8-bit writes. -/
theorem test_decode_dma_2_writes :
  readsAs .register [0xEF, 0x00, 0x00, 0x08, 0x5A, 0x00, 0x00, 0x00]
    (.dmaFill 15 (.write .w8 0x5A)) := by decide +kernel

/-- Keys of `opcode_table.json` (R89) at lane 0, 32-bit reads, on CPU1 where both CPUs have the row. -/
theorem test_decode_timers_reads :
  readsAs .register [0x00, 0x01, 0x00, 0x05] (.tm0cntL .c1 0 (.read .w32)) ∧
  readsAs .register [0x02, 0x01, 0x00, 0x05] (.tm0cntH .c1 0 (.read .w32)) ∧
  readsAs .register [0x04, 0x01, 0x00, 0x05] (.tm1cntL .c1 0 (.read .w32)) ∧
  readsAs .register [0x06, 0x01, 0x00, 0x05] (.tm1cntH .c1 0 (.read .w32)) ∧
  readsAs .register [0x08, 0x01, 0x00, 0x05] (.tm2cntL .c1 0 (.read .w32)) ∧
  readsAs .register [0x0A, 0x01, 0x00, 0x05] (.tm2cntH .c1 0 (.read .w32)) ∧
  readsAs .register [0x0C, 0x01, 0x00, 0x05] (.tm3cntL .c1 0 (.read .w32)) ∧
  readsAs .register [0x0E, 0x01, 0x00, 0x05] (.tm3cntH .c1 0 (.read .w32)) := by decide +kernel

/-- The same keys at their last lane, 8-bit writes. -/
theorem test_decode_timers_writes :
  readsAs .register [0x01, 0x01, 0x00, 0x08, 0x5A, 0x00, 0x00, 0x00]
    (.tm0cntL .c0 1 (.write .w8 0x5A)) ∧
  readsAs .register [0x03, 0x01, 0x00, 0x08, 0x5A, 0x00, 0x00, 0x00]
    (.tm0cntH .c0 1 (.write .w8 0x5A)) ∧
  readsAs .register [0x05, 0x01, 0x00, 0x08, 0x5A, 0x00, 0x00, 0x00]
    (.tm1cntL .c0 1 (.write .w8 0x5A)) ∧
  readsAs .register [0x07, 0x01, 0x00, 0x08, 0x5A, 0x00, 0x00, 0x00]
    (.tm1cntH .c0 1 (.write .w8 0x5A)) ∧
  readsAs .register [0x09, 0x01, 0x00, 0x08, 0x5A, 0x00, 0x00, 0x00]
    (.tm2cntL .c0 1 (.write .w8 0x5A)) ∧
  readsAs .register [0x0B, 0x01, 0x00, 0x08, 0x5A, 0x00, 0x00, 0x00]
    (.tm2cntH .c0 1 (.write .w8 0x5A)) ∧
  readsAs .register [0x0D, 0x01, 0x00, 0x08, 0x5A, 0x00, 0x00, 0x00]
    (.tm3cntL .c0 1 (.write .w8 0x5A)) ∧
  readsAs .register [0x0F, 0x01, 0x00, 0x08, 0x5A, 0x00, 0x00, 0x00]
    (.tm3cntH .c0 1 (.write .w8 0x5A)) := by decide +kernel

/-- Keys of `opcode_table.json` (R89) at lane 0, 32-bit reads, on CPU1 where both CPUs have the row. -/
theorem test_decode_system_1_reads :
  readsAs .register [0x30, 0x01, 0x00, 0x05] (.keySioRtc .c1 0 (.read .w32)) ∧
  readsAs .register [0x80, 0x01, 0x00, 0x05] (.ipcsync .c1 0 (.read .w32)) ∧
  readsAs .register [0x84, 0x01, 0x00, 0x05] (.ipcfifocnt .c1 0 (.read .w32)) ∧
  readsAs .register [0x88, 0x01, 0x00, 0x05] (.ipcfifosend .c1 0 (.read .w32)) ∧
  readsAs .register [0xA0, 0x01, 0x00, 0x05] (.auxspicnt .c1 0 (.read .w32)) ∧
  readsAs .register [0xA2, 0x01, 0x00, 0x05] (.auxspidata .c1 0 (.read .w32)) ∧
  readsAs .register [0xA4, 0x01, 0x00, 0x05] (.romctrl .c1 0 (.read .w32)) ∧
  readsAs .register [0xA8, 0x01, 0x00, 0x05] (.cardCommand .c1 0 (.read .w32)) ∧
  readsAs .register [0xB0, 0x01, 0x00, 0x05] (.cardSeed .c1 0 (.read .w32)) ∧
  readsAs .register [0xB8, 0x01, 0x00, 0x05] (.cardSeed2 .c1 0 (.read .w32)) ∧
  readsAs .register [0xC0, 0x01, 0x00, 0x05] (.spicntSpidata 0 (.read .w32)) ∧
  readsAs .register [0x04, 0x02, 0x00, 0x05] (.exmemcnt .c1 0 (.read .w32)) := by decide +kernel

/-- The same keys at their last lane, 8-bit writes. -/
theorem test_decode_system_1_writes :
  readsAs .register [0x3F, 0x01, 0x00, 0x08, 0x5A, 0x00, 0x00, 0x00]
    (.keySioRtc .c0 15 (.write .w8 0x5A)) ∧
  readsAs .register [0x83, 0x01, 0x00, 0x08, 0x5A, 0x00, 0x00, 0x00]
    (.ipcsync .c0 3 (.write .w8 0x5A)) ∧
  readsAs .register [0x87, 0x01, 0x00, 0x08, 0x5A, 0x00, 0x00, 0x00]
    (.ipcfifocnt .c0 3 (.write .w8 0x5A)) ∧
  readsAs .register [0x8B, 0x01, 0x00, 0x08, 0x5A, 0x00, 0x00, 0x00]
    (.ipcfifosend .c0 3 (.write .w8 0x5A)) ∧
  readsAs .register [0xA1, 0x01, 0x00, 0x08, 0x5A, 0x00, 0x00, 0x00]
    (.auxspicnt .c0 1 (.write .w8 0x5A)) ∧
  readsAs .register [0xA3, 0x01, 0x00, 0x08, 0x5A, 0x00, 0x00, 0x00]
    (.auxspidata .c0 1 (.write .w8 0x5A)) ∧
  readsAs .register [0xA7, 0x01, 0x00, 0x08, 0x5A, 0x00, 0x00, 0x00]
    (.romctrl .c0 3 (.write .w8 0x5A)) ∧
  readsAs .register [0xAF, 0x01, 0x00, 0x08, 0x5A, 0x00, 0x00, 0x00]
    (.cardCommand .c0 7 (.write .w8 0x5A)) ∧
  readsAs .register [0xB7, 0x01, 0x00, 0x08, 0x5A, 0x00, 0x00, 0x00]
    (.cardSeed .c0 7 (.write .w8 0x5A)) ∧
  readsAs .register [0xBB, 0x01, 0x00, 0x08, 0x5A, 0x00, 0x00, 0x00]
    (.cardSeed2 .c0 3 (.write .w8 0x5A)) ∧
  readsAs .register [0xC3, 0x01, 0x00, 0x09, 0x5A, 0x00, 0x00, 0x00]
    (.spicntSpidata 3 (.write .w8 0x5A)) ∧
  readsAs .register [0x05, 0x02, 0x00, 0x08, 0x5A, 0x00, 0x00, 0x00]
    (.exmemcnt .c0 1 (.write .w8 0x5A)) := by decide +kernel

/-- Keys of `opcode_table.json` (R89) at lane 0, 32-bit reads, on CPU1 where both CPUs have the row. -/
theorem test_decode_system_2_reads :
  readsAs .register [0x08, 0x02, 0x00, 0x05] (.ime .c1 0 (.read .w32)) ∧
  readsAs .register [0x10, 0x02, 0x00, 0x05] (.ie .c1 0 (.read .w32)) ∧
  readsAs .register [0x14, 0x02, 0x00, 0x05] (.ifReg .c1 0 (.read .w32)) := by decide +kernel

/-- The same keys at their last lane, 8-bit writes. -/
theorem test_decode_system_2_writes :
  readsAs .register [0x0B, 0x02, 0x00, 0x08, 0x5A, 0x00, 0x00, 0x00]
    (.ime .c0 3 (.write .w8 0x5A)) ∧
  readsAs .register [0x13, 0x02, 0x00, 0x08, 0x5A, 0x00, 0x00, 0x00]
    (.ie .c0 3 (.write .w8 0x5A)) ∧
  readsAs .register [0x17, 0x02, 0x00, 0x08, 0x5A, 0x00, 0x00, 0x00]
    (.ifReg .c0 3 (.write .w8 0x5A)) := by decide +kernel

/-- Keys of `opcode_table.json` (R89) at lane 0, 32-bit reads, on CPU1 where both CPUs have the row. -/
theorem test_decode_map_reads :
  readsAs .register [0x40, 0x02, 0x00, 0x04] (.vramcntA (.read .w32)) ∧
  readsAs .register [0x41, 0x02, 0x00, 0x04] (.vramcntB (.read .w32)) ∧
  readsAs .register [0x42, 0x02, 0x00, 0x04] (.vramcntC (.read .w32)) ∧
  readsAs .register [0x43, 0x02, 0x00, 0x04] (.vramcntD (.read .w32)) ∧
  readsAs .register [0x44, 0x02, 0x00, 0x04] (.vramcntE (.read .w32)) ∧
  readsAs .register [0x45, 0x02, 0x00, 0x04] (.vramcntF (.read .w32)) ∧
  readsAs .register [0x46, 0x02, 0x00, 0x04] (.vramcntG (.read .w32)) ∧
  readsAs .register [0x47, 0x02, 0x00, 0x04] (.wramcnt (.read .w32)) ∧
  readsAs .register [0x48, 0x02, 0x00, 0x04] (.vramcntH (.read .w32)) ∧
  readsAs .register [0x49, 0x02, 0x00, 0x04] (.vramcntI (.read .w32)) ∧
  readsAs .register [0x40, 0x02, 0x00, 0x05] (.vramstat (.read .w32)) ∧
  readsAs .register [0x41, 0x02, 0x00, 0x05] (.wramstat (.read .w32)) := by decide +kernel

/-- The same keys at their last lane, 8-bit writes. -/
theorem test_decode_map_writes :
  readsAs .register [0x40, 0x02, 0x00, 0x08, 0x5A, 0x00, 0x00, 0x00]
    (.vramcntA (.write .w8 0x5A)) ∧
  readsAs .register [0x41, 0x02, 0x00, 0x08, 0x5A, 0x00, 0x00, 0x00]
    (.vramcntB (.write .w8 0x5A)) ∧
  readsAs .register [0x42, 0x02, 0x00, 0x08, 0x5A, 0x00, 0x00, 0x00]
    (.vramcntC (.write .w8 0x5A)) ∧
  readsAs .register [0x43, 0x02, 0x00, 0x08, 0x5A, 0x00, 0x00, 0x00]
    (.vramcntD (.write .w8 0x5A)) ∧
  readsAs .register [0x44, 0x02, 0x00, 0x08, 0x5A, 0x00, 0x00, 0x00]
    (.vramcntE (.write .w8 0x5A)) ∧
  readsAs .register [0x45, 0x02, 0x00, 0x08, 0x5A, 0x00, 0x00, 0x00]
    (.vramcntF (.write .w8 0x5A)) ∧
  readsAs .register [0x46, 0x02, 0x00, 0x08, 0x5A, 0x00, 0x00, 0x00]
    (.vramcntG (.write .w8 0x5A)) ∧
  readsAs .register [0x47, 0x02, 0x00, 0x08, 0x5A, 0x00, 0x00, 0x00]
    (.wramcnt (.write .w8 0x5A)) ∧
  readsAs .register [0x48, 0x02, 0x00, 0x08, 0x5A, 0x00, 0x00, 0x00]
    (.vramcntH (.write .w8 0x5A)) ∧
  readsAs .register [0x49, 0x02, 0x00, 0x08, 0x5A, 0x00, 0x00, 0x00]
    (.vramcntI (.write .w8 0x5A)) ∧
  readsAs .register [0x40, 0x02, 0x00, 0x09, 0x5A, 0x00, 0x00, 0x00]
    (.vramstat (.write .w8 0x5A)) ∧
  readsAs .register [0x41, 0x02, 0x00, 0x09, 0x5A, 0x00, 0x00, 0x00]
    (.wramstat (.write .w8 0x5A)) := by decide +kernel

/-- Keys of `opcode_table.json` (R89) at lane 0, 32-bit reads, on CPU1 where both CPUs have the row. -/
theorem test_decode_math_reads :
  readsAs .register [0x80, 0x02, 0x00, 0x04] (.divcnt 0 (.read .w32)) ∧
  readsAs .register [0x90, 0x02, 0x00, 0x04] (.divNumer 0 (.read .w32)) ∧
  readsAs .register [0x98, 0x02, 0x00, 0x04] (.divDenom 0 (.read .w32)) ∧
  readsAs .register [0xA0, 0x02, 0x00, 0x04] (.divResult 0 (.read .w32)) ∧
  readsAs .register [0xA8, 0x02, 0x00, 0x04] (.divremResult 0 (.read .w32)) ∧
  readsAs .register [0xB0, 0x02, 0x00, 0x04] (.sqrtcnt 0 (.read .w32)) ∧
  readsAs .register [0xB4, 0x02, 0x00, 0x04] (.sqrtResult 0 (.read .w32)) ∧
  readsAs .register [0xB8, 0x02, 0x00, 0x04] (.sqrtParam 0 (.read .w32)) := by decide +kernel

/-- The same keys at their last lane, 8-bit writes. -/
theorem test_decode_math_writes :
  readsAs .register [0x81, 0x02, 0x00, 0x08, 0x5A, 0x00, 0x00, 0x00]
    (.divcnt 1 (.write .w8 0x5A)) ∧
  readsAs .register [0x97, 0x02, 0x00, 0x08, 0x5A, 0x00, 0x00, 0x00]
    (.divNumer 7 (.write .w8 0x5A)) ∧
  readsAs .register [0x9F, 0x02, 0x00, 0x08, 0x5A, 0x00, 0x00, 0x00]
    (.divDenom 7 (.write .w8 0x5A)) ∧
  readsAs .register [0xA7, 0x02, 0x00, 0x08, 0x5A, 0x00, 0x00, 0x00]
    (.divResult 7 (.write .w8 0x5A)) ∧
  readsAs .register [0xAF, 0x02, 0x00, 0x08, 0x5A, 0x00, 0x00, 0x00]
    (.divremResult 7 (.write .w8 0x5A)) ∧
  readsAs .register [0xB1, 0x02, 0x00, 0x08, 0x5A, 0x00, 0x00, 0x00]
    (.sqrtcnt 1 (.write .w8 0x5A)) ∧
  readsAs .register [0xB7, 0x02, 0x00, 0x08, 0x5A, 0x00, 0x00, 0x00]
    (.sqrtResult 3 (.write .w8 0x5A)) ∧
  readsAs .register [0xBF, 0x02, 0x00, 0x08, 0x5A, 0x00, 0x00, 0x00]
    (.sqrtParam 7 (.write .w8 0x5A)) := by decide +kernel

/-- Keys of `opcode_table.json` (R89) at lane 0, 32-bit reads, on CPU1 where both CPUs have the row. -/
theorem test_decode_render_reads :
  readsAs .register [0x00, 0x03, 0x00, 0x05] (.postflgHaltcntPowcnt .c1 0 (.read .w32)) ∧
  readsAs .register [0x20, 0x03, 0x00, 0x04] (.render3d 0 (.read .w32)) ∧
  readsAs .register [0x40, 0x03, 0x00, 0x04] (.render3d2 0 (.read .w32)) ∧
  readsAs .register [0x80, 0x03, 0x00, 0x04] (.render3d3 0 (.read .w32)) ∧
  readsAs .register [0x00, 0x04, 0x00, 0x04] (.geomPorts 0 (.read .w32)) ∧
  readsAs .register [0x00, 0x04, 0x00, 0x05] (.sound 0 (.read .w32)) ∧
  readsAs .register [0x00, 0x05, 0x00, 0x05] (.sound2 0 (.read .w32)) ∧
  readsAs .register [0x00, 0x06, 0x00, 0x04] (.gxstat 0 (.read .w32)) := by decide +kernel

/-- The same keys at their last lane, 8-bit writes. -/
theorem test_decode_render_writes :
  readsAs .register [0x0F, 0x03, 0x00, 0x08, 0x5A, 0x00, 0x00, 0x00]
    (.postflgHaltcntPowcnt .c0 15 (.write .w8 0x5A)) ∧
  readsAs .register [0x3F, 0x03, 0x00, 0x08, 0x5A, 0x00, 0x00, 0x00]
    (.render3d 31 (.write .w8 0x5A)) ∧
  readsAs .register [0x7F, 0x03, 0x00, 0x08, 0x5A, 0x00, 0x00, 0x00]
    (.render3d2 63 (.write .w8 0x5A)) ∧
  readsAs .register [0xFF, 0x03, 0x00, 0x08, 0x5A, 0x00, 0x00, 0x00]
    (.render3d3 127 (.write .w8 0x5A)) ∧
  readsAs .register [0xFF, 0x05, 0x00, 0x08, 0x5A, 0x00, 0x00, 0x00]
    (.geomPorts 511 (.write .w8 0x5A)) ∧
  readsAs .register [0xFF, 0x04, 0x00, 0x09, 0x5A, 0x00, 0x00, 0x00]
    (.sound 255 (.write .w8 0x5A)) ∧
  readsAs .register [0x1F, 0x05, 0x00, 0x09, 0x5A, 0x00, 0x00, 0x00]
    (.sound2 31 (.write .w8 0x5A)) ∧
  readsAs .register [0x03, 0x06, 0x00, 0x08, 0x5A, 0x00, 0x00, 0x00]
    (.gxstat 3 (.write .w8 0x5A)) := by decide +kernel

/-- Keys of `opcode_table.json` (R89) at lane 0, 32-bit reads, on CPU1 where both CPUs have the row. -/
theorem test_decode_engine_b_1_reads :
  readsAs .register [0x00, 0x10, 0x00, 0x04] (.dispcntB 0 (.read .w32)) ∧
  readsAs .register [0x08, 0x10, 0x00, 0x04] (.bg0cntB 0 (.read .w32)) ∧
  readsAs .register [0x0A, 0x10, 0x00, 0x04] (.bg1cntB 0 (.read .w32)) ∧
  readsAs .register [0x0C, 0x10, 0x00, 0x04] (.bg2cntB 0 (.read .w32)) ∧
  readsAs .register [0x0E, 0x10, 0x00, 0x04] (.bg3cntB 0 (.read .w32)) ∧
  readsAs .register [0x40, 0x10, 0x00, 0x04] (.win0hB 0 (.read .w32)) ∧
  readsAs .register [0x42, 0x10, 0x00, 0x04] (.win1hB 0 (.read .w32)) ∧
  readsAs .register [0x44, 0x10, 0x00, 0x04] (.win0vB 0 (.read .w32)) ∧
  readsAs .register [0x46, 0x10, 0x00, 0x04] (.win1vB 0 (.read .w32)) ∧
  readsAs .register [0x48, 0x10, 0x00, 0x04] (.wininB 0 (.read .w32)) ∧
  readsAs .register [0x4A, 0x10, 0x00, 0x04] (.winoutB 0 (.read .w32)) ∧
  readsAs .register [0x50, 0x10, 0x00, 0x04] (.bldcntB 0 (.read .w32)) := by decide +kernel

/-- The same keys at their last lane, 8-bit writes. -/
theorem test_decode_engine_b_1_writes :
  readsAs .register [0x03, 0x10, 0x00, 0x08, 0x5A, 0x00, 0x00, 0x00]
    (.dispcntB 3 (.write .w8 0x5A)) ∧
  readsAs .register [0x09, 0x10, 0x00, 0x08, 0x5A, 0x00, 0x00, 0x00]
    (.bg0cntB 1 (.write .w8 0x5A)) ∧
  readsAs .register [0x0B, 0x10, 0x00, 0x08, 0x5A, 0x00, 0x00, 0x00]
    (.bg1cntB 1 (.write .w8 0x5A)) ∧
  readsAs .register [0x0D, 0x10, 0x00, 0x08, 0x5A, 0x00, 0x00, 0x00]
    (.bg2cntB 1 (.write .w8 0x5A)) ∧
  readsAs .register [0x0F, 0x10, 0x00, 0x08, 0x5A, 0x00, 0x00, 0x00]
    (.bg3cntB 1 (.write .w8 0x5A)) ∧
  readsAs .register [0x41, 0x10, 0x00, 0x08, 0x5A, 0x00, 0x00, 0x00]
    (.win0hB 1 (.write .w8 0x5A)) ∧
  readsAs .register [0x43, 0x10, 0x00, 0x08, 0x5A, 0x00, 0x00, 0x00]
    (.win1hB 1 (.write .w8 0x5A)) ∧
  readsAs .register [0x45, 0x10, 0x00, 0x08, 0x5A, 0x00, 0x00, 0x00]
    (.win0vB 1 (.write .w8 0x5A)) ∧
  readsAs .register [0x47, 0x10, 0x00, 0x08, 0x5A, 0x00, 0x00, 0x00]
    (.win1vB 1 (.write .w8 0x5A)) ∧
  readsAs .register [0x49, 0x10, 0x00, 0x08, 0x5A, 0x00, 0x00, 0x00]
    (.wininB 1 (.write .w8 0x5A)) ∧
  readsAs .register [0x4B, 0x10, 0x00, 0x08, 0x5A, 0x00, 0x00, 0x00]
    (.winoutB 1 (.write .w8 0x5A)) ∧
  readsAs .register [0x51, 0x10, 0x00, 0x08, 0x5A, 0x00, 0x00, 0x00]
    (.bldcntB 1 (.write .w8 0x5A)) := by decide +kernel

/-- Keys of `opcode_table.json` (R89) at lane 0, 32-bit reads, on CPU1 where both CPUs have the row. -/
theorem test_decode_engine_b_2_reads :
  readsAs .register [0x52, 0x10, 0x00, 0x04] (.bldalphaB 0 (.read .w32)) ∧
  readsAs .register [0x54, 0x10, 0x00, 0x04] (.bldyB 0 (.read .w32)) := by decide +kernel

/-- The same keys at their last lane, 8-bit writes. -/
theorem test_decode_engine_b_2_writes :
  readsAs .register [0x53, 0x10, 0x00, 0x08, 0x5A, 0x00, 0x00, 0x00]
    (.bldalphaB 1 (.write .w8 0x5A)) ∧
  readsAs .register [0x55, 0x10, 0x00, 0x08, 0x5A, 0x00, 0x00, 0x00]
    (.bldyB 1 (.write .w8 0x5A)) := by decide +kernel

/-- Keys of `opcode_table.json` (R89) at lane 0, 32-bit reads, on CPU1 where both CPUs have the row. -/
theorem test_decode_high_reads :
  readsAs .register [0x00, 0x00, 0x10, 0x05] (.ipcfiforecv .c1 0 (.read .w32)) ∧
  readsAs .register [0x10, 0x00, 0x10, 0x05] (.cardDataIn .c1 0 (.read .w32)) ∧
  readsAs .register [0x00, 0x00, 0x80, 0x05] (.wifiWindow 0 (.read .w32)) := by decide +kernel

/-- The same keys at their last lane, 8-bit writes. -/
theorem test_decode_high_writes :
  readsAs .register [0x03, 0x00, 0x10, 0x08, 0x5A, 0x00, 0x00, 0x00]
    (.ipcfiforecv .c0 3 (.write .w8 0x5A)) ∧
  readsAs .register [0x13, 0x00, 0x10, 0x08, 0x5A, 0x00, 0x00, 0x00]
    (.cardDataIn .c0 3 (.write .w8 0x5A)) ∧
  readsAs .register [0xFF, 0xFF, 0xFF, 0x09, 0x5A, 0x00, 0x00, 0x00]
    (.wifiWindow 8388607 (.write .w8 0x5A)) := by decide +kernel
/-! ### Ill-formed operands -/

theorem smoke_trigger_without_an_event :
  Instr.wf (.trigger .c0 0) = false ∧ Instr.wf (.trigger .c0 9) = false ∧ Instr.wf (.trigger .c0 1) = true ∧
    Instr.wf (.trigger .c1 8) = true := by decide

theorem smoke_raiseirq_beyond_bit_31 :
  Instr.wf (.raiseirq .c0 32) = false ∧ Instr.wf (.raiseirq .c1 31) = true := by decide

theorem smoke_remap_of_a_region_not_allowed :
  Instr.wf (.remap .c0 0x60 22 0) = false ∧ Instr.wf (.remap .c0 0x27 2 0x3FFF) = false ∧
    Instr.wf (.remap .c1 0x40 6 0xFFFFFF) = false ∧ Instr.wf (.remap .c0 0x40 7 0xFFFFFF) = false ∧
    Instr.wf (.remap .c0 0x40 6 0xFFFFFF) = true := by decide

theorem smoke_mount_size_no_power_of_two :
  Instr.wf (.mount 3 [1, 2, 3]) = false ∧ Instr.wf (.mount 2 [1, 2]) = false := by decide +kernel

theorem smoke_mount_bytes_do_not_match_the_size :
  Instr.wf (.mount 4 [1, 2, 3]) = false ∧ Instr.wf (.mount 4 [1, 2, 3, 4]) = true := by decide +kernel

theorem smoke_load_into_no_bytes :
  Instr.wf (.load 0 0 [1]) = false ∧ Instr.wf (.load 6 0 [1]) = false ∧ Instr.wf (.load 7 0 [1]) = false ∧
    Instr.wf (.load 22 0 [1]) = false := by decide

theorem smoke_load_past_the_region :
  Instr.wf (.load 3 0x7FFFFFFF [0xAA, 0xBB]) = false ∧ Instr.wf (.load 3 0x7FFFFFFE [0xAA, 0xBB]) = true := by
  decide +kernel

/-! ### Single steps

Each theorem names the rows of 95_test_vectors.md its values come from. -/

/-- A1 to A3. -/
theorem test_reads_align_and_give_lanes :
  answers (.read8 .c0 0x02000001) (startMain [0x44, 0x33, 0x22, 0x11]) 0x33 ∧
  answers (.read16 .c0 0x02000003) (startMain [0x44, 0x33, 0x22, 0x11]) 0x1122 ∧
  answers (.read32 .c0 0x02000002) (startMain [0x44, 0x33, 0x22, 0x11]) 0x11223344 ∧
  answers (.read32 .c1 0x12C00000) (startMain [0x44, 0x33, 0x22, 0x11]) 0x11223344 := by decide +kernel

/-- A5, A6 and E2. -/
theorem test_writes_keep_the_other_lanes :
  answers (.read32 .c0 0x02000000) (after (.write8 .c0 0x02000000 0xAB) (startMain [0x44, 0x33, 0x22, 0x11]))
    0x112233AB ∧
  answers (.read32 .c0 0x02000000) (after (.write16 .c0 0x02000003 0xBEEF) (startMain [0xAB, 0x33, 0x22, 0x11]))
    0xBEEF33AB ∧
  answers (.read32 .c1 0x02400000) (after (.write32 .c0 0x02800000 0xCAFEF00D) start) 0xCAFEF00D := by decide +kernel

/-- A12. -/
theorem test_settcw_clears_the_low_bits :
  (after (.settcw 0x027C0005) start).tcwBase = 0x027C0000 := by decide +kernel

/-- A13 and A16: a write through the window does not reach main memory. -/
theorem test_window_shadows_main_memory :
  answers (.read32 .c0 0x027C0010) (after (.write32 .c0 0x027C0010 7) { start with tcwBase := 0x027C0000 }) 7 ∧
  answers (.read32 .c0 0x127C0010) (after (.write32 .c0 0x027C0010 7) { start with tcwBase := 0x027C0000 }) 0 := by
  decide +kernel

/-- A18, A19: CPU1 does not see CPU0's tightly-coupled memory. -/
theorem test_itcm_repeats :
  answers (.read32 .c0 0x01FF8004) (after (.write32 .c0 0x00000004 0x55) start) 0x55 ∧
  answers (.read32 .c1 0x00000004) (after (.write32 .c0 0x00000004 0x55) start) 0 := by decide +kernel

/-- A20, A21. -/
theorem test_load_fills_a_region :
  answers (.read32 .c0 0xFFFF8000) (after (.load 19 0 [0x00, 0x00, 0xA0, 0xE3]) start) 0xE3A00000 ∧
  answers (.read16 .c1 0x00004010) (after (.load 20 0x10 [0xAA, 0xBB]) start) 0xBBAA := by decide +kernel

/-- A23: one call, and the raw block stays. -/
theorem test_wireless_write_is_one_call :
  (after (.write16 .c1 0x04800002 0x55) start).log = [.wifiWrite 0x04800002 .w16 0x0055] ∧
  (after (.write16 .c1 0x04800002 0x55) start).mem = start.mem ∧
  (after (.wifiWindow 2 (.write .w16 0x55)) start).log = [.wifiWrite 0x04800002 .w16 0x0055] := by decide +kernel

/-- A26. -/
theorem test_cart_writes_are_byte_calls :
  (after (.write16 .c1 0x0A000010 0xA1B2) start).log =
    [.cartPassWrite8 .c1 0x0A000010 0xB2, .cartPassWrite8 .c1 0x0A000011 0xA1] := by decide +kernel

/-- A27, A28, with a cartridge of 8 bytes. -/
theorem test_mount_maps_the_cartridge :
  answers (.read8 .c1 0x08000001) (after (.mount 8 [0, 1, 2, 3, 4, 5, 6, 7]) start) 1 ∧
  answers (.read32 .c0 0x09000104) (after (.mount 8 [0, 1, 2, 3, 4, 5, 6, 7]) start) 0x07060504 := by decide +kernel

/-- A29: after UNMOUNT the entries are sink entries again. -/
theorem test_unmount_leaves_sinks :
  (after .unmount (after (.mount 8 [0, 1, 2, 3, 4, 5, 6, 7]) start)).entry .c0 0x80 = ⟨.sink, 0⟩ ∧
  (after .unmount (after (.mount 8 [0, 1, 2, 3, 4, 5, 6, 7]) start)).cart = none := by decide +kernel

/-- A31 and the refusals of 2.2. -/
theorem test_remap_replaces_one_entry :
  (after (.remap .c0 0x60 10 0x1FFFF) start).entry .c0 0x60 = ⟨.vramA, 0x1FFFF⟩ ∧
  (after (.remap .c0 0x60 10 0x1FFFF) start).entry .c1 0x60 = ⟨.sink, 0⟩ ∧
  (after (.remap .c0 0x80 21 0x1FFFFFF) start).refused = true := by decide +kernel

/-- E7 and W2: the merged value is forwarded. -/
theorem test_display_control_forwards :
  (after (.dispcntA 0 (.write .w32 0x00010000)) start).log = [.setDisplayControl .a 0x00010000] ∧
  (after (.write16 .c0 0x04000002 0xABCD) (start.setRaw .c0 0 4 0x12345678)).log =
    [.setDisplayControl .a 0xABCD5678] := by decide +kernel

/-- W5: a wide write forwards two registers in order; W9: engine B. -/
theorem test_background_controls_forward_in_order :
  (after (.bg0cntA 0 (.write .w32 0x00051F04)) start).log =
    [.setBackgroundControl .a 0 0x1F04, .setBackgroundControl .a 1 0x0005] ∧
  (after (.bldcntB 0 (.write .w16 0x00C1)) start).log = [.setBlendControl .b 0x00C1] := by decide +kernel

/-- W7. -/
theorem test_narrow_blend_write_is_merged :
  (after (.bldcntA 1 (.write .w8 0x3F)) start).log = [.setBlendControl .a 0x3F00] := by decide +kernel

/-- W10 and W12. -/
theorem test_geometry_merges_and_sound_does_not :
  (after (.write16 .c0 0x04000402 0x5678) (start.setRaw .c0 0x400 2 0x1234)).log = [.geomCommand 0x400 0x56781234] ∧
  (after (.sound2 0 (.write .w8 0x7F)) start).log = [.audioWrite 0x500 .w8 0x7F] := by decide +kernel

/-- W18: the high byte of AUXSPIDATA is forced to 0, and the low byte is not transferred. -/
theorem test_backup_high_byte_transfers_nothing :
  (after (.auxspidata .c0 1 (.write .w8 0x77)) start).log = [] ∧
  (after (.auxspidata .c0 1 (.write .w8 0x77)) start).ioByte .c0 0x1A3 = 0 := by decide +kernel

/-- W19. -/
theorem test_rom_control_passes_the_command :
  (after (.romctrl .c1 0 (.write .w32 0xA7586000)) (start.setRaw .c1 0x1A8 4 0xB7)).log =
    [.cartControl .c1 0xA7586000 0xB7] := by decide +kernel

/-- W15: IME keeps bit 0. -/
theorem test_ime_is_one_bit :
  answers (.ime .c0 0 (.read .w32)) (after (.ime .c0 0 (.write .w32 0xFFFFFFFF)) start) 1 := by decide +kernel

/-- V1, V5 and V7: the division-by-zero bit looks at all 64 bits, and the mode bits alone are read. -/
theorem test_divcnt_as_read :
  answers (.divcnt 0 (.read .w16)) start 0x4000 ∧
  answers (.divcnt 0 (.read .w16)) (start.setRaw .c0 0x29C 4 1) 0 ∧
  answers (.divcnt 0 (.read .w32)) (start.setRaw .c0 0x280 2 0xFFFF) 0x4003 := by decide +kernel

/-- The reference divider of R159, at V2, V3, V8, V9 and P5: quotient and remainder. -/
theorem test_reference_divider :
  divReference divCornerZeroReference divCornerOverflowReference 0 0xFFFFFFFFFFFFFFF9 2 =
    (0xFFFFFFFFFFFFFFFD, 0xFFFFFFFFFFFFFFFF) ∧
  divReference divCornerZeroReference divCornerOverflowReference 0 5 0 = (0xFFFFFFFFFFFFFFFF, 5) ∧
  divReference divCornerZeroReference divCornerOverflowReference 0 0xFFFFFFFF80000000 0xFFFFFFFFFFFFFFFF =
    (0x80000000, 0) ∧
  divReference divCornerZeroReference divCornerOverflowReference 2 0x8000000000000000 0xFFFFFFFFFFFFFFFF =
    (0x8000000000000000, 0) ∧
  divReference divCornerZeroReference divCornerOverflowReference 1 1000000000000 0xFFFFFFFFFFFFFFF9 =
    (0xFFFFFFDEBD0CFDB7, 1) := by decide +kernel

/-- V5 and P5: the operands of a mode. -/
theorem test_divider_operands :
  divNumerator (start.setRaw .c0 0x290 4 0xFFFFFFF9) = 0xFFFFFFFFFFFFFFF9 ∧
  divDenominator (start.setRaw .c0 0x298 8 0x100000000) = 0 ∧
  divDenominator ((start.setRaw .c0 0x298 4 0xFFFFFFF9).setRaw .c0 0x280 2 1) = 0xFFFFFFFFFFFFFFF9 := by decide +kernel

/-- V14: SQRTCNT reads its mode bit alone. -/
theorem test_sqrtcnt_as_read :
  answers (.sqrtcnt 0 (.read .w16)) (start.setRaw .c0 0x2B0 2 0xFFFF) 1 := by decide +kernel

/-- M9, M10. -/
theorem test_dma_source_masks :
  answers (.dma0sad .c1 0 (.read .w32)) (after (.dma0sad .c1 0 (.write .w32 0xFFFFFFFF)) start) 0x07FFFFFF ∧
  answers (.dma1sad .c1 0 (.read .w32)) (after (.dma1sad .c1 0 (.write .w32 0xFFFFFFFF)) start) 0x0FFFFFFF := by
  decide +kernel

/-- M11, M12. -/
theorem test_dma_control_masks :
  answers (.dma0cnt .c1 0 (.read .w32)) (after (.dma0cnt .c1 0 (.write .w32 0x7FFFFFFF)) start) 0x77E03FFF ∧
  answers (.dma3cnt .c1 0 (.read .w32)) (after (.dma3cnt .c1 0 (.write .w32 0x7FFFFFFF)) start) 0x77E0FFFF := by
  decide +kernel

/-- `startMain` with channel 0 of CPU0 programmed from 0x02000000 to 0x02000040. -/
def programmedMain : State :=
  withChan (startMain [5, 6, 7, 8]) .c0 0 ⟨0x02000000, 0x02000040, 0, 0, 0, 0, false, false⟩

/-- E3, with one element: the burst runs inside the write, and the enable bit reads 0 after it. -/
theorem test_immediate_burst :
  answers (.read32 .c0 0x02000040) (after (.dma0cnt .c0 0 (.write .w32 0x84000001)) programmedMain) 0x08070605 ∧
  answers (.read32 .c0 0x040000B8) (after (.dma0cnt .c0 0 (.write .w32 0x84000001)) programmedMain) 0x04000001 := by
  decide +kernel

/-- M15: the completion interrupt of channel 0 is IF bit 8; M21: a count of 0 raises nothing. -/
theorem test_completion_interrupt :
  ((after (.programChannel .c0 0 0xC4000001) programmedMain).side .c0).iflag = 0x100 ∧
  ((after (.programChannel .c0 0 0xC4000000) programmedMain).side .c0).iflag = 0 := by decide +kernel

/-- M17, M18. -/
theorem test_trigger_runs_its_event_only :
  answers (.read32 .c0 0x02000040)
    (after (.trigger .c0 2) (after (.programChannel .c0 0 0xC8000001) programmedMain)) 0 ∧
  answers (.read32 .c0 0x02000040)
    (after (.trigger .c0 1) (after (.programChannel .c0 0 0xC8000001) programmedMain)) 0x0605 := by decide +kernel

/-- M24: a burst that writes its own control register is refused, and so is the whole request. -/
theorem test_self_programming_burst_is_refused :
  (after (.programChannel .c0 0 0x84400001)
    (withChan (startMain [1, 0, 0, 0x84]) .c0 0 ⟨0x02000000, 0x040000B8, 0, 0, 0, 0, false, false⟩)).refused = true ∧
  ((after (.programChannel .c0 0 0x84400001)
    (withChan (startMain [1, 0, 0, 0x84]) .c0 0 ⟨0x02000000, 0x040000B8, 0, 0, 0, 0, false, false⟩)).chan .c0 0).cnt = 0 := by
  decide +kernel

/-- R194: a burst into IPCFIFOSEND sends its words in order. -/
theorem test_burst_into_the_send_register :
  ((after (.execute .c0 0) (withChan (startMain [1, 0, 0, 0, 2, 0, 0, 0]) .c0 0
    ⟨0, 0, 0x84400002, 0x02000000, 0x04000188, 2, true, false⟩)).side .c1).fifo = [1, 2] := by decide +kernel

/-- M1: a decrementing source; the working addresses go on. -/
theorem test_burst_steps_its_addresses :
  ((after (.execute .c0 1) (startChan .c0 1 ⟨0, 0, 0x84800002, 0x02000010, 0x02002000, 2, true, false⟩)).chan .c0 1).src =
    0x02000008 ∧
  ((after (.execute .c0 1) (startChan .c0 1 ⟨0, 0, 0x84800002, 0x02000010, 0x02002000, 2, true, false⟩)).chan .c0 1).dst =
    0x02002008 := by decide +kernel

/-- T1, T15: the low register reads the counter, and a write of it changes the reload only. -/
theorem test_timer_low_register :
  answers (.read32 .c0 0x04000100) (after (.write32 .c0 0x04000100 0x0080FFFE) start) 0x0080FFFE ∧
  answers (.tm0cntL .c0 0 (.read .w16)) (after (.setReload .c0 0 0x2000) (startTimer .c0 0 ⟨0x1000, 0x1000, 0, false, false, true, 0⟩))
    0x1000 := by decide +kernel

/-- T11, T16. -/
theorem test_timer_control :
  answers (.tm0cntH .c0 0 (.read .w16)) (after (.tm0cntH .c0 0 (.write .w16 0x84)) start) 0x80 ∧
  ((after (.setControl .c0 0 0x81) (startTimer .c0 0 ⟨0x2000, 0x1000, 0, false, false, true, 0⟩)).timer .c0 0).counter =
    0x1000 := by decide +kernel

/-- T6: the prescaler of 1024 elapses, the counter reloads, and IF bit 6 is set. -/
theorem test_timer_overflow :
  (after (.tick .c0 1) (startTimer .c0 3 ⟨0xFFFF, 0xFFFF, 3, false, true, true, 1023⟩)).reply = .overflows 0 0 0 1 ∧
  ((after (.tick .c0 1) (startTimer .c0 3 ⟨0xFFFF, 0xFFFF, 3, false, true, true, 1023⟩)).side .c0).iflag = 0x40 := by
  decide +kernel

/-- T9: a cascaded timer counts the overflows of the one below. -/
theorem test_timer_cascade :
  (after (.tick .c0 2) (withTimer (startTimer .c0 0 ⟨0xFFFF, 0xFFFF, 0, false, false, true, 0⟩) .c0 1
    ⟨0xFFFE, 0xFFFE, 0, true, true, true, 0⟩)).reply = .overflows 2 1 0 0 := by decide +kernel

/-- E6. -/
theorem test_sync_request :
  ((after (.writeSync .c0 0x2B00) (after (.writeSync .c1 0x4000) start)).side .c1).iflag = 0x10000 ∧
  answers (.ipcsync .c1 0 (.read .w32)) (after (.writeSync .c0 0x2B00) (after (.writeSync .c1 0x4000) start)) 0x400B := by
  decide +kernel

/-- I3, I4: the byte at 0x181 holds the payload and the request, the byte at 0x180 nothing writable. -/
theorem test_sync_bytes :
  answers (.read32 .c0 0x04000180) (after (.ipcsync .c0 1 (.write .w8 0x27)) start) 0x700 ∧
  answers (.read32 .c0 0x04000180) (after (.ipcsync .c0 0 (.write .w8 0xFF)) start) 0 := by decide +kernel

/-- I7. -/
theorem test_fifo_control_raises_the_enabled_condition :
  ((after (.fifoControl .c1 0x8404) start).side .c1).iflag = 0x20000 ∧
  answers (.ipcfifocnt .c1 0 (.read .w32)) (after (.fifoControl .c1 0x8404) start) 0x8505 := by decide +kernel

/-- I8, I11: a send fills the other CPU's queue, and bit 3 empties it. -/
theorem test_send_and_clear :
  answers (.ipcfifocnt .c1 0 (.read .w32)) (after (.send .c0 0xDEADBEEF) start) 0x1 ∧
  ((after (.fifoControl .c0 0x8) (after (.send .c0 1) start)).side .c1).fifo = [] := by decide +kernel

/-- I13: a narrow read pops one word, and the receive register then repeats it. -/
theorem test_narrow_receive :
  answers (.ipcfiforecv .c0 1 (.read .w8)) (after (.send .c1 0x11223344) start) 0x33 ∧
  answers (.recv .c0) (after (.ipcfiforecv .c0 1 (.read .w8)) (after (.send .c1 0x11223344) start)) 0x11223344 := by
  decide +kernel

/-- I18: a narrow write pushes one merged word. -/
theorem test_narrow_send_is_merged :
  ((after (.ipcfifosend .c0 2 (.write .w16 0xBBBB)) (start.setRaw .c0 0x188 4 0xAAAA)).side .c1).fifo =
    [0xBBBBAAAA] := by decide +kernel

/-- L3, L4. -/
theorem test_pending_output :
  ((after (.setIE .c0 0x108) (after (.setIME .c0 1) (after (.raiseirq .c0 8) start))).side .c0).pending = true ∧
  ((after (.setIME .c0 0) (after (.raiseirq .c0 8) start)).side .c0).pending = false := by decide +kernel

/-- L6 to L8: an acknowledge takes the written lanes. -/
theorem test_acknowledge_lanes :
  ((after (.ifReg .c0 2 (.write .w16 1)) (after (.setIF .c0 0x10008) start)).side .c0).iflag = 8 ∧
  ((after (.clearIF .c0 0) (after (.setIF .c0 8) start)).side .c0).iflag = 8 := by decide +kernel

/-- L10: RAISEIRQ of bit 31. -/
theorem test_raiseirq_top_bit :
  answers (.ifReg .c0 0 (.read .w32)) (after (.raiseirq .c0 31) start) 0x80000000 := by decide +kernel

/-- 2.10. -/
theorem test_reset_reads :
  answers (.read32 .c1 0x04000184) (after (.reset) start) 0x101 ∧
  answers (.read16 .c1 0x04000280) (after (.reset) start) 0 := by decide +kernel

/-- W13, W14: what has no handler is storage. -/
theorem test_storage_rows :
  answers (.sound 0 (.read .w32)) (after (.sound 0 (.write .w32 0xAABBCCDD)) start) 0xAABBCCDD ∧
  (after (.write32 .c1 0x04000000 5) start).log = [] := by decide +kernel

/-- R134: the contract call alone stores nothing; it runs the handlers. -/
theorem test_on_register_write :
  (after (.onRegisterWrite .c0 0 .w32 0x12345678) start).log = [.setDisplayControl .a 0] ∧
  (after (.onRegisterRead .c0 0 .w32) start).reply = .none := by decide +kernel

/-- R10, R23, R103: in a configuration with 1 MiB of main memory and no pass-through window, main memory repeats every
1 MiB, a LOAD beyond it is refused, and no collaborator is asked at the default window's address. -/
theorem test_another_configuration :
  let g := { BusConfig.default with cartPassFirst := 1, cartPassLast := 0, sizes := { RegionSizes.default with main := 18 } }
  let s := { State.construct g with tcwBase := 0x00800000 }
  answers (.read32 .c1 0x02300000) (after (.write32 .c0 0x02000000 0xCAFE) s) 0xCAFE ∧
  (after (.load 3 0xFFFFF [1, 2]) s).refused = true ∧ (after (.load 3 0xFFFFF [1]) s).refused = false ∧
  (after (.read8 .c0 0x0A000000) s).log = [] ∧ (after (.read8 .c0 0x0A000000) start).log.length = 1 := by decide +kernel

/-- R91, R100, R113: a second entry of the register window reaches the same registers. -/
theorem test_window_through_another_entry :
  answers (.read32 .c0 0x04000208) (after (.write32 .c0 0x06000208 1) (after (.remap .c0 0x60 6 0xFFFFFF) start)) 1 ∧
  ((after (.write32 .c0 0x06000208 1) (after (.remap .c0 0x60 6 0xFFFFFFFF) start)).side .c0).ime = true := by
  decide +kernel

/-- R91 and R100 under a mask that drops bits of the offset: R100's or R91's, the spec's two readings. -/
theorem test_window_offset_under_a_narrow_mask :
  windowOffset 0x06000208 0xFF = if Config.windowOffsetMasked then 0x08 else 0x208 := by
  have h : ∀ b : Bool, ((0x06000208 : Word) &&& if b then (0xFF : Word) &&& 0x00FFFFFF else 0x00FFFFFF).toNat =
      if b then 0x08 else 0x208 := by decide
  exact h Config.windowOffsetMasked

/-- R83, R86: a LOAD past the end of its region is refused where it runs. -/
theorem test_load_past_the_region :
  (after (.load 3 0x3FFFFF [0xAA, 0xBB]) start).refused = true ∧
  (after (.load 3 0x3FFFFE [0xAA, 0xBB]) start).refused = false := by decide +kernel

/-! ### Witnesses

`witness_<Name>` shows that something meets the hypotheses of `Obligations.<Name>`, at the boundary values of each
clause. -/

/-- Every region of `start` that CPU accesses reach through the table, by entry: the address decodes there. -/
theorem start_at (c : Cpu) (a : Nat) (r : Region) (o size : Nat) (h : ThroughTable start c a)
    (he : (entryOf start c a).region = r) (hs : regionSize start.config none r = some size)
    (ho : o = a &&& (entryOf start c a).mask.toNat &&& (size - 1)) : AtRegion start c a r o :=
  ⟨h, he, size, hs, ho⟩

/-- An address that no window of `start` takes. -/
theorem start_through (c : Cpu) (a : Nat) (h1 : a / 2 ^ 14 ≠ 0x200) (h2 : a % 2 ^ 28 < 0x0A000000)
    (h3 : c = .c0 ∨ a % 2 ^ 28 < 0x04800000) : ThroughTable start c a := by
  refine ⟨fun h => h1 h.2, fun h => ?_, fun h => ?_⟩
  · have h0 : 0x0A000000 ≤ a % 2 ^ 28 := h.1
    omega
  · have h4 := h.1
    have h5 := h.2.1
    rcases h3 with h3 | h3
    · rw [h3] at h4
      cases h4
    · omega

/-- The whole register window of both CPUs, but for CPU1's wireless window, is in the table of `start`. -/
theorem start_window (c : Cpu) (o : Nat) (ho : o < 0x800000) :
    AtWindow start c (0x04000000 + o) o := by
  have hr : ∀ i, i < 8 → start.entry c (BitVec.ofNat 8 (0x40 + i)) = ⟨ioRegion c, 0xFFFFFF⟩ := by
    cases c <;> decide +kernel
  have hi : BitVec.ofNat 8 ((0x04000000 + o) / 2 ^ 20) = BitVec.ofNat 8 (0x40 + o / 2 ^ 20) := by
    congr 1
    omega
  have he : entryOf start c (0x04000000 + o) = ⟨ioRegion c, 0xFFFFFF⟩ := by
    rw [entryOf, hi]
    exact hr _ (by omega)
  exact ⟨start_through c _ (by omega) (by omega) (by omega), by rw [he], by
    rw [he, windowOffsetOf, if_neg (fun h => h.1 rfl)]; omega⟩

/-- A bus read of the register window reaches it. -/
theorem start_reaches_read (c : Cpu) (w : Width) (o : Nat) (ho : o < 0x800000) (ha : o % w.bytes = 0) :
    Reaches start (readInstr w c (BitVec.ofNat 32 (0x04000000 + o))) c o (.read w) := by
  refine .busRead w _ rfl rfl ?_
  have : alignTo w (BitVec.ofNat 32 (0x04000000 + o)).toNat = 0x04000000 + o := by
    rw [BitVec.toNat_ofNat, Nat.mod_eq_of_lt (by omega), alignTo]
    cases w <;> simp only [Width.bytes] at ha ⊢ <;> omega
  rw [this]
  exact start_window c o ho

/-- A bus write of the register window reaches it. -/
theorem start_reaches_write (c : Cpu) (w : Width) (o : Nat) (v : Word) (ho : o < 0x800000) (ha : o % w.bytes = 0) :
    Reaches start (writeInstr w c (BitVec.ofNat 32 (0x04000000 + o)) v) c o (.write w v) := by
  refine .busWrite w _ v rfl rfl ?_
  have : alignTo w (BitVec.ofNat 32 (0x04000000 + o)).toNat = 0x04000000 + o := by
    rw [BitVec.toNat_ofNat, Nat.mod_eq_of_lt (by omega), alignTo]
    cases w <;> simp only [Width.bytes] at ha ⊢ <;> omega
  rw [this]
  exact start_window c o ho

/-- A register's own contract call. -/
theorem calls_direct (s : State) (i : Instr) (c : Cpu) (base size v : Nat) : Calls s i i c base size v s :=
  .inl ⟨rfl, rfl⟩

/-- A 32-bit bus write of a register calls its internal operation with the written word. -/
theorem start_calls_write (c : Cpu) (op : Instr) (o : Nat) (v : Word) (ho : o < 0x800000) (ha : o % 4 = 0) :
    Calls start (writeInstr .w32 c (BitVec.ofNat 32 (0x04000000 + o)) v) op c o 4 v.toNat (stored c o .w32 v start) := by
  refine .inr ⟨o, .w32, v, start_reaches_write c .w32 o v ho ha, Nat.le_refl _, Nat.le_refl _, ?_, rfl⟩
  have h : mergedBytes start c o 4 o .w32 v = bytesValue 4 fun i => byteAt v.toNat i := by
    refine bytesValue_congr 4 _ _ fun i hi => ?_
    have hw : Width.w32.bytes = 4 := rfl
    have hc : o ≤ o + i ∧ o + i < o + Width.w32.bytes := by omega
    exact (if_pos hc).trans (by rw [Nat.add_sub_cancel_left])
  rw [h, bytesValue_byteAt 4 v.toNat v.isLt]

/-- `start` with requests waiting. -/
def startWith (qs : List Request) : State :=
  { start with input := qs }

theorem start_memory_form : Memory.wf start.mem := by decide +kernel

theorem start_pending : PendingOk start := by
  intro c
  cases c <;> rfl

theorem start_fifo : FifoBounded start := by
  intro c
  cases c <;> exact Nat.zero_le _

theorem start_active : ActiveOk start := by
  intro c
  cases c <;> decide +kernel

theorem start_quiet : Quiet start := by
  intro c
  cases c <;> decide +kernel

theorem start_timer_zero : TimerZeroOk start := by
  intro c
  cases c <;> decide +kernel

theorem start_cart : CartOk start := by
  intro size h
  cases h

theorem start_config : ConfigOk start := by
  intro c i
  revert i
  cases c <;> decide +kernel

theorem start_table : TableOk start := by
  intro c i
  revert i
  cases c <;> decide +kernel

theorem start_cells : CellsInside start := by
  intro x hx
  have h : ∀ x ∈ start.mem, x.1 ∈ [cellKey .io0 0x184, cellKey .io0 0x185, cellKey .io1 0x184, cellKey .io1 0x185] := by
    decide +kernel
  have h := h x hx
  simp only [List.mem_cons, List.not_mem_nil, or_false] at h
  rcases h with h | h | h | h
  · exact ⟨.io0, 2 ^ 24, 0x184, rfl, by decide, h⟩
  · exact ⟨.io0, 2 ^ 24, 0x185, rfl, by decide, h⟩
  · exact ⟨.io1, 2 ^ 24, 0x184, rfl, by decide, h⟩
  · exact ⟨.io1, 2 ^ 24, 0x185, rfl, by decide, h⟩

theorem start_mirrors : MirrorOk start := by
  intro c
  cases c <;> constructor <;> decide +kernel

theorem witness_EncodingDecodesBack :
    Instr.wf (.load 3 0x3FFFFE [0xAA, 0xBB]) = true ∧ Instr.wf (.mount 4 [1, 2, 3, 4]) = true ∧
    Instr.wf (.trigger .c1 8) = true ∧ Instr.wf (.raiseirq .c0 31) = true ∧ Instr.wf (.remap .c0 0xFF 6 0) = true ∧
    Instr.wf (.onRegisterWrite .c1 0xFFFFFF .w32 0xFFFFFFFF) = true := by decide +kernel

theorem witness_DecodedBytesAreTheEncoding :
    decode ⟨.bus, [0x0D, 0xFF, 0xFF, 0xFF, 0xFF, 0x80]⟩ = .ok (.read32 .c1 0xFFFFFFFF, [0x80]) ∧
    decode ⟨.register, [0xFF, 0xFF, 0xFF, 0x05]⟩ = .ok (.wifiWindow 0x7FFFFF (.read .w32), []) := ⟨rfl, rfl⟩

/-- One request of each malformed form, at the ends of the ranges. -/
theorem witness_MalformedRequestsAreRefused :
    (∀ op ∈ ([0xB0, 0xFF, 0x00, 0x11, 0x24, 0x5C, 0xA4, 0x06, 0xA2, 0x51, 0x71, 0x81, 0x91, 0xA1] : List Byte),
      11 ≤ op.toNat / 16 ∨ (op.toNat / 16 ≤ 1 ∧ op.toNat / 4 % 4 = 0) ∨ (2 ≤ op.toNat / 16 ∧ op.toNat / 4 % 4 ≠ 0) ∨
        op.toNat / 2 % 2 = 1 ∨ (op.toNat / 16 ∈ [5, 7, 8, 9, 10] ∧ op.toNat % 2 = 1)) ∧
    (∃ (size : Word) (b : List Byte), [(4 : Byte), 0, 0, 0, 1, 2, 3] = word4 size ++ b ∧ b.length < size.toNat) ∧
    (∃ (region : Byte) (offset k : Word) (b : List Byte),
      [(3 : Byte), 0, 0, 0, 0, 1, 0, 0, 0] = region :: (word4 offset ++ (word4 k ++ b)) ∧ b.length < k.toNat) ∧
    ((9 : Byte).toNat = 0 ∨ 9 ≤ (9 : Byte).toNat) ∧ 32 ≤ (32 : Byte).toNat ∧
    BadRemapCode start .c0 22 ∧ BadRemapCode start .c1 2 ∧ BadRemapCode start .c1 6 ∧ BadRemapCode start .c0 7 ∧
    BadRemapCode start .c0 21 ∧
    (¬ ∃ k, 2 ≤ k ∧ (3 : Word).toNat = 2 ^ k) ∧ (¬ ∃ k, 2 ≤ k ∧ (2 : Word).toNat = 2 ^ k) ∧
    (∃ r size, Region.ofCode 3 = some r ∧ regionSize start.config start.cart r = some size ∧
      size < (0x3FFFFF : Word).toNat + [(0xAA : Byte), 0xBB].length) := by
  have hk : ∀ n k, 2 ≤ k → n < 4 → n ≠ 2 ^ k := by
    intro n k hk hn h
    have := Nat.pow_le_pow_right (n := 2) (by omega) hk
    omega
  refine ⟨by decide, ⟨4, [1, 2, 3], by decide, by decide⟩, ⟨3, 0, 1, [], by decide, by decide⟩, .inr (by decide),
    by decide, .inl (by decide), .inr (.inl rfl), .inr (.inr (.inl ⟨rfl, rfl⟩)),
    .inr (.inr (.inr (.inl ⟨rfl, rfl⟩))), .inr (.inr (.inr (.inr ⟨rfl, rfl⟩))), ?_, ?_,
    ⟨.main, 0x400000, rfl, rfl, by decide⟩⟩
  · rintro ⟨k, h2, h⟩
    exact hk 3 k h2 (by omega) h
  · rintro ⟨k, h2, h⟩
    exact hk 2 k h2 (by omega) h

theorem witness_StepRunsTheDecodedRequest :
    (startWith [⟨.bus, [0x80, 0xA0]⟩]).input = ⟨.bus, [0x80, 0xA0]⟩ :: [] ∧
    decode ⟨.bus, [0x80, 0xA0]⟩ = .ok (.unmount, [0xA0]) := ⟨rfl, rfl⟩

theorem witness_EveryStepAnswersANextState : start.input = [] := rfl

/-- A step from a state that meets every invariant. -/
theorem start_step : ∃ t, step (startWith [⟨.bus, [0x50, 0x05, 0x00, 0x7C, 0x02]⟩]) = .next t := ⟨_, rfl⟩

theorem witness_StepKeepsTheMemoryForm :
    Memory.wf (startWith [⟨.bus, [0x50, 0x05, 0x00, 0x7C, 0x02]⟩]).mem ∧
    ∃ t, step (startWith [⟨.bus, [0x50, 0x05, 0x00, 0x7C, 0x02]⟩]) = .next t := ⟨start_memory_form, start_step⟩

theorem witness_StepKeepsThePendingEquation :
    PendingOk (startWith [⟨.bus, [0x50, 0x05, 0x00, 0x7C, 0x02]⟩]) ∧
    ∃ t, step (startWith [⟨.bus, [0x50, 0x05, 0x00, 0x7C, 0x02]⟩]) = .next t := ⟨start_pending, start_step⟩

theorem witness_StepKeepsQueuesChannelsAndTimers :
    FifoBounded (startWith [⟨.bus, [0x50, 0x05, 0x00, 0x7C, 0x02]⟩]) ∧
    ActiveOk (startWith [⟨.bus, [0x50, 0x05, 0x00, 0x7C, 0x02]⟩]) ∧
    Quiet (startWith [⟨.bus, [0x50, 0x05, 0x00, 0x7C, 0x02]⟩]) ∧
    TimerZeroOk (startWith [⟨.bus, [0x50, 0x05, 0x00, 0x7C, 0x02]⟩]) ∧
    ∃ t, step (startWith [⟨.bus, [0x50, 0x05, 0x00, 0x7C, 0x02]⟩]) = .next t :=
  ⟨start_fifo, start_active, start_quiet, start_timer_zero, start_step⟩

theorem witness_StepKeepsEveryAccessInsideItsRegion :
    CartOk (startWith [⟨.bus, [0x50, 0x05, 0x00, 0x7C, 0x02]⟩]) ∧
    ConfigOk (startWith [⟨.bus, [0x50, 0x05, 0x00, 0x7C, 0x02]⟩]) ∧
    TableOk (startWith [⟨.bus, [0x50, 0x05, 0x00, 0x7C, 0x02]⟩]) ∧
    CellsInside (startWith [⟨.bus, [0x50, 0x05, 0x00, 0x7C, 0x02]⟩]) ∧
    ∃ t, step (startWith [⟨.bus, [0x50, 0x05, 0x00, 0x7C, 0x02]⟩]) = .next t :=
  ⟨start_cart, start_config, start_table, start_cells, start_step⟩

theorem witness_StepKeepsTheMirrors :
    CartOk (startWith [⟨.bus, [0x50, 0x05, 0x00, 0x7C, 0x02]⟩]) ∧
    ConfigOk (startWith [⟨.bus, [0x50, 0x05, 0x00, 0x7C, 0x02]⟩]) ∧
    TableOk (startWith [⟨.bus, [0x50, 0x05, 0x00, 0x7C, 0x02]⟩]) ∧
    MirrorOk (startWith [⟨.bus, [0x50, 0x05, 0x00, 0x7C, 0x02]⟩]) ∧
    ∃ t, step (startWith [⟨.bus, [0x50, 0x05, 0x00, 0x7C, 0x02]⟩]) = .next t :=
  ⟨start_cart, start_config, start_table, fun c => ⟨(start_mirrors c).ime, (start_mirrors c).ie, (start_mirrors c).iflag,
    (start_mirrors c).sync, (start_mirrors c).fifoCnt, (start_mirrors c).sad, (start_mirrors c).dad,
    (start_mirrors c).cnt, (start_mirrors c).timer, (start_mirrors c).spi⟩, start_step⟩

theorem witness_LogGrowsAndRefusalStays :
    ∃ t, step (startWith [⟨.bus, [0x50, 0x05, 0x00, 0x7C, 0x02]⟩]) = .next t := start_step

/-- The first and the last word of the window. -/
theorem witness_TightlyCoupledWindowShadows :
    InTcw start .c0 (alignTo .w32 (0x00800000 : Word).toNat) ∧ InTcw start .c0 (alignTo .w32 (0x00803FFF : Word).toNat) := by
  unfold InTcw
  decide +kernel

/-- The first and the last address of the pass-through window, on both CPUs, and an alias of it. -/
theorem witness_CartPassThroughIsByteCalls :
    (¬ InTcw start .c0 (alignTo .w32 (0x0A000000 : Word).toNat) ∧ InPass start (alignTo .w32 (0x0A000000 : Word).toNat)) ∧
    (¬ InTcw start .c1 (alignTo .w8 (0x0AFFFFFF : Word).toNat) ∧ InPass start (alignTo .w8 (0x0AFFFFFF : Word).toNat)) ∧
    (¬ InTcw start .c0 (alignTo .w16 (0xFAFFFFFF : Word).toNat) ∧ InPass start (alignTo .w16 (0xFAFFFFFF : Word).toNat)) := by
  unfold InTcw InPass
  decide +kernel

/-- The first and the last address of the wireless window, and the opcode table's row of it. -/
theorem witness_WirelessWindowIsOneCall :
    (¬ InPass start (alignTo .w32 (0x04800000 : Word).toNat) ∧ InWireless .c1 (alignTo .w32 (0x04800000 : Word).toNat)) ∧
    (¬ InPass start (alignTo .w8 (0xF4FFFFFF : Word).toNat) ∧ InWireless .c1 (alignTo .w8 (0xF4FFFFFF : Word).toNat)) ∧
    (∃ lane : BitVec 23, (0x04FFFFFC : Nat) = alignTo .w32 (0x04800000 + lane.toNat)) := by
  refine ⟨?_, ?_, 0x7FFFFF, ?_⟩
  · unfold InPass InWireless
    decide +kernel
  · unfold InPass InWireless
    decide +kernel
  · decide +kernel

/-- Main memory from its first byte, the last byte of CPU1's work memory, and CPU0's view of the other raw block is none. -/
theorem witness_StorageIsReadAndWritten :
    (AtRegion start .c0 (alignTo .w32 (0x02000000 : Word).toNat) .main 0 ∧ Region.main ≠ ioRegion .c0) ∧
    (AtRegion start .c1 (alignTo .w8 (0x0380FFFF : Word).toNat) .wram7 0xFFFF ∧ Region.wram7 ≠ ioRegion .c1) :=
  ⟨⟨start_at .c0 _ _ _ 0x400000 (start_through _ _ (by decide) (by decide) (by decide)) (by decide +kernel) rfl
      (by decide +kernel), by decide⟩,
    start_at .c1 _ _ _ 0x10000 (start_through _ _ (by decide) (by decide) (by decide)) (by decide +kernel) rfl
      (by decide +kernel), by decide⟩

theorem witness_SinkReadsOpenBusAndAbsorbsWrites :
    (ThroughTable start .c0 (alignTo .w32 (0x0B000000 : Word).toNat) ∧
      (entryOf start .c0 (alignTo .w32 (0x0B000000 : Word).toNat)).region = .sink) ∧
    (ThroughTable start .c1 (alignTo .w8 (0x06000001 : Word).toNat) ∧
      (entryOf start .c1 (alignTo .w8 (0x06000001 : Word).toNat)).region = .sink) := by
  refine ⟨⟨?_, by decide +kernel⟩, ?_, by decide +kernel⟩ <;>
    (unfold ThroughTable InTcw InPass InWireless; decide +kernel)

/-- Two places of main memory that agree modulo its size, and two addresses that agree in their low 28 bits. -/
theorem start_sizes (g : Region) (size : Nat) (h : regionSize start.config start.cart g = some size) : size ≤ 2 ^ 28 := by
  revert h
  cases g <;> intro h <;> cases h <;> decide +kernel

theorem witness_AliasedAddressesAreOneLocation :
    (ThroughTable start .c0 (alignTo .w32 (0x02000000 : Word).toNat) ∧
      ThroughTable start .c0 (alignTo .w32 (0x02C00000 : Word).toNat) ∧
      ∃ (r : Region) (k : Nat), 2 ≤ k ∧ regionSize start.config start.cart r = some (2 ^ k) ∧ r ≠ ioRegion .c0 ∧
        entryOf start .c0 (alignTo .w32 (0x02000000 : Word).toNat) = ⟨r, BitVec.ofNat 32 (2 ^ k - 1)⟩ ∧
        entryOf start .c0 (alignTo .w32 (0x02C00000 : Word).toNat) = ⟨r, BitVec.ofNat 32 (2 ^ k - 1)⟩ ∧
        (0x02000000 : Word).toNat % 2 ^ k = (0x02C00000 : Word).toNat % 2 ^ k) ∧
    (ThroughTable start .c1 (alignTo .w8 (0x02000001 : Word).toNat) ∧
      ThroughTable start .c1 (alignTo .w8 (0xF2000001 : Word).toNat) ∧
      (0x02000001 : Word).toNat % 2 ^ 28 = (0xF2000001 : Word).toNat % 2 ^ 28 ∧
      ∀ g size, regionSize start.config start.cart g = some size → size ≤ 2 ^ 28) :=
  ⟨⟨start_through _ _ (by decide) (by decide) (by decide), start_through _ _ (by decide) (by decide) (by decide),
      .main, 22, by decide, rfl, by decide, by decide +kernel, by decide +kernel, by decide +kernel⟩,
    start_through _ _ (by decide) (by decide) (by decide), start_through _ _ (by decide) (by decide) (by decide),
      by decide +kernel, start_sizes⟩

theorem witness_NarrowAndWideAccessesShareLanes :
    CartOk start ∧ start.config.cartPassFirst.toNat % 4 = 0 ∧ (0x02FFFFFC : Word).toNat % 4 = 0 ∧
    AtRegion start .c0 (0x02FFFFFC : Word).toNat .main 0x3FFFFC ∧
    Region.main ≠ ioRegion .c0 ∧ (entryOf start .c0 (0x02FFFFFC : Word).toNat).mask.toNat % 4 = 3 ∧
    (2 % Width.w16.bytes = 0 ∧ 2 < 4) :=
  ⟨start_cart, by decide, by decide, start_at .c0 _ _ _ 0x400000 (start_through _ _ (by decide) (by decide) (by decide))
    (by decide +kernel) rfl (by decide +kernel), by decide, by decide +kernel, by decide⟩

/-- A bus read of a storage offset, a register row, and CPU1 at offsets whose reads CPU0 computes. -/
theorem witness_StoredRegistersReadTheirBytes :
    (Reaches start (readInstr .w16 .c0 0x04000070) .c0 0x70 (.read .w16) ∧ Avoids (computedRanges .c0) 0x70 2) ∧
    (Reaches start (.masterBrightA 1 (.read .w32)) .c0 0x6C (.read .w32) ∧ Avoids (computedRanges .c0) 0x6C 4) ∧
    (Reaches start (readInstr .w32 .c1 0x04000280) .c1 0x280 (.read .w32) ∧ Avoids (computedRanges .c1) 0x280 4) := by
  refine ⟨⟨start_reaches_read .c0 .w16 0x70 (by decide) (by decide), ?_⟩, ⟨.row 0x6D rfl rfl, ?_⟩,
    start_reaches_read .c1 .w32 0x280 (by decide) (by decide), ?_⟩ <;> (unfold Avoids; decide +kernel)

theorem witness_WritesWithoutHandlerOnlyStore :
    (Reaches start (writeInstr .w16 .c0 0x04000070 0xBEEF) .c0 0x70 (.write .w16 0xBEEF) ∧
      Avoids (handlerRanges .c0) 0x70 2) ∧
    (Reaches start (.cardCommand .c1 7 (.write .w8 0xB7)) .c1 0x1AF (.write .w8 0xB7) ∧
      Avoids (handlerRanges .c1) 0x1AF 1) ∧
    (Reaches start (.divcnt 0 (.write .w32 1)) .c0 0x280 (.write .w32 1) ∧ Avoids (handlerRanges .c0) 0x280 4) := by
  refine ⟨⟨start_reaches_write .c0 .w16 0x70 0xBEEF (by decide) (by decide), ?_⟩, ⟨.row 0x1AF rfl rfl, ?_⟩,
    .row 0x280 rfl rfl, ?_⟩ <;> (unfold Avoids; decide +kernel)

theorem witness_PureStorageRoundTrip :
    Reaches start (writeInstr .w16 .c0 0x04000070 0xBEEF) .c0 0x70 (.write .w16 0xBEEF) ∧
    Avoids (handlerRanges .c0) 0x70 2 ∧ Avoids (computedRanges .c0) 0x70 2 ∧
    Reaches (stored .c0 0x70 .w16 0xBEEF start) (readInstr .w16 .c0 0x04000070) .c0 0x70 (.read .w16) := by
  refine ⟨start_reaches_write .c0 .w16 0x70 0xBEEF (by decide) (by decide), ?_, ?_,
    .busRead .w16 _ rfl rfl (start_window .c0 0x70 (by decide))⟩ <;> (unfold Avoids; decide +kernel)

/-- The ends of the display registers of engine A and engine B. -/
theorem witness_DisplayWritesForwardMergedValues :
    Reaches start (.dispcntA 3 (.write .w32 1)) .c0 0 (.write .w32 1) ∧
    Reaches start (writeInstr .w8 .c0 0x0400006F 1) .c0 0x6F (.write .w8 1) ∧
    Reaches start (.dispcntB 0 (.write .w8 1)) .c0 0x1000 (.write .w8 1) ∧
    Reaches start (writeInstr .w8 .c0 0x0400106F 1) .c0 0x106F (.write .w8 1) :=
  ⟨.row 3 rfl rfl, start_reaches_write .c0 .w8 0x6F 1 (by decide) (by decide), .row 0x1000 rfl rfl,
    start_reaches_write .c0 .w8 0x106F 1 (by decide) (by decide)⟩

theorem witness_GeometryWritesForwardTheMergedWord :
    Reaches start (.geomPorts 0 (.write .w32 1)) .c0 0x400 (.write .w32 1) ∧
    Reaches start (.gxstat 3 (.write .w8 1)) .c0 0x603 (.write .w8 1) :=
  ⟨.row 0x400 rfl rfl, .row 0x603 rfl rfl⟩

theorem witness_SoundWritesForwardVerbatim :
    Reaches start (.sound 0 (.write .w32 1)) .c1 0x400 (.write .w32 1) ∧
    Reaches start (.sound2 31 (.write .w8 1)) .c1 0x51F (.write .w8 1) ∧
    Reaches start (.sound2 31 (.read .w16)) .c1 0x51E (.read .w16) :=
  ⟨.row 0x400 rfl rfl, .row 0x51F rfl rfl, .row 0x51F rfl rfl⟩

theorem witness_BackupPortTransfersTheLowByte :
    Reaches start (.auxspicnt .c0 0 (.write .w32 1)) .c0 0x1A0 (.write .w32 1) ∧
    Reaches start (.auxspidata .c1 0 (.write .w8 1)) .c1 0x1A2 (.write .w8 1) ∧
    Reaches start (.auxspidata .c1 1 (.write .w8 1)) .c1 0x1A3 (.write .w8 1) :=
  ⟨.row 0x1A0 rfl rfl, .row 0x1A2 rfl rfl, .row 0x1A3 rfl rfl⟩

theorem witness_RomControlWritesPassTheCommand :
    Reaches start (.romctrl .c1 0 (.write .w32 1)) .c1 0x1A4 (.write .w32 1) ∧
    Reaches start (.romctrl .c0 3 (.write .w8 1)) .c0 0x1A7 (.write .w8 1) :=
  ⟨.row 0x1A4 rfl rfl, .row 0x1A7 rfl rfl⟩

theorem witness_MapControlAppliesTheRepoints :
    Reaches start (.vramcntA (.write .w32 0x81)) .c0 0x240 (.write .w32 0x81) ∧
    Reaches start (.wramcnt (.write .w8 3)) .c0 0x247 (.write .w8 3) ∧
    Reaches start (.vramcntI (.write .w8 0x81)) .c0 0x249 (.write .w8 0x81) :=
  ⟨.row 0x240 rfl rfl, .row 0x247 rfl rfl, .row 0x249 rfl rfl⟩

theorem witness_CollaboratorReadsReturnTheAnswer :
    Reaches start (.dispcapcnt 0 (.read .w32)) .c0 0x64 (.read .w32) ∧
    Reaches start (.gxstat 3 (.read .w8)) .c0 0x603 (.read .w8) ∧
    Reaches start (.romctrl .c1 2 (.read .w16)) .c1 0x1A6 (.read .w16) ∧
    Reaches start (.cardDataIn .c0 3 (.read .w32)) .c0 0x100010 (.read .w32) :=
  ⟨.row 0x64 rfl rfl, .row 0x603 rfl rfl, .row 0x1A6 rfl rfl, .row 0x100013 rfl rfl⟩

theorem witness_DividerReadsAreComputedFromTheInputs :
    Reaches start (.divcnt 0 (.read .w16)) .c0 0x280 (.read .w16) ∧
    Reaches start (readInstr .w8 .c0 0x04000283) .c0 0x283 (.read .w8) ∧
    Reaches start (.divResult 7 (.read .w8)) .c0 0x2A7 (.read .w8) ∧
    Reaches start (.divremResult 0 (.read .w32)) .c0 0x2A8 (.read .w32) ∧
    Reaches start (.divremResult 7 (.read .w32)) .c0 0x2AC (.read .w32) :=
  ⟨.row 0x280 rfl rfl, start_reaches_read .c0 .w8 0x283 (by decide) (by decide), .row 0x2A7 rfl rfl,
    .row 0x2A8 rfl rfl, .row 0x2AF rfl rfl⟩

theorem witness_SquareRootReadsAreComputedFromTheInput :
    Reaches start (.sqrtcnt 1 (.read .w32)) .c0 0x2B0 (.read .w32) ∧
    Reaches start (readInstr .w8 .c0 0x040002B3) .c0 0x2B3 (.read .w8) ∧
    Reaches start (.sqrtResult 0 (.read .w32)) .c0 0x2B4 (.read .w32) ∧
    Reaches start (.sqrtResult 3 (.read .w8)) .c0 0x2B7 (.read .w8) :=
  ⟨.row 0x2B1 rfl rfl, start_reaches_read .c0 .w8 0x2B3 (by decide) (by decide), .row 0x2B4 rfl rfl, .row 0x2B7 rfl rfl⟩

theorem witness_RegisterContractsAreTheDispatch :
    Reaches start (.ime .c0 0 (.write .w32 1)) .c0 0x208 (.write .w32 1) ∧
    (Reaches start (.tm3cntL .c1 1 (.read .w8)) .c1 0x10D (.read .w8) ∧ ¬ Avoids (computedRanges .c1) 0x10D 1) ∧
    (Reaches start (.ie .c1 0 (.read .w32)) .c1 0x210 (.read .w32) ∧ Avoids (computedRanges .c1) 0x210 4) := by
  refine ⟨.row 0x208 rfl rfl, ⟨.row 0x10D rfl rfl, ?_⟩, .row 0x210 rfl rfl, ?_⟩ <;> (unfold Avoids; decide +kernel)

theorem witness_WindowAccessesStayOnTheirCpu :
    (Reaches start (.dmaFill 0 (.write .w32 1)) .c0 0xE0 (.write .w32 1) ∧
      Avoids [(0xB0, 0xE0), (0x180, 0x18C), (0x240, 0x24A), (0x100000, 0x100004)] 0xE0 4) ∧
    (Reaches start (.ifReg .c1 3 (.write .w8 1)) .c1 0x217 (.write .w8 1) ∧
      Avoids [(0xB0, 0xE0), (0x180, 0x18C), (0x240, 0x24A), (0x100000, 0x100004)] 0x217 1) ∧
    (Reaches start (.cardDataIn .c1 0 (.read .w32)) .c1 0x100010 (.read .w32) ∧
      Avoids [(0xB0, 0xE0), (0x180, 0x18C), (0x240, 0x24A), (0x100000, 0x100004)] 0x100010 4) := by
  refine ⟨⟨.row 0xE0 rfl rfl, ?_⟩, ⟨.row 0x217 rfl rfl, ?_⟩, .row 0x100010 rfl rfl, ?_⟩ <;>
    (unfold Avoids; decide +kernel)

theorem witness_DmaAddressRegistersAreMasked :
    Reaches start (.dma0sad .c1 0 (.write .w32 0xFFFFFFFF)) .c1 0xB0 (.write .w32 0xFFFFFFFF) ∧
    Reaches start (.dma3sad .c0 3 (.write .w8 0xFF)) .c0 0xD7 (.write .w8 0xFF) ∧
    Reaches start (.dma0dad .c1 0 (.write .w16 0xFFFF)) .c1 0xB4 (.write .w16 0xFFFF) ∧
    Reaches start (.dma3dad .c0 3 (.write .w8 0xFF)) .c0 0xDB (.write .w8 0xFF) :=
  ⟨.row 0xB0 rfl rfl, .row 0xD7 rfl rfl, .row 0xB4 rfl rfl, .row 0xDB rfl rfl⟩

/-- A running channel, a write without an enable edge, and an edge with a start mode that waits. -/
theorem witness_ProgramChannelLatchesOnTheEnableEdge :
    (Calls (startChan .c0 0 ⟨0, 0, 0, 0, 0, 0, true, true⟩) (.programChannel .c0 0 0) (.programChannel .c0 0 0) .c0
        (cntOffset 0) 4 0 (startChan .c0 0 ⟨0, 0, 0, 0, 0, 0, true, true⟩) ∧
      ((startChan .c0 0 ⟨0, 0, 0, 0, 0, 0, true, true⟩).chan .c0 0).executing = true) ∧
    (Calls start (writeInstr .w32 .c1 0x040000DC 4) (.programChannel .c1 3 4) .c1 (cntOffset 3) 4 (4 : Word).toNat
        (stored .c1 0xDC .w32 4 start) ∧
      (start.chan .c1 3).executing = false ∧ enables (start.chan .c1 3) 4 = false) ∧
    (enables (start.chan .c1 0) 0xB4000001 = true ∧ modeField .c1 (0xB4000001 &&& cntBits .c1 0) ≠ 0) :=
  ⟨⟨calls_direct _ _ _ _ _ _, by decide +kernel⟩,
    ⟨start_calls_write .c1 _ 0xDC 4 (by decide) (by decide), by decide +kernel, by decide +kernel⟩, by decide +kernel⟩

theorem witness_ImmediateChannelsRunInsideTheWrite :
    Calls start (writeInstr .w32 .c0 0x040000B8 0x84000004) (.programChannel .c0 0 0x84000004) .c0 (cntOffset 0) 4
      (0x84000004 : Word).toNat (stored .c0 0xB8 .w32 0x84000004 start) ∧
    start.refused = false ∧ (start.chan .c0 0).executing = false ∧ enables (start.chan .c0 0) 0x84000004 = true ∧
    modeField .c0 (0x84000004 &&& cntBits .c0 0) = 0 :=
  ⟨start_calls_write .c0 _ 0xB8 0x84000004 (by decide) (by decide), rfl, by decide +kernel, by decide +kernel,
    by decide +kernel⟩

/-- An inactive channel, a count of 0 and a source that is the destination. -/
theorem witness_DegenerateBurstsOnlyStop :
    (start.chan .c0 0).active = false ∧
    (((startChan .c0 0 ⟨0, 0, 0x86000000, 4, 8, 0, true, false⟩).chan .c0 0).active = true ∧
      ((startChan .c0 0 ⟨0, 0, 0x86000000, 4, 8, 0, true, false⟩).chan .c0 0).count = 0) ∧
    (((startChan .c1 3 ⟨0, 0, 0x86000000, 4, 4, 1, true, false⟩).chan .c1 3).active = true ∧
      ((startChan .c1 3 ⟨0, 0, 0x86000000, 4, 4, 1, true, false⟩).chan .c1 3).src =
        ((startChan .c1 3 ⟨0, 0, 0x86000000, 4, 4, 1, true, false⟩).chan .c1 3).dst) := by decide +kernel

/-- The channel of E3, between two places of main memory. -/
def burstState : State :=
  startChan .c0 0 ⟨0x02000000, 0x02001000, 0x84000004, 0x02000000, 0x02001000, 4, true, false⟩

theorem witness_BurstCopiesItsElements :
    (burstState.chan .c0 0).active = true ∧ (burstState.chan .c0 0).count ≠ 0 ∧
    (burstState.chan .c0 0).src ≠ (burstState.chan .c0 0).dst ∧
    (∀ k, k < (burstState.chan .c0 0).count.toNat →
      NotWindow burstState .c0 (widthOf (burstState.chan .c0 0).cnt) (srcAt (burstState.chan .c0 0) k) ∧
      NotWindow burstState .c0 (widthOf (burstState.chan .c0 0).cnt) (dstAt (burstState.chan .c0 0) k)) := by
  have h : ∀ k, k < (burstState.chan .c0 0).count.toNat →
      (entryOf burstState .c0 (alignTo (widthOf (burstState.chan .c0 0).cnt)
        (srcAt (burstState.chan .c0 0) k).toNat)).region ≠ ioRegion .c0 ∧
      (entryOf burstState .c0 (alignTo (widthOf (burstState.chan .c0 0).cnt)
        (dstAt (burstState.chan .c0 0) k).toNat)).region ≠ ioRegion .c0 := by decide +kernel
  exact ⟨by decide +kernel, by decide +kernel, by decide +kernel, fun k hk => ⟨fun _ => (h k hk).1, fun _ => (h k hk).2⟩⟩

/-- The channel of R194, from main memory into IPCFIFOSEND, and the one of M24. -/
def sendState : State :=
  startChan .c0 0 ⟨0x02000000, 0x04000188, 0x84400004, 0x02000000, 0x04000188, 4, true, false⟩

/-- The channel of M24, into its own control word. -/
def selfState : State :=
  startChan .c0 0 ⟨0x02000000, 0x040000B8, 0x84400001, 0x02000000, 0x040000B8, 1, true, false⟩

/-- A halfword burst of CPU1 whose third element is the first to reach its own control word. -/
def lateSelfState : State :=
  startChan .c1 3 ⟨0, 0, 0x80000004, 0x02000000, 0x040000D8, 4, true, false⟩

/-- A burst into a register that runs, and one that is refused. -/
theorem witness_BurstsRunElementByElement :
    (sendState.refused = false ∧ (sendState.chan .c0 0).active = true ∧ (sendState.chan .c0 0).count ≠ 0 ∧
      (sendState.chan .c0 0).src ≠ (sendState.chan .c0 0).dst ∧
      (burstElements .c0 0 (sendState.chan .c0 0).count.toNat (burstStarted .c0 0 sendState)).refused = false) ∧
    (selfState.refused = false ∧ (selfState.chan .c0 0).active = true ∧ (selfState.chan .c0 0).count ≠ 0 ∧
      (selfState.chan .c0 0).src ≠ (selfState.chan .c0 0).dst ∧
      (burstElements .c0 0 (selfState.chan .c0 0).count.toNat (burstStarted .c0 0 selfState)).refused = true) := by
  decide +kernel

/-- A first element into the own control word, from a state in which no burst runs, and a later one. -/
theorem witness_BurstsRunElementByElement_ownControlWord :
    (Quiet selfState ∧ selfState.refused = false ∧ (selfState.chan .c0 0).active = true ∧
      (selfState.chan .c0 0).src ≠ (selfState.chan .c0 0).dst ∧ 0 < (selfState.chan .c0 0).count.toNat ∧
      AtWindow (burstStarted .c0 0 selfState) .c0 0x040000B8 0xB8) ∧
    (lateSelfState.refused = false ∧ (lateSelfState.chan .c1 3).active = true ∧
      (lateSelfState.chan .c1 3).src ≠ (lateSelfState.chan .c1 3).dst ∧ 2 < (lateSelfState.chan .c1 3).count.toNat ∧
      (burstElements .c1 3 2 (burstStarted .c1 3 lateSelfState)).refused = false ∧
      ((burstElements .c1 3 2 (burstStarted .c1 3 lateSelfState)).chan .c1 3).dst = 0x040000DC ∧
      AtWindow (burstElements .c1 3 2 (burstStarted .c1 3 lateSelfState)) .c1 0x040000DC 0xDC) := by
  refine ⟨⟨?_, by decide +kernel, by decide +kernel, by decide +kernel, by decide +kernel, ?_⟩, by decide +kernel,
    by decide +kernel, by decide +kernel, by decide +kernel, by decide +kernel, by decide +kernel, ?_⟩
  · intro c
    cases c <;> decide +kernel
  · refine ⟨?_, by decide +kernel, by decide⟩
    unfold ThroughTable InTcw InPass InWireless
    decide +kernel
  · refine ⟨?_, by decide +kernel, by decide⟩
    unfold ThroughTable InTcw InPass InWireless
    decide +kernel

theorem witness_TriggerRunsTheWaitingChannels :
    1 ≤ (1 : Byte).toNat ∧ (1 : Byte).toNat ≤ 8 ∧ 1 ≤ (8 : Byte).toNat ∧ (8 : Byte).toNat ≤ 8 ∧ start.refused = false ∧
    waitsFor .c0 0 0x8C000001 1 = true ∧ waitsFor .c1 0 0xB4000001 8 = true ∧ waitsFor .c1 1 0xB4000001 6 = true := by
  decide +kernel

theorem witness_TimerLowRegisterWritesReloadReadsCounter :
    Calls start (.setReload .c1 3 0xFFFE) (.setReload .c1 3 0xFFFE) .c1 (0x100 + 4 * 3) 2 (0xFFFE : Half).toNat start ∧
    Reaches start (.tm0cntL .c0 0 (.read .w32)) .c0 0x100 (.read .w32) ∧
    Reaches start (.tm3cntH .c1 1 (.read .w8)) .c1 0x10F (.read .w8) :=
  ⟨calls_direct _ _ _ _ _ _, .row 0x100 rfl rfl, .row 0x10F rfl rfl⟩

theorem witness_ControlWritesLoadOnTheEnableEdge :
    Calls start (.setControl .c1 3 0xFFFF) (.setControl .c1 3 0xFFFF) .c1 (0x102 + 4 * 3) 2 (0xFFFF : Half).toNat start ∧
    Reaches start (.tm0cntL .c0 0 (.write .w32 0x80FFFE)) .c0 (0x100 + 4 * 0) (.write .w32 0x80FFFE) ∧
    Reaches start (.tm3cntH .c1 1 (.write .w32 0x80FFFE)) .c1 (0x100 + 4 * 3) (.write .w32 0x80FFFE) :=
  ⟨calls_direct _ _ _ _ _ _, .row 0x100 rfl rfl, .row 0x10F rfl rfl⟩

theorem witness_TicksAddUp : (0 : Word).toNat + (0xFFFFFFFF : Word).toNat < 2 ^ 32 := by decide

theorem witness_SyncWritesReachTheOtherCpu :
    Calls start (writeInstr .w32 .c0 0x04000180 0x2B00) (.writeSync .c0 0x2B00) .c0 0x180 4 (0x2B00 : Word).toNat
      (stored .c0 0x180 .w32 0x2B00 start) ∧
    MirrorOk start ∧
    Reaches start (.ipcsync .c1 0 (.write .w8 0xFF)) .c1 0x180 (.write .w8 0xFF) ∧
    Reaches start (.ipcsync .c0 2 (.write .w8 0xFF)) .c0 0x182 (.write .w8 0xFF) ∧
    Reaches start (.ipcsync .c0 3 (.write .w8 0xFF)) .c0 0x183 (.write .w8 0xFF) :=
  ⟨start_calls_write .c0 _ 0x180 0x2B00 (by decide) (by decide), start_mirrors, .row 0x180 rfl rfl, .row 0x182 rfl rfl,
    .row 0x183 rfl rfl⟩

theorem witness_FifoControlResetsTheQueues :
    Calls start (writeInstr .w32 .c1 0x04000184 0x8404) (.fifoControl .c1 0x8404) .c1 0x184 4 (0x8404 : Word).toNat
      (stored .c1 0x184 .w32 0x8404 start) :=
  start_calls_write .c1 _ 0x184 0x8404 (by decide) (by decide)

theorem witness_SendAppendsOrDrops :
    Calls start (writeInstr .w32 .c0 0x04000188 7) (.send .c0 7) .c0 0x188 4 (7 : Word).toNat
      (stored .c0 0x188 .w32 7 start) :=
  start_calls_write .c0 _ 0x188 7 (by decide) (by decide)

/-- The call, a narrow read at the last lane, an empty queue and one with a word. -/
theorem witness_RecvPopsOrRepeats :
    (start.side .c0).fifo = [] ∧
    Reaches start (.ipcfiforecv .c0 3 (.read .w8)) .c0 0x100003 (.read .w8) ∧
    ((start.setSide .c1 { start.cpu1 with fifo := [7] }).side .c1).fifo = 7 :: [] :=
  ⟨rfl, .row 0x100003 rfl rfl, rfl⟩

theorem witness_FifoKeepsSixteenWordsInOrder :
    (start.side (Cpu.other .c0)).fifo = [] ∧ (List.replicate 16 (7 : Word)).length = 16 := ⟨rfl, rfl⟩

theorem witness_EnableWritesRecomputePending :
    Calls start (writeInstr .w32 .c0 0x04000208 1) (.setIME .c0 1) .c0 0x208 4 (1 : Word).toNat
      (stored .c0 0x208 .w32 1 start) ∧
    Calls start (writeInstr .w32 .c1 0x04000210 8) (.setIE .c1 8) .c1 0x210 4 (8 : Word).toNat
      (stored .c1 0x210 .w32 8 start) :=
  ⟨start_calls_write .c0 _ 0x208 1 (by decide) (by decide), start_calls_write .c1 _ 0x210 8 (by decide) (by decide)⟩

theorem witness_RaisingOrsIntoTheFlags :
    ∃ b : Byte, (Instr.raiseirq .c1 31 = .raiseirq .c1 b ∧ b.toNat < 32 ∧ (0x80000000 : Word) = BitVec.ofNat 32 (2 ^ b.toNat)) :=
  ⟨31, rfl, by decide, by decide⟩

theorem witness_ClearingTakesTheWrittenLanes :
    ∃ (o : Nat) (w : Width) (v : Word), Reaches start (.ifReg .c0 3 (.write .w8 0xFF)) .c0 o (.write w v) ∧ 0x214 ≤ o ∧
      o < 0x218 ∧ (0xFF000000 : Word) = BitVec.ofNat 32 (v.toNat % 2 ^ (8 * w.bytes)) <<< (8 * (o - 0x214)) :=
  ⟨0x217, .w8, 0xFF, .row 0x217 rfl rfl, by decide, by decide, by decide⟩

theorem witness_WindowBaseAndEntriesAreReplaced :
    ¬ BadRemapCode start .c0 0 ∧ ¬ BadRemapCode start .c0 6 ∧ ¬ BadRemapCode start .c1 7 ∧ ¬ BadRemapCode start .c1 20 := by
  have h : start.cart = none := rfl
  refine ⟨?_, ?_, ?_, ?_⟩ <;> simp [BadRemapCode, h]

theorem witness_MountAndUnmountMoveTheCartridge :
    (2 ≤ 2 ∧ (4 : Word).toNat = 2 ^ 2 ∧ [(1 : Byte), 2, 3, 4].length = 2 ^ 2) ∧
    start.cart = none ∧ TableOk start ∧ CellsInside start :=
  ⟨by decide, rfl, start_table, start_cells⟩

/-- The last bytes of main memory and of the BIOS of CPU1. -/
theorem witness_LoadFillsItsRegion :
    (Region.ofCode 3 = some .main ∧ Region.main ≠ .io0 ∧ Region.main ≠ .io1 ∧
      regionSize start.config start.cart .main = some 0x400000 ∧ (0x3FFFFE : Word).toNat + [(0xAA : Byte), 0xBB].length ≤ 0x400000) ∧
    (Region.ofCode 20 = some .bios7 ∧ regionSize start.config start.cart .bios7 = some 0x4000) :=
  ⟨⟨rfl, by decide, by decide, rfl, by decide⟩, rfl, rfl⟩

end Sys2Proof.Tests
end

section
/-! The step at a request that decodes (00_scope.md R14). -/

namespace Sys2Proof.Machine

/-- A piece of the stream is dropped once its last byte was taken (log entry 1). -/
theorem restOfInput_eq_ite (q : Request) (rest : List Byte) (qs : List Request) :
    restOfInput q rest qs = if rest = [] then qs else ⟨q.port, rest⟩ :: qs := by
  cases rest with
  | nil => rfl
  | cons b bs => rfl

theorem step_of_decode_ok {s : State} {q : Request} {qs : List Request} {i : Instr} {rest : List Byte}
    (hin : s.input = q :: qs) (hdec : decode q = .ok (i, rest)) :
    step s = exec i (afterFetch (restOfInput q rest qs) s) := by
  simp only [step, hin, hdec]

/-- Settles O5: the branch of `step` for a request that decodes, with the rest of the stream written out. -/
theorem stepRunsTheDecodedRequest : Obligations.StepRunsTheDecodedRequest := by
  intro s q qs i rest hin hdec
  rw [step_of_decode_ok hin hdec, restOfInput_eq_ite, afterFetch]

end Sys2Proof.Machine
end

section
/-! What a request can do to the bus, said once for the properties that break inside an operation and hold again at its
end (a running burst, a register between its verbatim store and its handler), which `Stable` cannot carry. -/

namespace Sys2Proof.Machine

/-- What a request does before its reply is set: nothing, or one operation of the bus. -/
inductive Serves (s : State) : State → Prop where
  | nothing : Serves s s
  | call (k : Call) : Serves s (s.logCall k)
  | draw (k : Call) : Serves s (s.logDraw k)
  | memRead (c : Cpu) (a : Word) (w : Width) : Serves s (memRead c a w s).2
  | memWrite {t : State} {c : Cpu} {a : Word} {w : Width} {v : Word} (h : memWrite execute c a w v s = .ok t) : Serves s t
  | ioRead (c : Cpu) (o : Nat) (w : Width) : Serves s (ioRead c o w s).2
  | ioWrite {t : State} {c : Cpu} {o : Nat} {w : Width} {v : Word} (hb : o + w.bytes ≤ 0x1000000)
      (h : ioWrite execute c o w v s = .ok t) : Serves s t
  | onRegisterWrite {t : State} {c : Cpu} {o : Nat} {w : Width} {v : Word}
      (h : onRegisterWrite execute c o w v s = .ok t) : Serves s t
  | programChannel {t : State} {c : Cpu} {ch : Fin 4} {v : Word} (h : programChannel execute c ch v s = .ok t) : Serves s t
  | execute {t : State} {c : Cpu} {ch : Fin 4} (h : execute c ch s = .ok t) : Serves s t
  | trigger {t : State} {c : Cpu} {e : Event} (h : trigger c e s = .ok t) : Serves s t
  | tickLoop (c : Cpu) (n : Nat) (o : Overflows) : Serves s (tickLoop c n o s).2
  | remap {t : State} {why : Why} {c : Cpu} {i g : Byte} {m : Word} (h : remap why c i g m s = .ok t) : Serves s t
  | loadBytes {t : State} {g : Byte} {o : Word} {bs : List Byte} (h : loadBytes g o bs s = .ok t) : Serves s t
  | setTcwBase (v : Word) : Serves s (setTcwBase v s)
  | mount (size : Word) (bs : List Byte) (hs : isRegionSize size = true) (hl : bs.length = size.toNat) :
      Serves s (mountCart size bs s)
  | unmount : Serves s (unmountCart s)
  | reset : Serves s (resetBus s)
  | setReload (c : Cpu) (t : Fin 4) (v : Half) : Serves s (setReload c t v s)
  | setControl (c : Cpu) (t : Fin 4) (v : Half) : Serves s (setControl c t v s)
  | writeSync (c : Cpu) (v : Word) : Serves s (writeSync c v s)
  | fifoControl (c : Cpu) (v : Word) : Serves s (fifoControl c v s)
  | send (c : Cpu) (v : Word) : Serves s (send c v s)
  | recv (c : Cpu) : Serves s (recv c s).2
  | setIME (c : Cpu) (v : Word) : Serves s (setIME c v s)
  | setIE (c : Cpu) (v : Word) : Serves s (setIE c v s)
  | setIF (c : Cpu) (m : Word) : Serves s (setIF c m s)
  | clearIF (c : Cpu) (m : Word) : Serves s (clearIF c m s)

/-- How a request ends: served without a reply, served with one, or refused. -/
inductive Ends (s : State) : State → Prop where
  | silent {u : State} (h : Serves s u) : Ends s u
  | answered {u : State} (h : Serves s u) (r : Reply) : Ends s (u.answer r)
  | refused (d : Nat) : Ends s { s with refused := true, draws := d }

theorem finish_ends {s t : State} {r : Res} (hr : ∀ u, r = .ok u → Serves s u) (e : finish s r = .next t) :
    Ends s t := by
  rcases finish_eq_next e with h | ⟨x, -, rfl⟩
  · exact .silent (hr t h)
  · exact .refused x.draws

theorem finishValue_ends {s t : State} {x : Word × State} (hx : Serves s x.2) (e : finishValue x = .next t) :
    Ends s t := by
  rw [finishValue_eq_next e]
  exact .answered hx _

/-- A refusal on the spot ends the request refused. -/
theorem finish_refuse_ends {s t : State} {why : Why} (e : finish s (refuse why s) = .next t) : Ends s t :=
  finish_ends (fun _ hu => by cases hu) e

/-- The aligned access of an offset of the window stays in the window. -/
theorem alignOffset_bound (w : Width) (o : Nat) (h : o < 0x1000000) : alignOffset w o + w.bytes ≤ 0x1000000 := by
  have h1 := alignOffset_le w o
  have h2 := alignOffset_mod w o
  rcases width_bytes_cases w with hw | hw | hw <;> rw [hw] at h2 ⊢ <;> omega

theorem regAccess_ends {c : Cpu} {o : Nat} {acc : RegAccess} {s t : State} (ho : o < 0x1000000)
    (e : regAccess c o acc s = .next t) : Ends s t := by
  cases acc with
  | read w => exact finishValue_ends (.ioRead c _ w) e
  | write w v => exact finish_ends (fun u hu => .ioWrite (alignOffset_bound w o ho) hu) e

/-- Every instruction is one operation of the bus, or refused. -/
theorem exec_ends {i : Instr} {s t : State} (e : exec i s = .next t) : Ends s t := by
  cases hr : rowAccess i with
  | some x =>
    obtain ⟨c, o, acc⟩ := x
    rw [exec_row i c o acc s hr] at e
    exact regAccess_ends (rowAccess_lt i c o acc hr) e
  | none =>
    cases i <;> simp only [rowAccess, reduceCtorEq] at hr
    case read8 => exact finishValue_ends (.memRead _ _ _) e
    case read16 => exact finishValue_ends (.memRead _ _ _) e
    case read32 => exact finishValue_ends (.memRead _ _ _) e
    case write8 => exact finish_ends (fun u hu => .memWrite hu) e
    case write16 => exact finish_ends (fun u hu => .memWrite hu) e
    case write32 => exact finish_ends (fun u hu => .memWrite hu) e
    case tick => cases e; exact .answered (.tickLoop _ _ _) _
    case trigger c ev =>
      change execTrigger c ev s = _ at e
      unfold execTrigger at e
      split at e
      · exact finish_refuse_ends e
      · exact finish_ends (fun u hu => .trigger hu) e
    case raiseirq c b =>
      change execRaiseirq c b s = _ at e
      unfold execRaiseirq at e
      split at e
      · cases e; exact .silent (.setIF _ _)
      · exact finish_refuse_ends e
    case settcw => cases e; exact .silent (.setTcwBase _)
    case remap => exact finish_ends (fun u hu => .remap hu) e
    case mount size bytes =>
      change execMount size bytes s = _ at e
      unfold execMount at e
      split at e
      · next hc =>
        simp only [Bool.and_eq_true, decide_eq_true_eq] at hc
        cases e
        exact .silent (.mount size bytes hc.1 hc.2)
      · exact finish_refuse_ends e
    case unmount => cases e; exact .silent .unmount
    case load => exact finish_ends (fun u hu => .loadBytes hu) e
    case reset => cases e; exact .silent .reset
    case wifiWindow j acc =>
      cases acc with
      | read w => exact finishValue_ends (x := (truncTo w (callWifiRead _ w s).1, (callWifiRead _ w s).2)) (.draw _) e
      | write w v => cases e; exact .silent (.call _)
    case onRegisterWrite => exact finish_ends (fun u hu => .onRegisterWrite hu) e
    case onRegisterRead c o w =>
      change execOnRegisterRead c o w s = _ at e
      unfold execOnRegisterRead at e
      split at e
      · exact finishValue_ends (.ioRead _ _ _) e
      · cases e; exact .answered .nothing _
    case programChannel => exact finish_ends (fun u hu => .programChannel hu) e
    case execute => exact finish_ends (fun u hu => .execute hu) e
    case setReload => cases e; exact .silent (.setReload _ _ _)
    case setControl => cases e; exact .silent (.setControl _ _ _)
    case writeSync => cases e; exact .silent (.writeSync _ _)
    case fifoControl => cases e; exact .silent (.fifoControl _ _)
    case send => cases e; exact .silent (.send _ _)
    case recv => exact finishValue_ends (.recv _) e
    case setIME => cases e; exact .silent (.setIME _ _)
    case setIE => cases e; exact .silent (.setIE _ _)
    case setIF => cases e; exact .silent (.setIF _ _)
    case clearIF => cases e; exact .silent (.clearIF _ _)

/-- A property that a state keeps under every operation it may serve next is kept by the step. -/
theorem step_keeps_of_serves {P : State → Prop} (q : StableStep P) (ha : ∀ s r, P s → P (s.answer r)) {s t : State}
    (h : P s) (hserve : ∀ input u, Serves (afterFetch input s) u → P u) (e : step s = .next t) : P t := by
  unfold step at e
  split at e
  · cases e; exact h
  · split at e
    · cases exec_ends e with
      | silent hu => exact hserve _ t hu
      | answered hu r => exact ha _ r (hserve _ _ hu)
      | refused d => exact q.refuse _ d (q.fetch s _ h)
    · cases e; exact q.refuse _ _ (q.fetch s _ h)

end Sys2Proof.Machine
end

section
/-! Properties that read nothing of the two CPU parts: the form of memory, the log, the refused mark, the configuration,
the cartridge and the bytes of the regions. -/

namespace Sys2Proof.Machine

/-- The changes a request makes outside the two CPU parts, each keeping `P`, and that `P` does not read the parts. -/
structure PartFree (P : State → Prop) : Prop where
  side : ∀ s c p, P s → P (s.setSide c p)
  write : ∀ s k b, P s → (CartOk s → Inside s k) → P { s with mem := Memory.write s.mem k b }
  logCall : ∀ s k, P s → P (s.logCall k)
  logDraw : ∀ s k, P s → P (s.logDraw k)
  answer : ∀ s r, P s → P (s.answer r)
  tcw : ∀ s v, P s → P (setTcwBase v s)
  mount : ∀ s size bytes, P s → isRegionSize size = true → bytes.length = size.toNat →
    P { s with cart := some size, mem := (Memory.keepCart s.mem false).writeBytes (cellKey .cartrom 0) bytes }
  unmount : ∀ s, P s → P { s with cart := none, mem := Memory.keepCart s.mem false }
  reset : ∀ s, P s → P (resetBus s)

theorem PartFree.modSide {P : State → Prop} (q : PartFree P) {s : State} (h : P s) (c : Cpu) (f : CpuSide → CpuSide) :
    P (s.modSide c f) := q.side s c _ h

/-- Such a property is kept by every request: the changes of the parts do not matter to it. -/
theorem PartFree.burst {P : State → Prop} (q : PartFree P) : StableBurst P where
  write := q.write
  logCall := q.logCall
  logDraw := q.logDraw
  answer := q.answer
  entry _ _ _ _ _ h _ := q.modSide h _ _
  latch _ _ _ _ _ h := q.modSide h _ _
  sync _ _ _ _ h := q.modSide h _ _
  fifoBits _ _ _ _ _ h := q.modSide h _ _
  fifoClear _ _ h := q.modSide h _ _
  fifoPush _ _ _ h _ := q.modSide h _ _
  fifoPop _ _ _ _ h _ := q.modSide h _ _
  reload _ _ _ _ h := q.modSide h _ _
  control _ _ _ _ h := q.modSide h _ _
  cycle _ _ _ _ h := q.modSide h _ _
  sad _ _ _ _ h := q.modSide h _ _
  dad _ _ _ _ h := q.modSide h _ _
  program _ _ _ _ h _ := q.modSide h _ _
  rearm _ _ _ h := q.modSide h _ _
  stop _ _ _ h := q.modSide h _ _
  advance _ _ _ _ h := q.modSide h _ _
  tcw := q.tcw
  mount _ size bytes h hs hl := q.modSide (q.modSide (q.mount _ size bytes h hs hl) _ _) _ _
  unmount _ h := q.modSide (q.modSide (q.unmount _ h) _ _) _ _
  reset := q.reset
  executing _ _ _ _ h := q.modSide h _ _

/-! ### The form of memory -/

theorem memoryForm_partFree : PartFree fun s => Memory.wf s.mem where
  side s c p h := by rwa [setSide_mem]
  write _ k b h _ := write_wf _ k b h
  logCall _ _ h := h
  logDraw _ _ h := h
  answer _ _ h := h
  tcw _ _ h := h
  mount _ _ _ h _ _ := writeBytes_wf _ _ _ (keepCart_wf _ _ h)
  unmount _ h := keepCart_wf _ _ h
  reset _ h := leWrite_wf _ _ _ _ (leWrite_wf _ _ _ _ (keepCart_wf _ _ h))

/-- Settles O10: every change of memory keeps its form. -/
theorem stepKeepsTheMemoryForm : Obligations.StepKeepsTheMemoryForm := fun s t =>
  step_keeps memoryForm_partFree.burst ⟨fun _ _ h => h, fun _ _ h => h⟩ s t

/-! ### The log, the refused mark and the configuration -/

/-- What every later state keeps of a state: its log as a beginning, its refused mark, its configuration. -/
structure Continues (s t : State) : Prop where
  log : s.log <+: t.log
  refused : s.refused = true → t.refused = true
  config : t.config = s.config

theorem continues_partFree (s : State) : PartFree (Continues s) where
  side _ _ _ h := ⟨by rw [setSide_log]; exact h.log, by rw [setSide_refused]; exact h.refused,
    by rw [setSide_config]; exact h.config⟩
  write _ _ _ h _ := ⟨h.log, h.refused, h.config⟩
  logCall _ _ h := ⟨h.log.trans (List.prefix_append _ _), h.refused, h.config⟩
  logDraw _ _ h := ⟨h.log.trans (List.prefix_append _ _), h.refused, h.config⟩
  answer _ _ h := ⟨h.log, h.refused, h.config⟩
  tcw _ _ h := ⟨h.log, h.refused, h.config⟩
  mount _ _ _ h _ _ := ⟨h.log, h.refused, h.config⟩
  unmount _ h := ⟨h.log, h.refused, h.config⟩
  reset _ h := ⟨h.log, h.refused, h.config⟩

/-- Settles O15: every change of the state continues the state before the step. -/
theorem logGrowsAndRefusalStays : Obligations.LogGrowsAndRefusalStays := by
  intro s t e
  have hstep : StableStep (Continues s) :=
    ⟨fun _ _ h => ⟨h.log, h.refused, h.config⟩, fun _ _ h => ⟨h.log, fun _ => rfl, h.config⟩⟩
  obtain ⟨hlog, hrefused, hconfig⟩ :=
    step_keeps (continues_partFree s).burst hstep s t ⟨List.prefix_rfl, id, rfl⟩ e
  exact ⟨hlog, hrefused, hconfig⟩

/-! ### The cartridge -/

theorem cartOk_partFree : PartFree CartOk where
  side _ _ _ h size hc := h size (by rwa [setSide_cart] at hc)
  write _ _ _ h _ := h
  logCall _ _ h := h
  logDraw _ _ h := h
  answer _ _ h := h
  tcw _ _ h := h
  mount _ _ _ _ hs _ size' hc := by
    cases hc
    exact hs
  unmount _ _ _ hc := nomatch hc
  reset _ h := h

theorem stableStep_cartOk : StableStep CartOk := ⟨fun _ _ h => h, fun _ _ h => h⟩

theorem step_keeps_cartOk {s t : State} (h : CartOk s) (e : step s = .next t) : CartOk t :=
  step_keeps cartOk_partFree.burst stableStep_cartOk s t h e

/-! ### The listed bytes -/

theorem cellKey_div (r : Region) (o : Nat) (h : o < 2 ^ 32) : cellKey r o / 2 ^ 32 = r.code := by
  rw [cellKey]
  omega

theorem mem_keepCart_false {m : Memory} {x : Host.Cell} (h : x ∈ Memory.keepCart m false) :
    x ∈ m ∧ x.1 / 2 ^ 32 ≠ Region.cartrom.code := by
  obtain ⟨hm, hk⟩ := List.mem_filter.mp h
  exact ⟨hm, by simpa using hk⟩

/-- Only CARTROM has a size that depends on the cartridge. -/
theorem regionSize_of_ne_cartrom (g : BusConfig) (cart cart' : Option Word) (r : Region) (h : r ≠ .cartrom) :
    regionSize g cart r = regionSize g cart' r := by
  cases r
  case cartrom => exact absurd rfl h
  all_goals rfl

/-- A byte outside the cartridge stays inside its region whatever the cartridge becomes. -/
theorem Inside.of_cart {s t : State} {k : Nat} (h : Inside s k) (hk : k / 2 ^ 32 ≠ Region.cartrom.code)
    (hg : t.config = s.config) : Inside t k := by
  obtain ⟨r, size, o, hsize, ho, rfl⟩ := h
  have hlt := regionSize_le _ _ _ _ hsize
  rw [cellKey_div r o (by omega)] at hk
  refine ⟨r, size, o, ?_, ho, rfl⟩
  rw [hg, regionSize_of_ne_cartrom _ t.cart s.cart r fun hr => hk (by rw [hr]), hsize]

/-- A byte of a raw register block is inside it. -/
theorem inside_io (s : State) (c : Cpu) (o : Nat) (h : o < 0x1000000) : Inside s (cellKey (ioRegion c) o) :=
  ⟨_, _, o, ioRegion_size _ _ c, h, rfl⟩

theorem mem_leWrite_inside {s : State} {m : Memory} {c : Cpu} {o n v : Nat} (hb : o + n ≤ 0x1000000)
    (hm : ∀ x ∈ m, Inside s x.1) : ∀ x ∈ Memory.leWrite m (cellKey (ioRegion c) o) n v, Inside s x.1 := by
  intro x hx
  rcases mem_leWrite _ _ _ _ x hx with ⟨hlo, hhi⟩ | hx
  · have hk : x.1 = cellKey (ioRegion c) (o + (x.1 - cellKey (ioRegion c) o)) := by
      rw [cellKey_add]
      omega
    rw [hk]
    exact inside_io s c _ (by omega)
  · exact hm x hx

theorem cells_resetBus (s : State) (h : CellsInside s) : CellsInside (resetBus s) := by
  have hcart : ∀ x ∈ Memory.keepCart s.mem true, Inside (resetBus s) x.1 := fun x hx => h x (List.mem_filter.mp hx).1
  exact mem_leWrite_inside (c := .c1) (by decide) (mem_leWrite_inside (c := .c0) (by decide) hcart)

theorem cellsInside_partFree : PartFree fun s => CartOk s ∧ CellsInside s where
  side s c p h := ⟨cartOk_partFree.side s c p h.1, fun x hx => by
    rw [setSide_mem] at hx
    rw [setSide_config, setSide_cart]
    exact h.2 x hx⟩
  write s k b h hk := ⟨h.1, fun x hx => by
    rcases mem_write _ _ _ x hx with hx | hx
    · rw [hx]
      exact hk h.1
    · exact h.2 x hx⟩
  logCall _ _ h := h
  logDraw _ _ h := h
  answer _ _ h := h
  tcw _ _ h := h
  mount s size bytes h hs hl := ⟨cartOk_partFree.mount s size bytes h.1 hs hl, fun x hx => by
    rcases mem_writeBytes _ _ _ x hx with ⟨hlo, hhi⟩ | hx
    · refine ⟨.cartrom, size.toNat, x.1 - cellKey .cartrom 0, rfl, by omega, ?_⟩
      rw [← Nat.zero_add (x.1 - _), cellKey_add]
      omega
    · obtain ⟨hm, hk⟩ := mem_keepCart_false hx
      exact Inside.of_cart (s := s) (h.2 x hm) hk rfl⟩
  unmount s h := ⟨cartOk_partFree.unmount s h.1, fun x hx => by
    obtain ⟨hm, hk⟩ := mem_keepCart_false hx
    exact Inside.of_cart (s := s) (h.2 x hm) hk rfl⟩
  reset s h := ⟨h.1, cells_resetBus s h.2⟩

/-! ### The region tables -/

/-- The premises of the address decode: the cartridge has a region's size, and both tables, and INIT_TABLE, name only
regions their CPU may reach. -/
structure DecodeOk (s : State) : Prop where
  cart : CartOk s
  config : ConfigOk s
  table : TableOk s

/-- A mounted cartridge only adds a region to those a CPU may reach (30_encoding.md R85). -/
theorem remapAllowed_mounted (m : Bool) (c : Cpu) (r : Region) (h : remapAllowed false c r = true) :
    remapAllowed m c r = true := by
  cases r
  case cartrom => cases h
  all_goals exact h

theorem remapAllowed_unmounted (m : Bool) (c : Cpu) (r : Region) (hr : r ≠ .cartrom) (h : remapAllowed m c r = true) :
    remapAllowed false c r = true := by
  cases r
  case cartrom => exact absurd rfl hr
  all_goals exact h

theorem setEntries_getElem (e : Entry) (n : Nat) : ∀ (t : Vector Entry 256) (i : Nat) (j : Fin 256),
    (setEntries t i e n)[j] = if i ≤ j.val ∧ j.val < i + n then e else t[j] := by
  induction n with
  | zero =>
    intro t i j
    rw [setEntries, if_neg (by omega)]
  | succ n ih =>
    intro t i j
    rw [setEntries, ih]
    by_cases hj : i + 1 ≤ j.val ∧ j.val < i + 1 + n
    · rw [if_pos hj, if_pos (by omega)]
    · rw [if_neg hj]
      have hlt := j.isLt
      by_cases hi : i = j.val
      · subst hi
        simp
      · rw [if_neg (by omega)]
        split
        · exact Vector.getElem_set_ne _ _ hi
        · rfl

/-- Entries that point at a mounted cartridge are allowed; the others stay as they were. -/
theorem remapAllowed_setEntries {c : Cpu} {t : Vector Entry 256} {size : Word} {i n : Nat} (j : Fin 256)
    (h : remapAllowed true c t[j].region = true) :
    remapAllowed true c (setEntries t i (cartEntry size) n)[j].region = true := by
  rw [setEntries_getElem]
  split
  · cases c <;> rfl
  · exact h

theorem remapAllowed_initTable {s : State} (h : ConfigOk s) (c : Cpu) (cart : Option Word) (i : Byte) :
    remapAllowed cart.isSome c (initTable s.config cart c)[i.toFin].region = true := by
  cases cart with
  | none => exact h c i
  | some size => exact remapAllowed_setEntries _ (remapAllowed_mounted true c _ (h c i))

/-- A change of the parts that leaves the tables does not matter to the decode. -/
theorem DecodeOk.modSide {s : State} (h : DecodeOk s) (c : Cpu) (f : CpuSide → CpuSide)
    (hf : (f (s.side c)).table = (s.side c).table) : DecodeOk (s.modSide c f) where
  cart := cartOk_partFree.side s c _ h.cart
  config d i := by
    rw [modSide_config]
    exact h.config d i
  table d i := by
    rw [modSide_cart, State.entry, modSide_field (·.table) s c d f hf]
    exact h.table d i

theorem DecodeOk.setEntry {s : State} (h : DecodeOk s) (c : Cpu) (i : Byte) (r : Region) (m : Word)
    (hr : remapAllowed s.cart.isSome c r = true) : DecodeOk (s.setEntry c i ⟨r, m⟩) where
  cart := cartOk_partFree.side s c _ h.cart
  config d j := by
    rw [setEntry_config]
    exact h.config d j
  table d j := by
    rw [setEntry_cart, setEntry_entry]
    split
    · next e =>
      rw [e.1]
      exact hr
    · exact h.table d j

/-- The tables after a change of both, entry by entry. -/
theorem entry_modSide_both (s : State) (f : CpuSide → CpuSide) (c : Cpu) (i : Byte) :
    ((s.modSide .c0 f).modSide .c1 f).entry c i = (f (s.side c)).table[i.toFin] := by
  cases c <;> rfl

theorem DecodeOk.mount {s : State} (h : DecodeOk s) (size : Word) (bytes : List Byte) (hs : isRegionSize size = true)
    (hl : bytes.length = size.toNat) : DecodeOk (mountCart size bytes s) where
  cart := cartOk_partFree.burst.mount s size bytes h.cart hs hl
  config d i := h.config d i
  table d i := by
    rw [mountCart, entry_modSide_both]
    refine remapAllowed_setEntries _ ?_
    have hd := h.table d i
    revert hd
    cases s.cart.isSome
    · exact remapAllowed_mounted true d _
    · exact id

theorem DecodeOk.unmount {s : State} (h : DecodeOk s) : DecodeOk (unmountCart s) where
  cart := cartOk_partFree.burst.unmount s h.cart
  config d i := h.config d i
  table d i := by
    rw [unmountCart, entry_modSide_both]
    change remapAllowed false d (Entry.region ((s.side d).table.map _)[i.toFin.val]) = true
    rw [Vector.getElem_map]
    split
    · cases d <;> rfl
    · next hr => exact remapAllowed_unmounted _ d _ hr (h.table d i)

theorem resetBus_side (s : State) (c : Cpu) : (resetBus s).side c = CpuSide.reset s.config s.cart c := by
  cases c <;> rfl

theorem DecodeOk.reset {s : State} (h : DecodeOk s) : DecodeOk (resetBus s) where
  cart := h.cart
  config := h.config
  table d i := by
    rw [State.entry, resetBus_side]
    exact remapAllowed_initTable h.config d s.cart i

theorem decodeOk_burst : StableBurst DecodeOk where
  write _ _ _ h _ := ⟨h.cart, h.config, h.table⟩
  logCall _ _ h := ⟨h.cart, h.config, h.table⟩
  logDraw _ _ h := ⟨h.cart, h.config, h.table⟩
  answer _ _ h := ⟨h.cart, h.config, h.table⟩
  entry _ c i r m h hr := h.setEntry c i r m hr
  latch _ _ _ _ _ h := h.modSide _ _ rfl
  sync _ _ _ _ h := h.modSide _ _ rfl
  fifoBits _ _ _ _ _ h := h.modSide _ _ rfl
  fifoClear _ _ h := h.modSide _ _ rfl
  fifoPush _ _ _ h _ := h.modSide _ _ rfl
  fifoPop _ _ _ _ h _ := h.modSide _ _ rfl
  reload _ _ _ _ h := h.modSide _ _ rfl
  control _ _ _ _ h := h.modSide _ _ rfl
  cycle _ _ _ _ h := h.modSide _ _ rfl
  sad _ _ _ _ h := h.modSide _ _ rfl
  dad _ _ _ _ h := h.modSide _ _ rfl
  program _ _ _ _ h _ := h.modSide _ _ rfl
  rearm _ _ _ h := h.modSide _ _ rfl
  stop _ _ _ h := h.modSide _ _ rfl
  advance _ _ _ _ h := h.modSide _ _ rfl
  tcw _ _ h := ⟨h.cart, h.config, h.table⟩
  mount _ size bytes h hs hl := h.mount size bytes hs hl
  unmount _ h := h.unmount
  reset _ h := h.reset
  executing _ _ _ _ h := h.modSide _ _ rfl

theorem decodeOk_step : StableStep DecodeOk :=
  ⟨fun _ _ h => ⟨h.cart, h.config, h.table⟩, fun _ _ h => ⟨h.cart, h.config, h.table⟩⟩

/-- Settles O13: each of the three properties is kept by every primitive change. -/
theorem stepKeepsEveryAccessInsideItsRegion : Obligations.StepKeepsEveryAccessInsideItsRegion := by
  intro s t hcart e
  refine ⟨step_keeps_cartOk hcart e, fun hconfig htable => ?_, fun hcells => ?_⟩
  · exact (step_keeps decodeOk_burst decodeOk_step s t ⟨hcart, hconfig, htable⟩ e).table
  · exact (step_keeps cellsInside_partFree.burst ⟨fun _ _ h => h, fun _ _ h => h⟩ s t ⟨hcart, hcells⟩ e).2

end Sys2Proof.Machine
end

section
/-! Properties of one CPU's part: pending, the queue, the channels and the timers (10_state.md R31 to R33, R38). -/

namespace Sys2Proof.Machine

/-- A property of each part that the part changes keep is kept by every step, if running bursts do not matter to it. -/
theorem SideStable.step_keeps {Q : Cpu → CpuSide → Prop} (q : SideStable Q)
    (hx : ∀ c p (ch : Fin 4) b, Q c p →
      Q c { p with dma := p.dma.set ch.val { p.dma[ch] with executing := b } ch.isLt })
    {s t : State} (h : ∀ c, Q c (s.side c)) (e : step s = .next t) : ∀ c, Q c (t.side c) :=
  Machine.step_keeps (q.burst hx) (sides_step (Q := Q)) s t h e

/-! ### The pending output -/

/-- The pending equation of one CPU's part (10_state.md R38). -/
def PendingOf (p : CpuSide) : Prop :=
  p.pending = (p.ime && decide (p.ie &&& p.iflag ≠ 0))

theorem pendingOf_sideStable : SideStable fun _ p => PendingOf p where
  table _ _ _ h := h
  latch _ _ _ _ _ _ := rfl
  sync _ _ _ _ h := h
  fifoBits _ _ _ _ _ h := h
  fifoClear _ _ h := h
  fifoPush _ _ _ h _ := h
  fifoPop _ _ _ _ h _ := h
  timer _ _ _ _ h _ := h
  channel _ _ _ _ h _ := h
  reset _ _ _ := rfl

/-- Settles O11: only the latch writes the equation's fields, and it recomputes pending. -/
theorem stepKeepsThePendingEquation : Obligations.StepKeepsThePendingEquation := fun _ _ h e =>
  pendingOf_sideStable.step_keeps (fun _ _ _ _ h => h) h e

/-! ### The queues -/

theorem fifoBounded_sideStable : SideStable fun _ p => p.fifo.length ≤ 16 where
  table _ _ _ h := h
  latch _ _ _ _ _ h := h
  sync _ _ _ _ h := h
  fifoBits _ _ _ _ _ h := h
  fifoClear _ _ _ := Nat.zero_le _
  fifoPush _ p v h hl := by
    rw [List.length_append, List.length_singleton]
    omega
  fifoPop _ p v q h hq := by
    rw [hq, List.length_cons] at h
    exact Nat.le_of_succ_le h
  timer _ _ _ _ h _ := h
  channel _ _ _ _ h _ := h
  reset _ _ _ := Nat.zero_le _

theorem step_keeps_fifoBounded {s t : State} (h : FifoBounded s) (e : step s = .next t) : FifoBounded t :=
  fifoBounded_sideStable.step_keeps (fun _ _ _ _ h => h) h e

/-! ### The channels -/

/-- A property of every element stays when one element is replaced by another that has it. -/
theorem forall_getElem_set {α : Type} {n : Nat} {R : Fin n → α → Prop} {v : Vector α n} {k : Fin n} {x : α}
    (h : ∀ j : Fin n, R j v[j]) (hx : R k x) : ∀ j : Fin n, R j (v.set k.val x k.isLt)[j] := by
  intro j
  by_cases hj : k = j
  · subst hj
    simpa using hx
  · have hne : k.val ≠ j.val := fun e => hj (Fin.ext e)
    simpa [hne] using h j

/-- A property of each channel that the changes of a channel keep is kept by the changes of a part. -/
theorem channels_sideStable {R : Cpu → Fin 4 → Channel → Prop}
    (hstep : ∀ c ch d d', R c ch d → ChannelStep c ch d d' → R c ch d') (hreset : ∀ c ch, R c ch Channel.reset) :
    SideStable fun c p => ∀ ch : Fin 4, R c ch p.dma[ch] where
  table _ _ _ h := h
  latch _ _ _ _ _ h := h
  sync _ _ _ _ h := h
  fifoBits _ _ _ _ _ h := h
  fifoClear _ _ h := h
  fifoPush _ _ _ h _ := h
  fifoPop _ _ _ _ h _ := h
  timer _ _ _ _ h _ := h
  channel c _ ch d h hd := forall_getElem_set h (hstep c ch _ d (h ch) hd)
  reset g cart c ch := by
    change R c ch (Vector.replicate 4 Channel.reset)[ch.val]
    rw [Vector.getElem_replicate]
    exact hreset c ch

/-- `active` is bit 31 of the control word (10_state.md R31). -/
def ActiveIsBit31 (d : Channel) : Prop :=
  d.active = bitAt d.cnt 31

/-- Programming takes the flag and the word from one value (42_dma.md R184). -/
theorem program_activeIsBit31 (d : Channel) (c : Cpu) (ch : Fin 4) (v : Word) : ActiveIsBit31 (d.program c ch v) := by
  rw [Channel.program]
  split <;> rfl

theorem stop_activeIsBit31 (d : Channel) : ActiveIsBit31 d.stop := by
  rw [ActiveIsBit31, Channel.stop, bitAt, BitVec.getLsbD_and]
  exact (Bool.and_false _).symm

theorem ChannelStep.activeIsBit31 {c : Cpu} {ch : Fin 4} {d d' : Channel} (h : ActiveIsBit31 d)
    (hd : ChannelStep c ch d d') : ActiveIsBit31 d' := by
  cases hd with
  | program v => exact program_activeIsBit31 d c ch _
  | stop => exact stop_activeIsBit31 d
  | sad | dad | rearm | advance => exact h

theorem activeIsBit31_sideStable : SideStable fun _ p => ∀ ch : Fin 4, ActiveIsBit31 p.dma[ch] :=
  channels_sideStable (fun _ _ _ _ h hd => hd.activeIsBit31 h) fun _ _ => rfl

theorem step_keeps_activeOk {s t : State} (h : ActiveOk s) (e : step s = .next t) : ActiveOk t :=
  activeIsBit31_sideStable.step_keeps (fun _ _ ch _ h => forall_getElem_set (R := fun _ d => ActiveIsBit31 d) h (h ch)) h e

/-! ### Timer 0 -/

theorem Timer.cycle_cascade (m : Timer) (t : Fin 4) (k : Bool) : (m.cycle t k).2.cascade = m.cascade := by
  simp only [Timer.cycle]
  split
  · rfl
  · split <;> rfl

/-- The write mask of TM0CNT_H has no cascade bit (43_timers.md R210). -/
theorem TimerStep.zero_cascade {m m' : Timer} (h : m.cascade = false) (hm : TimerStep 0 m m') : m'.cascade = false := by
  cases hm with
  | reload v => exact h
  | control v =>
    rw [show tmMask 0 = controlBits 0 from rfl, withControl_eq]
    exact Bool.and_false _
  | cycle k => rw [Timer.cycle_cascade, h]

theorem timerZero_sideStable : SideStable fun _ p => p.tmr[(0 : Fin 4)].cascade = false where
  table _ _ _ h := h
  latch _ _ _ _ _ h := h
  sync _ _ _ _ h := h
  fifoBits _ _ _ _ _ h := h
  fifoClear _ _ h := h
  fifoPush _ _ _ h _ := h
  fifoPop _ _ _ _ h _ := h
  timer _ p t m h hm := by
    by_cases ht : t = 0
    · subst ht
      have hc := hm.zero_cascade h
      simpa using hc
    · have hne : t.val ≠ 0 := fun e => ht (Fin.ext e)
      simpa [hne] using h
  channel _ _ _ _ h _ := h
  reset _ _ _ := rfl

theorem step_keeps_timerZero {s t : State} (h : TimerZeroOk s) (e : step s = .next t) : TimerZeroOk t :=
  timerZero_sideStable.step_keeps (fun _ _ _ _ h => h) h e

/-! ### Running bursts -/

/-- Only channels of a set have a burst running. -/
def RunningWithin (E : Cpu → Fin 4 → Prop) (s : State) : Prop :=
  ∀ c (ch : Fin 4), (s.chan c ch).executing = true → E c ch

theorem quiet_iff (s : State) : Quiet s ↔ RunningWithin (fun _ _ => False) s := by
  simp only [Quiet, RunningWithin, imp_false, Bool.not_eq_true]

theorem ChannelStep.executing {c : Cpu} {ch : Fin 4} {d d' : Channel} (hd : ChannelStep c ch d d') :
    d'.executing = d.executing := by
  cases hd with
  | program v =>
    rw [Channel.program]
    split <;> rfl
  | sad | dad | rearm | stop | advance => rfl

/-- Nothing but a burst's own brackets marks a channel. -/
theorem running_sideStable (E : Cpu → Fin 4 → Prop) :
    SideStable fun c p => ∀ ch : Fin 4, p.dma[ch].executing = true → E c ch :=
  channels_sideStable (R := fun c ch d => d.executing = true → E c ch)
    (fun _ _ _ _ h hd hx => h (hd.executing ▸ hx)) fun _ _ hx => nomatch hx

theorem runningWithin_stable (E : Cpu → Fin 4 → Prop) : Stable (RunningWithin E) :=
  (running_sideStable E).stable

theorem RunningWithin.begin {E : Cpu → Fin 4 → Prop} {s : State} (h : RunningWithin E s) (c : Cpu) (ch : Fin 4) :
    RunningWithin (fun d k => E d k ∨ d = c ∧ k = ch) (s.modChan c ch fun d => { d with executing := true }) := by
  intro d k hx
  rw [modChan_chan] at hx
  split at hx
  · next e => exact .inr e
  · exact .inl (h d k hx)

theorem RunningWithin.finish {E : Cpu → Fin 4 → Prop} {s : State} {c : Cpu} {ch : Fin 4}
    (h : RunningWithin (fun d k => E d k ∨ d = c ∧ k = ch) s) :
    RunningWithin E (s.modChan c ch fun d => { d with executing := false }) := by
  intro d k hx
  rw [modChan_chan] at hx
  split at hx
  · cases hx
  · next hne => exact (h d k hx).resolve_right hne

/-- The end of a burst takes its channel out of the set. -/
theorem RunningWithin.completeBurst {E : Cpu → Fin 4 → Prop} {s : State} {c : Cpu} {ch : Fin 4}
    (h : RunningWithin (fun d k => E d k ∨ d = c ∧ k = ch) s) : RunningWithin E (completeBurst c ch s) := by
  have hE := runningWithin_stable E
  apply hE.raiseIf
  split
  · exact hE.rearm _ c ch h.finish
  · exact hE.stopChannel c ch _ h.finish

/-- A burst ends with the channels running that ran before it (20_memory.md R66), whatever it nests. -/
theorem RunningWithin.executeDepth (n : Nat) : ∀ (E : Cpu → Fin 4 → Prop) c ch s t, RunningWithin E s →
    executeDepth n c ch s = .ok t → RunningWithin E t := by
  induction n with
  | zero => intro E c ch s t _ e; cases e
  | succ n ih =>
    intro E c ch s t h e
    change executeBody (Machine.executeDepth n) c ch s = _ at e
    unfold executeBody at e
    simp only at e
    split at e
    · cases e; exact h
    · split at e
      · cases e; exact (runningWithin_stable E).stopChannel c ch s h
      · obtain ⟨u, hu, ht⟩ := andThen_eq_ok e
        cases ht
        exact ((runningWithin_stable _).elements (fun c ch s t hs _ e => ih _ c ch s t hs e) c ch _ _ _ u
          (h.begin c ch) hu).completeBurst

theorem RunningWithin.triggerChannel {E : Cpu → Fin 4 → Prop} {c : Cpu} {ev : Event} {ch : Fin 4} {s t : State}
    (h : RunningWithin E s) (e : triggerChannel c ev ch s = .ok t) : RunningWithin E t := by
  unfold Machine.triggerChannel at e
  simp only at e
  split at e
  · exact .executeDepth _ E c ch s t h e
  · cases e; exact h

theorem Serves.runningWithin {E : Cpu → Fin 4 → Prop} {s t : State} (h : RunningWithin E s) (hst : Serves s t) :
    RunningWithin E t := by
  have q := runningWithin_stable E
  have hexe : ExeKeeps (RunningWithin E) Machine.execute := fun c ch s t hs _ e => .executeDepth _ E c ch s t hs e
  cases hst with
  | nothing => exact h
  | call k => exact q.logCall s k h
  | draw k => exact q.logDraw s k h
  | memRead c a w => exact q.memRead c a w s h
  | memWrite e => exact q.memWrite hexe h e
  | ioRead c o w => exact q.ioRead c o w s h
  | ioWrite hb e => exact q.ioWrite hexe h hb e
  | onRegisterWrite e => exact q.onRegisterWrite hexe h e
  | programChannel e => exact q.programChannel hexe h e
  | execute e => exact .executeDepth _ E _ _ s t h e
  | trigger e => exact forEach_keeps _ (fun _ _ _ _ hu hv => hu.triggerChannel hv) s t h e
  | tickLoop c n o => exact q.tickLoop c n o s h
  | remap e => exact q.remap h e
  | loadBytes e => exact q.loadBytes h e
  | setTcwBase v => exact q.tcw s v h
  | mount size bs hs hl => exact q.mount s size bs h hs hl
  | unmount => exact q.unmount s h
  | reset => exact q.reset s h
  | setReload c k v => exact q.setReload c k v s h
  | setControl c k v => exact q.setControl c k v s h
  | writeSync c v => exact q.writeSync c v s h
  | fifoControl c v => exact q.fifoControl c v s h
  | send c v => exact q.send c v s h
  | recv c => exact q.recv c s h
  | setIME c v => exact q.setIME c v s h
  | setIE c v => exact q.setIE c v s h
  | setIF c m => exact q.setIF c m s h
  | clearIF c m => exact q.clearIF c m s h

theorem step_keeps_quiet {s t : State} (h : Quiet s) (e : step s = .next t) : Quiet t := by
  rw [quiet_iff] at h ⊢
  exact step_keeps_of_serves ⟨fun _ _ h => h, fun _ _ h => h⟩ (runningWithin_stable _).answer h
    (fun input _ hu => Serves.runningWithin (s := afterFetch input s) h hu) e

/-- Settles O12: the four invariants, each by the changes of its own fields; a burst, which marks its channel, takes the
mark back. -/
theorem stepKeepsQueuesChannelsAndTimers : Obligations.StepKeepsQueuesChannelsAndTimers := fun _ _ e =>
  ⟨fun h => step_keeps_fifoBounded h e, fun h => step_keeps_activeOk h e, fun h => step_keeps_quiet h e,
    fun h => step_keeps_timerZero h e⟩

end Sys2Proof.Machine
end

section
/-! The mirror invariant (10_state.md R30) through every operation: writes outside the raw blocks leave the mirrors, a
window write disturbs those it touches and its handlers restore them, and a burst does only such writes. -/

namespace Sys2Proof.Machine

/-! ### Writes outside the raw blocks -/

/-- A run of bytes inside another region leaves the raw bytes of a CPU (10_state.md R41). -/
theorem ioByte_writeBytes_apart {s t : State} {r : Region} {o : Nat} {l : List Byte} (d : Cpu) {j : Nat}
    (ht : t.mem = Memory.writeBytes s.mem (cellKey r o) l) (hr : r ≠ ioRegion d) (hb : o + l.length ≤ 2 ^ 32)
    (hj : j < 2 ^ 32) : t.ioByte d j = s.ioByte d j := by
  rw [State.ioByte, State.byte, ht, read_writeBytes, dif_neg]
  · rfl
  · rintro ⟨hlo, hhi⟩
    have hkey : cellKey r (o + (cellKey (ioRegion d) j - cellKey r o)) = cellKey (ioRegion d) j := by
      rw [cellKey_add]
      omega
    exact hr (cellKey_inj _ _ _ _ hkey (by omega) hj).1

/-- Dropping or replacing the cartridge's bytes leaves the raw bytes of a CPU. -/
theorem read_keepCart_false_io (m : Memory) (d : Cpu) (j : Nat) (hj : j < 2 ^ 32) :
    (Memory.keepCart m false).read (cellKey (ioRegion d) j) = m.read (cellKey (ioRegion d) j) := by
  refine read_filter m _ _ fun _ => ?_
  simp only [cellKey_div _ j hj]
  cases d <;> rfl

/-- A change that leaves both CPU parts and both raw blocks leaves every mirror. -/
theorem MirrorExcept.of_ioBytes {E : Cpu → LReg → Prop} {s t : State} (h : MirrorExcept E s)
    (hside : ∀ d, t.side d = s.side d) (hbyte : ∀ d j, j < 2 ^ 32 → t.ioByte d j = s.ioByte d j) : MirrorExcept E t := by
  intro c r hE
  refine Mirrored.congr hside (fun i hi => hbyte c _ ?_) (h c r hE)
  have := lreg_bound r
  omega

theorem MirrorExcept.writeBytes {E : Cpu → LReg → Prop} {s : State} {r : Region} {o : Nat} {l : List Byte}
    (h : MirrorExcept E s) (hr : ∀ d, r ≠ ioRegion d) (hb : o + l.length ≤ 2 ^ 32) :
    MirrorExcept E { s with mem := Memory.writeBytes s.mem (cellKey r o) l } :=
  h.of_ioBytes (fun d => by cases d <;> rfl) fun d _ hj => ioByte_writeBytes_apart d rfl (hr d) hb hj

theorem MirrorExcept.regionWrite {E : Cpu → LReg → Prop} {s : State} {r : Region} {o n v : Nat}
    (h : MirrorExcept E s) (hr : ∀ d, r ≠ ioRegion d) (hb : o + n ≤ 2 ^ 32) : MirrorExcept E (s.regionWrite r o n v) :=
  h.writeBytes hr (by rwa [leBytes_length])

/-! ### The cartridge and the tables -/

/-- No mirror shows a table. -/
theorem MirrorExcept.modTable {E : Cpu → LReg → Prop} {s : State} (h : MirrorExcept E s) (c : Cpu)
    (t : CpuSide → Vector Entry 256) : MirrorExcept E (s.modSide c fun p => { p with table := t p }) := by
  refine (h.fields (X := fun _ _ => False) (modSide_mem _ _ _) (fun d => ⟨?_, ?_, ?_, ?_, ?_⟩) (fun d ch => ?_)
    fun d k _ => ?_).mono fun _ _ x => x.resolve_right id
  · exact fun _ => modSide_field (·.ime) s c d _ rfl
  · exact fun _ => modSide_field (·.ie) s c d _ rfl
  · exact fun _ => modSide_field (·.iflag) s c d _ rfl
  · exact fun _ => ⟨modSide_field (·.syncOut) s c d _ rfl, modSide_field (·.syncOut) s c _ _ rfl,
      modSide_field (·.syncIrqEn) s c d _ rfl⟩
  · exact fun _ => ⟨modSide_field (·.fifo) s c d _ rfl, modSide_field (·.fifo) s c _ _ rfl,
      modSide_field (·.sendEmptyIrqEn) s c d _ rfl, modSide_field (·.recvNotEmptyIrqEn) s c d _ rfl,
      modSide_field (·.fifoEnable) s c d _ rfl⟩
  · rw [modSide_chan_of s c d ch _ rfl]
    exact ⟨fun _ => rfl, fun _ => rfl, fun _ => rfl⟩
  · rw [modSide_timer_of s c d k _ rfl]

theorem cartrom_ne_ioRegion (d : Cpu) : Region.cartrom ≠ ioRegion d := by cases d <;> decide

theorem dtcm_ne_ioRegion (d : Cpu) : Region.dtcm ≠ ioRegion d := by cases d <;> decide

theorem MirrorExcept.keepCart {E : Cpu → LReg → Prop} {s : State} (h : MirrorExcept E s) (cart : Option Word) :
    MirrorExcept E { s with cart := cart, mem := Memory.keepCart s.mem false } :=
  h.of_ioBytes (fun d => by cases d <;> rfl) fun d j hj => read_keepCart_false_io s.mem d j hj

theorem MirrorExcept.mountCart {E : Cpu → LReg → Prop} {s : State} (h : MirrorExcept E s) (size : Word)
    (bytes : List Byte) (hl : bytes.length = size.toNat) : MirrorExcept E (mountCart size bytes s) := by
  have hlt := size.isLt
  have hmem := (h.keepCart (some size)).writeBytes (o := 0) (l := bytes) cartrom_ne_ioRegion (by omega)
  exact (hmem.modTable .c0 _).modTable .c1 _

theorem MirrorExcept.unmountCart {E : Cpu → LReg → Prop} {s : State} (h : MirrorExcept E s) :
    MirrorExcept E (unmountCart s) :=
  ((h.keepCart none).modTable .c0 _).modTable .c1 _

theorem loadAllowed_ne_ioRegion {m : Bool} {r : Region} (h : loadAllowed m r = true) (d : Cpu) : r ≠ ioRegion d := by
  rintro rfl
  cases d <;> cases h

theorem MirrorExcept.loadBytes {E : Cpu → LReg → Prop} {g : Byte} {o : Word} {bs : List Byte} {s t : State}
    (h : MirrorExcept E s) (e : loadBytes g o bs s = .ok t) : MirrorExcept E t := by
  unfold Machine.loadBytes at e
  split at e
  · cases e
  · split at e
    · cases e
    · next size hsize =>
      split at e
      · next hc =>
        simp only [Bool.and_eq_true, decide_eq_true_eq] at hc
        cases e
        have hlt := regionSize_le _ _ _ _ hsize
        exact h.writeBytes (loadAllowed_ne_ioRegion hc.1) (by omega)
      · cases e

/-! ### Reset -/

/-- The state between the two halves of RESET: every field and every byte but the cartridge's cleared, IPCFIFOCNT not yet
rewritten. -/
def clearedBus (s : State) : State :=
  { resetBus s with mem := Memory.keepCart s.mem true }

/-- RESET rewrites IPCFIFOCNT of both CPUs from the cleared fields: its 0x101 is their encoding (44_ipc.md R236). -/
theorem resetBus_eq (s : State) : resetBus s = mirrorFifoCnt .c1 (mirrorFifoCnt .c0 (clearedBus s)) := by
  have h0 : encodeFifoCnt (clearedBus s) .c0 = 0x101 := rfl
  have h1 : encodeFifoCnt ((clearedBus s).setRaw .c0 fifoCntOffset 4 0x101) .c1 = 0x101 := rfl
  rw [mirrorFifoCnt, mirrorFifoCnt, h0, h1]
  rfl

theorem clearedBus_raw (s : State) (c : Cpu) (o n : Nat) (hb : o + n ≤ 2 ^ 32) : (clearedBus s).raw c o n = 0 := by
  have hbyte : ∀ i, i < n → (clearedBus s).ioByte c (o + i) = byteAt 0 i := by
    intro i hi
    have hk : Memory.read (clearedBus s).mem (cellKey (ioRegion c) (o + i)) = 0 := by
      refine read_filter_out s.mem _ _ fun _ => ?_
      simp only [cellKey_div _ (o + i) (by omega)]
      cases c <;> rfl
    rw [State.ioByte, State.byte, hk]
    simp [byteAt]
  rw [raw_eq, bytesValue_congr n _ _ hbyte, bytesValue_byteAt_mod, Nat.zero_mod]

theorem clearedBus_side (s : State) (c : Cpu) : (clearedBus s).side c = CpuSide.reset s.config s.cart c := by
  cases c <;> rfl

theorem clearedBus_chan (s : State) (c : Cpu) (ch : Fin 4) : (clearedBus s).chan c ch = Channel.reset := by
  rw [State.chan, clearedBus_side]
  exact Vector.getElem_replicate ch.isLt

theorem clearedBus_timer (s : State) (c : Cpu) (t : Fin 4) : (clearedBus s).timer c t = Timer.reset := by
  rw [State.timer, clearedBus_side]
  exact Vector.getElem_replicate t.isLt

/-- Cleared bytes mirror cleared fields, in every register but IPCFIFOCNT. -/
theorem clearedBus_mirrors (s : State) : MirrorExcept (fun _ r => r = .ipcFifoCnt) (clearedBus s) := by
  intro c r hr
  have hbound : r.offset + r.size ≤ 2 ^ 32 := le_trans (lreg_bound r) (by decide)
  have hraw := clearedBus_raw s c
  cases r
  case ipcFifoCnt => exact absurd rfl hr
  case ime | ie | iflag => simp only [Mirrored, clearedBus_side]; exact hraw _ _ hbound
  case ipcSync => simp only [Mirrored, encodeSync, clearedBus_side]; exact hraw _ _ hbound
  case dmaSad | dmaDad | dmaCnt => simp only [Mirrored, clearedBus_chan]; exact hraw _ _ hbound
  case tmCntH => simp only [Mirrored, clearedBus_timer]; exact hraw _ _ hbound
  case auxSpiData =>
    have h1 := byteAt_raw (clearedBus s) c 0x1A3 1 0 (by decide)
    rw [hraw _ _ (by decide)] at h1
    exact h1.symm
  all_goals trivial

theorem mirrorOk_resetBus (s : State) : MirrorOk (resetBus s) := by
  rw [mirrorOk_iff, resetBus_eq]
  refine (((clearedBus_mirrors s).mirrorFifoCnt .c0).mirrorFifoCnt .c1).mono ?_
  rintro d r ⟨⟨hr, h0⟩, h1⟩
  cases d
  · exact h0 ⟨rfl, hr⟩
  · exact h1 ⟨rfl, hr⟩

/-! ### Reads -/

theorem MirrorExcept.computedRead {E : Cpu → LReg → Prop} {c : Cpu} {r : LReg} {s : State} (h : MirrorExcept E s)
    {x : Nat × State} (e : computedRead c r s = some x) : MirrorExcept E x.2 := by
  cases r <;> simp only [Machine.computedRead, Option.some.injEq, reduceCtorEq] at e <;> subst e
  case ipcFifoRecv => exact h.recv c
  case dispCapCnt | romCtrl | cardData | gxStat => exact h.logDraw _
  all_goals exact h

theorem MirrorExcept.readRegs {E : Cpu → LReg → Prop} (c : Cpu) (o : Nat) (l : List LReg) : ∀ bs s,
    MirrorExcept E s → MirrorExcept E (readRegs c o l bs s).2 := by
  induction l with
  | nil => intro bs s h; exact h
  | cons r l ih =>
    intro bs s h
    rw [Machine.readRegs]
    split
    · exact ih _ _ h
    · next x hx => exact ih _ _ (h.computedRead hx)

theorem MirrorExcept.ioRead {E : Cpu → LReg → Prop} {s : State} (h : MirrorExcept E s) (c : Cpu) (o : Nat) (w : Width) :
    MirrorExcept E (ioRead c o w s).2 := .readRegs c o _ _ s h

theorem MirrorExcept.cartPassRead {E : Cpu → LReg → Prop} (c : Cpu) (n : Nat) : ∀ a s, MirrorExcept E s →
    MirrorExcept E (cartPassRead c a n s).2 := by
  induction n with
  | zero => intro a s h; exact h
  | succ n ih => intro a s h; exact ih _ _ (h.logDraw _)

theorem MirrorExcept.cartPassWrite {E : Cpu → LReg → Prop} (c : Cpu) (l : List Byte) : ∀ a s, MirrorExcept E s →
    MirrorExcept E (cartPassWrite c a l s) := by
  induction l with
  | nil => intro a s h; exact h
  | cons b l ih => intro a s h; exact ih _ _ (h.logCall _)

theorem MirrorExcept.memRead {E : Cpu → LReg → Prop} {s : State} (h : MirrorExcept E s) (c : Cpu) (addr : Word)
    (w : Width) : MirrorExcept E (memRead c addr w s).2 := by
  dsimp only [Machine.memRead]
  split
  · exact h
  · exact .cartPassRead _ _ _ _ h
  · exact h.logDraw _
  · exact h
  · exact h.ioRead _ _ _
  · exact h

/-! ### Writes -/

/-- A storage access never reaches a raw block: the CPU's own is its window (40_decode.md R108), and the table holds no
entry for the other's (30_encoding.md R85). -/
theorem resolve_storage_ne_ioRegion {c : Cpu} {a : Word} {s : State} {r : Region} {o : Nat} (h : TableOk s)
    (e : resolve c a s = .storage r o) (d : Cpu) : r ≠ ioRegion d := by
  have hentry : r ≠ ioRegion c ∧ (s.entry c (tableIndex a)).region = r := by
    simp only [resolve] at e
    split_ifs at e with _ _ _ hne
    split at e
    · cases e
    · cases e
      exact ⟨hne, rfl⟩
  rcases eq_or_other c d with rfl | rfl
  · exact hentry.1
  · rintro rfl
    have hallowed := h c (tableIndex a)
    rw [hentry.2] at hallowed
    cases c <;> cases hallowed

/-- A burst keeps the mirrors it finds, whichever they are. -/
def ExeKeepsMirrors (exe : Exe) : Prop :=
  ∀ E c ch s t, DecodeOk s → MirrorExcept E s → exe c ch s = .ok t → MirrorExcept E t

section Exe

variable {exe : Exe} (hexe : ExeKeeps DecodeOk exe) (hmir : ExeKeepsMirrors exe)

include hexe hmir

/-- The handlers of a list of registers restore the mirrors of those registers, one after the other. -/
theorem MirrorExcept.handlers {E : Cpu → LReg → Prop} {c : Cpu} {o : Nat} {w : Width} {v : Word} (l : List LReg) :
    ∀ s t, DecodeOk s → MirrorExcept (fun d r => E d r ∨ d = c ∧ r ∈ l) s →
      forEach (Machine.handle exe c o w v) l s = .ok t → MirrorExcept E t := by
  induction l with
  | nil =>
    intro s t _ h e
    cases e
    exact h.mono fun _ _ x => x.resolve_right fun y => nomatch y.2
  | cons q l ih =>
    intro s t hs h e
    obtain ⟨u, hu, ht⟩ := andThen_eq_ok e
    refine ih u t (decodeOk_burst.handle hexe hs hu) ?_ ht
    refine (h.handle decodeOk_burst.program hmir hs hu).mono ?_
    rintro d r ⟨hE | ⟨hd, hr⟩, hne⟩
    · exact .inl hE
    · exact .inr ⟨hd, (List.mem_cons.mp hr).resolve_left fun hrq => hne ⟨hd, hrq⟩⟩

/-- The dispatch alone keeps the mirrors, as it restores even those a store disturbed. -/
theorem MirrorExcept.onRegisterWrite {E : Cpu → LReg → Prop} {c : Cpu} {o : Nat} {w : Width} {v : Word} {s t : State}
    (hs : DecodeOk s) (h : MirrorExcept E s) (e : onRegisterWrite exe c o w v s = .ok t) : MirrorExcept E t :=
  .handlers hexe hmir _ s t hs (h.mono fun _ _ => .inl) e

/-- A window write disturbs the mirrors of the registers it touches, and their handlers restore them. -/
theorem MirrorExcept.ioWrite {E : Cpu → LReg → Prop} {c : Cpu} {o : Nat} {w : Width} {v : Word} {s t : State}
    (hs : DecodeOk s) (h : MirrorExcept E s) (hb : o + w.bytes ≤ 0x1000000) (e : ioWrite exe c o w v s = .ok t) :
    MirrorExcept E t :=
  .handlers hexe hmir _ _ t (decodeOk_burst.setRaw s c o _ _ hs hb) (h.stored hb) e

theorem MirrorExcept.memWrite {E : Cpu → LReg → Prop} {c : Cpu} {addr : Word} {w : Width} {v : Word} {s t : State}
    (hs : DecodeOk s) (h : MirrorExcept E s) (e : memWrite exe c addr w v s = .ok t) : MirrorExcept E t := by
  dsimp only [Machine.memWrite] at e
  rcases resolve_cases w c addr s with ⟨o, hr, -, ho⟩ | hr | hr | hr | ⟨o, hr, -, ho⟩ | ⟨r, o, size, hr, hsize, ho⟩ <;>
    rw [hr] at e
  · cases e; exact h.regionWrite dtcm_ne_ioRegion (by omega)
  · cases e; exact .cartPassWrite _ _ _ _ h
  · cases e; exact h.logCall _
  · cases e; exact h
  · exact .ioWrite hexe hmir hs h ho e
  · cases e
    have hlt := regionSize_le _ _ _ _ hsize
    exact h.regionWrite (resolve_storage_ne_ioRegion hs.table hr) (by have := (ho hs.cart).2; omega)

/-! ### Bursts -/

theorem MirrorExcept.elements {E : Cpu → LReg → Prop} (c : Cpu) (ch : Fin 4) (w : Width) (n : Nat) : ∀ s t, DecodeOk s →
    MirrorExcept E s → elements exe c ch w n s = .ok t → MirrorExcept E t := by
  induction n with
  | zero => intro s t _ h e; cases e; exact h
  | succ n ih =>
    intro s t hs h e
    obtain ⟨u, hu, ht⟩ := andThen_eq_ok e
    have hread := decodeOk_burst.memRead c (s.chan c ch).src w s hs
    have hwrite := decodeOk_burst.memWrite hexe hread hu
    have hmirror := MirrorExcept.memWrite hexe hmir hread (h.memRead _ _ _) hu
    exact ih _ t (decodeOk_burst.advance u c ch w hwrite) (hmirror.modChan_same c ch _ ⟨rfl, rfl, rfl⟩) ht

theorem exeKeepsMirrors_executeBody : ExeKeepsMirrors (executeBody exe) := by
  intro E c ch s t hs h e
  unfold executeBody at e
  simp only at e
  split at e
  · cases e; exact h
  · split at e
    · cases e; exact h.stopChannel c ch
    · obtain ⟨u, hu, ht⟩ := andThen_eq_ok e
      cases ht
      exact (MirrorExcept.elements hexe hmir c ch _ _ _ u (decodeOk_burst.executing s c ch true hs)
        (h.modChan_same c ch _ ⟨rfl, rfl, rfl⟩) hu).completeBurst c ch

end Exe

theorem exeKeepsMirrors_executeDepth (n : Nat) : ExeKeepsMirrors (executeDepth n) := by
  induction n with
  | zero => intro E c ch s t _ _ e; cases e
  | succ n ih => exact exeKeepsMirrors_executeBody (fun c ch s t hs _ e => decodeOk_burst.executeDepth n c ch s t hs e) ih

theorem exeKeepsMirrors_execute : ExeKeepsMirrors execute := exeKeepsMirrors_executeDepth burstDepth

theorem MirrorExcept.triggerChannel {E : Cpu → LReg → Prop} {c : Cpu} {ev : Event} {ch : Fin 4} {s t : State}
    (hs : DecodeOk s) (h : MirrorExcept E s) (e : triggerChannel c ev ch s = .ok t) : DecodeOk t ∧ MirrorExcept E t := by
  unfold Machine.triggerChannel at e
  simp only at e
  split at e
  · exact ⟨decodeOk_burst.executeDepth _ c ch s t hs e, exeKeepsMirrors_execute E c ch s t hs h e⟩
  · cases e; exact ⟨hs, h⟩

theorem MirrorExcept.trigger {E : Cpu → LReg → Prop} {c : Cpu} {ev : Event} {s t : State} (hs : DecodeOk s)
    (h : MirrorExcept E s) (e : trigger c ev s = .ok t) : MirrorExcept E t :=
  (forEach_keeps (P := fun u => DecodeOk u ∧ MirrorExcept E u) _ (fun _ _ _ _ hu hv => hu.2.triggerChannel hu.1 hv) s t
    ⟨hs, h⟩ e).2

/-! ### Requests -/

/-- Every operation keeps the mirror invariant, where the tables name only regions their CPU may reach. -/
theorem Serves.mirrorExcept {s t : State} (hs : DecodeOk s) (h : MirrorExcept (fun _ _ => False) s)
    (hst : Serves s t) : MirrorExcept (fun _ _ => False) t := by
  have hexe := decodeOk_burst.execute
  have hmir := exeKeepsMirrors_execute
  cases hst with
  | nothing => exact h
  | call k => exact h.logCall k
  | draw k => exact h.logDraw k
  | memRead c a w => exact h.memRead c a w
  | memWrite e => exact .memWrite hexe hmir hs h e
  | ioRead c o w => exact h.ioRead c o w
  | ioWrite hb e => exact .ioWrite hexe hmir hs h hb e
  | onRegisterWrite e => exact .onRegisterWrite hexe hmir hs h e
  | programChannel e => exact (MirrorExcept.programChannel decodeOk_burst.program hmir hs h e).mono fun _ _ x => x.1
  | execute e => exact hmir _ _ _ s t hs h e
  | trigger e => exact .trigger hs h e
  | tickLoop c n o => exact .tickLoop c n o s h
  | remap e => exact h.remap e
  | loadBytes e => exact h.loadBytes e
  | setTcwBase v => exact h
  | mount size bs _ hl => exact h.mountCart size bs hl
  | unmount => exact h.unmountCart
  | reset => exact (mirrorOk_iff _).mp (mirrorOk_resetBus s)
  | setReload c k v => exact h.setReload c k v
  | setControl c k v => exact (h.setControl c k v).mono fun _ _ x => x.1
  | writeSync c v => exact (h.writeSync c v).mono fun _ _ x => x.1
  | fifoControl c v => exact (h.fifoControl c v).mono fun _ _ x => x.1
  | send c v => exact (h.send c v).mono fun _ _ x => x.1
  | recv c => exact h.recv c
  | setIME c v => exact (h.setIME c v).mono fun _ _ x => x.1
  | setIE c v => exact (h.setIE c v).mono fun _ _ x => x.1
  | setIF c m => exact (h.setIF c m).mono fun _ _ x => x.1
  | clearIF c m => exact (h.clearIF c m).mono fun _ _ x => x.1

/-- Settles O14: a request is one operation of the bus, and each keeps the mirrors. -/
theorem stepKeepsTheMirrors : Obligations.StepKeepsTheMirrors := by
  intro s t hcart hconfig htable h e
  rw [mirrorOk_iff] at h ⊢
  exact step_keeps_of_serves ⟨fun _ _ h => h, fun _ _ h => h⟩ (fun _ _ h => h) h
    (fun input _ hu => Serves.mirrorExcept (s := afterFetch input s) ⟨hcart, hconfig, htable⟩ h hu) e

end Sys2Proof.Machine
end

section
/-! The state after construction (70_reset_and_hazards.md R290) meets every invariant, in every configuration whose
INIT_TABLE names only regions its CPU may reach. -/

namespace Sys2Proof.Machine

/-- Construction is RESET of a bus without bytes, cartridge or history (R290). -/
theorem construct_eq_resetBus (g : BusConfig) : State.construct g = resetBus { State.construct g with mem := [] } := by
  have hmem : resetCells =
      Memory.leWrite (Memory.leWrite [] (cellKey .io0 0x184) 4 0x101) (cellKey .io1 0x184) 4 0x101 := by
    decide
  rw [State.construct, hmem]
  rfl

theorem construct_side (g : BusConfig) (c : Cpu) : (State.construct g).side c = CpuSide.reset g none c := by
  cases c <;> rfl

/-- A property of each part that RESET gives it holds after construction. -/
theorem SideStable.construct {Q : Cpu → CpuSide → Prop} (q : SideStable Q) (g : BusConfig) (c : Cpu) :
    Q c ((State.construct g).side c) := by
  rw [construct_side]
  exact q.reset g none c

theorem cells_construct (g : BusConfig) : CellsInside (State.construct g) := by
  rw [construct_eq_resetBus]
  exact cells_resetBus _ fun _ hx => nomatch hx

theorem memoryForm_construct (g : BusConfig) : Memory.wf (State.construct g).mem := by
  rw [construct_eq_resetBus]
  exact memoryForm_partFree.reset _ ⟨List.Pairwise.nil, fun _ hx => nomatch hx⟩

theorem mirrorOk_construct (g : BusConfig) : MirrorOk (State.construct g) := by
  rw [construct_eq_resetBus]
  exact mirrorOk_resetBus _

theorem inv_construct (g : BusConfig) (hg : ConfigOk (State.construct g)) : Inv (State.construct g) where
  mem := memoryForm_construct g
  cells := cells_construct g
  cart _ hc := nomatch hc
  config := hg
  table c i := by
    rw [State.entry, construct_side]
    exact remapAllowed_initTable hg c none i
  pending := pendingOf_sideStable.construct g
  fifo := fifoBounded_sideStable.construct g
  active := activeIsBit31_sideStable.construct g
  quiet := (quiet_iff _).mpr ((running_sideStable _).construct g)
  timerZero := timerZero_sideStable.construct g
  mirror := mirrorOk_construct g

/-- The default INIT_TABLE (40_decode.md R111), run by run, names only regions its CPU may reach. -/
theorem remapAllowed_defaultEntries (c : Cpu) : ∀ e ∈ defaultEntries c, remapAllowed false c e.region = true := by
  cases c <;>
    simp only [defaultEntries, List.forall_mem_append, List.forall_mem_singleton, List.mem_replicate, and_imp] <;>
    simp +contextual [sinkEntry, remapAllowed]

theorem configOk_reset : ConfigOk State.reset := by
  intro c i
  refine remapAllowed_defaultEntries c _ ?_
  cases c <;> exact List.getElem_mem _

/-- Settles O9: the default configuration is one of those. -/
theorem constructionMeetsTheInvariants : Obligations.ConstructionMeetsTheInvariants :=
  inv_construct BusConfig.default configOk_reset

end Sys2Proof.Machine
end

section
/-! The receive side of the FIFOs (44_ipc.md R238 to R242): a read inside one computed register, one receive, and a run
of sends and receives. -/

namespace Sys2Proof.Machine

/-! ### A read inside one computed register (41_io_dispatch.md R135) -/

/-- Inside its register every byte of an access comes from the computed value. -/
theorem overlay_inside (r : LReg) (v : Nat) (bs : List Byte) : ∀ o, r.offset ≤ o → o + bs.length ≤ r.offset + r.size →
    overlay r v o bs = (List.range bs.length).map fun k => byteAt v (o - r.offset + k) := by
  induction bs with
  | nil => intro o _ _; rfl
  | cons b bs ih =>
    intro o hlo hhi
    rw [List.length_cons] at hhi
    have htail := ih (o + 1) (by omega) (by omega)
    rw [overlay, if_pos ⟨hlo, by omega⟩, htail, List.length_cons, List.range_succ_eq_map, List.map_cons, List.map_map]
    congr 1
    refine List.map_congr_left fun k _ => ?_
    simp only [Function.comp]
    congr 1
    omega

theorem ioRead_computed {c : Cpu} {o : Nat} {w : Width} {r : LReg} {s : State} {x : Nat × State}
    (hr : touched c w o = [r]) (hlo : r.offset ≤ o) (hhi : o + w.bytes ≤ r.offset + r.size)
    (hx : computedRead c r s = some x) :
    ioRead c o w s = (BitVec.ofNat 32 (bytesValue w.bytes fun k => byteAt x.1 (o - r.offset + k)), x.2) := by
  have hlen := readBytes_length s.mem (cellKey (ioRegion c) o) w.bytes
  have hread : ∀ bs, readRegs c o [r] bs s = (overlay r x.1 o bs, x.2) := fun bs => by
    rw [readRegs, hx]
    rfl
  rw [ioRead, hr, hread, overlay_inside r x.1 _ o hlo (by rwa [hlen]), hlen, bytesValue]

/-- The aligned bytes of an access that begins in a register of four bytes at a multiple of four lie in it. -/
theorem aligned_within {w : Width} {o base : Nat} (ha : o % w.bytes = 0) (hb : base % 4 = 0) (hlo : base ≤ o)
    (hhi : o < base + 4) : o + w.bytes ≤ base + 4 := by
  rcases width_bytes_cases w with hw | hw | hw <;> rw [hw] at ha ⊢ <;> omega

theorem regAt_ipcFifoRecv (c : Cpu) (o : Nat) (hlo : 0x100000 ≤ o) (hhi : o < 0x100004) :
    regAt c o = some .ipcFifoRecv := by
  rw [regAt.eq_def, if_pos hlo, highAt, if_neg (by omega), if_pos hhi]

theorem touched_ipcFifoRecv (c : Cpu) (w : Width) (o : Nat) (hlo : 0x100000 ≤ o) (hhi : o + w.bytes ≤ 0x100004) :
    touched c w o = [.ipcFifoRecv] :=
  touched_one c w o _ fun i hi => regAt_ipcFifoRecv c (o + i) (by omega) (by omega)

/-- A read inside IPCFIFORECV is one `Recv`, and returns its lanes (44_ipc.md R241). -/
theorem ioRead_ipcFifoRecv {c : Cpu} {o : Nat} {w : Width} (s : State) (hlo : 0x100000 ≤ o)
    (hhi : o + w.bytes ≤ 0x100004) :
    ioRead c o w s =
      (BitVec.ofNat 32 (bytesValue w.bytes fun k => byteAt (recv c s).1.toNat (o - 0x100000 + k)), (recv c s).2) :=
  ioRead_computed (r := .ipcFifoRecv) (x := ((recv c s).1.toNat, (recv c s).2)) (touched_ipcFifoRecv c w o hlo hhi)
    hlo hhi rfl

theorem replyOf_word (v : Word) : replyOf 4 (fun k => byteAt v.toNat k) = .value v := by
  rw [replyOf, bytesValue_byteAt 4 _ v.isLt, BitVec.ofNat_toNat, BitVec.setWidth_eq]

/-! ### One receive -/

theorem exec_recv (c : Cpu) (s : State) : exec (.recv c) s = .next ((recv c s).2.answer (.value (recv c s).1)) := rfl

/-- The requests that receive: the contract call, or a read of the window touching IPCFIFORECV. -/
def Receives (s : State) (i : Instr) (c : Cpu) (o : Nat) (w : Width) : Prop :=
  (i = .recv c ∧ o = 0x100000 ∧ w = .w32) ∨ (Reaches s i c o (.read w) ∧ 0x100000 ≤ o ∧ o < 0x100004)

/-- Each of them runs `Recv` once and answers the addressed lanes of its word. -/
theorem Receives.exec_eq {s : State} {i : Instr} {c : Cpu} {o : Nat} {w : Width} (h : Receives s i c o w) :
    exec i s = .next ((recv c s).2.answer
      (replyOf w.bytes fun k => byteAt (recv c s).1.toNat (o - 0x100000 + k))) := by
  rcases h with ⟨rfl, rfl, rfl⟩ | ⟨hreach, hlo, hhi⟩
  · simp only [Nat.sub_self, Nat.zero_add, Width.bytes, replyOf_word]
    exact exec_recv c s
  · obtain ⟨hexec, ha, -⟩ := reaches_read hreach
    rw [hexec, ioRead_ipcFifoRecv s hlo (aligned_within ha (by decide) hlo hhi)]
    rfl

theorem FifoDone.answer {b t : State} {p q : CpuSide} (h : FifoDone b t p q) (r : Reply) :
    FifoDone b (t.answer r) p q where
  state := by
    have hstate := h.state
    rw [State.answer]
    generalize t.mem = m at hstate ⊢
    rw [hstate]
  cnt0 := h.cnt0
  cnt1 := h.cnt1
  if0 := h.if0
  if1 := h.if1
  frame := h.frame

theorem FifoDoneFor.answer {c : Cpu} {b t : State} {mine other : CpuSide} (h : FifoDoneFor c b t mine other)
    (r : Reply) : FifoDoneFor c b (t.answer r) mine other := by
  cases c <;> exact FifoDone.answer h r

/-- Settles O53: `Recv` pops and remembers, or repeats the remembered word; the request only adds the lanes. -/
theorem recvPopsOrRepeats : Obligations.RecvPopsOrRepeats := by
  intro s i c o w h
  have hexec := Receives.exec_eq h
  constructor
  · intro hempty
    rw [hexec, recv_empty c s hempty]
    rfl
  · intro v q hq
    obtain ⟨hv, hdone⟩ := recv_done c s v q hq
    refine ⟨_, hexec, ?_, hdone.answer _⟩
    rw [answer_reply, hv]

/-! ### Runs of sends and receives (44_ipc.md R242) -/

/-- The interrupt edges leave the queue and the remembered word. -/
theorem withFifoEdges_queue (p q p' q' : CpuSide) :
    (withFifoEdges p q p' q').fifo = p'.fifo ∧ (withFifoEdges p q p' q').lastRecv = p'.lastRecv := by
  rw [withFifoEdges]
  generalize sendEmptyRose p q p' q' = k
  generalize recvReadyRose p p' = k'
  cases k <;> cases k' <;> exact ⟨rfl, rfl⟩

/-- A queue operation leaves each CPU the queue and the remembered word of the part it made. -/
theorem FifoDoneFor.queues {c : Cpu} {b t : State} {mine other : CpuSide} (h : FifoDoneFor c b t mine other) :
    ((t.side c).fifo = mine.fifo ∧ (t.side c).lastRecv = mine.lastRecv) ∧
      ((t.side c.other).fifo = other.fifo ∧ (t.side c.other).lastRecv = other.lastRecv) := by
  cases c
  all_goals
    have hstate := FifoDone.state h
    rw [hstate]
    exact ⟨withFifoEdges_queue _ _ _ _, withFifoEdges_queue _ _ _ _⟩

/-- The state after one send. -/
def afterSend (c : Cpu) (s : State) (v : Word) : State :=
  nextOr s (exec (.send c v) s)

/-- The state after one receive. -/
def afterRecv (c : Cpu) (s : State) : State :=
  nextOr s (exec (.recv c) s)

theorem afterSend_fifo (c : Cpu) (s : State) (v : Word) :
    ((afterSend c s v).side c.other).fifo =
      if (s.side c.other).fifo.length = 16 then (s.side c.other).fifo else (s.side c.other).fifo ++ [v] :=
  (send_done c v s).queues.2.1

/-- Sends that fit are kept in order. -/
theorem afterSends_fifo (c : Cpu) (vs : List Word) : ∀ s, (s.side c.other).fifo.length + vs.length ≤ 16 →
    ((vs.foldl (afterSend c) s).side c.other).fifo = (s.side c.other).fifo ++ vs := by
  induction vs with
  | nil => intro s _; exact (List.append_nil _).symm
  | cons v vs ih =>
    intro s hfit
    rw [List.length_cons] at hfit
    have hone := afterSend_fifo c s v
    rw [if_neg (by omega)] at hone
    rw [List.foldl_cons, ih _ (by rw [hone, List.length_append, List.length_singleton]; omega), hone, List.append_assoc,
      List.singleton_append]

/-- A receive from a queue that holds a word. -/
theorem afterRecv_cons {c : Cpu} {s : State} {v : Word} {q : List Word} (h : (s.side c).fifo = v :: q) :
    ((afterRecv c s).side c).fifo = q ∧ ((afterRecv c s).side c).lastRecv = v ∧ (afterRecv c s).reply = .value v := by
  obtain ⟨hv, hdone⟩ := recv_done c s v q h
  obtain ⟨hfifo, hlast⟩ := hdone.queues.1
  refine ⟨?_, ?_, ?_⟩
  · rw [afterRecv, exec_recv, nextOr, answer_side, hfifo]
  · rw [afterRecv, exec_recv, nextOr, answer_side, hlast]
  · rw [afterRecv, exec_recv, nextOr, answer_reply, hv]

/-- A receive from an empty queue repeats the remembered word. -/
theorem afterRecv_nil {c : Cpu} {s : State} (h : (s.side c).fifo = []) :
    (afterRecv c s).reply = .value (s.side c).lastRecv := by
  rw [afterRecv, exec_recv, nextOr, answer_reply, recv_empty c s h]

/-- The state after `n` receives. -/
def afterRecvs (c : Cpu) (s : State) (n : Nat) : State :=
  (List.range n).foldl (fun u _ => afterRecv c u) s

theorem afterRecvs_succ (c : Cpu) (s : State) (n : Nat) : afterRecvs c s (n + 1) = afterRecv c (afterRecvs c s n) := by
  rw [afterRecvs, List.range_succ, List.foldl_append]
  rfl

/-- `n` receives take the first `n` words. -/
theorem afterRecvs_fifo (c : Cpu) (s : State) (n : Nat) (hn : n ≤ (s.side c).fifo.length) :
    ((afterRecvs c s n).side c).fifo = (s.side c).fifo.drop n := by
  induction n with
  | zero => rfl
  | succ n ih =>
    have hdrop := (ih (by omega)).trans (List.drop_eq_getElem_cons hn)
    rw [afterRecvs_succ]
    exact (afterRecv_cons hdrop).1

/-- The receive after `n` others answers word `n` of the queue and remembers it. -/
theorem afterRecvs_reply (c : Cpu) (s : State) (n : Nat) (hn : n < (s.side c).fifo.length) :
    (afterRecvs c s (n + 1)).reply = .value (s.side c).fifo[n] ∧
      ((afterRecvs c s (n + 1)).side c).lastRecv = (s.side c).fifo[n] := by
  have hdrop := (afterRecvs_fifo c s n (by omega)).trans (List.drop_eq_getElem_cons hn)
  obtain ⟨-, hlast, hreply⟩ := afterRecv_cons hdrop
  rw [afterRecvs_succ]
  exact ⟨hreply, hlast⟩

/-- Settles O54: sixteen words fit, the queue of sixteen drops the next, and the receives run down the list. -/
theorem fifoKeepsSixteenWordsInOrder : Obligations.FifoKeepsSixteenWordsInOrder := by
  intro s c vs extra hempty hlen sent full taken
  have hsent : (sent.side c.other).fifo = vs := by
    have h := afterSends_fifo c vs s (by rw [hempty, hlen]; decide)
    rwa [hempty] at h
  have hfull : (full.side c.other).fifo = vs := by
    have h := afterSend_fifo c sent extra
    rwa [hsent, if_pos hlen] at h
  have htaken : taken = afterRecvs c.other full := rfl
  clear_value taken full
  subst htaken
  have hreply : ∀ n (h : n < vs.length), (afterRecvs c.other full (n + 1)).reply = .value vs[n] ∧
      ((afterRecvs c.other full (n + 1)).side c.other).lastRecv = vs[n] := by
    intro n hn
    have h := afterRecvs_reply c.other full n (by rwa [hfull])
    simpa only [hfull] using h
  have hdrained : ((afterRecvs c.other full 16).side c.other).fifo = [] := by
    rw [afterRecvs_fifo c.other full 16 (by rw [hfull, hlen]), hfull, ← hlen, List.drop_length]
  obtain ⟨h16, hlast⟩ := hreply 15 (by omega)
  have h17 : (afterRecvs c.other full 17).reply = .value vs[15] := by
    rw [afterRecvs_succ, afterRecv_nil hdrained, hlast]
  exact ⟨hsent, hfull, fun n hn => (hreply n hn).1, hdrained, by rw [h17, h16]⟩

end Sys2Proof.Machine
end

section
/-! Accesses that the table sends to storage (40_decode.md R105, R106), and the lanes of one word under accesses of
different widths (20_memory.md R60, R61). -/

namespace Sys2Proof.Machine

/-! ### One access -/

theorem replyOf_congr {n : Nat} {f g : Nat → Byte} (h : ∀ i, i < n → f i = g i) : replyOf n f = replyOf n g := by
  rw [replyOf, replyOf, bytesValue_congr n f g h]

/-- A byte of a region after a write of that region. -/
theorem byte_regionWrite (s : State) (r : Region) (o n v j : Nat) :
    (s.regionWrite r o n v).byte r j = if o ≤ j ∧ j < o + n then byteAt v (j - o) else s.byte r j := by
  have hin : cellKey r o ≤ cellKey r j ∧ cellKey r j < cellKey r o + n ↔ o ≤ j ∧ j < o + n := by
    simp only [cellKey]
    omega
  have hlane : cellKey r j - cellKey r o = j - o := by
    simp only [cellKey]
    omega
  simp only [State.byte, read_regionWrite, hin, hlane]

/-- A read that the table sends to storage gives the bytes there and does nothing else. -/
theorem exec_read_storage {s : State} {c : Cpu} {w : Width} {addr : Word} {r : Region} {o : Nat}
    (h : AtRegion s c (alignTo w addr.toNat) r o) (hr : r ≠ ioRegion c) :
    exec (readInstr w c addr) s = .next { s with reply := replyOf w.bytes fun i => s.byte r (o + i) } := by
  rw [← alignAddr_alignTo] at h
  rw [exec_readInstr, memRead]
  simp only [resolve_storage c _ s r o h hr, State.regionRead, leRead_eq, ← cellKey_add]
  rfl

/-- A write that the table sends to storage writes the bytes there. -/
theorem exec_write_storage {s : State} {c : Cpu} {w : Width} {addr : Word} {r : Region} {o : Nat} (v : Word)
    (h : AtRegion s c (alignTo w addr.toNat) r o) (hr : r ≠ ioRegion c) :
    exec (writeInstr w c addr v) s = .next (s.regionWrite r o w.bytes (truncTo w v).toNat) := by
  rw [← alignAddr_alignTo] at h
  rw [exec_writeInstr, memWrite]
  simp only [resolve_storage c _ s r o h hr, finish_ok]

/-- A write of a region does not move any address. -/
theorem AtRegion.regionWrite {s : State} {c : Cpu} {a : Nat} {r : Region} {o : Nat} (h : AtRegion s c a r o)
    (r' : Region) (o' n v : Nat) : AtRegion (s.regionWrite r' o' n v) c a r o := by
  cases c <;> exact h

/-! ### The lanes of a word -/

/-- A mask that keeps the low two bits keeps the place of a byte in its word. -/
theorem add_and_of_mod_four {a k m : Nat} (ha : a % 4 = 0) (hk : k < 4) (hm : m % 4 = 3) :
    (a + k) &&& m = (a &&& m) + k := by
  have hlow : ∀ x, (x &&& m) % 4 = x % 4 := fun x => by
    rw [Nat.and_mod_two_pow (n := 2), hm]
    exact Nat.and_two_pow_sub_one_of_lt_two_pow (n := 2) (Nat.mod_lt x (by decide))
  have hhigh : ((a + k) &&& m) / 4 = (a &&& m) / 4 := by
    rw [Nat.and_div_two_pow (n := 2), Nat.and_div_two_pow (n := 2), show (a + k) / 2 ^ 2 = a / 2 ^ 2 by omega]
  have hsum := hlow (a + k)
  have hword := hlow a
  omega

/-- The windows take whole words, the pass-through one because it begins at a word and an access past its end stays past
it. -/
theorem ThroughTable.lane {s : State} {c : Cpu} {a k : Nat} (h : ThroughTable s c a)
    (hpass : s.config.cartPassFirst.toNat % 4 = 0) (ha : a % 4 = 0) (hk : k < 4) : ThroughTable s c (a + k) := by
  obtain ⟨htcw, hcart, hwifi⟩ := h
  simp only [InTcw, InPass, InWireless] at htcw hcart hwifi
  refine ⟨fun ⟨hc, hx⟩ => htcw ⟨hc, by omega⟩, fun ⟨hlo, hhi⟩ => hcart ⟨by omega, by omega⟩,
    fun ⟨hc, hlo, hhi⟩ => hwifi ⟨hc, by omega, by omega⟩⟩

/-- The bytes of a word whose entry's mask keeps the low two address bits lie side by side in its region. -/
theorem AtRegion.lane {s : State} {c : Cpu} {a k : Nat} {r : Region} {o : Nat} (h : AtRegion s c a r o)
    (hcart : CartOk s) (hpass : s.config.cartPassFirst.toNat % 4 = 0) (hmask : (entryOf s c a).mask.toNat % 4 = 3)
    (ha : a % 4 = 0) (hk : k < 4) : AtRegion s c (a + k) r (o + k) := by
  obtain ⟨htable, hregion, size, hsize, rfl⟩ := h
  have hentry : entryOf s c (a + k) = entryOf s c a := by
    rw [entryOf, entryOf, show (a + k) / 2 ^ 20 = a / 2 ^ 20 by omega]
  obtain ⟨hmod, hpos⟩ := regionSize_mod s.config s.cart hcart r size hsize
  refine ⟨htable.lane hpass ha hk, by rw [hentry, hregion], size, hsize, ?_⟩
  rw [hentry, add_and_of_mod_four ha hk hmask,
    add_and_of_mod_four (and_mod_bytes .w32 _ _ ha) hk (show (size - 1) % 4 = 3 by omega)]

/-- The aligned address of a lane of a word is the lane's own. -/
theorem alignTo_lane {w : Width} {a : Word} {k : Nat} (ha : a.toNat % 4 = 0) (hkw : k % w.bytes = 0) (hk : k < 4) :
    alignTo w (a + BitVec.ofNat 32 k).toNat = a.toNat + k := by
  have hlt := a.isLt
  have hsum : (a + BitVec.ofNat 32 k).toNat = a.toNat + k := by
    rw [BitVec.toNat_add, BitVec.toNat_ofNat]
    omega
  rw [hsum, alignTo]
  rcases width_bytes_cases w with hw | hw | hw <;> rw [hw] at hkw ⊢ <;> omega

/-- A byte of a word after one of its lanes is written: the lane's new byte, or the old one. -/
theorem byte_write_lane (s : State) (r : Region) (o k : Nat) (w : Width) (v : Word) (i : Nat) :
    (s.regionWrite r (o + k) w.bytes (truncTo w v).toNat).byte r (o + i) =
      if k ≤ i ∧ i < k + w.bytes then byteAt v.toNat (i - k) else s.byte r (o + i) := by
  rw [byte_regionWrite]
  by_cases hi : k ≤ i ∧ i < k + w.bytes
  · rw [if_pos hi, if_pos (by omega), show o + i - (o + k) = i - k by omega, byteAt_truncTo w v _ (by omega)]
  · rw [if_neg hi, if_neg (by omega)]

/-- After a word is written, a read of a lane of any width gives the written bytes. -/
theorem exec_read_lane {s : State} {c : Cpu} {w : Width} {a v : Word} {k : Nat} {r : Region} {o : Nat}
    (hlane : AtRegion s c (a.toNat + k) r (o + k)) (hr : r ≠ ioRegion c) (ha : a.toNat % 4 = 0)
    (hkw : k % w.bytes = 0) (hk : k < 4) :
    exec (readInstr w c (a + BitVec.ofNat 32 k)) (s.regionWrite r o 4 (truncTo .w32 v).toNat) =
      .next { s.regionWrite r o 4 (truncTo .w32 v).toNat with
        reply := replyOf w.bytes fun i => byteAt v.toNat (k + i) } := by
  have hin : k + w.bytes ≤ 4 := by
    rcases width_bytes_cases w with hw | hw | hw <;> rw [hw] at hkw ⊢ <;> omega
  rw [← alignTo_lane ha hkw hk] at hlane
  rw [exec_read_storage (hlane.regionWrite r o 4 _) hr, replyOf_congr fun i hi => ?_]
  rw [Nat.add_assoc]
  exact (byte_write_lane s r o 0 .w32 v (k + i)).trans (if_pos ⟨Nat.zero_le _, by simp only [Width.bytes]; omega⟩)

/-- After a lane is written, a read of the word gives the written bytes among the old ones. -/
theorem exec_read_word {s : State} {c : Cpu} {w : Width} {a v : Word} {k : Nat} {r : Region} {o : Nat}
    (hword : AtRegion s c (alignTo .w32 a.toNat) r o) (hr : r ≠ ioRegion c) :
    exec (.read32 c a) (s.regionWrite r (o + k) w.bytes (truncTo w v).toNat) =
      .next { s.regionWrite r (o + k) w.bytes (truncTo w v).toNat with
        reply := replyOf 4 fun i =>
          if k ≤ i ∧ i < k + w.bytes then byteAt v.toNat (i - k) else s.byte r (o + i) } := by
  rw [← replyOf_congr fun i _ => byte_write_lane s r o k w v i]
  exact exec_read_storage (w := .w32) (hword.regionWrite r (o + k) w.bytes _) hr

/-- Settles O22: the lanes of a word lie side by side in its region, so every access sees the one byte store. -/
theorem narrowAndWideAccessesShareLanes : Obligations.NarrowAndWideAccessesShareLanes := by
  intro s c a v r o hcart hpass ha hat hr hmask
  have hlane : ∀ k, k < 4 → AtRegion s c (a.toNat + k) r (o + k) := fun k hk => hat.lane hcart hpass hmask ha hk
  have hself : alignTo .w32 a.toNat = a.toNat := Nat.div_mul_cancel (Nat.dvd_of_mod_eq_zero ha)
  have hword : AtRegion s c (alignTo .w32 a.toNat) r o := by rwa [hself]
  refine ⟨⟨_, exec_write_storage (w := .w32) v hword hr, fun k hk => ?_, fun j hj => ?_⟩, fun w k hkw hk => ?_⟩
  · exact exec_read_lane (w := .w8) (hlane k hk) hr ha (Nat.mod_one k) hk
  · exact exec_read_lane (w := .w16) (hlane (2 * j) (by omega)) hr ha (Nat.mul_mod_right 2 j) (by omega)
  · have hwrite : AtRegion s c (alignTo w (a + BitVec.ofNat 32 k).toNat) r (o + k) := by
      rw [alignTo_lane ha hkw hk]
      exact hlane k hk
    exact ⟨_, exec_write_storage v hwrite hr, exec_read_word hword hr⟩

end Sys2Proof.Machine
end

section
/-! The readers of the request stream (30_encoding.md R83, R93): what each accepts is the bytes of what it answers. -/

namespace Sys2Proof.Machine

/-! ### Little-endian operands -/

/-- The bytes of the value of a list are the list. -/
theorem leBytes_leValue (l : List Byte) : leBytes l.length (leValue l) = l := by
  refine List.ext_getElem (leBytes_length _ _) fun n hn hl => ?_
  rw [leBytes_getElem, byteAt_leValue l n hl]

@[simp] theorem thenRead_ok {α β : Type} (a : α) (r : List Byte) (f : α → List Byte → Parsed β) :
    thenRead (.ok (a, r)) f = f a r := rfl

@[simp] theorem thenRead_error {α β : Type} (e : Reject) (f : α → List Byte → Parsed β) :
    thenRead (.error e) f = .error e := rfl

/-- Everything `thenRead` can do when it succeeds. -/
theorem thenRead_eq_ok {α β : Type} {p : Parsed α} {f : α → List Byte → Parsed β} {x : β × List Byte}
    (h : thenRead p f = .ok x) : ∃ a r, p = .ok (a, r) ∧ f a r = .ok x := by
  cases p with
  | error e => cases h
  | ok y => exact ⟨y.1, y.2, rfl, h⟩

@[simp] theorem need8_cons (b : Byte) (r : List Byte) : need8 (b :: r) = .ok (b, r) := rfl

theorem need8_eq_ok {bs r : List Byte} {b : Byte} (h : need8 bs = .ok (b, r)) : bs = b :: r := by
  cases bs with
  | nil => cases h
  | cons x xs => cases h; rfl

@[simp] theorem need16_half2 (v : Half) (r : List Byte) : need16 (half2 v ++ r) = .ok (v, r) := by
  have hvalue : BitVec.ofNat 16 (leValue (half2 v)) = v := by
    rw [half2, leValue_leBytes, Nat.mod_eq_of_lt (b := 256 ^ 2) v.isLt, BitVec.ofNat_toNat, BitVec.setWidth_eq]
  exact congrArg (fun x => Except.ok (x, r)) hvalue

theorem need16_eq_ok {bs r : List Byte} {v : Half} (h : need16 bs = .ok (v, r)) : bs = half2 v ++ r := by
  rcases bs with _ | ⟨x, _ | ⟨y, bs⟩⟩
  · cases h
  · cases h
  · cases h
    rw [half2, BitVec.toNat_ofNat, Nat.mod_eq_of_lt (by simpa using leValue_lt [x, y])]
    exact congrArg (· ++ r) (leBytes_leValue [x, y]).symm

@[simp] theorem need32_leBytes (n : Nat) (r : List Byte) : need32 (leBytes 4 n ++ r) = .ok (BitVec.ofNat 32 n, r) := by
  have hvalue : BitVec.ofNat 32 (leValue (leBytes 4 n)) = BitVec.ofNat 32 n := by
    rw [leValue_leBytes]
    exact BitVec.eq_of_toNat_eq (by simp)
  exact congrArg (fun x => Except.ok (x, r)) hvalue

@[simp] theorem need32_word4 (v : Word) (r : List Byte) : need32 (word4 v ++ r) = .ok (v, r) := by
  rw [word4, need32_leBytes, BitVec.ofNat_toNat, BitVec.setWidth_eq]

theorem need32_eq_ok {bs r : List Byte} {v : Word} (h : need32 bs = .ok (v, r)) : bs = word4 v ++ r := by
  rcases bs with _ | ⟨x, _ | ⟨y, _ | ⟨z, _ | ⟨t, bs⟩⟩⟩⟩
  · cases h
  · cases h
  · cases h
  · cases h
  · cases h
    rw [word4, BitVec.toNat_ofNat, Nat.mod_eq_of_lt (by simpa using leValue_lt [x, y, z, t])]
    exact congrArg (· ++ r) (leBytes_leValue [x, y, z, t]).symm

@[simp] theorem needBytes_append (bytes r : List Byte) : needBytes bytes.length (bytes ++ r) = .ok (bytes, r) := by
  rw [needBytes, if_neg (by simp), List.take_left, List.drop_left]

theorem needBytes_eq_ok {k : Nat} {bs bytes r : List Byte} (h : needBytes k bs = .ok (bytes, r)) :
    bytes.length = k ∧ bs = bytes ++ r := by
  rw [needBytes] at h
  split at h
  · cases h
  · cases h
    exact ⟨List.length_take_of_le (by omega), (List.take_append_drop k bs).symm⟩

/-- Fewer bytes than the count says are no operand (30_encoding.md R86). -/
theorem needBytes_short {k : Nat} {bs : List Byte} (h : bs.length < k) : needBytes k bs = .error .truncated :=
  if_pos h

/-! ### CPU bits and width codes -/

@[simp] theorem cpuOfBit_bit (c : Cpu) : cpuOfBit c.bit = c := by cases c <;> rfl

/-- The bit of the CPU of a number is its lowest (30_encoding.md R81). -/
theorem bit_cpuOfBit (x : Nat) : (cpuOfBit x).bit = x % 2 := by
  unfold cpuOfBit
  split
  · next h => exact h.symm
  · next h => exact (Nat.mod_two_ne_zero.mp h).symm

theorem cpuOfBit_eq {c : Cpu} {x : Nat} (h : x % 2 = c.bit) : cpuOfBit x = c := by
  rw [← cpuOfBit_bit c, ← h, cpuOfBit, cpuOfBit, Nat.mod_mod]

theorem bit_lt (c : Cpu) : c.bit < 2 := by cases c <;> decide

@[simp] theorem widthOfCode_code (w : Width) : widthOfCode w.code = some w := by cases w <;> rfl

theorem code_of_widthOfCode {n : Nat} {w : Width} (h : widthOfCode n = some w) : n = w.code := by
  unfold widthOfCode at h
  split at h <;> cases h <;> rfl

theorem code_bounds (w : Width) : 1 ≤ w.code ∧ w.code < 4 := by cases w <;> decide

/-! ### Arguments of contract calls -/

@[simp] theorem need4_cons (t : Fin 4) (r : List Byte) : need4 (BitVec.ofNat 8 t.val :: r) = .ok (t, r) := by
  have hval : (BitVec.ofNat 8 t.val).toNat = t.val := Nat.mod_eq_of_lt (by omega)
  simp only [need4, need8_cons, thenRead_ok, hval, t.isLt, dite_true]

theorem need4_eq_ok {bs r : List Byte} {t : Fin 4} (h : need4 bs = .ok (t, r)) : bs = BitVec.ofNat 8 t.val :: r := by
  obtain ⟨b, r', hb, h⟩ := thenRead_eq_ok h
  split at h
  · cases h
    rw [need8_eq_ok hb, BitVec.ofNat_toNat, BitVec.setWidth_eq]
  · cases h

@[simp] theorem needCpu_cons (c : Cpu) (r : List Byte) : needCpu (BitVec.ofNat 8 c.bit :: r) = .ok (c, r) := by
  cases c <;> rfl

theorem needCpu_eq_ok {bs r : List Byte} {c : Cpu} (h : needCpu bs = .ok (c, r)) : bs = BitVec.ofNat 8 c.bit :: r := by
  obtain ⟨b, r', hb, h⟩ := thenRead_eq_ok h
  split at h
  · next hlt =>
    cases h
    rw [need8_eq_ok hb, bit_cpuOfBit, Nat.mod_eq_of_lt hlt, BitVec.ofNat_toNat, BitVec.setWidth_eq]
  · cases h

@[simp] theorem needWidth_cons (w : Width) (r : List Byte) : needWidth (BitVec.ofNat 8 w.code :: r) = .ok (w, r) := by
  cases w <;> rfl

theorem needWidth_eq_ok {bs r : List Byte} {w : Width} (h : needWidth bs = .ok (w, r)) :
    bs = BitVec.ofNat 8 w.code :: r := by
  obtain ⟨b, r', hb, h⟩ := thenRead_eq_ok h
  split at h
  · cases h
  · next hw =>
    cases h
    rw [need8_eq_ok hb, ← code_of_widthOfCode hw, BitVec.ofNat_toNat, BitVec.setWidth_eq]

@[simp] theorem needOffset_leBytes (o : BitVec 24) (r : List Byte) :
    needOffset (leBytes 4 o.toNat ++ r) = .ok (o, r) := by
  have hval : (BitVec.ofNat 32 o.toNat).toNat = o.toNat := Nat.mod_eq_of_lt (by omega)
  rw [needOffset, need32_leBytes, thenRead_ok, hval, if_pos o.isLt, BitVec.ofNat_toNat, BitVec.setWidth_eq]

theorem needOffset_eq_ok {bs r : List Byte} {o : BitVec 24} (h : needOffset bs = .ok (o, r)) :
    bs = leBytes 4 o.toNat ++ r := by
  obtain ⟨x, r', hx, h⟩ := thenRead_eq_ok h
  split at h
  · next hlt =>
    cases h
    rw [need32_eq_ok hx, word4, BitVec.toNat_ofNat, Nat.mod_eq_of_lt hlt]
  · cases h

end Sys2Proof.Machine
end

section
/-! The bus port (30_encoding.md R81 to R83): the fields of the opcode byte, and the operands of each class. -/

namespace Sys2Proof.Machine

/-- The operands of a class, a width code and a CPU, where the opcode byte has none of the faults that name no class
(30_encoding.md R82, R86); `decodeBus_opcode` ties it to the decoder. -/
def decodeOperands (cls wcode : Nat) (c : Cpu) (bs : List Byte) : Parsed Instr :=
  if cls = 0 then decodeRead wcode c bs
  else if cls = 1 then decodeWrite wcode c bs
  else if wcode ≠ 0 then .error .badWidthCode
  else if cls = 2 ∨ cls = 3 ∨ cls = 4 ∨ cls = 6 then decodePerCpu cls c bs
  else if c = .c1 then .error .badCpu
  else decodeHost cls bs

theorem decodeBus_cons (op : Byte) (bs : List Byte) :
    decodeBus (op :: bs) =
      if 11 ≤ op.toNat / 16 then .error .reservedClass
      else if op.toNat / 2 % 2 = 1 then .error .reservedBit
      else decodeOperands (op.toNat / 16) (op.toNat / 4 % 4) (cpuOfBit op.toNat) bs := rfl

/-- The opcode byte shows its class, its width code and its CPU (R81). -/
theorem decodeBus_opcode {cls wcode : Nat} (c : Cpu) (bs : List Byte) (hcls : cls < 11) (hw : wcode < 4) :
    decodeBus (opcode cls wcode c :: bs) = decodeOperands cls wcode c bs := by
  have hbit := bit_lt c
  have hop : (opcode cls wcode c).toNat = 16 * cls + 4 * wcode + c.bit := Nat.mod_eq_of_lt (by omega)
  have hc : cpuOfBit (16 * cls + 4 * wcode + c.bit) = c := cpuOfBit_eq (by omega)
  rw [decodeBus_cons, hop, hc, if_neg (by omega), if_neg (by omega),
    show (16 * cls + 4 * wcode + c.bit) / 16 = cls by omega,
    show (16 * cls + 4 * wcode + c.bit) / 4 % 4 = wcode by omega]

/-- What decodes at the bus port has an opcode byte of its class, its width code and its CPU. -/
theorem decodeBus_eq_ok {bs : List Byte} {x : Instr × List Byte} (h : decodeBus bs = .ok x) :
    ∃ cls wcode c ops, cls < 11 ∧ bs = opcode cls wcode c :: ops ∧ decodeOperands cls wcode c ops = .ok x := by
  cases bs with
  | nil => cases h
  | cons op ops =>
    rw [decodeBus_cons] at h
    split_ifs at h with hcls hres
    refine ⟨_, _, _, ops, by omega, ?_, h⟩
    congr 1
    refine BitVec.eq_of_toNat_eq ?_
    rw [opcode, bit_cpuOfBit, BitVec.toNat_ofNat]
    omega

/-! ### What decodes is the encoding -/

/-- An instruction is spelled at the bus port by an opcode byte and the operands in front of `r`. -/
def BusSpells (cls wcode : Nat) (c : Cpu) (bs : List Byte) (i : Instr) (r : List Byte) : Prop :=
  ∃ ops, encode i = busRequest cls wcode c ops ∧ bs = ops ++ r

theorem decodeRead_spells {wcode : Nat} {c : Cpu} {bs r : List Byte} {i : Instr}
    (h : decodeRead wcode c bs = .ok (i, r)) : BusSpells 0 wcode c bs i r := by
  unfold decodeRead at h
  split at h
  · cases h
  · next w hw =>
    obtain ⟨a, r', ha, h⟩ := thenRead_eq_ok h
    cases h
    refine ⟨word4 a, ?_, need32_eq_ok ha⟩
    rw [code_of_widthOfCode hw]
    cases w <;> rfl

theorem decodeWrite_spells {wcode : Nat} {c : Cpu} {bs r : List Byte} {i : Instr}
    (h : decodeWrite wcode c bs = .ok (i, r)) : BusSpells 1 wcode c bs i r := by
  unfold decodeWrite at h
  split at h
  · cases h
  · next w hw =>
    obtain ⟨a, r', ha, h⟩ := thenRead_eq_ok h
    obtain ⟨v, r'', hv, h⟩ := thenRead_eq_ok h
    cases h
    refine ⟨word4 a ++ word4 v, ?_, by rw [need32_eq_ok ha, need32_eq_ok hv, List.append_assoc]⟩
    rw [code_of_widthOfCode hw]
    cases w <;> rfl

theorem decodePerCpu_spells {cls : Nat} {c : Cpu} {bs r : List Byte} {i : Instr}
    (hcls : cls = 2 ∨ cls = 3 ∨ cls = 4 ∨ cls = 6) (h : decodePerCpu cls c bs = .ok (i, r)) :
    BusSpells cls 0 c bs i r := by
  rcases hcls with rfl | rfl | rfl | rfl
  · obtain ⟨n, r', hn, h⟩ := thenRead_eq_ok h
    cases h
    exact ⟨word4 n, rfl, need32_eq_ok hn⟩
  · obtain ⟨e, r', he, h⟩ := thenRead_eq_ok h
    cases h
    exact ⟨[e], rfl, need8_eq_ok he⟩
  · obtain ⟨b, r', hb, h⟩ := thenRead_eq_ok h
    cases h
    exact ⟨[b], rfl, need8_eq_ok hb⟩
  · obtain ⟨j, r1, hj, h⟩ := thenRead_eq_ok h
    obtain ⟨g, r2, hg, h⟩ := thenRead_eq_ok h
    obtain ⟨m, r3, hm, h⟩ := thenRead_eq_ok h
    cases h
    exact ⟨j :: g :: word4 m, rfl, by rw [need8_eq_ok hj, need8_eq_ok hg, need32_eq_ok hm]; rfl⟩

theorem decodeHost_spells {cls : Nat} {bs r : List Byte} {i : Instr}
    (hcls : cls = 5 ∨ cls = 7 ∨ cls = 8 ∨ cls = 9 ∨ cls = 10) (h : decodeHost cls bs = .ok (i, r)) :
    BusSpells cls 0 .c0 bs i r := by
  rcases hcls with rfl | rfl | rfl | rfl | rfl
  · obtain ⟨v, r', hv, h⟩ := thenRead_eq_ok h
    cases h
    exact ⟨word4 v, rfl, need32_eq_ok hv⟩
  · obtain ⟨n, r1, hn, h⟩ := thenRead_eq_ok h
    obtain ⟨bytes, r2, hbytes, h⟩ := thenRead_eq_ok h
    cases h
    exact ⟨word4 n ++ bytes, rfl, by rw [need32_eq_ok hn, (needBytes_eq_ok hbytes).2, List.append_assoc]⟩
  · cases h
    exact ⟨[], rfl, rfl⟩
  · obtain ⟨g, r1, hg, h⟩ := thenRead_eq_ok h
    obtain ⟨o, r2, ho, h⟩ := thenRead_eq_ok h
    obtain ⟨k, r3, hk, h⟩ := thenRead_eq_ok h
    obtain ⟨bytes, r4, hbytes, h⟩ := thenRead_eq_ok h
    obtain ⟨hlen, hr3⟩ := needBytes_eq_ok hbytes
    cases h
    refine ⟨g :: (word4 o ++ (word4 k ++ bytes)), by rw [encode, hlen, word4, word4], ?_⟩
    rw [need8_eq_ok hg, need32_eq_ok ho, need32_eq_ok hk, hr3]
    simp only [List.cons_append, List.append_assoc]
  · cases h
    exact ⟨[], rfl, rfl⟩

theorem decodeOperands_spells {cls wcode : Nat} {c : Cpu} {bs r : List Byte} {i : Instr} (hcls : cls < 11)
    (h : decodeOperands cls wcode c bs = .ok (i, r)) : BusSpells cls wcode c bs i r := by
  rw [decodeOperands] at h
  split_ifs at h with hread hwrite hw hper hc
  · exact hread ▸ decodeRead_spells h
  · exact hwrite ▸ decodeWrite_spells h
  · obtain rfl : wcode = 0 := not_not.mp hw
    exact decodePerCpu_spells hper h
  · obtain rfl : wcode = 0 := not_not.mp hw
    obtain rfl : c = .c0 := by cases c <;> [rfl; exact absurd rfl hc]
    exact decodeHost_spells (by omega) h

/-- What decodes at the bus port is the encoding of what it decodes to. -/
theorem encode_of_decodeBus {bs r : List Byte} {i : Instr} (h : decodeBus bs = .ok (i, r)) :
    (encode i).port = .bus ∧ (encode i).bytes ++ r = bs := by
  obtain ⟨cls, wcode, c, ops, hcls, rfl, hops⟩ := decodeBus_eq_ok h
  obtain ⟨own, hencode, rfl⟩ := decodeOperands_spells hcls hops
  rw [hencode]
  exact ⟨rfl, rfl⟩

end Sys2Proof.Machine
end

section
/-! The register port (30_encoding.md R89; log entry 2): the fields of a call's key, and the rows of the register map,
which are apart and stand in the order of their instructions. -/

namespace Sys2Proof.Machine

/-! ### The key of a call -/

/-- The direction bit of a register call: 1 for a write (log entry 2). -/
def directionBit : RegAccess → Nat
  | .read _ => 0
  | .write .. => 1

theorem directionBit_lt (acc : RegAccess) : directionBit acc < 2 := by
  cases acc <;> simp [directionBit]

/-- The key word of a register call. -/
def registerKey (c : Cpu) (o : Nat) (acc : RegAccess) : Nat :=
  o + 2 ^ 24 * c.bit + 2 ^ 25 * ((accessWidth acc).code - 1) + 2 ^ 27 * directionBit acc

/-- The value bytes of a register call. -/
def valueBytes : RegAccess → List Byte
  | .read _ => []
  | .write _ v => word4 v

theorem registerRequest_eq (c : Cpu) (o : Nat) (acc : RegAccess) :
    registerRequest c o acc = ⟨.register, leBytes 4 (registerKey c o acc) ++ valueBytes acc⟩ := by
  cases acc with
  | read w => simp [registerRequest, registerKey, valueBytes, directionBit, accessWidth]
  | write w v => rfl

/-- A register call is read back field by field. -/
theorem decodeRegister_request {c : Cpu} {o : Nat} {k : KeyRow} (acc : RegAccess) (r : List Byte) (ho : o < 2 ^ 24)
    (hrow : rowAt c o = some k) :
    decodeRegister ((registerRequest c o acc).bytes ++ r) = .ok (k.make c (o - k.lo) acc, r) := by
  obtain ⟨key, hkey⟩ : ∃ key, key = registerKey c o acc := ⟨_, rfl⟩
  have hfields := hkey
  have hbit := bit_lt c
  have hcode := code_bounds (accessWidth acc)
  have hdir := directionBit_lt acc
  rw [registerKey] at hfields
  have hlt : key < 2 ^ 32 := by omega
  have hoffset : key % 2 ^ 24 = o := by omega
  have hcpu : cpuOfBit (key / 2 ^ 24) = c := cpuOfBit_eq (by omega)
  have hwidth : key / 2 ^ 25 % 4 + 1 = (accessWidth acc).code := by omega
  have hdirection : key / 2 ^ 27 % 2 = directionBit acc := by omega
  have hreserved : key / 2 ^ 28 = 0 := by omega
  rw [registerRequest_eq, ← hkey, List.append_assoc, decodeRegister, need32_leBytes, thenRead_ok]
  simp only [BitVec.toNat_ofNat, Nat.mod_eq_of_lt hlt, hoffset, hcpu, hwidth, hdirection, hreserved,
    widthOfCode_code, hrow]
  cases acc with
  | read w => rfl
  | write w v => simp [directionBit, valueBytes, accessWidth]

/-- What decodes at the register port is the call of a row that holds the key's offset. -/
theorem decodeRegister_eq_ok {bs r : List Byte} {i : Instr} (h : decodeRegister bs = .ok (i, r)) :
    ∃ c o acc k, rowAt c o = some k ∧ i = k.make c (o - k.lo) acc ∧ bs = (registerRequest c o acc).bytes ++ r := by
  obtain ⟨key, r', hkey, h⟩ := thenRead_eq_ok h
  simp only at h
  split at h
  · cases h
  split at h
  · cases h
  next w hw =>
  split at h
  · cases h
  next k hrow =>
  have hbit := bit_cpuOfBit (key.toNat / 2 ^ 24)
  have hcode := code_of_widthOfCode hw
  have hfields : ∀ acc, accessWidth acc = w → directionBit acc = key.toNat / 2 ^ 27 % 2 →
      registerKey (cpuOfBit (key.toNat / 2 ^ 24)) (key.toNat % 2 ^ 24) acc = key.toNat := by
    intro acc hwidth hdir
    rw [registerKey, hwidth, hdir, hbit, ← hcode]
    omega
  split at h
  · next hdir =>
    cases h
    refine ⟨_, _, .read w, k, hrow, rfl, ?_⟩
    rw [registerRequest_eq, hfields (.read w) rfl hdir.symm, need32_eq_ok hkey, valueBytes, List.append_nil, word4]
  · next hdir =>
    obtain ⟨v, r'', hv, h⟩ := thenRead_eq_ok h
    cases h
    refine ⟨_, _, .write w v, k, hrow, rfl, ?_⟩
    rw [registerRequest_eq, hfields (.write w v) rfl (Nat.mod_two_ne_zero.mp hdir).symm, need32_eq_ok hkey,
      need32_eq_ok hv, valueBytes, List.append_assoc, word4]

/-! ### The rows -/

theorem KeyRow.holds_iff {k : KeyRow} {c : Cpu} {o : Nat} :
    k.holds c o = true ↔ (k.cpus = none ∨ k.cpus = some c) ∧ k.lo ≤ o ∧ o < k.lo + k.size := by
  simp only [KeyRow.holds, Bool.and_eq_true, Bool.or_eq_true, decide_eq_true_eq, and_assoc]

/-- The rows of one CPU rise and do not overlap (41_io_dispatch.md R131). -/
theorem keyRows_rise (c : Cpu) :
    (keyRows.filter fun k => k.cpus = none || k.cpus = some c).IsChain fun a b => a.lo + a.size ≤ b.lo := by
  cases c <;> decide +kernel

/-- At most one row holds an offset of a CPU's window. -/
theorem keyRows_apart (c : Cpu) (o : Nat) :
    keyRows.Pairwise fun a b => ¬ (a.holds c o = true ∧ b.holds c o = true) := by
  have htrans : IsTrans KeyRow fun a b => a.lo + a.size ≤ b.lo := ⟨fun a b c hab hbc => by omega⟩
  refine (List.pairwise_filter.mp (List.isChain_iff_pairwise.mp (keyRows_rise c))).imp fun {a b} hrise hboth => ?_
  obtain ⟨⟨ha, hla, hha⟩, hb, hlb, hhb⟩ := hboth.imp KeyRow.holds_iff.mp KeyRow.holds_iff.mp
  have := hrise (by simpa using ha) (by simpa using hb)
  omega

/-- The row of an offset is the one row that holds it (30_encoding.md R89). -/
theorem rowAt_eq_some_iff {c : Cpu} {o : Nat} {k : KeyRow} :
    rowAt c o = some k ↔ k ∈ keyRows ∧ k.holds c o = true := by
  constructor
  · intro h
    rw [rowAt] at h
    exact ⟨List.mem_of_find?_eq_some h, List.find?_some (p := fun x : KeyRow => x.holds c o) h⟩
  · rintro ⟨hk, hholds⟩
    obtain ⟨before, after, hsplit⟩ := List.append_of_mem hk
    have hapart := keyRows_apart c o
    rw [hsplit] at hapart
    refine List.find?_eq_some_iff_append.mpr ⟨hholds, before, after, hsplit, fun x hx => ?_⟩
    have hx' := (List.pairwise_append.mp hapart).2.2 x hx k (by simp)
    simpa [hholds] using hx'

/-- Every row lies in the register window. -/
theorem keyRows_inside : ∀ k ∈ keyRows, k.lo + k.size ≤ 2 ^ 24 := by decide +kernel

/-- The instruction a row makes of a lane and an access is encoded as the call of its offset. -/
theorem encode_make_lane : ∀ k ∈ keyRows, ∀ c, k.cpus = none ∨ k.cpus = some c → ∀ j < k.size, ∀ acc,
    encode (k.make c j acc) = registerRequest c (k.lo + j) acc := by
  simp only [keyRows, displayKeys, dmaKeys, systemKeys, mapKeys, renderKeys, engineBKeys, highKeys,
    List.forall_mem_append, List.forall_mem_cons]
  repeat' refine And.intro ?_ ?_
  all_goals simp +contextual [encode, Nat.mod_eq_of_lt]

theorem encode_make {k : KeyRow} (hk : k ∈ keyRows) {c : Cpu} {o : Nat} (hholds : k.holds c o = true)
    (acc : RegAccess) : encode (k.make c (o - k.lo) acc) = registerRequest c o acc := by
  obtain ⟨hc, hlo, hhi⟩ := KeyRow.holds_iff.mp hholds
  have h := encode_make_lane k hk c hc (o - k.lo) (by omega) acc
  rwa [Nat.add_sub_of_le hlo] at h

/-- A register row's instruction is made by a row that holds its offset: the rows stand in the order of the
constructors, of which the first fifteen are the requests of the bus port. -/
theorem row_of_rowAccess {i : Instr} {c : Cpu} {o : Nat} {acc : RegAccess} (h : rowAccess i = some (c, o, acc)) :
    ∃ k, keyRows[i.ctorIdx - 15]? = some k ∧ k.holds c o = true ∧ k.make c (o - k.lo) acc = i := by
  cases i
  all_goals cases h
  all_goals exact ⟨_, rfl, KeyRow.holds_iff.mpr ⟨by simp, by dsimp only; omega, by dsimp only; omega⟩, by simp⟩

/-- What decodes at the register port is the encoding of what it decodes to. -/
theorem encode_of_decodeRegister {bs r : List Byte} {i : Instr} (h : decodeRegister bs = .ok (i, r)) :
    (encode i).port = .register ∧ (encode i).bytes ++ r = bs := by
  obtain ⟨c, o, acc, k, hrow, rfl, rfl⟩ := decodeRegister_eq_ok h
  obtain ⟨hk, hholds⟩ := rowAt_eq_some_iff.mp hrow
  rw [encode_make hk hholds]
  exact ⟨by rw [registerRequest_eq], rfl⟩

end Sys2Proof.Machine
end

section
/-! The contract port (log entry 2): the contract's number, the CPU, and the arguments. -/

namespace Sys2Proof.Machine

theorem decodeContract_request {n : Nat} (c : Cpu) (args : List Byte) (hn : n < 256) :
    decodeContract (contractRequest n c args).bytes = decodeCall n c args := by
  have hnum : (BitVec.ofNat 8 n).toNat = n := Nat.mod_eq_of_lt hn
  simp only [contractRequest, decodeContract, need8_cons, needCpu_cons, thenRead_ok, hnum]

/-- An instruction is spelled at the contract port by a number, a CPU and the arguments in front of `r`. -/
def ContractSpells (n : Nat) (c : Cpu) (bs : List Byte) (i : Instr) (r : List Byte) : Prop :=
  ∃ args, encode i = contractRequest n c args ∧ bs = args ++ r

theorem decodeValueCall_spells {mk : Cpu → Word → Instr} {n : Nat} {c : Cpu} {bs r : List Byte} {i : Instr}
    (hmk : ∀ v, encode (mk c v) = contractRequest n c (word4 v)) (h : decodeValueCall mk c bs = .ok (i, r)) :
    ContractSpells n c bs i r := by
  obtain ⟨v, r', hv, h⟩ := thenRead_eq_ok h
  cases h
  exact ⟨word4 v, hmk v, need32_eq_ok hv⟩

theorem decodeTimerCall_spells {mk : Cpu → Fin 4 → Half → Instr} {n : Nat} {c : Cpu} {bs r : List Byte} {i : Instr}
    (hmk : ∀ t v, encode (mk c t v) = contractRequest n c (BitVec.ofNat 8 t.val :: half2 v))
    (h : decodeTimerCall mk c bs = .ok (i, r)) : ContractSpells n c bs i r := by
  obtain ⟨t, r1, ht, h⟩ := thenRead_eq_ok h
  obtain ⟨v, r2, hv, h⟩ := thenRead_eq_ok h
  cases h
  exact ⟨BitVec.ofNat 8 t.val :: half2 v, hmk t v, by rw [need4_eq_ok ht, need16_eq_ok hv]; rfl⟩

/-- What decodes as the arguments of a contract spells the call. -/
theorem decodeCall_spells {n : Nat} {c : Cpu} {bs r : List Byte} {i : Instr} (h : decodeCall n c bs = .ok (i, r)) :
    ContractSpells n c bs i r := by
  unfold decodeCall at h
  split at h
  · obtain ⟨o, r1, ho, h⟩ := thenRead_eq_ok h
    obtain ⟨w, r2, hw, h⟩ := thenRead_eq_ok h
    obtain ⟨v, r3, hv, h⟩ := thenRead_eq_ok h
    cases h
    refine ⟨_, rfl, ?_⟩
    rw [needOffset_eq_ok ho, needWidth_eq_ok hw, need32_eq_ok hv, List.append_assoc, List.cons_append]
  · obtain ⟨o, r1, ho, h⟩ := thenRead_eq_ok h
    obtain ⟨w, r2, hw, h⟩ := thenRead_eq_ok h
    cases h
    refine ⟨_, rfl, ?_⟩
    rw [needOffset_eq_ok ho, needWidth_eq_ok hw, List.append_assoc, List.singleton_append]
  · obtain ⟨ch, r1, hch, h⟩ := thenRead_eq_ok h
    obtain ⟨v, r2, hv, h⟩ := thenRead_eq_ok h
    cases h
    refine ⟨_, rfl, ?_⟩
    rw [need4_eq_ok hch, need32_eq_ok hv, List.cons_append]
  · obtain ⟨ch, r1, hch, h⟩ := thenRead_eq_ok h
    cases h
    exact ⟨_, rfl, need4_eq_ok hch⟩
  · exact decodeTimerCall_spells (fun _ _ => rfl) h
  · exact decodeTimerCall_spells (fun _ _ => rfl) h
  · exact decodeValueCall_spells (fun _ => rfl) h
  · exact decodeValueCall_spells (fun _ => rfl) h
  · exact decodeValueCall_spells (fun _ => rfl) h
  · cases h
    exact ⟨[], rfl, rfl⟩
  · exact decodeValueCall_spells (fun _ => rfl) h
  · exact decodeValueCall_spells (fun _ => rfl) h
  · exact decodeValueCall_spells (fun _ => rfl) h
  · exact decodeValueCall_spells (fun _ => rfl) h
  · cases h

/-- What decodes at the contract port is the encoding of what it decodes to. -/
theorem encode_of_decodeContract {bs r : List Byte} {i : Instr} (h : decodeContract bs = .ok (i, r)) :
    (encode i).port = .contract ∧ (encode i).bytes ++ r = bs := by
  obtain ⟨n, r1, hn, h⟩ := thenRead_eq_ok h
  obtain ⟨c, r2, hc, h⟩ := thenRead_eq_ok h
  obtain ⟨args, hencode, rfl⟩ := decodeCall_spells h
  rw [hencode, need8_eq_ok hn, needCpu_eq_ok hc, contractRequest, BitVec.ofNat_toNat, BitVec.setWidth_eq]
  exact ⟨rfl, rfl⟩

end Sys2Proof.Machine
end

section
/-! The decoder and the encoder are inverse (30_encoding.md R80 to R83, R89). -/

namespace Sys2Proof.Machine

/-- Settles O3: at each port, what the reader accepts is spelled by its bytes. -/
theorem decodedBytesAreTheEncoding : Obligations.DecodedBytesAreTheEncoding := by
  rintro ⟨port, bs⟩ i rest h
  cases port with
  | bus => exact encode_of_decodeBus h
  | register => exact encode_of_decodeRegister h
  | contract => exact encode_of_decodeContract h

/-! ### Encodings read back, port by port -/

/-- An instruction is read back from its encoding, whatever bytes follow. -/
def ReadsBack (i : Instr) : Prop :=
  ∀ rest, decode ⟨(encode i).port, (encode i).bytes ++ rest⟩ = .ok (i, rest)

theorem readsBack_bus {i : Instr} {cls wcode : Nat} {c : Cpu} {ops : List Byte}
    (hencode : encode i = busRequest cls wcode c ops) (hcls : cls < 11) (hw : wcode < 4)
    (h : ∀ rest, decodeOperands cls wcode c (ops ++ rest) = .ok (i, rest)) : ReadsBack i := by
  intro rest
  rw [hencode, ← h rest]
  exact decodeBus_opcode c (ops ++ rest) hcls hw

theorem readsBack_contract {i : Instr} {n : Nat} {c : Cpu} {args : List Byte}
    (hencode : encode i = contractRequest n c args) (hn : n < 256)
    (h : ∀ rest, decodeCall n c (args ++ rest) = .ok (i, rest)) : ReadsBack i := by
  intro rest
  rw [hencode, ← h rest]
  exact decodeContract_request c (args ++ rest) hn

theorem readsBack_register {i : Instr} {k : KeyRow} {c : Cpu} {o : Nat} {acc : RegAccess} (hk : k ∈ keyRows)
    (hholds : k.holds c o = true) (hmake : k.make c (o - k.lo) acc = i) : ReadsBack i := by
  intro rest
  obtain ⟨-, hlo, hhi⟩ := KeyRow.holds_iff.mp hholds
  have hin := keyRows_inside k hk
  have hport : (registerRequest c o acc).port = .register := by rw [registerRequest_eq]
  rw [← hmake, encode_make hk hholds, hport]
  exact decodeRegister_request acc rest (by omega) (rowAt_eq_some_iff.mpr ⟨hk, hholds⟩)

theorem readsBack_rowAccess {i : Instr} {x : Cpu × Nat × RegAccess} (h : rowAccess i = some x) : ReadsBack i := by
  obtain ⟨k, hk, hholds, hmake⟩ := row_of_rowAccess h
  exact readsBack_register (List.mem_of_getElem? hk) hholds hmake

/-- The wireless window has a key, though it is not in the raw block (40_decode.md R104). -/
theorem readsBack_wifiWindow (j : BitVec 23) (acc : RegAccess) : ReadsBack (.wifiWindow j acc) := by
  have hk : keyRows[103]? =
      some ⟨some .c1, 0x800000, 0x800000, fun _ j a => .wifiWindow (BitVec.ofNat 23 j) a⟩ := rfl
  refine readsBack_register (c := .c1) (o := 0x800000 + j.toNat) (acc := acc) (List.mem_of_getElem? hk) ?_ (by simp)
  exact KeyRow.holds_iff.mpr ⟨.inr rfl, by dsimp only; omega, by dsimp only; omega⟩

/-- Settles O2: a request is read back field by field; a register call by the row that holds its offset. -/
theorem encodingDecodesBack : Obligations.EncodingDecodesBack := by
  intro i rest hwf
  suffices ReadsBack i from this rest
  cases hrow : rowAccess i with
  | some x => exact readsBack_rowAccess hrow
  | none =>
    cases i with
    | read8 | read16 | read32 =>
      exact readsBack_bus rfl (by decide) (by decide) fun rest => by
        simp [decodeOperands, decodeRead, widthOfCode, readOf]
    | write8 | write16 | write32 =>
      exact readsBack_bus rfl (by decide) (by decide) fun rest => by
        simp [decodeOperands, decodeWrite, widthOfCode, writeOf]
    | tick | trigger | raiseirq | remap =>
      exact readsBack_bus rfl (by decide) (by decide) fun rest => by simp [decodeOperands, decodePerCpu]
    | settcw | unmount | reset =>
      exact readsBack_bus rfl (by decide) (by decide) fun rest => by simp [decodeOperands, decodeHost]
    | mount size bytes =>
      have hlen : bytes.length = size.toNat := of_decide_eq_true (Bool.and_eq_true_iff.mp hwf).2
      exact readsBack_bus rfl (by decide) (by decide) fun rest => by simp [decodeOperands, decodeHost, ← hlen]
    | load region offset bytes =>
      have hlen : bytes.length % 4294967296 = bytes.length :=
        Nat.mod_eq_of_lt (of_decide_eq_true (Bool.and_eq_true_iff.mp (Bool.and_eq_true_iff.mp hwf).1).2)
      exact readsBack_bus rfl (by decide) (by decide) fun rest => by simp [decodeOperands, decodeHost, hlen]
    | wifiWindow j acc => exact readsBack_wifiWindow j acc
    | onRegisterWrite | onRegisterRead | programChannel | execute | setReload | setControl | writeSync | fifoControl
    | send | recv | setIME | setIE | setIF | clearIF =>
      exact readsBack_contract rfl (by decide) fun rest => by simp [decodeCall, decodeValueCall, decodeTimerCall]
    | _ => cases hrow

/-- Settles O1: the decoder run on each; the MOUNT, whose bytes are many, is read back by O2. -/
theorem requestSamplesDecode : Obligations.RequestSamplesDecode := by
  have hmount := encodingDecodesBack (.mount 0x100 ((List.range 256).map (BitVec.ofNat 8))) []
    (by rw [Instr.wf, List.length_map, List.length_range]; rfl)
  rw [List.append_nil] at hmount
  exact ⟨rfl, rfl, rfl, rfl, rfl, rfl, rfl, rfl, rfl, rfl, hmount, rfl, rfl, rfl, rfl, rfl⟩

end Sys2Proof.Machine
end

section
/-! Malformed and disallowed requests (30_encoding.md R85, R86): what the decoder rejects, and what an instruction
refuses. -/

namespace Sys2Proof.Machine

/-! ### Opcode bytes and counts -/

/-- A request that spells nothing only marks the state refused. -/
theorem step_of_decode_error {s : State} {q : Request} {qs : List Request} (hin : s.input = q :: qs)
    (hdec : ∃ e, decode q = .error e) : step s = .next { s with input := qs, reply := .none, refused := true } := by
  obtain ⟨e, he⟩ := hdec
  simp only [step, hin, he]
  rfl

theorem decodeBus_reservedClass {op : Byte} (bs : List Byte) (h : 11 ≤ op.toNat / 16) :
    decodeBus (op :: bs) = .error .reservedClass :=
  if_pos h

theorem decodeBus_reservedBit {op : Byte} (bs : List Byte) (h : op.toNat / 2 % 2 = 1) :
    ∃ e, decodeBus (op :: bs) = .error e := by
  rw [decodeBus_cons, if_pos h]
  split <;> exact ⟨_, rfl⟩

/-- A byte whose fields have no operands spells nothing, whatever else is wrong with it. -/
theorem decodeBus_error {op : Byte} {bs : List Byte}
    (h : ∃ e, decodeOperands (op.toNat / 16) (op.toNat / 4 % 4) (cpuOfBit op.toNat) bs = .error e) :
    ∃ e, decodeBus (op :: bs) = .error e := by
  rw [decodeBus_cons]
  split
  · exact ⟨_, rfl⟩
  split
  · exact ⟨_, rfl⟩
  · exact h

/-- READ and WRITE want a width code. -/
theorem decodeOperands_missingWidth {cls : Nat} (c : Cpu) (bs : List Byte) (hcls : cls ≤ 1) :
    decodeOperands cls 0 c bs = .error .badWidthCode := by
  rcases Nat.le_one_iff_eq_zero_or_eq_one.mp hcls with rfl | rfl
  · rfl
  · rfl

/-- The other classes take none. -/
theorem decodeOperands_extraWidth {cls wcode : Nat} (c : Cpu) (bs : List Byte) (hcls : 2 ≤ cls) (hw : wcode ≠ 0) :
    decodeOperands cls wcode c bs = .error .badWidthCode := by
  rw [decodeOperands, if_neg (by omega), if_neg (by omega), if_pos hw]

/-- The host's classes take CPU bit 0 only. -/
theorem decodeOperands_badCpu {cls : Nat} (wcode : Nat) (bs : List Byte) (hcls : cls ∈ [5, 7, 8, 9, 10]) :
    ∃ e, decodeOperands cls wcode .c1 bs = .error e := by
  have hne : cls = 5 ∨ cls = 7 ∨ cls = 8 ∨ cls = 9 ∨ cls = 10 := by simpa using hcls
  rw [decodeOperands, if_neg (by omega), if_neg (by omega)]
  split
  · exact ⟨_, rfl⟩
  · rw [if_neg (by omega), if_pos rfl]
    exact ⟨_, rfl⟩

theorem decodeBus_mount_short {size : Word} {b : List Byte} (h : b.length < size.toNat) :
    decodeBus (0x70 :: (word4 size ++ b)) = .error .truncated := by
  rw [show (0x70 : Byte) = opcode 7 0 .c0 from rfl, decodeBus_opcode _ _ (by decide) (by decide)]
  simp [decodeOperands, decodeHost, needBytes_short h]

theorem decodeBus_load_short {region : Byte} {offset k : Word} {b : List Byte} (h : b.length < k.toNat) :
    decodeBus (0x90 :: region :: (word4 offset ++ (word4 k ++ b))) = .error .truncated := by
  rw [show (0x90 : Byte) = opcode 9 0 .c0 from rfl, decodeBus_opcode _ _ (by decide) (by decide)]
  simp [decodeOperands, decodeHost, needBytes_short h]

/-! ### Operands -/

/-- A refused request only marks the state. -/
theorem finish_refuse (why : Why) (s : State) : finish s (refuse why s) = .next { s with refused := true } := rfl

theorem eventOfCode_reserved {e : Byte} (h : e.toNat = 0 ∨ 9 ≤ e.toNat) : Event.ofCode e = none := by
  unfold Event.ofCode
  split
  case h_9 => rfl
  all_goals omega

theorem regionOfCode_code {b : Byte} {r : Region} (h : Region.ofCode b = some r) : b.toNat = r.code := by
  unfold Region.ofCode at h
  split at h <;> cases h <;> assumption

theorem remap_bad {s : State} {c : Cpu} {g : Byte} (why : Why) (i : Byte) (m : Word) (h : BadRemapCode s c g.toNat) :
    remap why c i g m s = refuse why s := by
  unfold remap
  split
  · rfl
  · next r hr =>
    refine if_neg ?_
    rw [regionOfCode_code hr] at h
    cases r <;> simp_all [BadRemapCode, Region.code, remapAllowed]

theorem isRegionSize_and {size : Word} (h : isRegionSize size = true) : size.toNat &&& (size.toNat - 1) = 0 := by
  have hfour := (isRegionSize_mod size h).2
  have hone : (1 : Word) ≤ size := by
    rw [BitVec.le_def]
    exact le_trans (by decide) hfour
  have hand := congrArg BitVec.toNat (of_decide_eq_true (Bool.and_eq_true_iff.mp h).2)
  rwa [BitVec.toNat_and, BitVec.toNat_sub_of_le hone] at hand

/-- A size that a MOUNT takes is a power of two of at least 4 (30_encoding.md R83). -/
theorem pow_of_isRegionSize {size : Word} (h : isRegionSize size = true) : ∃ k, 2 ≤ k ∧ size.toNat = 2 ^ k := by
  have hfour := (isRegionSize_mod size h).2
  obtain ⟨k, hk⟩ := (Nat.and_sub_one_eq_zero_iff_isPowerOfTwo (by omega)).mp (isRegionSize_and h)
  refine ⟨k, ?_, hk⟩
  by_contra hlt
  have : 2 ^ k ≤ 2 ^ 1 := Nat.pow_le_pow_right (by decide) (by omega)
  omega

theorem loadAllowed_bad {mounted : Bool} {r : Region} (h : r.code ∈ [0, 6, 7] ∨ r.code = 21 ∧ mounted = false) :
    loadAllowed mounted r = false := by
  cases r <;> simp_all [Region.code, loadAllowed]

theorem loadBytes_notAllowed {s : State} {g : Byte} {r : Region} (o : Word) (bytes : List Byte)
    (hr : Region.ofCode g = some r) (h : loadAllowed s.cart.isSome r = false) :
    loadBytes g o bytes s = refuse .badRequest s := by
  simp only [loadBytes, hr, h, Bool.false_and]
  split <;> rfl

theorem loadBytes_beyond {s : State} {g : Byte} {r : Region} {size : Nat} {o : Word} {bytes : List Byte}
    (hr : Region.ofCode g = some r) (hsize : regionSize s.config s.cart r = some size)
    (h : size < o.toNat + bytes.length) : loadBytes g o bytes s = refuse .badRequest s := by
  simp only [loadBytes, hr, hsize]
  exact if_neg (by simp [h])

theorem loadBytes_bad {s : State} {g : Byte} {o : Word} {bytes : List Byte}
    (h : 22 ≤ g.toNat ∨ g.toNat ∈ [0, 6, 7] ∨ (g.toNat = 21 ∧ s.cart = none) ∨
      ∃ r size, Region.ofCode g = some r ∧ regionSize s.config s.cart r = some size ∧ size < o.toNat + bytes.length) :
    loadBytes g o bytes s = refuse .badRequest s := by
  cases hr : Region.ofCode g with
  | none => simp only [loadBytes, hr]
  | some r =>
    rw [regionOfCode_code hr] at h
    rcases h with hcode | hcode | ⟨hcode, hcart⟩ | ⟨r', size, hr', hsize, hlt⟩
    · exact absurd hcode (by cases r <;> decide)
    · exact loadBytes_notAllowed o bytes hr (loadAllowed_bad (.inl hcode))
    · exact loadBytes_notAllowed o bytes hr (loadAllowed_bad (.inr ⟨hcode, by rw [hcart]; rfl⟩))
    · exact loadBytes_beyond hr' hsize hlt

/-- Settles O4: the decoder rejects by the opcode byte or the count, the instruction by its operand. -/
theorem malformedRequestsAreRefused : Obligations.MalformedRequestsAreRefused := by
  refine ⟨fun s op bs qs hin h => step_of_decode_error hin ?_, fun s => ⟨?_, ?_, ?_, ?_, ?_⟩⟩
  · rcases h with hcls | ⟨hcls, hw⟩ | ⟨hcls, hw⟩ | hres | ⟨hcls, hcpu⟩ | ⟨rfl, size, b, rfl, hlt⟩ |
      ⟨rfl, region, offset, k, b, rfl, hlt⟩
    · exact ⟨_, decodeBus_reservedClass bs hcls⟩
    · exact decodeBus_error ⟨_, by rw [hw]; exact decodeOperands_missingWidth _ bs hcls⟩
    · exact decodeBus_error ⟨_, decodeOperands_extraWidth _ bs hcls hw⟩
    · exact decodeBus_reservedBit bs hres
    · have hc : cpuOfBit op.toNat = .c1 := cpuOfBit_eq hcpu
      exact decodeBus_error (by rw [hc]; exact decodeOperands_badCpu _ bs hcls)
    · exact ⟨_, decodeBus_mount_short hlt⟩
    · exact ⟨_, decodeBus_load_short hlt⟩
  · intro c e he
    simp only [exec, execTrigger, eventOfCode_reserved he, finish_refuse]
  · intro c b hb
    have hbad : irqBitOk b = false := decide_eq_false (by omega)
    simp only [exec, execRaiseirq, hbad, finish_refuse, Bool.false_eq_true, if_false]
  · intro c i g m hbad
    simp only [exec, execRemap, remap_bad .badRequest i m hbad, finish_refuse]
  · intro size bytes hsize
    have hbad : isRegionSize size = false := Bool.eq_false_iff.mpr fun h => hsize (pow_of_isRegionSize h)
    simp only [exec, execMount, hbad, finish_refuse, Bool.false_and, Bool.false_eq_true, if_false]
  · intro g o bytes hbad
    simp only [exec, execLoad, loadBytes_bad hbad, finish_refuse]

end Sys2Proof.Machine
end

section
/-! The registers with a computed read (41_io_dispatch.md R131, R135): a read touches one exactly where its bytes meet
their ranges. -/

namespace Sys2Proof.Machine

/-! ### The registers of kind C -/

/-- Kind C of R131: `OnRegisterRead` returns a value for the register. -/
def LReg.isComputed : LReg → Bool
  | .dispCapCnt | .tmCntL _ | .ipcFifoRecv | .romCtrl | .cardData | .gxStat => true
  | .divCnt | .divResult | .divRemResult | .sqrtCnt | .sqrtResult => true
  | _ => false

theorem computedRead_isSome (c : Cpu) (r : LReg) (s : State) : (computedRead c r s).isSome = r.isComputed := by
  cases r <;> rfl

/-- A register found by bounds on the offset is judged bound by bound. -/
theorem any_ite_iff {α : Type} {f : α → Bool} {p : Prop} [Decidable p] {a b : Option α} {P : Prop}
    (ha : p → (a.any f = true ↔ P)) (hb : ¬ p → (b.any f = true ↔ P)) : (if p then a else b).any f = true ↔ P := by
  split
  · exact ha ‹_›
  · exact hb ‹_›

theorem displayAt_computed (g : Engine) (k : Nat) : (displayAt g k).any LReg.isComputed = true ↔ False := by
  unfold displayAt
  with_reducible
    repeat' refine any_ite_iff (fun _ => ?_) (fun _ => ?_)
  all_goals exact iff_of_false Bool.false_ne_true not_false

theorem dmaTimerAt_computed (o : Nat) :
    (dmaTimerAt o).any LReg.isComputed = true ↔ 0x100 ≤ o ∧ o < 0x110 ∧ o % 4 < 2 := by
  unfold dmaTimerAt
  simp only
  with_reducible
    repeat' refine any_ite_iff (fun _ => ?_) (fun _ => ?_)
  all_goals first
    | exact iff_of_true rfl (by omega)
    | exact iff_of_false Bool.false_ne_true (by omega)

theorem systemAt_computed (o : Nat) : (systemAt o).any LReg.isComputed = true ↔ 0x1A4 ≤ o ∧ o < 0x1A8 := by
  unfold systemAt
  with_reducible
    repeat' refine any_ite_iff (fun _ => ?_) (fun _ => ?_)
  all_goals first
    | exact iff_of_true rfl (by omega)
    | exact iff_of_false Bool.false_ne_true (by omega)

theorem mainAt_computed (o : Nat) :
    (mainAt o).any LReg.isComputed = true ↔
      (0x280 ≤ o ∧ o < 0x282) ∨ (0x2A0 ≤ o ∧ o < 0x2B2) ∨ (0x2B4 ≤ o ∧ o < 0x2B8) ∨ (0x600 ≤ o ∧ o < 0x604) := by
  unfold mainAt
  with_reducible
    repeat' refine any_ite_iff (fun _ => ?_) (fun _ => ?_)
  all_goals first
    | exact iff_of_true rfl (by omega)
    | exact iff_of_false Bool.false_ne_true (by omega)

theorem highAt_computed (o : Nat) :
    (highAt o).any LReg.isComputed = true ↔ (0x100000 ≤ o ∧ o < 0x100004) ∨ (0x100010 ≤ o ∧ o < 0x100014) := by
  unfold highAt
  with_reducible
    repeat' refine any_ite_iff (fun _ => ?_) (fun _ => ?_)
  all_goals first
    | exact iff_of_true rfl (by omega)
    | exact iff_of_false Bool.false_ne_true (by omega)

/-- The register of a byte is computed exactly in the ranges of kind C. -/
theorem regAt_computed (c : Cpu) (o : Nat) :
    (regAt c o).any LReg.isComputed = true ↔ inRanges (computedRanges c) o = true := by
  cases c
  all_goals
    simp only [inRanges, computedRanges, List.any_cons, List.any_nil, Bool.or_eq_true, Bool.and_eq_true,
      decide_eq_true_eq, Bool.false_eq_true, or_false, regAt]
    with_reducible
      repeat' refine any_ite_iff (fun _ => ?_) (fun _ => ?_)
  · rw [highAt_computed]; omega
  · rw [dmaTimerAt_computed]; omega
  · rw [systemAt_computed]; omega
  · exact iff_of_false (displayAt_computed _ _).mp (by omega)
  · exact iff_of_false Bool.false_ne_true (by omega)
  · exact iff_of_true rfl (by omega)
  · rw [mainAt_computed]; omega
  · exact iff_of_false (displayAt_computed _ _).mp (by omega)
  · exact iff_of_false Bool.false_ne_true (by omega)
  · rw [highAt_computed]; omega
  · rw [dmaTimerAt_computed]; omega
  · rw [systemAt_computed]; omega
  · exact iff_of_false Bool.false_ne_true (by omega)
  · exact iff_of_false Bool.false_ne_true (by omega)

/-- A read touches a computed register exactly where it does not avoid their bytes. -/
theorem touchesComputed_iff (c : Cpu) (o : Nat) (w : Width) (s : State) :
    touchesComputed c o w s = true ↔ ¬ Avoids (computedRanges c) o w.bytes := by
  simp only [touchesComputed, List.any_eq_true, computedRead_isSome, Avoids, not_forall, Bool.not_eq_false]
  constructor
  · rintro ⟨r, hr, hcomputed⟩
    obtain ⟨i, hi, hreg⟩ := mem_touched c w o r hr
    exact ⟨i, hi, (regAt_computed c _).mp (by rw [hreg]; exact hcomputed)⟩
  · rintro ⟨i, hi, hin⟩
    obtain ⟨r, hreg, hcomputed⟩ := (Option.any_eq_true _ _).mp ((regAt_computed c _).mpr hin)
    exact ⟨r, touched_of_regAt c w o i r hi hreg, hcomputed⟩

/-! ### The contracts -/

/-- A request that two states refuse alike, or run to one state. -/
theorem finish_same_or_refused (s b : State) (r : Res) :
    ∃ t u, finish s r = .next t ∧ finish b r = .next u ∧
      (t = u ∨ ∃ d, t = { s with refused := true, draws := d } ∧ u = { b with refused := true, draws := d }) := by
  cases r with
  | ok t => exact ⟨t, t, rfl, rfl, .inl rfl⟩
  | error e => exact ⟨_, _, rfl, rfl, .inr ⟨e.draws, rfl, rfl⟩⟩

/-- An aligned offset of the window is the offset a contract call runs at. -/
theorem alignOffset_ofNat {w : Width} {o : Nat} (ha : o % w.bytes = 0) (hb : o + w.bytes ≤ 0x1000000) :
    alignOffset w (BitVec.ofNat 24 o).toNat = o := by
  have hpos := width_bytes_pos w
  rw [BitVec.toNat_ofNat, Nat.mod_eq_of_lt (by omega), alignOffset, Nat.div_mul_cancel (Nat.dvd_of_mod_eq_zero ha)]

/-- Settles O36: the access of a register runs the contract at its aligned offset. -/
theorem registerContractsAreTheDispatch : Obligations.RegisterContractsAreTheDispatch := by
  intro s i c o
  constructor
  · intro w v hreach
    obtain ⟨hexec, ha, hb⟩ := reaches_write hreach
    have hcall : exec (.onRegisterWrite c (BitVec.ofNat 24 o) w v) (stored c o w v s) =
        finish (stored c o w v s) (onRegisterWrite execute c o w (truncTo w v) (stored c o w v s)) := by
      simp only [exec, execOnRegisterWrite, alignOffset_ofNat ha hb]
    rw [hexec, hcall, ioWrite_eq]
    exact finish_same_or_refused s _ _
  · intro w hreach
    obtain ⟨hexec, ha, hb⟩ := reaches_read hreach
    have hcall : exec (.onRegisterRead c (BitVec.ofNat 24 o) w) s =
        if touchesComputed c o w s then finishValue (ioRead c o w s) else .next (s.answer .none) := by
      simp only [exec, execOnRegisterRead, alignOffset_ofNat ha hb]
    rw [hexec, hcall]
    refine ⟨fun h => if_pos ((touchesComputed_iff c o w s).mpr h), fun h => if_neg ?_⟩
    rwa [touchesComputed_iff, not_not]

end Sys2Proof.Machine
end

section
/-! The targets of an access (40_decode.md R100 to R107, R109): the windows, the sink and storage, and addresses that
decode to one target. -/

namespace Sys2Proof.Machine

/-! ### Values and bytes -/

/-- A truncated value is the value of its bytes inside the width (20_memory.md R60, R65). -/
theorem truncTo_eq_bytesValue (w : Width) (v : Word) :
    truncTo w v = BitVec.ofNat 32 (bytesValue w.bytes (byteAt v.toNat)) := by
  rw [bytesValue_byteAt_mod, truncTo, pow_8_mul]

/-- The aligned address as the word it is. -/
theorem ofNat_alignTo (w : Width) (addr : Word) : BitVec.ofNat 32 (alignTo w addr.toNat) = alignAddr w addr := by
  rw [← alignAddr_alignTo, BitVec.ofNat_toNat, BitVec.setWidth_eq]

/-- The open-bus lanes are the bytes of the pattern that the addressed bytes occupy (R107). -/
theorem openBus_eq (w : Width) (a : Word) :
    openBus w a = BitVec.ofNat 32 (bytesValue w.bytes fun i => byteAt Config.openBusWord.toNat (a.toNat % 4 + i)) := by
  rw [openBus, truncTo_eq_bytesValue, BitVec.toNat_ushiftRight, Nat.shiftRight_eq_div_pow]
  congr 2
  funext i
  rw [byteAt_div, Nat.add_comm]

/-- The bytes of a region as the u32 that a read of them answers (R106). -/
theorem regionRead_eq (s : State) (r : Region) (o n : Nat) :
    s.regionRead r o n = bytesValue n fun i => s.byte r (o + i) := by
  simp only [State.regionRead, leRead_eq, State.byte, cellKey_add]

/-- The bytes that a truncated write leaves are those of the value (20_memory.md R65). -/
theorem regionWrite_truncTo_holds (s : State) (r : Region) (o : Nat) (w : Width) (v : Word) :
    HoldsAt (s.regionWrite r o w.bytes (truncTo w v).toNat) r o w.bytes v.toNat := fun i hi => by
  rw [regionWrite_holds s r o _ _ i hi, byteAt_truncTo w v i hi]

/-! ### Storage and the sink -/

/-- Settles O16: the window is decoded first, and its target is DTCM. -/
theorem tightlyCoupledWindowShadows : Obligations.TightlyCoupledWindowShadows := by
  intro s w addr v h
  rw [← alignAddr_alignTo] at h ⊢
  have htarget := resolve_tcw .c0 _ s h
  rw [exec_readInstr, exec_writeInstr, memRead, memWrite]
  simp only [htarget, regionRead_eq, finish_ok]
  exact ⟨rfl, _, rfl, regionWrite_eq _ _ _ _ _, regionWrite_truncTo_holds s .dtcm _ w v,
    regionWrite_sameOutside _ _ _ _ _⟩

/-- Settles O19: the target is the region's bytes at the masked offset. -/
theorem storageIsReadAndWritten : Obligations.StorageIsReadAndWritten := by
  intro s c w addr v r o hat hr
  rw [exec_read_storage hat hr, exec_write_storage v hat hr]
  exact ⟨rfl, _, rfl, regionWrite_eq _ _ _ _ _, regionWrite_truncTo_holds s r o w v,
    regionWrite_sameOutside _ _ _ _ _⟩

/-- Settles O20: the target is the sink, which has no bytes. -/
theorem sinkReadsOpenBusAndAbsorbsWrites : Obligations.SinkReadsOpenBusAndAbsorbsWrites := by
  intro s c w addr v htable hsink
  rw [← alignAddr_alignTo] at htable hsink ⊢
  have htarget := resolve_sink c _ s htable hsink
  rw [exec_readInstr, exec_writeInstr, memRead, memWrite]
  simp only [htarget, openBus_eq, finish_ok, and_true]
  rfl

/-! ### The pass-through window -/

/-- The address of a byte, counted from the first byte or from the second. -/
theorem add_one_add_ofNat (a : Word) (i : Nat) : a + 1#32 + BitVec.ofNat 32 i = a + BitVec.ofNat 32 (i + 1) := by
  rw [BitVec.ofNat_add, BitVec.add_assoc, BitVec.add_comm (BitVec.ofNat 32 i)]

/-- The calls of a pass-through read and the bytes they answer (R103). -/
theorem cartPassRead_eq (c : Cpu) (n : Nat) : ∀ (a : Word) (s : State),
    cartPassRead c a n s =
      ((List.range n).map fun i => Config.answer8 (s.draws + i),
        { s with
          log := s.log ++ (List.range n).map fun i =>
            .cartPassRead8 c (a + BitVec.ofNat 32 i) (Config.answer8 (s.draws + i))
          draws := s.draws + n }) := by
  induction n with
  | zero =>
    intro a s
    simp [cartPassRead]
  | succ n ih =>
    intro a s
    simp [cartPassRead, callCartPassRead, ih, List.range_succ_eq_map, State.logDraw, add_one_add_ofNat,
      Function.comp_def, Nat.add_assoc, Nat.add_comm 1]

/-- The calls of a pass-through write (R103). -/
theorem cartPassWrite_leBytes (c : Cpu) (n : Nat) : ∀ (a : Word) (v : Nat) (s : State),
    cartPassWrite c a (leBytes n v) s =
      { s with
        log := s.log ++ (List.range n).map fun i => .cartPassWrite8 c (a + BitVec.ofNat 32 i) (byteAt v i) } := by
  induction n with
  | zero =>
    intro a v s
    simp [leBytes, cartPassWrite]
  | succ n ih =>
    intro a v s
    have hbyte : ∀ i, byteAt (v / 256) i = byteAt v (i + 1) := fun i => byteAt_div v i 1
    have hfirst : byteAt v 0 = BitVec.ofNat 8 v := by simp [byteAt]
    simp [leBytes, cartPassWrite, ih, List.range_succ_eq_map, State.logCall, add_one_add_ofNat, hbyte, hfirst,
      Function.comp_def]

/-- Settles O17: the target is the pass-through window, served byte by byte. -/
theorem cartPassThroughIsByteCalls : Obligations.CartPassThroughIsByteCalls := by
  intro s c w addr v htcw hpass
  rw [← alignAddr_alignTo] at htcw hpass
  have htarget := resolve_pass c _ s htcw hpass
  have hbytes : ∀ i ∈ List.range w.bytes, byteAt (truncTo w v).toNat i = byteAt v.toNat i :=
    fun i hi => byteAt_truncTo w v i (List.mem_range.mp hi)
  rw [exec_readInstr, exec_writeInstr, memRead, memWrite]
  simp only [htarget, cartPassRead_eq, cartPassWrite_leBytes, finish_ok, BitVec.ofNat_add, ofNat_alignTo]
  refine ⟨rfl, ?_⟩
  rw [List.map_congr_left fun i hi => by rw [hbytes i hi]]

/-! ### The wireless window -/

/-- A read of the wireless window is one call, which draws its answer (R104). -/
theorem memRead_wifi {c : Cpu} {w : Width} {addr : Word} {s : State} (h : resolve c (alignAddr w addr) s = .wifi) :
    memRead c addr w s =
      (truncTo w (Config.answer32 s.draws),
        s.logDraw (.wifiRead (alignAddr w addr) w (Config.answer32 s.draws))) := by
  simp only [memRead, h, callWifiRead]

/-- A write of the wireless window is one call, without an answer (R104). -/
theorem memWrite_wifi {c : Cpu} {w : Width} {addr : Word} {s : State} (v : Word)
    (h : resolve c (alignAddr w addr) s = .wifi) :
    memWrite execute c addr w v s = .ok (s.logCall (.wifiWrite (alignAddr w addr) w (truncTo w v))) := by
  simp only [memWrite, h]

/-- The aligned address of the window's row is that of its lane. -/
theorem alignAddr_wifiLane (w : Width) (lane : BitVec 23) :
    alignAddr w (BitVec.ofNat 32 (0x04000000 + (0x800000 + lane.toNat))) =
      BitVec.ofNat 32 (alignTo w (0x04800000 + lane.toNat)) := by
  have hlt := lane.isLt
  rw [← ofNat_alignTo, BitVec.toNat_ofNat, Nat.mod_eq_of_lt (by omega), ← Nat.add_assoc]

/-- Settles O18: the bus access and the row make one and the same call. -/
theorem wirelessWindowIsOneCall : Obligations.WirelessWindowIsOneCall := by
  intro s w v a i j h
  have hreply : replyOf w.bytes (fun k => byteAt (Config.answer32 s.draws).toNat k) =
      .value (truncTo w (Config.answer32 s.draws)) := by
    rw [truncTo_eq_bytesValue, replyOf]
  rw [hreply]
  rcases h with ⟨addr, rfl, hpass, hwifi, rfl, rfl⟩ | ⟨lane, rfl, rfl, rfl⟩
  · rw [← alignAddr_alignTo] at hpass hwifi
    have htarget := resolve_wifi .c1 _ s (fun h => nomatch h.1) hpass hwifi
    rw [exec_readInstr, exec_writeInstr, memRead_wifi htarget, memWrite_wifi v htarget, ofNat_alignTo]
    exact ⟨rfl, rfl⟩
  · rw [← alignAddr_wifiLane]
    exact ⟨rfl, rfl⟩

/-! ### Aliased addresses -/

/-- An address that the table decodes is in no window (R100). -/
theorem resolve_table_ne_window {s : State} {c : Cpu} {a : Word} (h : ThroughTable s c a.toNat) :
    resolve c a s ≠ .cartPass ∧ resolve c a s ≠ .wifi := by
  rw [resolve_table c a s h]
  split
  · exact ⟨nofun, nofun⟩
  · split <;> exact ⟨nofun, nofun⟩

/-- Two addresses that the table decodes to one target are one location, if they are at one place in their words: only
the lanes of the open bus (R107) depend on more than the target. -/
theorem exec_eq_of_resolve {s : State} {c : Cpu} {w : Width} {a b : Word} (v : Word)
    (ha : ThroughTable s c (alignTo w a.toNat))
    (hword : (alignAddr w a).toNat % 4 = (alignAddr w b).toNat % 4)
    (htarget : resolve c (alignAddr w a) s = resolve c (alignAddr w b) s) :
    exec (readInstr w c a) s = exec (readInstr w c b) s ∧
    exec (writeInstr w c a v) s = exec (writeInstr w c b v) s := by
  rw [← alignAddr_alignTo] at ha
  have hbus : openBus w (alignAddr w a) = openBus w (alignAddr w b) := by rw [openBus, hword, openBus]
  rw [exec_readInstr, exec_readInstr, exec_writeInstr, exec_writeInstr, memRead, memRead, memWrite, memWrite]
  obtain ⟨hpass, hwifi⟩ := resolve_table_ne_window ha
  cases ht : resolve c (alignAddr w a) s
  case cartPass => exact absurd ht hpass
  case wifi => exact absurd ht hwifi
  all_goals simp only [← htarget, ht, hbus, and_self]

/-- Alignment clears at most two bits, so it keeps agreement in the low bits from there on. -/
theorem alignTo_mod_two_pow {w : Width} {a b k : Nat} (hk : 2 ≤ k) (h : a % 2 ^ k = b % 2 ^ k) :
    alignTo w a % 2 ^ k = alignTo w b % 2 ^ k := by
  have hword : w.bytes ∣ 2 ^ 2 := by cases w <;> decide
  obtain ⟨q, hq⟩ := hword.trans (Nat.pow_dvd_pow 2 hk)
  have hsplit : ∀ x, alignTo w x % 2 ^ k = x % 2 ^ k / w.bytes * w.bytes := fun x => by
    rw [alignTo, hq, Nat.mod_mul_right_div_self, Nat.mul_comm, Nat.mul_mod_mul_left, Nat.mul_comm]
  rw [hsplit, hsplit, h]

/-- A mask below `2 ^ k` takes the low `k` bits only. -/
theorem and_eq_of_mod_two_pow {a b m k : Nat} (h : a % 2 ^ k = b % 2 ^ k) (hm : m < 2 ^ k) : a &&& m = b &&& m := by
  rw [← Nat.mod_eq_of_lt (Nat.and_lt_two_pow a hm), ← Nat.mod_eq_of_lt (Nat.and_lt_two_pow b hm), Nat.and_mod_two_pow,
    Nat.and_mod_two_pow, h]

/-- Addresses that agree in their low 28 bits have one register-window offset (R108, log entry 22). -/
theorem windowOffsetOf_congr {mask : Word} {a b : Nat} (h : a % 2 ^ 28 = b % 2 ^ 28) :
    windowOffsetOf mask a = windowOffsetOf mask b := by
  have hlow : a % 2 ^ 24 = b % 2 ^ 24 := by omega
  rw [windowOffsetOf, windowOffsetOf, hlow, Nat.and_assoc, Nat.and_assoc,
    and_eq_of_mod_two_pow hlow (Nat.and_lt_two_pow mask.toNat (by decide))]

/-- Addresses that agree in their low 28 bits are one place in a region of at most 256 MiB (R109, log entry 14). -/
theorem regionOffset_congr {a b mask : Word} {g : BusConfig} {cart : Option Word} {r : Region} {size : Nat}
    (h : a.toNat % 2 ^ 28 = b.toNat % 2 ^ 28) (hsize : regionSize g cart r = some size) (hle : size ≤ 2 ^ 28) :
    regionOffset a mask size = regionOffset b mask size := by
  rw [regionOffset_eq a mask g cart r size hsize, regionOffset_eq b mask g cart r size hsize, Nat.and_assoc,
    Nat.and_assoc, and_eq_of_mod_two_pow h (Nat.and_lt_two_pow mask.toNat (by omega))]

/-- Addresses that the table decodes and that agree in their low 28 bits have one target (R109). -/
theorem resolve_low28 {s : State} {c : Cpu} {a b : Word} (ha : ThroughTable s c a.toNat)
    (hb : ThroughTable s c b.toNat) (h : a.toNat % 2 ^ 28 = b.toNat % 2 ^ 28)
    (hsizes : ∀ g size, regionSize s.config s.cart g = some size → size ≤ 2 ^ 28) :
    resolve c a s = resolve c b s := by
  have hindex : BitVec.ofNat 8 (a.toNat / 2 ^ 20) = BitVec.ofNat 8 (b.toNat / 2 ^ 20) := by
    apply BitVec.eq_of_toNat_eq
    rw [BitVec.toNat_ofNat, BitVec.toNat_ofNat]
    omega
  have hentry : entryOf s c a.toNat = entryOf s c b.toNat := by rw [entryOf, entryOf, hindex]
  rw [resolve_table c a s ha, resolve_table c b s hb, hentry, windowOffset_eq, windowOffset_eq, windowOffsetOf_congr h]
  split
  · rfl
  · split
    · rfl
    · next size hsize => rw [regionOffset_congr h hsize (hsizes _ _ hsize)]

/-- With its full mask, a region is at one place for addresses that agree modulo its size (R105). -/
theorem atRegion_fullMask {s : State} {c : Cpu} {a k : Nat} {r : Region} (ha : ThroughTable s c a)
    (hsize : regionSize s.config s.cart r = some (2 ^ k))
    (he : entryOf s c a = ⟨r, BitVec.ofNat 32 (2 ^ k - 1)⟩) : AtRegion s c a r (a % 2 ^ k) := by
  have hlt := regionSize_le _ _ _ _ hsize
  refine ⟨ha, by rw [he], _, hsize, ?_⟩
  rw [he, BitVec.toNat_ofNat, Nat.mod_eq_of_lt (Nat.lt_of_le_of_lt (Nat.sub_le _ 1) hlt), Nat.and_assoc, Nat.and_self,
    Nat.and_two_pow_sub_one_eq_mod]

/-- Settles O21: aliased addresses have one target, and alignment keeps their place in the word. -/
theorem aliasedAddressesAreOneLocation : Obligations.AliasedAddressesAreOneLocation := by
  intro s c w a b v ha hb h
  have hlow : ∀ k, 2 ≤ k → a.toNat % 2 ^ k = b.toNat % 2 ^ k →
      (alignAddr w a).toNat % 2 ^ k = (alignAddr w b).toNat % 2 ^ k := fun k hk hab => by
    rw [alignAddr_alignTo, alignAddr_alignTo]
    exact alignTo_mod_two_pow hk hab
  rcases h with ⟨hab, hsizes⟩ | ⟨r, k, hk, hsize, hr, hea, heb, hab⟩
  · refine exec_eq_of_resolve v ha (hlow 2 (by decide) (by omega)) (resolve_low28 ?_ ?_ (hlow 28 (by decide) hab) hsizes)
    · rwa [alignAddr_alignTo]
    · rwa [alignAddr_alignTo]
  · have hword : a.toNat % 2 ^ 2 = b.toNat % 2 ^ 2 := Nat.ModEq.of_dvd (Nat.pow_dvd_pow 2 hk) hab
    refine exec_eq_of_resolve v ha (hlow 2 (by decide) hword) ?_
    rw [← alignAddr_alignTo] at ha hb hea heb
    rw [resolve_storage c _ s r _ (atRegion_fullMask ha hsize hea) hr,
      resolve_storage c _ s r _ (atRegion_fullMask hb hsize heb) hr, hlow k hk hab]

end Sys2Proof.Machine
end

section
/-! The operations on the map (40_decode.md R112 to R116): the window base, table entries, the cartridge and LOAD. -/

namespace Sys2Proof.Machine

/-! ### Table entries -/

/-- The codes below 22 are not reserved (30_encoding.md R85). -/
theorem regionOfCode_lt {b : Byte} (h : b.toNat < 22) : ∃ r, Region.ofCode b = some r := by
  unfold Region.ofCode
  generalize b.toNat = code at h
  interval_cases code <;> exact ⟨_, rfl⟩

/-- A REMAP with an allowed code sets the entry (R113, 30_encoding.md R85). -/
theorem remap_good {s : State} {c : Cpu} {g : Byte} (why : Why) (i : Byte) (m : Word)
    (h : ¬ BadRemapCode s c g.toNat) :
    ∃ r, Region.ofCode g = some r ∧ remap why c i g m s = .ok (s.setEntry c i ⟨r, m⟩) := by
  obtain ⟨r, hr⟩ := regionOfCode_lt (Nat.lt_of_not_le fun hcode => h (.inl hcode))
  have hallowed : remapAllowed s.cart.isSome c r = true := by
    rw [regionOfCode_code hr] at h
    cases r <;> cases c <;> simp_all [BadRemapCode, Region.code, remapAllowed, Option.isSome_iff_ne_none]
  refine ⟨r, hr, ?_⟩
  simp only [remap, hr, hallowed, if_true]

/-- Settles O58: each operation sets the field it names. -/
theorem windowBaseAndEntriesAreReplaced : Obligations.WindowBaseAndEntriesAreReplaced := by
  refine fun s => ⟨fun v => rfl, fun c i g m hgood => ?_⟩
  obtain ⟨r, hr, hremap⟩ := remap_good .badRequest i m hgood
  refine ⟨s.setEntry c i ⟨r, m⟩, r, ?_, hr, ?_, fun j => ?_⟩
  · simp only [exec, execRemap, hremap, finish_ok]
  · cases c <;> rfl
  · simp only [setEntry_entry, true_and]

/-! ### The cartridge -/

/-- A power of two of at least 4 is a size that a MOUNT takes (30_encoding.md R83). -/
theorem isRegionSize_of_pow {size : Word} {k : Nat} (hk : 2 ≤ k) (h : size.toNat = 2 ^ k) :
    isRegionSize size = true := by
  have hfour : 4 ≤ size.toNat := by
    rw [h]
    exact Nat.pow_le_pow_right (n := 2) (by decide) hk
  have hone : (1 : Word) ≤ size := by
    rw [BitVec.le_def]
    exact le_trans (by decide) hfour
  have hand : size &&& (size - 1) = 0 := by
    apply BitVec.eq_of_toNat_eq
    rw [BitVec.toNat_and, BitVec.toNat_sub_of_le hone]
    exact (Nat.and_sub_one_eq_zero_iff_isPowerOfTwo (by omega)).mpr ⟨k, h⟩
  rw [isRegionSize, decide_eq_true hfour, decide_eq_true hand, Bool.and_self]

/-- A written byte is read back. -/
theorem read_writeBytes_add (m : Memory) (k i : Nat) (l : List Byte) (h : i < l.length) :
    (Memory.writeBytes m k l).read (k + i) = l[i] := by
  rw [read_writeBytes, dif_pos (by omega)]
  simp only [Nat.add_sub_cancel_left]

/-- No byte of another region has a key of the cartridge's (10_state.md R41). -/
theorem cellKey_div_ne_cartrom {r : Region} {o : Nat} (hr : r ≠ .cartrom) (ho : o < 2 ^ 32) :
    cellKey r o / 2 ^ 32 ≠ Region.cartrom.code := fun h =>
  hr (code_inj _ _ (by rw [← h, cellKey_div r o ho]))

/-- Dropping the cartridge's bytes leaves the bytes of every other region. -/
theorem read_keepCart_false {r : Region} {o : Nat} (m : Memory) (hr : r ≠ .cartrom) (ho : o < 2 ^ 32) :
    (Memory.keepCart m false).read (cellKey r o) = m.read (cellKey r o) := by
  refine read_filter m _ _ fun _ => ?_
  simp only [decide_eq_false (cellKey_div_ne_cartrom hr ho), BEq.rfl]

theorem mountCart_mem (size : Word) (bytes : List Byte) (s : State) :
    (mountCart size bytes s).mem = (Memory.keepCart s.mem false).writeBytes (cellKey .cartrom 0) bytes := rfl

/-- The cartridge holds the mounted bytes (R114). -/
theorem mountCart_byte_cartrom (size : Word) (s : State) {bytes : List Byte} {o : Nat} (h : o < bytes.length) :
    (mountCart size bytes s).byte .cartrom o = bytes[o] := by
  rw [← read_writeBytes_add (Memory.keepCart s.mem false) (cellKey .cartrom 0) o bytes h, ← cellKey_add, Nat.zero_add,
    ← mountCart_mem, State.byte]

/-- A MOUNT leaves the bytes of every other region (R114). -/
theorem mountCart_byte_other (size : Word) (s : State) {bytes : List Byte} {r : Region} {o : Nat} (hr : r ≠ .cartrom)
    (ho : o < 2 ^ 32) (hl : bytes.length < 2 ^ 32) : (mountCart size bytes s).byte r o = s.byte r o := by
  have hout : ¬ (cellKey .cartrom 0 ≤ cellKey r o ∧ cellKey r o < cellKey .cartrom 0 + bytes.length) := by
    have hdiv := cellKey_div_ne_cartrom hr ho
    have hkey : cellKey .cartrom 0 = Region.cartrom.code * 2 ^ 32 := rfl
    omega
  rw [State.byte, State.byte, ← read_keepCart_false s.mem hr ho, mountCart_mem, read_writeBytes, dif_neg hout]

theorem modSide_eq_self {s : State} {c : Cpu} {f : CpuSide → CpuSide} (h : f (s.side c) = s.side c) :
    s.modSide c f = s := by
  rw [State.modSide, h, setSide_self]

/-- A change of the tables of both parts changes nothing else. -/
theorem modSide_both_frame (s : State) {f : CpuSide → CpuSide} (hf : ∀ p, f p = { p with table := (f p).table }) :
    (s.modSide .c0 f).modSide .c1 f =
      { s with
        cpu0 := { s.cpu0 with table := (f s.cpu0).table }, cpu1 := { s.cpu1 with table := (f s.cpu1).table } } := by
  rw [← hf, ← hf]
  rfl

/-- The cartridge, the memory and the two tables are all that a MOUNT changes (R114). -/
theorem mountCart_frame (size : Word) (bytes : List Byte) (s : State) :
    mountCart size bytes s = { s with
      mem := (mountCart size bytes s).mem, cart := some size
      cpu0 := { s.cpu0 with table := (mountCart size bytes s).cpu0.table }
      cpu1 := { s.cpu1 with table := (mountCart size bytes s).cpu1.table } } :=
  modSide_both_frame _ (f := pointCartSlots (cartEntry size)) fun p => by rw [pointCartSlots]

/-- UNMOUNT turns the entries that name the cartridge into sinks (R115). -/
theorem unmountCart_entry (s : State) (c : Cpu) (i : Byte) :
    (unmountCart s).entry c i = if (s.entry c i).region = .cartrom then ⟨.sink, 0⟩ else s.entry c i := by
  rw [unmountCart, entry_modSide_both]
  change ((s.side c).table.map _)[i.toFin.val] = _
  rw [Vector.getElem_map]
  rfl

/-- A table that names no cartridge stays (R115). -/
theorem unpointCart_eq_self {p : CpuSide} (h : ∀ i : Fin 256, p.table[i].region ≠ .cartrom) : unpointCart p = p := by
  have htable : (p.table.map fun e => if e.region = .cartrom then sinkEntry else e) = p.table := by
    apply Vector.ext
    intro i hi
    rw [Vector.getElem_map]
    exact if_neg (h ⟨i, hi⟩)
  rw [unpointCart, htable]

/-- With no cartridge mounted no byte of one is listed (10_state.md R41). -/
theorem keepCart_eq_self {s : State} (hcart : s.cart = none) (h : CellsInside s) :
    Memory.keepCart s.mem false = s.mem := by
  refine List.filter_eq_self.mpr fun x hx => ?_
  obtain ⟨r, size, o, hsize, ho, hkey⟩ := h x hx
  have hlt := regionSize_le _ _ _ _ hsize
  have hr : r ≠ .cartrom := by
    rintro rfl
    rw [hcart] at hsize
    cases hsize
  simp only [hkey, decide_eq_false (cellKey_div_ne_cartrom hr (ho.trans hlt)), BEq.rfl]

/-- With no cartridge mounted no entry names one (30_encoding.md R85). -/
theorem entry_ne_cartrom {s : State} (hcart : s.cart = none) (h : TableOk s) (c : Cpu) (i : Fin 256) :
    (s.side c).table[i].region ≠ .cartrom := by
  intro hr
  have hallowed := h c (BitVec.ofFin i)
  rw [show s.entry c (BitVec.ofFin i) = (s.side c).table[i] from rfl, hr, hcart] at hallowed
  cases hallowed

/-- UNMOUNT with no cartridge mounted changes nothing (R115). -/
theorem unmountCart_eq_self {s : State} (hcart : s.cart = none) (htable : TableOk s) (hcells : CellsInside s) :
    unmountCart s = s := by
  have hside : ∀ c, unpointCart (s.side c) = s.side c := fun c => unpointCart_eq_self (entry_ne_cartrom hcart htable c)
  have hmain : { s with cart := none, mem := Memory.keepCart s.mem false } = s := by
    rw [keepCart_eq_self hcart hcells, ← hcart]
  rw [unmountCart, hmain, modSide_eq_self (hside .c0), modSide_eq_self (hside .c1)]

/-- Settles O59: both operations by their entries and their bytes. -/
theorem mountAndUnmountMoveTheCartridge : Obligations.MountAndUnmountMoveTheCartridge := by
  constructor
  · intro s size bytes k hk hsize hlen
    have hl : bytes.length = size.toNat := hlen.trans hsize.symm
    have hlt := size.isLt
    refine ⟨mountCart size bytes s, ?_, mountCart_frame size bytes s, fun c i => ?_,
      fun o h => mountCart_byte_cartrom size s h, fun r o hr ho => mountCart_byte_other size s hr ho (by omega)⟩
    · simp only [exec, execMount, isRegionSize_of_pow hk hsize, hl, decide_true, Bool.and_self, if_true]
    · rw [mountCart, entry_modSide_both]
      exact setEntries_getElem (cartEntry size) 0x20 (s.side c).table 0x80 i.toFin
  · intro s
    exact ⟨unmountCart s, rfl, rfl, unmountCart_entry s, fun r o hr ho => read_keepCart_false s.mem hr ho,
      unmountCart_eq_self⟩

/-! ### LOAD -/

/-- A region that has bytes may be loaded, unless it is a raw register block (30_encoding.md R86). -/
theorem loadAllowed_of_regionSize {g : BusConfig} {cart : Option Word} {r : Region} {size : Nat}
    (hsize : regionSize g cart r = some size) (h0 : r ≠ .io0) (h1 : r ≠ .io1) : loadAllowed cart.isSome r = true := by
  cases r
  case sink => cases hsize
  case io0 => exact absurd rfl h0
  case io1 => exact absurd rfl h1
  case cartrom =>
    obtain ⟨w, rfl, -⟩ := Option.map_eq_some_iff.mp hsize
    rfl
  all_goals rfl

/-- A LOAD that fits is one run of byte writes (R116). -/
theorem loadBytes_fits {s : State} {g : Byte} {r : Region} {size : Nat} {o : Word} {bytes : List Byte}
    (hr : Region.ofCode g = some r) (h0 : r ≠ .io0) (h1 : r ≠ .io1)
    (hsize : regionSize s.config s.cart r = some size) (hfit : o.toNat + bytes.length ≤ size) :
    loadBytes g o bytes s = .ok { s with mem := Memory.writeBytes s.mem (cellKey r o.toNat) bytes } := by
  simp only [loadBytes, hr, hsize, loadAllowed_of_regionSize hsize h0 h1, hfit, decide_true, Bool.and_self, if_true]

/-- Settles O60: the run of byte writes, read back inside it and outside. -/
theorem loadFillsItsRegion : Obligations.LoadFillsItsRegion := by
  intro s g o bytes r size hr h0 h1 hsize hfit
  refine ⟨{ s with mem := Memory.writeBytes s.mem (cellKey r o.toNat) bytes }, ?_, rfl, fun i hi => ?_, fun k hk => ?_⟩
  · simp only [exec, execLoad, loadBytes_fits hr h0 h1 hsize hfit, finish_ok]
  · rw [State.byte, cellKey_add]
    exact read_writeBytes_add s.mem (cellKey r o.toNat) i bytes hi
  · exact (read_writeBytes _ _ _ _).trans (dif_neg hk)

end Sys2Proof.Machine
end

section
/-! The registers of the window (41_io_dispatch.md R131): which bytes belong to one, which have a handler, and the list an
access touches. -/

namespace Sys2Proof.Machine

/-! ### Ranges -/

theorem inRanges_eq_false_iff (l : List (Nat × Nat)) (o : Nat) :
    inRanges l o = false ↔ ∀ r ∈ l, o < r.1 ∨ r.2 ≤ o := by
  simp only [inRanges, List.any_eq_false, Bool.and_eq_true, decide_eq_true_eq, not_and, Nat.not_lt]
  exact forall₂_congr fun r _ => by omega

/-! ### The bytes of a register -/

theorem LReg.size_pos (r : LReg) : 0 < r.size := by
  cases r <;> simp only [LReg.size] <;> decide

/-- Every byte of the register's row in R131 belongs to it, on this CPU. -/
abbrev OwnsBytes (c : Cpu) (r : LReg) : Prop :=
  ∀ i, i < r.size → regAt c (r.offset + i) = some r

theorem OwnsBytes.regAt {c : Cpu} {r : LReg} (h : OwnsBytes c r) {o : Nat} (hlo : r.offset ≤ o)
    (hhi : o < r.offset + r.size) : regAt c o = some r := by
  rw [← h (o - r.offset) (by omega), Nat.add_sub_cancel' hlo]

theorem OwnsBytes.touched {c : Cpu} {r : LReg} (h : OwnsBytes c r) {w : Width} {o : Nat} (hlo : r.offset ≤ o)
    (hhi : o + w.bytes ≤ r.offset + r.size) : touched c w o = [r] :=
  touched_one c w o r fun i hi => h.regAt (by omega) (by omega)

/-! ### Registers with a handler -/

/-- The registers whose write runs a handler; the others are only computed on read (R149, R156, R161, R162). -/
def LReg.hasHandler : LReg → Bool
  | .ipcFifoRecv | .cardData | .divCnt | .divResult | .divRemResult | .sqrtCnt | .sqrtResult => false
  | _ => true

theorem handle_of_not_hasHandler (exe : Exe) (c : Cpu) (o : Nat) (w : Width) (v : Word) {r : LReg} (s : State)
    (h : r.hasHandler = false) : handle exe c o w v r s = .ok s := by
  cases r <;> first | rfl | cases h

/-- The register of a byte has a handler exactly in the ranges of the registers with one. -/
theorem regAt_hasHandler (c : Cpu) (o : Nat) :
    (regAt c o).any LReg.hasHandler = true ↔ inRanges (handlerRanges c) o = true := by
  cases c
  all_goals
    simp only [inRanges, handlerRanges, List.any_cons, List.any_nil, Bool.or_eq_true, Bool.and_eq_true,
      decide_eq_true_eq, Bool.false_eq_true, or_false, regAt, displayAt, dmaTimerAt, systemAt, mainAt, highAt]
    with_reducible
      repeat' refine any_ite_iff (fun _ => ?_) (fun _ => ?_)
    all_goals first
      | exact iff_of_true rfl (by omega)
      | exact iff_of_false Bool.false_ne_true (by omega)

/-! ### The list of the touched registers -/

/-- Whether the `n` bytes at `o` meet the register (R132). -/
def LReg.overlaps (o n : Nat) (r : LReg) : Bool :=
  decide (r.offset < o + n) && decide (o < r.offset + r.size)

theorem overlaps_iff {o n : Nat} {r : LReg} :
    r.overlaps o n = true ↔ r.offset < o + n ∧ o < r.offset + r.size := by
  simp only [LReg.overlaps, Bool.and_eq_true, decide_eq_true_eq]

/-- Without its repetitions a list whose offsets rise or repeat rises. -/
theorem dropRepeats_rises {l : List LReg} (h : l.Pairwise fun a b => a = b ∨ a.offset < b.offset) :
    (dropRepeats l).Pairwise fun a b => a.offset < b.offset := by
  induction l using dropRepeats.induct with
  | case1 => exact .nil
  | case2 => exact List.pairwise_singleton _ _
  | case3 x l ih =>
    rw [dropRepeats, if_pos rfl]
    exact ih (List.pairwise_cons.mp h).2
  | case4 x y l hne ih =>
    obtain ⟨hx, htail⟩ := List.pairwise_cons.mp h
    rw [dropRepeats, if_neg hne]
    refine List.pairwise_cons.mpr ⟨fun z hz => ?_, ih htail⟩
    have hxy := (hx y List.mem_cons_self).resolve_left hne
    rcases List.mem_cons.mp ((mem_dropRepeats _ z).mp hz) with rfl | hz
    · exact hxy
    · rcases (List.pairwise_cons.mp htail).1 z hz with rfl | hyz
      · exact hxy
      · exact hxy.trans hyz

/-- Where registers own their bytes, ascending bytes belong to registers with rising or repeated offsets. -/
theorem regsOf_rise {c : Cpu} (n : Nat) : ∀ o, (∀ i, i < n → ∀ r, regAt c (o + i) = some r → OwnsBytes c r) →
    (regsOf c o n).Pairwise fun a b => a = b ∨ a.offset < b.offset := by
  induction n with
  | zero => exact fun _ _ => .nil
  | succ n ih =>
    intro o h
    have htail := ih (o + 1) fun i hi r hr => h (i + 1) (by omega) r (by rw [← hr]; congr 1; omega)
    rw [regsOf]
    split
    · exact htail
    · next r hr =>
      refine List.pairwise_cons.mpr ⟨fun q hq => ?_, htail⟩
      obtain ⟨i, hi, hreg⟩ := mem_regsOf c (o + 1) n q hq
      have howns := h (i + 1) (by omega) q (by rw [← hreg]; congr 1; omega)
      have hrin := regAt_holds c o r hr
      have hqin := regAt_holds c _ q hreg
      rcases Nat.lt_or_ge r.offset q.offset with hlt | hge
      · exact .inr hlt
      · exact .inl (Option.some.inj (hr.symm.trans (howns.regAt (by omega) (by omega))))

/-- Two lists of registers with rising offsets and the same members are equal. -/
theorem eq_of_rises {l m : List LReg} (hl : l.Pairwise fun a b => a.offset < b.offset)
    (hm : m.Pairwise fun a b => a.offset < b.offset) (h : ∀ r, r ∈ l ↔ r ∈ m) : l = m := by
  have hirrefl : Std.Irrefl fun a b : LReg => a.offset < b.offset := ⟨fun _ => Nat.lt_irrefl _⟩
  have hantisymm : Std.Antisymm fun a b : LReg => a.offset < b.offset :=
    ⟨fun _ _ hab hba => absurd hab (Nat.lt_asymm hba)⟩
  exact hl.eq_of_mem_iff hm h

/-- Where the bytes of an access belong to registers of a list with rising offsets, the access touches those of the list
that it overlaps, in the list's order (41_io_dispatch.md R130, R132). -/
theorem touched_eq_filter {c : Cpu} {w : Width} {o : Nat} {l : List LReg}
    (hrise : l.Pairwise fun a b => a.offset < b.offset) (howns : ∀ r ∈ l, OwnsBytes c r)
    (hmem : ∀ i, i < w.bytes → ∀ r, regAt c (o + i) = some r → r ∈ l) :
    touched c w o = l.filter (LReg.overlaps o w.bytes) := by
  refine eq_of_rises (dropRepeats_rises (regsOf_rise _ o fun i hi r hr => howns r (hmem i hi r hr)))
    (hrise.filter _) fun r => ?_
  rw [List.mem_filter, overlaps_iff]
  constructor
  · intro hr
    obtain ⟨i, hi, hreg⟩ := mem_touched c w o r hr
    have hin := regAt_holds c _ r hreg
    exact ⟨hmem i hi r hreg, by omega, by omega⟩
  · rintro ⟨hr, hlo, hhi⟩
    have hpos := r.size_pos
    have hw := width_bytes_pos w
    exact touched_of_regAt c w o (max o r.offset - o) r (by omega) ((howns r hr).regAt (by omega) (by omega))

end Sys2Proof.Machine
end

section
/-! Reads of the register window (41_io_dispatch.md R135): stored bytes, computed registers and collaborators' answers. -/

namespace Sys2Proof.Machine

/-! ### Stored bytes -/

/-- A read that touches no computed register answers the raw bytes. -/
theorem ioRead_stored {c : Cpu} {o : Nat} {w : Width} (s : State) (h : Avoids (computedRanges c) o w.bytes) :
    ioRead c o w s = (BitVec.ofNat 32 (bytesValue w.bytes fun k => s.ioByte c (o + k)), s) := by
  have hnone : ∀ r ∈ touched c w o, computedRead c r s = none := by
    have hcomputed := mt (touchesComputed_iff c o w s).mp (not_not.mpr h)
    simpa only [touchesComputed, List.any_eq_true, not_exists, not_and, Bool.not_eq_true, Option.isSome_eq_false_iff,
      Option.isNone_iff_eq_none] using hcomputed
  rw [ioRead, readRegs_none c o _ s _ hnone, readBytes_eq, bytesValue]
  simp only [State.ioByte, State.byte, cellKey_add]

/-- Settles O24: nothing is overlaid on the raw bytes. -/
theorem storedRegistersReadTheirBytes : Obligations.StoredRegistersReadTheirBytes := by
  intro s i c o w hreach havoids
  rw [(reaches_read hreach).1, ioRead_stored s havoids]
  rfl

/-! ### One computed register -/

/-- What an overlay leaves of each byte. -/
theorem overlay_map (r : LReg) (v n : Nat) : ∀ (o : Nat) (f : Nat → Byte),
    overlay r v o ((List.range n).map f) = (List.range n).map fun k =>
      if r.offset ≤ o + k ∧ o + k < r.offset + r.size then byteAt v (o + k - r.offset) else f k := by
  induction n with
  | zero => exact fun _ _ => rfl
  | succ n ih =>
    intro o f
    simp only [List.range_succ_eq_map, List.map_cons, List.map_map, overlay, Nat.add_zero]
    refine congrArg _ ((ih (o + 1) (f ∘ Nat.succ)).trans (List.map_congr_left fun k _ => ?_))
    simp only [Function.comp, Nat.succ_eq_add_one, show o + 1 + k = o + (k + 1) by omega]

theorem overlay_idem (r : LReg) (v o n : Nat) (f : Nat → Byte) :
    overlay r v o (overlay r v o ((List.range n).map f)) = overlay r v o ((List.range n).map f) := by
  rw [overlay_map, overlay_map]
  refine List.map_congr_left fun k _ => ?_
  split <;> rfl

/-- Reading a register again, or registers without a computed read, changes no byte. -/
theorem readRegs_again {c : Cpu} {r : LReg} {s : State} {v o : Nat} {bs : List Byte}
    (hv : computedRead c r s = some (v, s)) (hbs : overlay r v o bs = bs) : ∀ l : List LReg,
    (∀ q ∈ l, q = r ∨ computedRead c q s = none) → readRegs c o l bs s = (bs, s) := by
  intro l
  induction l with
  | nil => exact fun _ => rfl
  | cons q l ih =>
    intro hother
    have htail := ih fun p hp => hother p (List.mem_cons_of_mem _ hp)
    rcases hother q List.mem_cons_self with rfl | hnone
    · simp only [readRegs, hv, hbs, htail]
    · simp only [readRegs, hnone, htail]

/-- The only computed register among those touched overlays its bytes. -/
theorem readRegs_only {c : Cpu} {r : LReg} {s : State} {v o n : Nat} {f : Nat → Byte}
    (hv : computedRead c r s = some (v, s)) : ∀ l : List LReg, r ∈ l →
    (∀ q ∈ l, q = r ∨ computedRead c q s = none) →
    readRegs c o l ((List.range n).map f) s = (overlay r v o ((List.range n).map f), s) := by
  intro l
  induction l with
  | nil => exact fun h => absurd h List.not_mem_nil
  | cons q l ih =>
    intro hr hother
    have htail := fun p hp => hother p (List.mem_cons_of_mem q hp)
    rcases hother q List.mem_cons_self with rfl | hnone
    · simp only [readRegs, hv]
      exact readRegs_again hv (overlay_idem q v o n f) l htail
    · have hne : r ≠ q := fun h => by rw [← h, hv] at hnone; cases hnone
      simp only [readRegs, hnone]
      exact ih ((List.mem_cons.mp hr).resolve_left hne) htail

/-- A read whose bytes lie in one computed register, which has no effect, or in no computed register at all. -/
theorem ioRead_overlaid {c : Cpu} {o : Nat} {w : Width} {r : LReg} {s : State} {v : Nat} (howns : OwnsBytes c r)
    (hv : computedRead c r s = some (v, s))
    (hbytes : ∀ i, i < w.bytes →
      (r.offset ≤ o + i ∧ o + i < r.offset + r.size) ∨ inRanges (computedRanges c) (o + i) = false) :
    ioRead c o w s = (BitVec.ofNat 32 (bytesValue w.bytes (overlaid s c r.offset r.size v o)), s) := by
  have hother : ∀ q ∈ touched c w o, q = r ∨ computedRead c q s = none := by
    intro q hq
    obtain ⟨i, hi, hreg⟩ := mem_touched c w o q hq
    rcases hbytes i hi with ⟨hlo, hhi⟩ | hout
    · exact .inl (Option.some.inj (hreg.symm.trans (howns.regAt hlo hhi)))
    · right
      have hcomputed := mt (regAt_computed c (o + i)).mp (Bool.eq_false_iff.mp hout)
      rw [hreg, Option.any_some, ← computedRead_isSome c q s, Option.isSome_iff_ne_none, not_not] at hcomputed
      exact hcomputed
  have hread : Memory.readBytes s.mem (cellKey (ioRegion c) o) w.bytes =
      (List.range w.bytes).map fun k => s.ioByte c (o + k) := by
    simp only [readBytes_eq, State.ioByte, State.byte, cellKey_add]
  rw [ioRead, hread, bytesValue]
  by_cases hr : r ∈ touched c w o
  · rw [readRegs_only hv _ hr hother, overlay_map]
    rfl
  · have hnone : ∀ q ∈ touched c w o, computedRead c q s = none := fun q hq =>
      (hother q hq).resolve_left fun h => hr (h ▸ hq)
    rw [readRegs_none c o _ s _ hnone]
    have hout : ∀ i, i < w.bytes → ¬ (r.offset ≤ o + i ∧ o + i < r.offset + r.size) := fun i hi hin =>
      hr (touched_of_regAt c w o i r hi (howns.regAt hin.1 hin.2))
    refine congrArg (fun l => (BitVec.ofNat 32 (leValue l), s)) (List.map_congr_left fun i hi => ?_)
    rw [overlaid, if_neg (hout i (List.mem_range.mp hi))]

/-- A read of the word whose low half is a computed register without an effect and whose high half is stored. -/
theorem reaches_read_lowHalf {s : State} {i : Instr} {c : Cpu} {o : Nat} {w : Width} {r : LReg} {v : Nat}
    (hreach : Reaches s i c o (.read w)) (howns : OwnsBytes c r) (hhalf : r.offset % 4 = 0 ∧ r.size = 2)
    (hstored : ∀ k, k < 2 → inRanges (computedRanges c) (r.offset + 2 + k) = false)
    (hv : computedRead c r s = some (v, s)) (hlo : r.offset ≤ o) (hhi : o < r.offset + 4) :
    exec i s = .next (s.answer (replyOf w.bytes (overlaid s c r.offset r.size v o))) := by
  obtain ⟨hexec, ha, -⟩ := reaches_read hreach
  have hend := aligned_within ha hhalf.1 hlo hhi
  have hbytes : ∀ i, i < w.bytes →
      (r.offset ≤ o + i ∧ o + i < r.offset + r.size) ∨ inRanges (computedRanges c) (o + i) = false := by
    intro i hi
    rcases Nat.lt_or_ge (o + i) (r.offset + 2) with hlow | hhigh
    · exact .inl ⟨by omega, by omega⟩
    · right
      rw [← hstored (o + i - (r.offset + 2)) (by omega), Nat.add_sub_cancel' hhigh]
  rw [hexec, ioRead_overlaid howns hv hbytes]
  rfl

/-! ### Collaborators -/

/-- The aligned bytes of an access that begins in a register of whole words lie in it. -/
theorem aligned_inside {w : Width} {o base size : Nat} (ha : o % w.bytes = 0) (hbase : base % 4 = 0)
    (hsize : size % 4 = 0) (hhi : o < base + size) : o + w.bytes ≤ base + size := by
  rcases width_bytes_cases w with hw | hw | hw <;> rw [hw] at ha ⊢ <;> omega

/-- A read inside a computed register of whole words answers the addressed lanes of its value, after its effect. -/
theorem reaches_read_inside {s : State} {i : Instr} {c : Cpu} {o : Nat} {w : Width} {r : LReg} {x : Nat × State}
    (hreach : Reaches s i c o (.read w)) (howns : OwnsBytes c r) (hwords : r.offset % 4 = 0 ∧ r.size % 4 = 0)
    (hx : computedRead c r s = some x) (hlo : r.offset ≤ o) (hhi : o < r.offset + r.size) :
    exec i s = .next (x.2.answer (replyOf w.bytes fun k => byteAt x.1 (o - r.offset + k))) := by
  obtain ⟨hexec, ha, -⟩ := reaches_read hreach
  have hend := aligned_inside ha hwords.1 hwords.2 hhi
  rw [hexec, ioRead_computed (howns.touched hlo hend) hlo hend hx]
  rfl

/-- Settles O33: each of the four registers asks its collaborator for one word. -/
theorem collaboratorReadsReturnTheAnswer : Obligations.CollaboratorReadsReturnTheAnswer := by
  intro s i c o w hreach base k hk hlo hhi
  rcases hk with ⟨rfl, rfl, rfl⟩ | ⟨rfl, rfl, rfl⟩ | ⟨rfl, rfl⟩ | ⟨rfl, rfl⟩
  · exact reaches_read_inside (r := .dispCapCnt) hreach (by decide) (by decide) rfl hlo hhi
  · exact reaches_read_inside (r := .gxStat) hreach (by decide) (by decide) rfl hlo hhi
  · exact reaches_read_inside (r := .romCtrl) hreach (by cases c <;> decide) (by decide) rfl hlo hhi
  · exact reaches_read_inside (r := .cardData) hreach (by cases c <;> decide) (by decide) rfl hlo hhi

/-! ### The divider and the square root (R155 to R161) -/

theorem raw_one (s : State) (c : Cpu) (o : Nat) : s.raw c o 1 = (s.ioByte c o).toNat := by
  rw [raw_eq]
  rfl

theorem divMode_eq (s : State) : divMode s = divModeOf s := by
  rw [divMode, divModeOf, raw_one]

theorem divide_eq (s : State) : divide s = dividerAnswer s := by
  simp only [divide, dividerAnswer, divNumerator, divDenominator, numeratorOf, denominatorOf, divMode_eq, raw_eq, sext64]

theorem divCntValue_eq (s : State) :
    divCntValue s = (s.ioByte .c0 0x280).toNat % 4 +
      if (bytesValue 8 fun j => s.ioByte .c0 (0x298 + j)) = 0 then 2 ^ 14 else 0 := by
  rw [divCntValue, divMode_eq, divModeOf, BitVec.toNat_ofNat, divZero, raw_eq, bitNat]
  split <;> simp_all

/-- Settles O34: DIVCNT is overlaid on the raw bytes; the results answer their own lanes. -/
theorem dividerReadsAreComputedFromTheInputs : Obligations.DividerReadsAreComputedFromTheInputs := by
  intro s i o w hreach
  rw [← divCntValue_eq, ← divide_eq]
  exact ⟨reaches_read_lowHalf (r := .divCnt) hreach (by decide) (by decide) (by decide) rfl,
    reaches_read_inside (r := .divResult) hreach (by decide) (by decide) rfl,
    reaches_read_inside (r := .divRemResult) hreach (by decide) (by decide) rfl⟩

theorem sqrtMode_eq (s : State) : sqrtMode s = BitVec.ofNat 1 (s.ioByte .c0 0x2B0).toNat := by
  rw [sqrtMode, raw_one]

theorem sqrtMode_toNat (s : State) : (sqrtMode s).toNat = (s.ioByte .c0 0x2B0).toNat % 2 := by
  rw [sqrtMode_eq, BitVec.toNat_ofNat, Nat.pow_one]

theorem zext64_ofNat (x : Nat) : zext64 (BitVec.ofNat 32 x) = BitVec.ofNat 64 (x % 2 ^ 32) := by
  apply BitVec.eq_of_toNat_eq
  simp only [zext64, BitVec.zeroExtend_eq_setWidth, BitVec.toNat_setWidth, BitVec.toNat_ofNat]

theorem sqrtInput_eq (s : State) :
    sqrtInput s = radicandOf (sqrtMode s) (bytesValue 8 fun j => s.ioByte .c0 (0x2B8 + j)) := by
  rw [sqrtInput, radicandOf, raw_eq, zext64_ofNat]

/-- Settles O35: SQRTCNT is overlaid on the raw bytes; the result answers its own lanes. -/
theorem squareRootReadsAreComputedFromTheInput : Obligations.SquareRootReadsAreComputedFromTheInput := by
  intro s i o w hreach
  rw [← sqrtMode_toNat, ← sqrtMode_eq, ← sqrtInput_eq]
  exact ⟨reaches_read_lowHalf (r := .sqrtCnt) hreach (by decide) (by decide) (by decide) rfl,
    reaches_read_inside (r := .sqrtResult) hreach (by decide) (by decide) rfl⟩

end Sys2Proof.Machine
end

section
/-! Writes of the register window (41_io_dispatch.md R133, R134): the verbatim store alone, and the handlers that hand a
value to a collaborator. -/

namespace Sys2Proof.Machine

/-! ### The verbatim store (R133) -/

/-- Settles O23: the store is one write of the raw block. -/
theorem verbatimStorePutsTheWrittenBytes : Obligations.VerbatimStorePutsTheWrittenBytes := fun s c o w v =>
  ⟨rfl, regionWrite_holds s (ioRegion c) o w.bytes v.toNat, setRaw_sameOutside s c o w.bytes v.toNat⟩

theorem forEach_same {α : Type} {f : α → State → Res} {s : State} (l : List α) (h : ∀ x ∈ l, f x s = .ok s) :
    forEach f l s = .ok s := by
  induction l with
  | nil => rfl
  | cons x l ih =>
    rw [forEach_cons, h x List.mem_cons_self, andThen_ok]
    exact ih fun y hy => h y (List.mem_cons_of_mem _ hy)

/-- A write that runs what it touches, from the verbatim store on. -/
theorem reaches_write_stored {s : State} {i : Instr} {c : Cpu} {o : Nat} {w : Width} {v : Word}
    (h : Reaches s i c o (.write w v)) :
    exec i s = finish s (forEach (handle execute c o w (truncTo w v)) (touched c w o) (stored c o w v s)) := by
  rw [(reaches_write h).1, ioWrite_eq, onRegisterWrite]

/-- Settles O25: no touched register has a handler. -/
theorem writesWithoutHandlerOnlyStore : Obligations.WritesWithoutHandlerOnlyStore := by
  intro s i c o w v hreach havoids
  have hnone : ∀ r ∈ touched c w o, r.hasHandler = false := by
    intro r hr
    obtain ⟨k, hk, hreg⟩ := mem_touched c w o r hr
    have hhandler := mt (regAt_hasHandler c (o + k)).mp (Bool.eq_false_iff.mp (havoids k hk))
    rwa [hreg, Option.any_some, Bool.not_eq_true] at hhandler
  rw [reaches_write_stored hreach,
    forEach_same _ fun r hr => handle_of_not_hasHandler execute c o w _ _ (hnone r hr), finish_ok]

/-- Settles O26: the write only stores, and the read answers the raw bytes. -/
theorem pureStorageRoundTrip : Obligations.PureStorageRoundTrip := by
  intro s i j c o w v hreach hhandler hcomputed
  obtain ⟨hmem, hholds, hframe⟩ := verbatimStorePutsTheWrittenBytes s c o w v
  refine ⟨stored c o w v s, writesWithoutHandlerOnlyStore s i c o w v hreach hhandler, hmem, hholds, hframe,
    fun hread => ?_⟩
  have hbytes : ∀ k, k < w.bytes → (stored c o w v s).ioByte c (o + k) = byteAt v.toNat k := hholds
  rw [storedRegistersReadTheirBytes _ j c o w hread hcomputed, replyOf_congr hbytes]

/-! ### One call for each touched register -/

/-- Handlers that only log a call of their merged value log one each, in order. -/
theorem forEach_logs_merged {exe : Exe} {c : Cpu} {o : Nat} {w : Width} {v : Word} {call : LReg → Nat → Call}
    (l : List LReg) : ∀ b : State,
    (∀ r ∈ l, ∀ s, handle exe c o w v r s = .ok (s.logCall (call r (mergedValue s c r)))) →
    forEach (handle exe c o w v) l b = .ok { b with log := b.log ++ l.map fun r => call r (mergedValue b c r) } := by
  induction l with
  | nil => intro b _; simp only [forEach_nil, List.map_nil, List.append_nil]
  | cons r l ih =>
    intro b h
    rw [forEach_cons, h r List.mem_cons_self, andThen_ok, ih _ fun q hq => h q (List.mem_cons_of_mem _ hq)]
    simp only [State.logCall, List.map_cons, List.append_assoc, List.singleton_append]
    rfl

/-- The forwarded registers of an engine, in ascending order (R140, R141, R143). -/
def engineRegs (g : Engine) : List LReg :=
  [.dispCnt g, .bgCnt g 0, .bgCnt g 1, .bgCnt g 2, .bgCnt g 3, .winBounds g 0, .winBounds g 1, .winBounds g 2,
    .winBounds g 3, .winMask g 0, .winMask g 1, .bldCnt g, .bldAlpha g, .bldY g]

/-- The forwarded display registers of CPU0, in ascending order. -/
def displayRegs : List LReg :=
  engineRegs .a ++ .dispCapCnt :: engineRegs .b

/-- The call a display register forwards of a merged value; the last case is DISPCAPCNT's, and no other register is asked
for. -/
def displayCall : LReg → Nat → Call
  | .dispCnt g, v => .setDisplayControl g (BitVec.ofNat 32 v)
  | .bgCnt g n, v => .setBackgroundControl g n (BitVec.ofNat 16 v)
  | .winBounds g k, v => .setWindowBounds g k (BitVec.ofNat 16 v)
  | .winMask g k, v => .setWindowMask g k (BitVec.ofNat 16 v)
  | .bldCnt g, v => .setBlendControl g (BitVec.ofNat 16 v)
  | .bldAlpha g, v => .setBlendAlpha g (BitVec.ofNat 16 v)
  | .bldY g, v => .setBlendBrightness g (BitVec.ofNat 16 v)
  | _, v => .setCaptureControl (BitVec.ofNat 32 v)

/-- The rows of the statement are the registers with their offsets, sizes and calls. -/
theorem displayRows_eq : displayRows = displayRegs.map fun r => (r.offset, r.size, displayCall r) := rfl

theorem displayRegs_rise : displayRegs.Pairwise fun a b => a.offset < b.offset := by decide

theorem displayRegs_own : ∀ r ∈ displayRegs, OwnsBytes .c0 r := by decide

theorem handle_engine (exe : Exe) (o : Nat) (w : Width) (v : Word) (g : Engine) : ∀ r ∈ engineRegs g, ∀ s,
    handle exe .c0 o w v r s = .ok (s.logCall (displayCall r (mergedValue s .c0 r))) := by
  simp only [engineRegs, List.forall_mem_cons, List.not_mem_nil, false_implies, handle, displayCall, implies_true,
    and_true]

theorem handle_display (exe : Exe) (o : Nat) (w : Width) (v : Word) : ∀ r ∈ displayRegs, ∀ s,
    handle exe .c0 o w v r s = .ok (s.logCall (displayCall r (mergedValue s .c0 r))) :=
  List.forall_mem_append.mpr ⟨handle_engine exe o w v .a,
    List.forall_mem_cons.mpr ⟨fun _ => rfl, handle_engine exe o w v .b⟩⟩

/-- A register found by a bound on the offset is found on one side of the bound. -/
theorem ite_some_elim {p : Prop} [Decidable p] {a b : Option LReg} {r : LReg} {q : Prop} (ha : a = some r → q)
    (hb : b = some r → q) : (if p then a else b) = some r → q := by
  split
  · exact ha
  · exact hb

theorem displayAt_mem {g : Engine} {k : Nat} {r : LReg} (h : displayAt g k = some r) : r ∈ engineRegs g := by
  have hbg : ∀ n, .bgCnt g n ∈ engineRegs g := by cases g <;> decide
  have hbounds : ∀ n, .winBounds g n ∈ engineRegs g := by cases g <;> decide
  have hmask : ∀ n, .winMask g n ∈ engineRegs g := by cases g <;> decide
  have hblend : .bldCnt g ∈ engineRegs g ∧ .bldAlpha g ∈ engineRegs g ∧ .bldY g ∈ engineRegs g := by
    cases g <;> decide
  revert h
  unfold displayAt
  with_reducible
    repeat' refine ite_some_elim ?_ ?_
  all_goals
    intro h
    cases h
  exacts [List.mem_cons_self, hbg _, hbounds _, hmask _, hblend.1, hblend.2.1, hblend.2.2]

/-- The registers of the display ranges of CPU0 are the forwarded ones. -/
theorem regAt_display {o : Nat} {r : LReg} (ho : o < 0x70 ∨ 0x1000 ≤ o ∧ o < 0x1070) (h : regAt .c0 o = some r) :
    r ∈ displayRegs := by
  have hmain : o < 0x240 → mainAt o = none := fun hlt => if_pos hlt
  simp only [regAt] at h
  split_ifs at h
  · omega
  · omega
  · omega
  · exact List.mem_append_left _ (displayAt_mem h)
  · cases h
    exact List.mem_append_right _ List.mem_cons_self
  · rw [hmain (by omega)] at h
    cases h
  · exact List.mem_append_right _ (List.mem_cons_of_mem _ (displayAt_mem h))

theorem touched_display {w : Width} {o : Nat} (ha : o % w.bytes = 0) (ho : o < 0x70 ∨ 0x1000 ≤ o ∧ o < 0x1070) :
    touched .c0 w o = displayRegs.filter (LReg.overlaps o w.bytes) :=
  touched_eq_filter displayRegs_rise displayRegs_own fun i hi _ => regAt_display (by
    rcases width_bytes_cases w with hw | hw | hw <;> rw [hw] at ha hi <;> omega)

theorem displayCalls_eq (s : State) (o : Nat) (w : Width) (v : Word) :
    displayCalls s o w v = (displayRegs.filter (LReg.overlaps o w.bytes)).map fun r =>
      displayCall r (mergedValue (stored .c0 o w v s) .c0 r) := by
  simp only [displayCalls, displayRows_eq, List.filter_map, List.map_map, mergedValue_stored]
  rfl

/-- Settles O27: the touched registers are the overlapped rows, and each logs its call. -/
theorem displayWritesForwardMergedValues : Obligations.DisplayWritesForwardMergedValues := by
  intro s i o w v hreach ho
  rw [reaches_write_stored hreach, touched_display (reaches_write hreach).2.1 ho,
    forEach_logs_merged _ _ fun r hr => handle_display _ _ _ _ r (List.mem_filter.mp hr).1, finish_ok, displayCalls_eq]
  rfl

/-! ### One call for the whole write -/

/-- A write inside a register of whole words that only logs a call stores and logs it. -/
theorem reaches_write_logs {s : State} {i : Instr} {c : Cpu} {o : Nat} {w : Width} {v : Word} {r : LReg} {k : Call}
    (hreach : Reaches s i c o (.write w v)) (howns : OwnsBytes c r) (hwords : r.offset % 4 = 0 ∧ r.size % 4 = 0)
    (hlo : r.offset ≤ o) (hhi : o < r.offset + r.size)
    (hk : handle execute c o w (truncTo w v) r (stored c o w v s) = .ok ((stored c o w v s).logCall k)) :
    exec i s = .next { stored c o w v s with log := s.log ++ [k] } := by
  have hend := aligned_inside (reaches_write hreach).2.1 hwords.1 hwords.2 hhi
  rw [reaches_write_one r hreach fun j hj => howns.regAt (by omega) (by omega), hk, finish_ok]
  rfl

/-- Between the interrupt latch and engine B only the main registers of CPU0 are left. -/
theorem regAt_mainAt {o : Nat} (hlo : 0x218 ≤ o) (hhi : o < 0x1000) : regAt .c0 o = mainAt o := by
  simp (disch := omega) only [regAt, if_neg, if_pos]

theorem geomPort_own (k : Fin 128) : OwnsBytes .c0 (.geomPort k) := by
  intro j hj
  have hk := k.isLt
  have hindex : Fin.ofNat 128 ((0x400 + 4 * k.val + j - 0x400) / 4) = k := by
    apply Fin.ext
    simp only [LReg.size, Fin.ofNat] at hj ⊢
    omega
  simp only [LReg.size, LReg.offset] at hj ⊢
  rw [regAt_mainAt (by omega) (by omega)]
  simp (disch := omega) only [mainAt, if_neg, if_pos, hindex]

/-- Settles O28: the register of the word at the offset is a command port, or GXSTAT. -/
theorem geometryWritesForwardTheMergedWord : Obligations.GeometryWritesForwardTheMergedWord := by
  intro s i o w v hreach hlo hhi
  rcases Nat.lt_or_ge o 0x600 with hport | hstat
  · obtain ⟨k, hk⟩ : ∃ k : Fin 128, (LReg.geomPort k).offset = o / 4 * 4 :=
      ⟨⟨(o - 0x400) / 4, by omega⟩, by simp only [LReg.offset]; omega⟩
    refine reaches_write_logs (r := .geomPort k) hreach (geomPort_own k) (by simp [hk, LReg.size])
      (by omega) (by simp only [LReg.size]; omega) ?_
    rw [handle, mergedValue_stored, hk]
    rfl
  · have hbase : o / 4 * 4 = 0x600 := by omega
    rw [hbase]
    refine reaches_write_logs (r := .gxStat) hreach (by decide) (by decide) hstat hhi ?_
    rw [handle, mergedValue_stored]
    rfl

theorem sound_own : OwnsBytes .c1 .sound := by
  intro j hj
  simp only [LReg.size, LReg.offset] at hj ⊢
  simp (disch := omega) only [regAt, if_neg, if_pos]

theorem truncTo_idem (w : Width) (v : Word) : truncTo w (truncTo w v) = truncTo w v := by
  apply BitVec.eq_of_toNat_eq
  rw [truncTo_toNat, truncTo_toNat, Nat.mod_mod]

/-- Settles O29: the whole range is one register, without a computed read. -/
theorem soundWritesForwardVerbatim : Obligations.SoundWritesForwardVerbatim := by
  intro s i o hlo hhi
  constructor
  · intro w v hreach
    refine reaches_write_logs (r := .sound) hreach sound_own (by decide) hlo hhi ?_
    rw [handle, truncTo_idem]
    rfl
  · intro w hreach
    refine storedRegistersReadTheirBytes s i .c1 o w hreach fun k hk => ?_
    have hw := width_bytes_le w
    rw [inRanges_eq_false_iff]
    simp only [computedRanges, List.forall_mem_cons, List.not_mem_nil, false_implies, implies_true, and_true]
    omega

/-- Settles O31: the command bytes lie outside the store. -/
theorem romControlWritesPassTheCommand : Obligations.RomControlWritesPassTheCommand := by
  intro s i c o w v hreach hlo hhi
  refine reaches_write_logs (r := .romCtrl) hreach (by cases c <;> decide) (by decide) hlo hhi ?_
  have hend := aligned_within (reaches_write hreach).2.1 (by decide) hlo hhi
  have hcommand : (stored c o w v s).raw c 0x1A8 8 = s.raw c 0x1A8 8 := raw_setRaw_disjoint _ _ _ _ _ _ _ (.inr hend)
  simp only [handle, mergedValue_stored, hcommand, raw_eq s]
  rfl

end Sys2Proof.Machine
end

section
/-! Writes of the backup port (41_io_dispatch.md R147) and of the map control (R151), whose handlers use answers. -/

namespace Sys2Proof.Machine

/-! ### The backup port (R147) -/

theorem backup_own (c : Cpu) : ∀ r ∈ [LReg.auxSpiCnt, .auxSpiData], OwnsBytes c r := by cases c <;> decide

theorem regAt_backup {c : Cpu} {o : Nat} {r : LReg} (hlo : 0x1A0 ≤ o) (hhi : o < 0x1A4) (h : regAt c o = some r) :
    r ∈ [LReg.auxSpiCnt, .auxSpiData] := by
  rcases Nat.lt_or_ge o 0x1A2 with hcnt | hdata
  · rw [(backup_own c .auxSpiCnt (by decide)).regAt hlo hcnt] at h
    cases h
    decide
  · rw [(backup_own c .auxSpiData (by decide)).regAt hdata hhi] at h
    cases h
    decide

theorem forEach_filter_cons {α : Type} (f : α → State → Res) (p : α → Bool) (x : α) (l : List α) (s : State) :
    forEach f ((x :: l).filter p) s = andThen (if p x then f x s else .ok s) (forEach f (l.filter p)) := by
  rw [List.filter_cons]
  split <;> rfl

/-- The control half of a write of the port: it forwards the merged value where it is touched. -/
def backupForwarded (o merged : Nat) (b : State) : State :=
  { b with log := b.log ++ if o < 0x1A2 then [.backupControl (BitVec.ofNat 16 merged)] else [] }

/-- A write of the port runs the control half, then the data half where it is touched. -/
theorem reaches_write_backup {s : State} {i : Instr} {c : Cpu} {o : Nat} {w : Width} {v : Word}
    (hreach : Reaches s i c o (.write w v)) (hlo : 0x1A0 ≤ o) (hhi : o < 0x1A4) :
    let b := backupForwarded o (mergedBytes s c 0x1A0 2 o w v) (stored c o w v s)
    exec i s = .next (if 0x1A2 < o + w.bytes then writeSpiData c o w b else b) := by
  have hend := aligned_within (reaches_write hreach).2.1 (by decide) hlo hhi
  have htouched : touched c w o = [LReg.auxSpiCnt, .auxSpiData].filter (LReg.overlaps o w.bytes) :=
    touched_eq_filter (by decide) (backup_own c) fun k hk _ => regAt_backup (by omega) (by omega)
  have hcnt : LReg.auxSpiCnt.overlaps o w.bytes = true ↔ o < 0x1A2 := by
    have hw := width_bytes_pos w
    rw [overlaps_iff]
    simp only [LReg.offset, LReg.size]
    omega
  have hdata : LReg.auxSpiData.overlaps o w.bytes = true ↔ 0x1A2 < o + w.bytes := by
    rw [overlaps_iff]
    simp only [LReg.offset, LReg.size]
    omega
  have hforward : (if LReg.auxSpiCnt.overlaps o w.bytes then
      handle execute c o w (truncTo w v) .auxSpiCnt (stored c o w v s) else .ok (stored c o w v s)) =
      .ok (backupForwarded o (mergedBytes s c 0x1A0 2 o w v) (stored c o w v s)) := by
    simp only [hcnt, backupForwarded]
    split
    · rw [handle, mergedValue_stored]
      rfl
    · rw [List.append_nil]
  rw [reaches_write_stored hreach, htouched, forEach_filter_cons, hforward, andThen_ok, forEach_filter_cons]
  simp only [hdata]
  split <;> rfl

theorem inBytes_one_iff (r : Region) (o k : Nat) : inBytes r o 1 k ↔ k = cellKey r o := by
  simp only [inBytes]
  omega

/-- The data half transfers the low byte where it is written, stores the answer, and clears the high byte. -/
theorem writeSpiData_effect {c : Cpu} {o : Nat} {w : Width} {b : State} {low : Byte}
    (hlow : (decide (o ≤ 0x1A2) && decide (0x1A2 < o + w.bytes)) = true → b.ioByte c 0x1A2 = low) :
    let sent : Bool := decide (o ≤ 0x1A2) && decide (0x1A2 < o + w.bytes)
    let t := writeSpiData c o w b
    t = { b with
      mem := t.mem
      log := b.log ++ if sent then [.transfer low (Config.answer8 b.draws)] else []
      draws := if sent then b.draws + 1 else b.draws } ∧
    (sent = true → t.ioByte c 0x1A2 = Config.answer8 b.draws) ∧ t.ioByte c 0x1A3 = 0 ∧
    SameOutside b t fun k =>
      (sent = true ∧ k = cellKey (ioRegion c) 0x1A2) ∨ k = cellKey (ioRegion c) 0x1A3 := by
  intro sent t
  have ht : t = (if sent then
      (b.logDraw (.transfer (b.ioByte c 0x1A2) (Config.answer8 b.draws))).setRaw c 0x1A2 1 (Config.answer8 b.draws).toNat
      else b).setRaw c 0x1A3 1 0 := by
    simp only [t, writeSpiData, callTransfer, raw_one, BitVec.ofNat_toNat, BitVec.setWidth_eq]
    rfl
  change sent = true → _ at hlow
  clear_value sent
  rw [ht]
  cases sent with
  | false =>
    refine ⟨?_, fun h => absurd h Bool.false_ne_true, ?_, fun k hk => ?_⟩
    · simp only [Bool.false_eq_true, if_false, List.append_nil]
      rfl
    · rw [ioByte_setRaw]
      rfl
    · exact setRaw_sameOutside b c 0x1A3 1 0 k fun h => hk (.inr ((inBytes_one_iff _ _ _).mp h))
  | true =>
    refine ⟨by rw [hlow rfl]; rfl, fun _ => ?_, ?_, fun k hk => ?_⟩
    · rw [ioByte_setRaw, if_neg (by omega), if_pos rfl, ioByte_setRaw, if_pos (by omega), byteAt]
      simp
    · rw [ioByte_setRaw]
      rfl
    · exact (setRaw_sameOutside _ c 0x1A3 1 0 k fun h => hk (.inr ((inBytes_one_iff _ _ _).mp h))).trans
        (setRaw_sameOutside _ c 0x1A2 1 _ k fun h => hk (.inl ⟨rfl, (inBytes_one_iff _ _ _).mp h⟩))

/-- Settles O30: the control half, then the data half, on the verbatim store. -/
theorem backupPortTransfersTheLowByte : Obligations.BackupPortTransfersTheLowByte := by
  intro s i c o w v hreach hlo hhi sent
  have hexec := reaches_write_backup hreach hlo hhi
  simp only at hexec
  by_cases hdata : 0x1A2 < o + w.bytes
  · rw [if_pos hdata] at hexec
    have hlow : sent = true → (stored c o w v s).ioByte c 0x1A2 = byteAt v.toNat (0x1A2 - o) := fun h => by
      rw [stored, ioByte_setRaw, if_pos ⟨of_decide_eq_true (Bool.and_eq_true_iff.mp h).1, hdata⟩]
    obtain ⟨hstate, hanswer, hhigh, hframe⟩ := writeSpiData_effect
      (b := backupForwarded o (mergedBytes s c 0x1A0 2 o w v) (stored c o w v s)) hlow
    exact ⟨_, hexec, hstate, hanswer, fun _ => hhigh, fun k h1 h2 =>
      hframe k fun h => h.elim h1 fun h => h2 ⟨hdata, h⟩⟩
  · rw [if_neg hdata] at hexec
    have hsent : sent = false := by simp only [sent, hdata, decide_false, Bool.and_false]
    refine ⟨_, hexec, ?_, fun h => ?_, fun h => absurd h hdata, fun _ _ _ => rfl⟩
    · simp only [hsent, Bool.false_eq_true, if_false, List.append_nil]
      rfl
    · rw [hsent] at h
      cases h

/-! ### The map control (R151) -/

theorem validRepoint_iff (s : State) (p : Repoint) :
    validRepoint s.cart.isSome p = true ↔ ¬ BadRemapCode s p.cpu p.region.toNat := by
  have hreserved : p.region.toNat ≤ 21 ↔ ¬ 22 ≤ p.region.toNat := by omega
  simp only [validRepoint, BadRemapCode, Bool.and_eq_true, Bool.or_eq_true, decide_eq_true_eq,
    Option.isSome_iff_ne_none, hreserved]
  cases p.cpu <;> simp only [reduceCtorEq] <;> tauto

/-- A re-point is applied where it is a valid REMAP, and refused elsewhere (30_encoding.md R85). -/
theorem applyRepoint_eq (p : Repoint) (s : State) :
    applyRepoint p s = if validRepoint s.cart.isSome p then .ok (repointed s p) else refuse .badRemap s := by
  by_cases hbad : BadRemapCode s p.cpu p.region.toNat
  · rw [if_neg fun h => (validRepoint_iff s p).mp h hbad]
    exact remap_bad .badRemap p.index p.mask hbad
  · obtain ⟨r, hr, hremap⟩ := remap_good .badRemap p.index p.mask hbad
    rw [if_pos ((validRepoint_iff s p).mpr hbad), repointed, hr]
    exact hremap

theorem repointed_cart (s : State) (p : Repoint) : (repointed s p).cart = s.cart := setEntry_cart _ _ _ _

theorem repointed_draws (s : State) (p : Repoint) : (repointed s p).draws = s.draws := setEntry_draws _ _ _ _

theorem foldl_repointed_cart (l : List Repoint) : ∀ s : State, (l.foldl repointed s).cart = s.cart := by
  induction l with
  | nil => exact fun _ => rfl
  | cons p l ih => exact fun s => (ih _).trans (repointed_cart s p)

theorem foldl_repointed_draws (l : List Repoint) : ∀ s : State, (l.foldl repointed s).draws = s.draws := by
  induction l with
  | nil => exact fun _ => rfl
  | cons p l ih => exact fun s => (ih _).trans (repointed_draws s p)

/-- An answer is applied in order, or refused at its first invalid re-point. -/
theorem forEach_applyRepoint (l : List Repoint) : ∀ s : State,
    forEach applyRepoint l s =
      if l.all fun p => validRepoint s.cart.isSome p then .ok (l.foldl repointed s) else refuse .badRemap s := by
  induction l with
  | nil => exact fun _ => rfl
  | cons p l ih =>
    intro s
    rw [forEach_cons, applyRepoint_eq]
    by_cases hp : validRepoint s.cart.isSome p = true
    · rw [if_pos hp, andThen_ok, ih, repointed_cart, List.all_cons, hp, Bool.true_and, List.foldl_cons, refuse,
        repointed_draws]
      rfl
    · rw [if_neg hp, List.all_cons, Bool.eq_false_iff.mpr hp]
      rfl

theorem mapConfigured_cart (s : State) (k : Nat) : (mapConfigured s k).cart = s.cart := foldl_repointed_cart _ _

theorem mapConfigured_draws (s : State) (k : Nat) : (mapConfigured s k).draws = s.draws + 1 := foldl_repointed_draws _ _

/-- One map-control byte: asked once, applied or refused. -/
theorem writeMapControl_eq (k : Nat) (s : State) :
    writeMapControl k s =
      if (Config.answerMap s.draws).all fun p => validRepoint s.cart.isSome p then .ok (mapConfigured s k)
      else .error ⟨.badRemap, s.draws + 1⟩ := by
  simp only [writeMapControl, callMapConfigure, raw_one, BitVec.ofNat_toNat, BitVec.setWidth_eq, forEach_applyRepoint]
  rfl

/-- The map-control bytes of a write in turn: all answers applied, or refused at the first that is invalid. -/
theorem forEach_writeMapControl (ks : List Nat) : ∀ s : State,
    if (List.range ks.length).all fun j =>
        (Config.answerMap (s.draws + j)).all fun p => validRepoint s.cart.isSome p then
      forEach writeMapControl ks s = .ok (ks.foldl mapConfigured s)
    else ∃ d, s.draws < d ∧ d ≤ s.draws + ks.length ∧ forEach writeMapControl ks s = .error ⟨.badRemap, d⟩ := by
  induction ks with
  | nil => exact fun _ => rfl
  | cons k ks ih =>
    intro s
    rw [forEach_cons, writeMapControl_eq, List.length_cons, List.range_succ_eq_map, List.all_cons, List.all_map,
      Nat.add_zero]
    by_cases hk : ((Config.answerMap s.draws).all fun p => validRepoint s.cart.isSome p) = true
    · have htail := ih (mapConfigured s k)
      rw [mapConfigured_cart, mapConfigured_draws] at htail
      have hshift : ((List.range ks.length).all fun j =>
          (Config.answerMap (s.draws + Nat.succ j)).all fun p => validRepoint s.cart.isSome p) =
          (List.range ks.length).all fun j =>
            (Config.answerMap (s.draws + 1 + j)).all fun p => validRepoint s.cart.isSome p := by
        simp only [Nat.succ_eq_add_one, Nat.add_assoc, Nat.add_comm 1]
      rw [if_pos hk, andThen_ok, hk, Bool.true_and, Function.comp_def, hshift]
      split at htail
      · next hall =>
        rw [if_pos hall]
        exact htail
      · next hall =>
        rw [if_neg hall]
        obtain ⟨d, hlt, hle, herr⟩ := htail
        exact ⟨d, by omega, by omega, herr⟩
    · rw [if_neg hk, Bool.eq_false_iff.mpr hk, Bool.false_and, if_neg Bool.false_ne_true]
      exact ⟨s.draws + 1, by omega, by omega, rfl⟩

/-- The registers of the map control, in ascending order. -/
def mapRegs : List LReg :=
  (List.finRange 10).map .mapCnt

theorem mapRegs_own : ∀ r ∈ mapRegs, OwnsBytes .c0 r := by decide

theorem regAt_map {o : Nat} {r : LReg} (hlo : 0x240 ≤ o) (hhi : o < 0x280) (h : regAt .c0 o = some r) : r ∈ mapRegs := by
  rw [regAt_mainAt (by omega) (by omega), mainAt, if_neg (by omega)] at h
  rcases Nat.lt_or_ge o 0x24A with hmap | hgap
  · rw [if_pos hmap] at h
    cases h
    exact List.mem_map_of_mem (List.mem_finRange _)
  · rw [if_neg (by omega), if_pos hhi] at h
    cases h

/-- The registers of the map control that a write overlaps are its map-control bytes. -/
theorem mapRegs_overlapped (w : Width) : ∀ j < 10,
    (mapRegs.filter (LReg.overlaps (0x240 + j) w.bytes)).map LReg.offset = mapBytes (0x240 + j) w := by
  cases w <;> decide

theorem forEach_map_comp {α β : Type} (f : β → State → Res) (g : α → β) (l : List α) :
    forEach (fun x => f (g x)) l = forEach f (l.map g) := by
  induction l with
  | nil => rfl
  | cons x l ih =>
    funext s
    rw [List.map_cons, forEach_cons, forEach_cons, ih]

theorem forEach_congr {α : Type} {f g : α → State → Res} (l : List α) (h : ∀ x ∈ l, f x = g x) :
    forEach f l = forEach g l := by
  induction l with
  | nil => rfl
  | cons x l ih =>
    funext s
    rw [forEach_cons, forEach_cons, h x List.mem_cons_self, ih fun y hy => h y (List.mem_cons_of_mem _ hy)]

/-- A write of the map control asks for each of its map-control bytes in turn, from the verbatim store on. -/
theorem reaches_write_map {s : State} {i : Instr} {o : Nat} {w : Width} {v : Word}
    (hreach : Reaches s i .c0 o (.write w v)) (hlo : 0x240 ≤ o) (hhi : o < 0x24A) :
    exec i s = finish s (forEach writeMapControl (mapBytes o w) (stored .c0 o w v s)) := by
  have hw := width_bytes_le w
  have htouched : touched .c0 w o = mapRegs.filter (LReg.overlaps o w.bytes) :=
    touched_eq_filter (by decide) mapRegs_own fun k hk _ => regAt_map (by omega) (by omega)
  have hhandle : ∀ r ∈ mapRegs.filter (LReg.overlaps o w.bytes),
      handle execute .c0 o w (truncTo w v) r = writeMapControl r.offset := by
    intro r hr
    obtain ⟨k, -, rfl⟩ := List.mem_map.mp (List.mem_filter.mp hr).1
    rfl
  have hbytes := mapRegs_overlapped w (o - 0x240) (by omega)
  rw [Nat.add_sub_cancel' hlo] at hbytes
  rw [reaches_write_stored hreach, htouched, forEach_congr _ hhandle, forEach_map_comp, hbytes]

/-- Settles O32: the map-control bytes in turn, from the verbatim store on. -/
theorem mapControlAppliesTheRepoints : Obligations.MapControlAppliesTheRepoints := by
  intro s i o w v hreach hlo hhi
  have hturns := forEach_writeMapControl (mapBytes o w) (stored .c0 o w v s)
  rw [reaches_write_map hreach hlo hhi]
  rw [show (stored .c0 o w v s).draws = s.draws from rfl, show (stored .c0 o w v s).cart = s.cart from rfl] at hturns
  split at hturns
  · next hall => rw [if_pos hall, hturns, finish_ok]
  · next hall =>
    obtain ⟨d, hlt, hle, herr⟩ := hturns
    rw [if_neg hall, herr]
    exact ⟨d, hlt, hle, rfl⟩

end Sys2Proof.Machine
end

section
/-! Writes and reads of the timer registers (43_timers.md R210 to R212, R214). -/

namespace Sys2Proof.Machine

/-! ### The operation of a register, called or run by a write -/

/-- A contract call and a write into its register run the same operation, from the verbatim store of the write on. -/
theorem calls_next {s b : State} {i op : Instr} {c : Cpu} {r : LReg} {v : Nat} (f : State → State)
    (hcalls : Calls s i op c r.offset r.size v b) (howns : OwnsBytes c r) (hop : exec op s = .next (f s))
    (hhandle : ∀ o w u, mergedValue b c r = v → handle execute c o w u r b = .ok (f b)) :
    exec i s = .next (f b) := by
  rcases hcalls with ⟨rfl, rfl⟩ | ⟨o, w, u, hreach, hlo, hhi, rfl, rfl⟩
  · exact hop
  · rw [reaches_write_one r hreach fun k hk => howns.regAt (by omega) (by omega),
      hhandle o w _ (mergedValue_stored s c r o w u), finish_ok]

/-- The state an operation starts from has the parts of the CPUs that the request found. -/
theorem calls_side {s b : State} {i op : Instr} {c : Cpu} {base size v : Nat} (h : Calls s i op c base size v b)
    (d : Cpu) : b.side d = s.side d := by
  rcases h with ⟨-, rfl⟩ | ⟨o, w, u, -, -, -, -, rfl⟩
  · rfl
  · exact setRaw_side s c d o w.bytes u.toNat

theorem timer_of_side {s t : State} {c : Cpu} (h : t.side c = s.side c) (k : Fin 4) : t.timer c k = s.timer c k := by
  rw [State.timer, State.timer, h]

/-! ### Replacing a timer -/

theorem withTimer_side (s : State) (c : Cpu) (t : Fin 4) (m : Timer) :
    (withTimer s c t m).side c = { s.side c with tmr := (s.side c).tmr.set t.val m t.isLt } := setSide_side _ _ _

theorem withTimer_side_congr {s b : State} {c : Cpu} (h : b.side c = s.side c) (t : Fin 4) (m : Timer) :
    (withTimer b c t m).side c = (withTimer s c t m).side c := by
  rw [withTimer_side, withTimer_side, h]

theorem withTimer_timer (s : State) (c : Cpu) (t : Fin 4) (m : Timer) : (withTimer s c t m).timer c t = m := by
  rw [State.timer, withTimer_side]
  exact Vector.getElem_set_self t.isLt

theorem withTimer_withTimer (s : State) (c : Cpu) (t : Fin 4) (m m' : Timer) :
    withTimer (withTimer s c t m) c t m' = withTimer s c t m' := by
  rw [withTimer, withTimer_side, withTimer, setSide_setSide, Vector.set_set]
  rfl

/-- A rewrite after the CPU's part was replaced already is the rewrite alone. -/
theorem Rewrites.of_setSide {b t : State} {c : Cpu} {p q : CpuSide} {o n v : Nat}
    (h : Rewrites (b.setSide c q) t c p o n v) : Rewrites b t c p o n v := by
  obtain ⟨hstate, hbytes, hframe⟩ := h
  rw [setSide_setSide] at hstate
  exact ⟨hstate, hbytes, fun k hk => by rw [hframe k hk, setSide_mem]⟩

/-! ### The registers of a timer -/

theorem tmCntL_own (c : Cpu) : ∀ t, OwnsBytes c (.tmCntL t) := by cases c <;> decide

theorem tmCntH_own (c : Cpu) : ∀ t, OwnsBytes c (.tmCntH t) := by cases c <;> decide

/-- The high half of a timer's word is stored. -/
theorem tmCntH_stored (c : Cpu) : ∀ t : Fin 4, ∀ k < 2,
    inRanges (computedRanges c) ((LReg.tmCntL t).offset + 2 + k) = false := by
  cases c <;> decide

/-- A 32-bit access of a timer touches the reload, then the control. -/
theorem touched_timer (c : Cpu) : ∀ t : Fin 4, touched c .w32 (0x100 + 4 * t.val) = [.tmCntL t, .tmCntH t] := by
  cases c <;> decide

/-- Settles O46: the handler of the low register is `SetReload`, and its computed read is the counter. -/
theorem timerLowRegisterWritesReloadReadsCounter : Obligations.TimerLowRegisterWritesReloadReadsCounter := by
  constructor
  · intro s i c t v b hcalls
    rw [← timer_of_side (calls_side hcalls c), ← setReload_eq]
    refine calls_next (r := .tmCntL t) (setReload c t v) hcalls (tmCntL_own c t) rfl fun o w u hv => ?_
    rw [handle, hv, BitVec.ofNat_toNat, BitVec.setWidth_eq]
  · intro s i c t o w hreach hlo hhi
    exact reaches_read_lowHalf (r := .tmCntL t) hreach (tmCntL_own c t)
      ⟨by simp only [LReg.offset]; omega, rfl⟩ (tmCntH_stored c t) rfl hlo (by simp only [LReg.offset]; omega)

/-! ### The control register -/

/-- A register that the write covers takes its bytes of the value (41_io_dispatch.md R134). -/
theorem mergedBytes_covered (s : State) (c : Cpu) {base size o : Nat} {w : Width} (v : Word) (hlo : o ≤ base)
    (hhi : base + size ≤ o + w.bytes) :
    mergedBytes s c base size o w v = v.toNat / 2 ^ (8 * (base - o)) % 256 ^ size := by
  rw [← bytesValue_byteAt_mod]
  refine bytesValue_congr _ _ _ fun i hi => ?_
  rw [if_pos ⟨by omega, by omega⟩, byteAt_div]
  congr 1
  omega

/-- The reload of a 32-bit write of a timer. -/
theorem mergedBytes_reload (s : State) (c : Cpu) (t : Fin 4) (v : Word) :
    BitVec.ofNat 16 (mergedBytes s c (0x100 + 4 * t.val) 2 (0x100 + 4 * t.val) .w32 v) = v.setWidth 16 := by
  rw [mergedBytes_covered s c v (by omega) (by simp only [Width.bytes]; omega), Nat.sub_self]
  bv_omega

/-- The control of a 32-bit write of a timer. -/
theorem mergedBytes_control (s : State) (c : Cpu) (t : Fin 4) (v : Word) :
    BitVec.ofNat 16 (mergedBytes s c (0x102 + 4 * t.val) 2 (0x100 + 4 * t.val) .w32 v) = v.extractLsb' 16 16 := by
  rw [mergedBytes_covered s c v (by omega) (by simp only [Width.bytes]; omega), Nat.add_sub_add_right]
  apply BitVec.eq_of_toNat_eq
  simp [Nat.shiftRight_eq_div_pow]

theorem mergedValue_setReload (c d : Cpu) (t : Fin 4) (v : Half) (r : LReg) (s : State) :
    mergedValue (setReload c t v s) d r = mergedValue s d r := raw_of_mem _ _ (modTimer_mem _ _ _ _) _ _ _

/-- A 32-bit write of a timer is `SetReload` of its lower half, then `SetControl` of its upper half (R132). -/
theorem reaches_write_timer {s : State} {i : Instr} {c : Cpu} {t : Fin 4} {v : Word}
    (hreach : Reaches s i c (0x100 + 4 * t.val) (.write .w32 v)) :
    exec i s = .next (setControl c t (v.extractLsb' 16 16)
      (setReload c t (v.setWidth 16) (stored c (0x100 + 4 * t.val) .w32 v s))) := by
  rw [reaches_write_stored hreach, touched_timer]
  simp only [forEach_cons, forEach_nil, handle, andThen_ok, finish_ok, mergedValue_setReload, mergedValue_stored,
    LReg.offset, LReg.size, mergedBytes_reload, mergedBytes_control]

/-- Settles O47: the handler of the control is `SetControl`, and in a 32-bit write `SetReload` runs before it. -/
theorem controlWritesLoadOnTheEnableEdge : Obligations.ControlWritesLoadOnTheEnableEdge := by
  constructor
  · intro s i c t v b hcalls
    have hside := calls_side hcalls c
    refine ⟨setControl c t v b, ?_, ?_⟩
    · refine calls_next (r := .tmCntH t) (setControl c t v) hcalls (tmCntH_own c t) rfl fun o w u hv => ?_
      rw [handle, hv, BitVec.ofNat_toNat, BitVec.setWidth_eq]
    · rw [← withTimer_side_congr hside, ← timer_of_side hside]
      exact setControl_rewrites c t v b
  · intro s i c t v hreach
    have hside : (stored c (0x100 + 4 * t.val) .w32 v s).side c = s.side c := setRaw_side _ _ _ _ _ _
    refine ⟨_, reaches_write_timer hreach, ?_⟩
    rw [← withTimer_side_congr hside, ← timer_of_side hside]
    have h := setControl_rewrites c t (v.extractLsb' 16 16)
      (setReload c t (v.setWidth 16) (stored c (0x100 + 4 * t.val) .w32 v s))
    rw [setReload_eq, withTimer_timer, withTimer_withTimer] at h
    exact h.of_setSide

end Sys2Proof.Machine
end

section
/-! TICK (43_timers.md R213): one cycle of one timer, one cycle of the four, and sums of cycles. -/

namespace Sys2Proof.Machine

/-! ### Whether a timer counts -/

section
variable {m : Timer} {t : Fin 4} {k : Bool}

theorem Timer.count_stopped (h : m.enabled = false) : m.count t k = (false, m.acc) := by
  simp [Timer.count, h]

theorem Timer.count_cascaded (h : m.enabled = true) (ht : 1 ≤ t.val) (hc : m.cascade = true) :
    m.count t k = (k, m.acc) := by
  simp [Timer.count, h, ht, hc]

/-- A timer that does not cascade counts its prescaler up. -/
theorem Timer.count_own (h : m.enabled = true) (hc : t.val = 0 ∨ m.cascade = false) :
    m.count t k = if prescale m.presc ≤ m.acc + 1 then (true, 0) else (false, m.acc + 1) := by
  have hown : (decide (1 ≤ t.val) && m.cascade) = false := by
    rcases hc with hc | hc
    · rw [hc]
      rfl
    · rw [hc, Bool.and_false]
  simp [Timer.count, h, hown]

theorem Timer.count_waiting (h : m.enabled = true) (hc : t.val = 0 ∨ m.cascade = false)
    (hp : m.acc + 1 < prescale m.presc) : m.count t k = (false, m.acc + 1) := by
  rw [Timer.count_own h hc, if_neg (BitVec.not_le.mpr hp)]

theorem Timer.count_elapsed (h : m.enabled = true) (hc : t.val = 0 ∨ m.cascade = false)
    (hp : prescale m.presc ≤ m.acc + 1) : m.count t k = (true, 0) := by
  rw [Timer.count_own h hc, if_pos hp]

/-- An enabled timer counts for the overflow below or for its full prescaler. -/
theorem Timer.count_true (h : m.enabled = true)
    (hcounts : (1 ≤ t.val ∧ m.cascade = true ∧ k = true) ∨
      ((t.val = 0 ∨ m.cascade = false) ∧ prescale m.presc ≤ m.acc + 1)) : (m.count t k).1 = true := by
  rcases hcounts with ⟨ht, hc, hk⟩ | ⟨hc, hp⟩
  · rw [Timer.count_cascaded h ht hc, hk]
  · rw [Timer.count_elapsed h hc hp]

/-! ### One timer -/

theorem Timer.cycle_idle (h : (m.count t k).1 = false) :
    (m.cycle t k).2.counter = m.counter ∧ (m.cycle t k).1 = false := by
  simp [Timer.cycle, h]

theorem Timer.cycle_step (h : (m.count t k).1 = true) (hc : m.counter ≠ 0xFFFF) :
    (m.cycle t k).2.counter = m.counter + 1 ∧ (m.cycle t k).1 = false := by
  rw [Timer.cycle, if_neg (by rw [h]; decide), if_neg hc]
  exact ⟨rfl, rfl⟩

theorem Timer.cycle_wrap (h : (m.count t k).1 = true) (hc : m.counter = 0xFFFF) :
    (m.cycle t k).2.counter = m.reload ∧ (m.cycle t k).1 = true := by
  rw [Timer.cycle, if_neg (by rw [h]; decide), if_pos hc]
  exact ⟨rfl, rfl⟩

/-- A cycle changes the counter and the accumulator of a timer only. -/
theorem Timer.cycle_eq (m : Timer) (t : Fin 4) (k : Bool) :
    (m.cycle t k).2 = { m with counter := (m.cycle t k).2.counter, acc := (m.count t k).2 } := by
  unfold Timer.cycle
  dsimp only
  split
  · rfl
  · split <;> rfl

theorem Timer.cycle_acc (m : Timer) (t : Fin 4) (k : Bool) : (m.cycle t k).2.acc = (m.count t k).2 := by
  rw [Timer.cycle_eq]

/-- The timer after a cycle is as R213 says. -/
theorem timerCycle_cycle (m : Timer) (t : Fin 4) (k : Bool) : TimerCycle t m (m.cycle t k).2 k (m.cycle t k).1 where
  fields := by
    rw [Timer.cycle_eq]
    exact ⟨rfl, rfl, rfl, rfl, rfl⟩
  stopped h := by
    have hcount := Timer.count_stopped (t := t) (k := k) h
    obtain ⟨hcounter, hover⟩ := Timer.cycle_idle (congrArg Prod.fst hcount)
    exact ⟨hcounter, by rw [Timer.cycle_acc, hcount], hover⟩
  cascaded h ht hc := by
    have hcount := Timer.count_cascaded (k := k) h ht hc
    exact ⟨by rw [Timer.cycle_acc, hcount], fun hk => Timer.cycle_idle ((congrArg Prod.fst hcount).trans hk)⟩
  waiting h hc hp := by
    have hcount := Timer.count_waiting (k := k) h hc hp
    exact ⟨by rw [Timer.cycle_acc, hcount], Timer.cycle_idle (congrArg Prod.fst hcount)⟩
  elapsed h hc hp := by rw [Timer.cycle_acc, Timer.count_elapsed h hc hp]
  counts h hcounts := Timer.cycle_step (Timer.count_true h hcounts)
  wraps h hcounts := Timer.cycle_wrap (Timer.count_true h hcounts)

end

/-! ### One timer in the state -/

theorem latchedIf_withTmr (k : Bool) (p : CpuSide) (b : Nat) (x : Vector Timer 4) :
    latchedIf k { p with tmr := x } b = { latchedIf k p b with tmr := x } := by
  cases k <;> rfl

theorem latchedIf_tmr (k : Bool) (p : CpuSide) (b : Nat) : (latchedIf k p b).tmr = p.tmr := by cases k <;> rfl

theorem raiseIf_side (k : Bool) (c : Cpu) (b : Nat) (s : State) :
    (raiseIf k c b s).side c = latchedIf k (s.side c) b := by
  cases k with
  | false => rfl
  | true => exact (setIF_rewrites c _ s).side

theorem raiseIf_timer (k : Bool) (c : Cpu) (b : Nat) (s : State) (t : Fin 4) :
    (raiseIf k c b s).timer c t = s.timer c t := by
  rw [State.timer, State.timer, raiseIf_side, latchedIf_tmr]

theorem tickTimer_timer (c : Cpu) (t j : Fin 4) (k : Bool) (s : State) :
    (tickTimer c t k s).2.timer c j = if j = t then ((s.timer c t).cycle t k).2 else s.timer c j := by
  simp only [tickTimer, raiseIf_timer, modTimer_timer, true_and]

/-- From `s` to `t`: CPU `c`'s part becomes `p` but for its timers, its raw IF bytes show IF where `k` holds, and
nothing else changes. -/
structure TimersRan (s t : State) (c : Cpu) (p : CpuSide) (k : Bool) : Prop where
  state : t = { s.setSide c { p with tmr := (t.side c).tmr } with mem := t.mem }
  shown : IfShown k t c
  frame : SameOutside s t (ifBytes k c)

theorem TimersRan.refl (s : State) (c : Cpu) : TimersRan s s c (s.side c) false :=
  ⟨by cases c <;> rfl, fun h => (Bool.false_ne_true h).elim, fun _ _ => rfl⟩

/-- Changing a timer keeps it. -/
theorem TimersRan.modTimer {s u : State} {c : Cpu} {p : CpuSide} {k : Bool} (h : TimersRan s u c p k) (t : Fin 4)
    (f : Timer → Timer) : TimersRan s (u.modTimer c t f) c p k := by
  obtain ⟨hstate, hshown, hframe⟩ := h
  refine ⟨?_, fun hk i hi => ?_, fun x hx => ?_⟩
  · rw [State.modTimer, modSide_side, hstate]
    cases c <;> rfl
  · rw [modTimer_side_iflag, State.byte, modTimer_mem]
    exact hshown hk i hi
  · rw [modTimer_mem]
    exact hframe x hx

/-- Raising an interrupt latches it. -/
theorem TimersRan.raiseIf {s u : State} {c : Cpu} {p : CpuSide} {k : Bool} (h : TimersRan s u c p k) (k' : Bool)
    (b : Nat) : TimersRan s (raiseIf k' c b u) c (latchedIf k' p b) (k || k') := by
  obtain ⟨hstate, hshown, hframe⟩ := raiseIf_more h.state h.shown h.frame k' b
  refine ⟨?_, hshown, hframe⟩
  rw [raiseIf_side, latchedIf_tmr, ← latchedIf_withTmr]
  exact hstate

/-- The turn of a timer that is still as `s` has it: its cycle, the other timers kept, and its interrupt where it
overflows and asks for it. -/
theorem TimersRan.turn {s u : State} {c : Cpu} {p : CpuSide} {k carry : Bool} {t : Fin 4} {r : Bool × State}
    (h : TimersRan s u c p k) (hr : tickTimer c t carry u = r) (hold : u.timer c t = s.timer c t) :
    TimerCycle t (s.timer c t) (r.2.timer c t) carry r.1 ∧
    (∀ j, j ≠ t → r.2.timer c j = u.timer c j) ∧
    TimersRan s r.2 c (latchedIf (r.1 && (s.timer c t).irq) p (3 + t.val)) (k || r.1 && (s.timer c t).irq) := by
  subst hr
  rw [← hold]
  refine ⟨?_, fun j hj => ?_, (h.modTimer t _).raiseIf _ _⟩
  · rw [tickTimer_timer, if_pos rfl]
    exact timerCycle_cycle _ _ _
  · rw [tickTimer_timer, if_neg hj]

/-! ### One cycle of the four -/

/-- The four turns that TICK of one cycle takes, each from the state and the carry the one before left. -/
theorem exec_tick_one (c : Cpu) (s : State) : ∃ r0 r1 r2 r3 : Bool × State,
    tickTimer c 0 false s = r0 ∧ tickTimer c 1 r0.1 r0.2 = r1 ∧ tickTimer c 2 r1.1 r1.2 = r2 ∧
    tickTimer c 3 r2.1 r2.2 = r3 ∧
    exec (.tick c 1) s = .next (r3.2.answer (.overflows (if r0.1 then 1 else 0) (if r1.1 then 1 else 0)
      (if r2.1 then 1 else 0) (if r3.1 then 1 else 0))) :=
  ⟨_, _, _, _, rfl, rfl, rfl, rfl, rfl⟩

/-- Settles O48: each turn finds its timer as it was before the cycle, and later turns keep it as it left it. -/
theorem oneCycleCountsEachTimer : Obligations.OneCycleCountsEachTimer := by
  intro s c
  obtain ⟨r0, r1, r2, r3, hr0, hr1, hr2, hr3, hexec⟩ := exec_tick_one c s
  obtain ⟨hcycle0, hkeep0, hran0⟩ := (TimersRan.refl s c).turn hr0 rfl
  obtain ⟨hcycle1, hkeep1, hran1⟩ := hran0.turn hr1 (hkeep0 1 (by decide))
  obtain ⟨hcycle2, hkeep2, hran2⟩ := hran1.turn hr2 (by rw [hkeep1 2 (by decide), hkeep0 2 (by decide)])
  obtain ⟨hcycle3, hkeep3, hran3⟩ := hran2.turn hr3
    (by rw [hkeep2 3 (by decide), hkeep1 3 (by decide), hkeep0 3 (by decide)])
  refine ⟨_, r0.1, r1.1, r2.1, r3.1, hexec, ?_, ?_, ?_, hcycle3, ?_, ?_, hran3.frame⟩
  · rwa [answer_timer, hkeep3 0 (by decide), hkeep2 0 (by decide), hkeep1 0 (by decide)]
  · rwa [answer_timer, hkeep3 1 (by decide), hkeep2 1 (by decide)]
  · rwa [answer_timer, hkeep3 2 (by decide)]
  · simp only [latchedIf_withTmr, answer_side]
    exact congrArg (State.answer · _) hran3.state
  · intro hany
    rw [answer_side]
    exact hran3.shown hany

/-! ### Sums of cycles -/

/-- The counts of two runs added. -/
def Overflows.add (a b : Overflows) : Overflows :=
  ⟨a.o0 + b.o0, a.o1 + b.o1, a.o2 + b.o2, a.o3 + b.o3⟩

theorem addOverflow_add (a b : Word) (k : Bool) : addOverflow (a + b) k = a + addOverflow b k := by
  cases k with
  | false => rfl
  | true => exact BitVec.add_assoc a b 1

/-- The counts a run starts from are added to those it finds. -/
theorem tickCycle_add (c : Cpu) (a b : Overflows) (s : State) :
    tickCycle c (a.add b) s = (a.add (tickCycle c b s).1, (tickCycle c b s).2) := by
  simp only [tickCycle, Overflows.add, addOverflow_add]

theorem tickLoop_add (c : Cpu) (n : Nat) : ∀ (a b : Overflows) (s : State),
    tickLoop c n (a.add b) s = (a.add (tickLoop c n b s).1, (tickLoop c n b s).2) := by
  induction n with
  | zero => exact fun _ _ _ => rfl
  | succ n ih => exact fun a b s => by rw [tickLoop, tickCycle_add, ih, tickLoop]

theorem Overflows.add_zeros (a : Overflows) : a.add ⟨0, 0, 0, 0⟩ = a := by
  simp only [Overflows.add, add_zero]

/-- A run of a sum of cycles is one run after the other. -/
theorem tickLoop_sum (c : Cpu) (m n : Nat) : ∀ (o : Overflows) (s : State),
    tickLoop c (m + n) o s = tickLoop c n (tickLoop c m o s).1 (tickLoop c m o s).2 := by
  induction m with
  | zero => intro o s; rw [Nat.zero_add, tickLoop]
  | succ m ih => intro o s; rw [Nat.succ_add, tickLoop, ih, tickLoop]

theorem tickTimer_answer (c : Cpu) (t : Fin 4) (k : Bool) (s : State) (r : Reply) :
    tickTimer c t k (s.answer r) = ((tickTimer c t k s).1, (tickTimer c t k s).2.answer r) := by
  have hraise : ∀ (i : Bool) (b : Nat) (u : State), raiseIf i c b (u.answer r) = (raiseIf i c b u).answer r := by
    intro i b u
    cases i <;> cases c <;> rfl
  have hmod : ∀ f, (s.answer r).modTimer c t f = (s.modTimer c t f).answer r := by
    intro f
    cases c <;> rfl
  simp only [tickTimer, answer_timer, hmod, hraise]

/-- The cycles do not read the last reply. -/
theorem tickLoop_answer (c : Cpu) (n : Nat) (r : Reply) : ∀ (o : Overflows) (s : State),
    tickLoop c n o (s.answer r) = ((tickLoop c n o s).1, (tickLoop c n o s).2.answer r) := by
  induction n with
  | zero => exact fun _ _ => rfl
  | succ n ih => exact fun o s => by simp only [tickLoop, tickCycle, tickTimer_answer, ih]

/-- `Tick` of a sum of cycles is the one after the other, the counts added. -/
theorem tick_sum (c : Cpu) {m n : Word} (s : State) (h : m.toNat + n.toNat < 2 ^ 32) :
    tick c (m + n) s = ((tick c m s).1.add (tick c n (tick c m s).2).1, (tick c n (tick c m s).2).2) := by
  rw [tick, BitVec.toNat_add_of_lt h, tickLoop_sum, ← Overflows.add_zeros (tickLoop c m.toNat _ s).1, tickLoop_add]
  rfl

theorem tick_answer (c : Cpu) (n : Word) (s : State) (r : Reply) :
    tick c n (s.answer r) = ((tick c n s).1, (tick c n s).2.answer r) := tickLoop_answer _ _ _ _ _

/-- The reply of a TICK with these counts. -/
def Overflows.reply (o : Overflows) : Reply :=
  .overflows o.o0 o.o1 o.o2 o.o3

theorem exec_tick (c : Cpu) (n : Word) (s : State) :
    exec (.tick c n) s = .next ((tick c n s).2.answer (tick c n s).1.reply) := rfl

/-- Settles O49: a run of a sum is split, and the reply in between is not read. -/
theorem ticksAddUp : Obligations.TicksAddUp := by
  intro s c
  refine ⟨rfl, fun m n hlt => ⟨_, _, _, _, _, _, _, _, _, _, exec_tick c m s, rfl, exec_tick c n _, rfl, ?_⟩⟩
  rw [exec_tick, tick_sum c s hlt, tick_answer]
  rfl

end Sys2Proof.Machine
end

section
/-! The inter-processor channel (44_ipc.md R230, R231, R235 to R240): writes of IPCSYNC, IPCFIFOCNT and IPCFIFOSEND. -/

namespace Sys2Proof.Machine

/-! ### The registers of the channel -/

theorem ipcSync_own (c : Cpu) : OwnsBytes c .ipcSync := by cases c <;> decide

theorem ipcFifoCnt_own (c : Cpu) : OwnsBytes c .ipcFifoCnt := by cases c <;> decide

theorem ipcFifoSend_own (c : Cpu) : OwnsBytes c .ipcFifoSend := by cases c <;> decide

/-- `calls_next` for an operation on a word, which the register's handler runs with the merged value. -/
theorem calls_next_word {s b : State} {i op : Instr} {c : Cpu} {r : LReg} {v : Word} (f : Word → State → State)
    (hcalls : Calls s i op c r.offset r.size v.toNat b) (howns : OwnsBytes c r) (hop : exec op s = .next (f v s))
    (hhandle : ∀ o w u, handle execute c o w u r b = .ok (f (BitVec.ofNat 32 (mergedValue b c r)) b)) :
    exec i s = .next (f v b) := by
  refine calls_next (f v) hcalls howns hop fun o w u hv => ?_
  rw [hhandle, hv, BitVec.ofNat_toNat, BitVec.setWidth_eq]

theorem calls_writeSync {s b : State} {i : Instr} {c : Cpu} {v : Word}
    (hcalls : Calls s i (.writeSync c v) c 0x180 4 v.toNat b) : exec i s = .next (writeSync c v b) :=
  calls_next_word (r := .ipcSync) (writeSync c) hcalls (ipcSync_own c) rfl fun _ _ _ => rfl

theorem calls_fifoControl {s b : State} {i : Instr} {c : Cpu} {v : Word}
    (hcalls : Calls s i (.fifoControl c v) c 0x184 4 v.toNat b) : exec i s = .next (fifoControl c v b) :=
  calls_next_word (r := .ipcFifoCnt) (fifoControl c) hcalls (ipcFifoCnt_own c) rfl fun _ _ _ => rfl

theorem calls_send {s b : State} {i : Instr} {c : Cpu} {v : Word}
    (hcalls : Calls s i (.send c v) c 0x188 4 v.toNat b) : exec i s = .next (send c v b) :=
  calls_next_word (r := .ipcFifoSend) (send c) hcalls (ipcFifoSend_own c) rfl fun _ _ _ => rfl

/-! ### The reply is kept -/

theorem raiseIf_reply (k : Bool) (c : Cpu) (b : Nat) (s : State) : (raiseIf k c b s).reply = s.reply := by
  rw [(raiseIf_effect k c b s).1]
  exact setSide_reply _ _ _

theorem setFifo_reply (c : Cpu) (q : List Word) (s : State) : (setFifo c q s).reply = s.reply := modSide_reply _ _ _

theorem fifoSettle_reply (b : FifoConditions) (s : State) : (fifoSettle b s).reply = s.reply := by
  simp only [fifoSettle, fifoIrqEdges, mirrorFifoCnt, setRaw_reply, raiseIf_reply]

theorem send_reply (c : Cpu) (v : Word) (s : State) : (send c v s).reply = s.reply := by
  rw [send, fifoSettle_reply]
  split
  · rfl
  · exact setFifo_reply _ _ _

theorem fifoControl_reply (c : Cpu) (v : Word) (s : State) : (fifoControl c v s).reply = s.reply := by
  rw [fifoControl, fifoSettle_reply]
  split <;> split <;> simp only [setFifo_reply, modSide_reply]

/-- The state an operation starts from has the reply that the request found. -/
theorem calls_reply {s b : State} {i op : Instr} {c : Cpu} {base size v : Nat} (h : Calls s i op c base size v b) :
    b.reply = s.reply := by
  rcases h with ⟨-, rfl⟩ | ⟨o, w, u, -, -, -, -, rfl⟩
  · rfl
  · exact setRaw_reply _ _ _ _ _

/-! ### The FIFOs -/

/-- Settles O52: the request is one `Send`, from the verbatim store on. -/
theorem sendAppendsOrDrops : Obligations.SendAppendsOrDrops := by
  intro s i c v b hcalls
  refine ⟨send c v b, calls_send hcalls, (send_reply c v b).trans (calls_reply hcalls), ?_⟩
  rw [← calls_side hcalls c, ← calls_side hcalls c.other]
  exact send_done c v b

/-- Settles O51: the request is one `FifoControl`, from the verbatim store on. -/
theorem fifoControlResetsTheQueues : Obligations.FifoControlResetsTheQueues := by
  intro s i c v b hcalls
  refine ⟨fifoControl c v b, calls_fifoControl hcalls, (fifoControl_reply c v b).trans (calls_reply hcalls), ?_⟩
  rw [← calls_side hcalls c, ← calls_side hcalls c.other]
  exact fifoControl_done c v b

/-! ### The bytes of a value -/

/-- Two states that hold one value at some bytes agree there. -/
theorem HoldsAt.read_eq {s t : State} {r : Region} {o n v k : Nat} (hs : HoldsAt s r o n v) (ht : HoldsAt t r o n v)
    (hk : inBytes r o n k) : Memory.read t.mem k = Memory.read s.mem k := by
  obtain ⟨hlo, hhi⟩ := hk
  have hkey : k = cellKey r (o + (k - cellKey r o)) := by rw [cellKey_add]; omega
  have h := (ht (k - cellKey r o) (by omega)).trans (hs _ (by omega)).symm
  rwa [State.byte, State.byte, ← hkey] at h

/-- A byte of the register that the write misses keeps its stored byte in the merged value (41_io_dispatch.md R134). -/
theorem byteAt_mergedBytes_missed (s : State) (c : Cpu) {base size o i : Nat} {w : Width} (v : Word) (hi : i < size)
    (h : base + i < o ∨ o + w.bytes ≤ base + i) :
    byteAt (mergedBytes s c base size o w v) i = s.ioByte c (base + i) := by
  rw [mergedBytes, byteAt_bytesValue _ _ _ hi, if_neg (by omega)]

/-! ### IPCSYNC -/

/-- Byte 1 of IPCSYNC is the payload in its low four bits and the enable in bit 6 (44_ipc.md R230). -/
theorem byteAt_encodeSync_one (s : State) (c : Cpu) :
    (byteAt (encodeSync s c) 1).toNat = (s.side c).syncOut.toNat + 2 ^ 6 * bitNat (s.side c).syncIrqEn := by
  have hmine := (s.side c).syncOut.isLt
  have hother := (s.side c.other).syncOut.isLt
  rw [byteAt_toNat, encodeSync, bitNat]
  split <;> omega

/-- Byte 1 of a word is all that `WriteSync` reads: payload, request and enable. -/
theorem sync_fields_of_byte {v : Word} {out : BitVec 4} {en : Bool}
    (h : (byteAt v.toNat 1).toNat = out.toNat + 2 ^ 6 * bitNat en) :
    v.extractLsb' 8 4 = out ∧ v.getLsbD 13 = false ∧ v.getLsbD 14 = en := by
  have hout := out.isLt
  rw [byteAt_toNat] at h
  refine ⟨BitVec.eq_of_toNat_eq ?_, ?_, ?_⟩
  · rw [BitVec.extractLsb'_toNat, Nat.shiftRight_eq_div_pow]
    omega
  · rw [BitVec.getLsbD, Nat.testBit_eq_decide_div_mod_eq, decide_eq_false_iff_not]
    omega
  · rw [BitVec.getLsbD, Nat.testBit_eq_decide_div_mod_eq, Bool.eq_iff_iff, decide_eq_true_eq]
    cases en <;> simp only [bitNat, Bool.false_eq_true, if_false, if_true, iff_false, iff_true] at h ⊢ <;> omega

/-- `WriteSync` of the current payload and enable without a request only rewrites both registers (R231). -/
theorem writeSync_current {b : State} {c : Cpu} {v : Word} (hout : v.extractLsb' 8 4 = (b.side c).syncOut)
    (hreq : v.getLsbD 13 = false) (hen : v.getLsbD 14 = (b.side c).syncIrqEn) :
    writeSync c v b = { b with mem := (writeSync c v b).mem } ∧
    (∀ d, HoldsAt (writeSync c v b) (ioRegion d) 0x180 4 (encodeSync b d)) ∧
    SameOutside b (writeSync c v b) fun k => ∃ d, inBytes (ioRegion d) 0x180 4 k := by
  obtain ⟨hstate, hmine, hother, -, hframe⟩ := writeSync_effect c v b
  simp only [hout, hreq, hen, Bool.false_and, latchedIf, Bool.false_eq_true, if_false] at hstate hmine hother hframe
  refine ⟨hstate.trans (by cases c <;> rfl), fun d => ?_, fun k hk => hframe k ?_⟩
  · rcases eq_or_other c d with rfl | rfl
    · exact hmine
    · rw [encodeSync_eq, other_other]
      exact hother
  · rintro (h | h | h)
    · exact hk ⟨c, h⟩
    · exact hk ⟨c.other, h⟩
    · exact Bool.false_ne_true h.1

/-- The raw IPCSYNC shows the payloads and the enable between two requests (10_state.md R30). -/
theorem MirrorOk.holds_sync {s : State} (h : MirrorOk s) (c : Cpu) :
    HoldsAt s (ioRegion c) 0x180 4 (encodeSync s c) := fun i hi => by
  rw [← (h c).sync, byteAt_raw s c 0x180 4 i hi]
  rfl

/-- A byte write into IPCSYNC runs `WriteSync` with the merged value. -/
theorem reaches_writeByte_sync {s : State} {i : Instr} {c : Cpu} {o : Nat} {v : Word}
    (hreach : Reaches s i c o (.write .w8 v)) (hlo : 0x180 ≤ o) (hhi : o < 0x184) :
    ∃ m : Word, m.toNat = mergedBytes s c 0x180 4 o .w8 v ∧ exec i s = .next (writeSync c m (stored c o .w8 v s)) := by
  have hm := Nat.mod_eq_of_lt (mergedBytes_lt s c 0x180 4 o .w8 v)
  exact ⟨BitVec.ofNat 32 _, hm, calls_writeSync (.inr ⟨o, .w8, v, hreach, hlo, hhi, hm, rfl⟩)⟩

/-- A byte write that misses byte 1 of IPCSYNC puts back every field and every byte (44_ipc.md R231). -/
theorem syncByteWrite_changes_nothing {s : State} {i : Instr} {c : Cpu} {o : Nat} {v : Word} (hmirror : MirrorOk s)
    (hreach : Reaches s i c o (.write .w8 v)) (hlo : 0x180 ≤ o) (hhi : o < 0x184) (hne : o ≠ 0x181) :
    ∃ t, exec i s = .next t ∧ t = { s with mem := t.mem } ∧ ∀ k, Memory.read t.mem k = Memory.read s.mem k := by
  obtain ⟨m, hm, hexec⟩ := reaches_writeByte_sync hreach hlo hhi
  have hbyte : byteAt m.toNat 1 = byteAt (encodeSync s c) 1 := by
    rw [hm, byteAt_mergedBytes_missed s c v (by decide) (by simp only [Width.bytes]; omega)]
    exact hmirror.holds_sync c 1 (by decide)
  obtain ⟨hout, hreq, hen⟩ := sync_fields_of_byte ((congrArg BitVec.toNat hbyte).trans (byteAt_encodeSync_one s c))
  have hside : (stored c o .w8 v s).side c = s.side c := setRaw_side _ _ _ _ _ _
  obtain ⟨hstate, hshown, hframe⟩ := writeSync_current (hout.trans (by rw [hside])) hreq (hen.trans (by rw [hside]))
  refine ⟨_, hexec, hstate, fun k => ?_⟩
  by_cases hk : ∃ d, inBytes (ioRegion d) 0x180 4 k
  · obtain ⟨d, hd⟩ := hk
    have hsame : encodeSync (stored c o .w8 v s) d = encodeSync s d := by
      simp only [encodeSync, stored, setRaw_side]
    exact (hmirror.holds_sync d).read_eq (hsame ▸ hshown d) hd
  · rw [hframe k hk]
    refine setRaw_sameOutside s c o _ _ k fun hin => hk ⟨c, ?_⟩
    simp only [inBytes, cellKey, Width.bytes] at hin ⊢
    omega

/-- Settles O50: a write of IPCSYNC is `WriteSync` from the verbatim store on, and only a write of byte 0x181 can hand
it a payload, a request or an enable that is not there already. -/
theorem syncWritesReachTheOtherCpu : Obligations.SyncWritesReachTheOtherCpu := by
  constructor
  · intro s i c v b hcalls
    rw [← calls_side hcalls c, ← calls_side hcalls c.other]
    exact ⟨_, calls_writeSync hcalls, writeSync_effect c v b⟩
  · intro s i c o v hmirror hreach ho
    exact syncByteWrite_changes_nothing hmirror hreach (by omega) (by omega) (by omega)

end Sys2Proof.Machine
end

section
/-! The interrupt latch (45_irq_latch.md R260 to R264): calls of its operations, and writes of IME, IE and IF. -/

namespace Sys2Proof.Machine

/-! ### The enables -/

theorem ime_own (c : Cpu) : OwnsBytes c .ime := by cases c <;> decide

theorem ie_own (c : Cpu) : OwnsBytes c .ie := by cases c <;> decide

theorem calls_setIME {s b : State} {i : Instr} {c : Cpu} {v : Word}
    (hcalls : Calls s i (.setIME c v) c 0x208 4 v.toNat b) : exec i s = .next (setIME c v b) :=
  calls_next_word (r := .ime) (setIME c) hcalls (ime_own c) rfl fun _ _ _ => rfl

theorem calls_setIE {s b : State} {i : Instr} {c : Cpu} {v : Word}
    (hcalls : Calls s i (.setIE c v) c 0x210 4 v.toNat b) : exec i s = .next (setIE c v b) :=
  calls_next_word (r := .ie) (setIE c) hcalls (ie_own c) rfl fun _ _ _ => rfl

/-- Settles O55: the request is one `SetIME` or one `SetIE`, from the verbatim store on. -/
theorem enableWritesRecomputePending : Obligations.EnableWritesRecomputePending := by
  intro s i c v b
  constructor
  · intro hcalls
    rw [← calls_side hcalls c]
    exact ⟨_, calls_setIME hcalls, setIME_rewrites c v b⟩
  · intro hcalls
    rw [← calls_side hcalls c]
    exact ⟨_, calls_setIE hcalls, setIE_rewrites c v b⟩

/-! ### Raising -/

/-- RAISEIRQ of one of the 32 bits is `SetIF` of that bit alone (R262). -/
theorem exec_raiseirq {b : Byte} (hb : b.toNat < 32) (c : Cpu) (s : State) :
    exec (.raiseirq c b) s = .next (setIF c (BitVec.ofNat 32 (2 ^ b.toNat)) s) :=
  if_pos (decide_eq_true hb)

/-- Settles O56: RAISEIRQ is a `SetIF`. -/
theorem raisingOrsIntoTheFlags : Obligations.RaisingOrsIntoTheFlags := by
  intro s i c m h
  refine ⟨setIF c m s, ?_, setIF_rewrites c m s⟩
  rcases h with rfl | ⟨b, rfl, hb, rfl⟩
  · rfl
  · exact exec_raiseirq hb c s

/-! ### The mask of a write into IF -/

/-- A lane contributes the byte written there, at the lane's place, and no other bit. -/
theorem getLsbD_laneByte (r : LReg) (o n : Nat) (v : Word) (i : Nat) {j : Nat} (hj : j < 32) :
    (laneByte r o n v i).getLsbD j =
      (laneTouched r o n i && decide (j / 8 = i) && v.getLsbD (8 * (r.offset + i - o) + j % 8)) := by
  rw [laneByte]
  cases laneTouched r o n i with
  | false => simp
  | true =>
    rw [if_pos rfl, BitVec.getLsbD_ofNat, Nat.testBit_mul_two_pow, byteAt_toNat,
      show (256 : Nat) = 2 ^ 8 from rfl, Nat.testBit_mod_two_pow, Nat.testBit_div_two_pow]
    by_cases hi : j / 8 = i
    · have hbit : j - 8 * i = j % 8 := by omega
      simp [BitVec.getLsbD, hj, hi, hbit, show 8 * i ≤ j by omega, Nat.mod_lt, Nat.add_comm]
    · rcases Nat.lt_or_ge j (8 * i) with h | h
      · simp [hi, Nat.not_le.mpr h]
      · simp [hi, show ¬ j - 8 * i < 8 by omega]

/-- Every bit of the mask comes from its own lane. -/
theorem getLsbD_laneMask (r : LReg) (o n : Nat) (v : Word) {j : Nat} (hj : j < 32) :
    (laneMask r o n v).getLsbD j =
      (laneTouched r o n (j / 8) && v.getLsbD (8 * (r.offset + j / 8 - o) + j % 8)) := by
  have hlane : j / 8 = 0 ∨ j / 8 = 1 ∨ j / 8 = 2 ∨ j / 8 = 3 := by omega
  simp only [laneMask, BitVec.getLsbD_or, getLsbD_laneByte r o n v _ hj]
  rcases hlane with h | h | h | h <;> simp [h]

theorem getLsbD_truncTo_of_ge {w : Width} {j : Nat} (v : Word) (h : 8 * w.bytes ≤ j) :
    (truncTo w v).getLsbD j = false := by
  rw [truncTo, BitVec.getLsbD_ofNat, Nat.testBit_mod_two_pow, decide_eq_false (Nat.not_lt.mpr h), Bool.false_and,
    Bool.and_false]

/-- The mask of a write is the written value at the place of its first lane (R263). -/
theorem laneMask_eq_shiftLeft {r : LReg} {o : Nat} (w : Width) (v : Word) (ho : r.offset ≤ o) :
    laneMask r o w.bytes (truncTo w v) = truncTo w v <<< (8 * (o - r.offset)) := by
  refine BitVec.eq_of_getLsbD_eq fun j hj => ?_
  rw [getLsbD_laneMask r o _ _ hj, BitVec.getLsbD_shiftLeft, decide_eq_true hj, Bool.true_and, laneTouched]
  by_cases hlo : o ≤ r.offset + j / 8
  · rw [show 8 * (r.offset + j / 8 - o) + j % 8 = j - 8 * (o - r.offset) by omega,
      decide_eq_true hlo, decide_eq_false (show ¬ j < 8 * (o - r.offset) by omega)]
    by_cases hhi : r.offset + j / 8 < o + w.bytes
    · rw [decide_eq_true hhi]
      rfl
    · rw [getLsbD_truncTo_of_ge v (by omega), Bool.and_false, Bool.and_false]
  · rw [decide_eq_false hlo, decide_eq_true (show j < 8 * (o - r.offset) by omega)]
    rfl

/-! ### Clearing -/

/-- A rewrite covers a raw write inside its bytes that came before it (conflict C3). -/
theorem Rewrites.of_setRaw {s t : State} {c : Cpu} {p : CpuSide} {o n v o' n' v' : Nat}
    (h : Rewrites (s.setRaw c o' n' v') t c p o n v) (hlo : o ≤ o') (hhi : o' + n' ≤ o + n) : Rewrites s t c p o n v := by
  obtain ⟨hstate, hbytes, hframe⟩ := h
  refine ⟨hstate.trans (by cases c <;> rfl), hbytes, ?_⟩
  refine (setRaw_sameOutside s c o' n' v').trans hframe (fun k hk => ?_) fun _ hk => hk
  simp only [inBytes, cellKey] at hk ⊢
  omega

theorem iflag_own (c : Cpu) : OwnsBytes c .iflag := by cases c <;> decide

/-- A write into IF runs `ClearIF` with the written lanes, from the verbatim store on. -/
theorem reaches_write_iflag {s : State} {i : Instr} {c : Cpu} {o : Nat} {w : Width} {v : Word}
    (hreach : Reaches s i c o (.write w v)) (hlo : 0x214 ≤ o) (hhi : o + w.bytes ≤ 0x218) :
    exec i s = .next (clearIF c (truncTo w v <<< (8 * (o - 0x214))) (stored c o w v s)) := by
  have hmask : laneMask .iflag o w.bytes (truncTo w v) = truncTo w v <<< (8 * (o - 0x214)) :=
    laneMask_eq_shiftLeft w v hlo
  rw [reaches_write_one .iflag hreach fun k hk =>
    (iflag_own c).regAt (by simp only [LReg.offset]; omega) (by simp only [LReg.offset, LReg.size]; omega)]
  simp only [handle, hmask, finish_ok]

/-- Settles O57: a write into IF is `ClearIF` of its lanes, and the raw bytes it stored are rewritten. -/
theorem clearingTakesTheWrittenLanes : Obligations.ClearingTakesTheWrittenLanes := by
  intro s i c m h
  rcases h with rfl | ⟨o, w, v, hreach, hlo, hhi, rfl⟩
  · exact ⟨clearIF c m s, rfl, clearIF_rewrites c m s⟩
  · have hend : o + w.bytes ≤ 0x214 + 4 := aligned_inside (reaches_write hreach).2.1 rfl rfl hhi
    have hside : (stored c o w v s).side c = s.side c := setRaw_side _ _ _ _ _ _
    refine ⟨_, reaches_write_iflag hreach hlo hend, ?_⟩
    rw [← hside]
    exact (clearIF_rewrites c _ (stored c o w v s)).of_setRaw hlo hend

end Sys2Proof.Machine
end

section
/-! Every request ends in a next state (60_exceptions.md R270). -/

namespace Sys2Proof.Machine

/-- An access of a register row answers, or is refused with the mark (R270, 10_state.md R47). -/
theorem regAccess_next (c : Cpu) (o : Nat) (acc : RegAccess) (s : State) : ∃ t, regAccess c o acc s = .next t := by
  cases acc with
  | read w => exact ⟨_, rfl⟩
  | write w v => exact ⟨_, rfl⟩

/-- No instruction ends in a fault or without a meaning: a refused one goes on marked (R270, R271). -/
theorem exec_next (i : Instr) (s : State) : ∃ t, exec i s = .next t := by
  cases hrow : rowAccess i with
  | some x =>
    obtain ⟨c, o, acc⟩ := x
    rw [exec_row i c o acc s hrow]
    exact regAccess_next c o acc s
  | none =>
    cases i <;> simp only [rowAccess, reduceCtorEq] at hrow
    case trigger c event =>
      change ∃ t, execTrigger c event s = .next t
      unfold execTrigger
      split <;> exact ⟨_, rfl⟩
    case raiseirq c bit =>
      change ∃ t, execRaiseirq c bit s = .next t
      unfold execRaiseirq
      split <;> exact ⟨_, rfl⟩
    case mount size bytes =>
      change ∃ t, execMount size bytes s = .next t
      unfold execMount
      split <;> exact ⟨_, rfl⟩
    case onRegisterRead c offset w =>
      change ∃ t, execOnRegisterRead c offset w s = .next t
      unfold execOnRegisterRead
      split <;> exact ⟨_, rfl⟩
    case wifiWindow lane acc => cases acc <;> exact ⟨_, rfl⟩
    -- every other meaning ends in `finish`, `finishValue` or a next state, whatever its operands
    all_goals exact ⟨_, rfl⟩

/-- With no request waiting nothing changes (10_state.md R22). -/
theorem step_of_input_nil {s : State} (h : s.input = []) : step s = .next s := by
  simp only [step, h]

/-- Every step answers: with nothing waiting, for a request that decodes, and for one that does not. -/
theorem step_next (s : State) : ∃ t, step s = .next t := by
  cases hin : s.input with
  | nil => exact ⟨s, step_of_input_nil hin⟩
  | cons q qs =>
    cases hdec : decode q with
    | ok x =>
      rw [step_of_decode_ok hin hdec]
      exact exec_next _ _
    | error e => exact ⟨_, step_of_decode_error hin ⟨e, hdec⟩⟩

/-- Settles O6: every branch of `step` and of `exec` ends in a next state, and an empty stream is the first of them. -/
theorem everyStepAnswersANextState : Obligations.EveryStepAnswersANextState :=
  ⟨step_next, exec_next, fun _ => step_of_input_nil⟩

end Sys2Proof.Machine
end

section
/-! Accesses that stay on their CPU (60_exceptions.md R279): outside the DMA, inter-processor and map-control registers
no handler and no computed read reaches the other CPU's part or its raw block. -/

namespace Sys2Proof.Machine

/-! ### What stays -/

/-- From `s` to `t` nothing changes of the part of the CPU that is not `c`, nor any byte of its raw block. -/
structure StaysOn (c : Cpu) (s t : State) : Prop where
  side : t.side c.other = s.side c.other
  bytes : ∀ k, k < 2 ^ 24 → t.ioByte c.other k = s.ioByte c.other k

theorem StaysOn.refl (c : Cpu) (s : State) : StaysOn c s s := ⟨rfl, fun _ _ => rfl⟩

theorem StaysOn.trans {c : Cpu} {s t u : State} (h : StaysOn c s t) (h' : StaysOn c t u) : StaysOn c s u :=
  ⟨h'.side.trans h.side, fun k hk => (h'.bytes k hk).trans (h.bytes k hk)⟩

/-- A change of the other fields, or of CPU `c`'s part, stays on it. -/
theorem StaysOn.of_mem {c : Cpu} {s t : State} (hside : t.side c.other = s.side c.other) (hmem : t.mem = s.mem) :
    StaysOn c s t := ⟨hside, fun k _ => byte_of_mem s t hmem _ k⟩

theorem staysOn_logCall (c : Cpu) (s : State) (k : Call) : StaysOn c s (s.logCall k) := .of_mem (logCall_side s k _) rfl

theorem staysOn_logDraw (c : Cpu) (s : State) (k : Call) : StaysOn c s (s.logDraw k) := .of_mem (logDraw_side s k _) rfl

theorem staysOn_answer (c : Cpu) (s : State) (r : Reply) : StaysOn c s (s.answer r) := .of_mem (answer_side s r _) rfl

/-- A refused request changes neither part and no byte (30_encoding.md R86). -/
theorem staysOn_refused (c : Cpu) (s : State) (d : Nat) : StaysOn c s { s with refused := true, draws := d } :=
  .of_mem (by cases c <;> rfl) rfl

/-- The raw blocks are separate (10_state.md R29). -/
theorem staysOn_setRaw (c : Cpu) {o n : Nat} (v : Nat) (s : State) (h : o + n ≤ 2 ^ 24) :
    StaysOn c s (s.setRaw c o n v) :=
  ⟨setRaw_side _ _ _ _ _ _, fun k hk =>
    ioByte_setRaw_other s c c.other o n v k (other_ne c) (by omega) (by omega)⟩

/-- A register rewritten from the fields of its own CPU stays on it (R138). -/
theorem Rewrites.staysOn {s t : State} {c : Cpu} {p : CpuSide} {o n v : Nat} (h : Rewrites s t c p o n v)
    (hb : o + n ≤ 2 ^ 24) : StaysOn c s t := by
  refine ⟨h.side_other, fun k hk => h.frame _ fun hin => ?_⟩
  exact inBytes_io_apart c c.other o n k 1 _ (.inl (ne_other c)) (by omega) (by omega) hin ⟨Nat.le_refl _, by omega⟩

/-! ### The shared registers -/

/-- The registers through which a CPU reaches the other one or the shared bus: DMA, inter-processor and map control
(42_dma.md R186, 44_ipc.md R231 to R241, 41_io_dispatch.md R151). -/
def LReg.isShared : LReg → Bool
  | .dmaSad _ | .dmaDad _ | .dmaCnt _ | .ipcSync | .ipcFifoCnt | .ipcFifoSend | .ipcFifoRecv | .mapCnt _ => true
  | _ => false

/-- The bytes of the shared registers (R131). -/
abbrev sharedRanges : List (Nat × Nat) :=
  [(0xB0, 0xE0), (0x180, 0x18C), (0x240, 0x24A), (0x100000, 0x100004)]

/-- Every byte of a shared register lies in the ranges. -/
theorem inRanges_of_isShared {r : LReg} {o : Nat} (hr : r.isShared = true) (hlo : r.offset ≤ o)
    (hhi : o < r.offset + r.size) : inRanges sharedRanges o = true := by
  simp only [inRanges, List.any_cons, List.any_nil, Bool.or_eq_true, Bool.and_eq_true, decide_eq_true_eq,
    Bool.false_eq_true, or_false]
  cases r
  case dmaSad k | dmaDad k | dmaCnt k | mapCnt k =>
    have hk := k.isLt
    simp only [LReg.offset, LReg.size] at hlo hhi
    omega
  case ipcSync | ipcFifoCnt | ipcFifoSend | ipcFifoRecv =>
    simp only [LReg.offset, LReg.size] at hlo hhi
    omega
  all_goals cases hr

/-- An access that avoids the ranges touches no shared register. -/
theorem touched_not_isShared {c : Cpu} {w : Width} {o : Nat} (h : Avoids sharedRanges o w.bytes) :
    ∀ r ∈ touched c w o, r.isShared = false := by
  intro r hr
  obtain ⟨i, hi, hreg⟩ := mem_touched c w o r hr
  obtain ⟨hlo, hhi⟩ := regAt_holds c (o + i) r hreg
  refine Bool.eq_false_iff.mpr fun hshared => ?_
  have hin := inRanges_of_isShared hshared hlo hhi
  rw [h i hi] at hin
  cases hin

/-! ### Reads -/

/-- The computed read of a register that is not shared at most asks a collaborator (R135). -/
theorem computedRead_staysOn {c : Cpu} {r : LReg} {s : State} {x : Nat × State} (hr : r.isShared = false)
    (e : computedRead c r s = some x) : StaysOn c s x.2 := by
  cases r
  case ipcFifoRecv => cases hr
  all_goals simp only [computedRead, Option.some.injEq, reduceCtorEq] at e
  case dispCapCnt | romCtrl | cardData | gxStat => subst e; exact staysOn_logDraw c s _
  case tmCntL | divCnt | divResult | divRemResult | sqrtCnt | sqrtResult => subst e; exact .refl c s

theorem readRegs_staysOn (c : Cpu) (o : Nat) (l : List LReg) (hl : ∀ r ∈ l, r.isShared = false) :
    ∀ bs s, StaysOn c s (readRegs c o l bs s).2 := by
  induction l with
  | nil => exact fun _ s => .refl c s
  | cons r l ih =>
    intro bs s
    obtain ⟨hr, htail⟩ := List.forall_mem_cons.mp hl
    rw [readRegs]
    split
    · exact ih htail bs s
    · next x hx => exact (computedRead_staysOn hr hx).trans (ih htail _ x.2)

/-! ### Writes -/

theorem setReload_staysOn (c : Cpu) (t : Fin 4) (v : Half) (s : State) : StaysOn c s (setReload c t v s) :=
  .of_mem (modSide_side_other s c _) (modTimer_mem s c t _)

theorem setControl_staysOn (c : Cpu) (t : Fin 4) (v : Half) (s : State) : StaysOn c s (setControl c t v s) :=
  (setControl_rewrites c t v s).staysOn (by omega)

/-- The backup port's data register: the transfer's answer, then the high byte, in its own block (R147). -/
theorem writeSpiData_staysOn (c : Cpu) (o : Nat) (w : Width) (s : State) : StaysOn c s (writeSpiData c o w s) := by
  refine .trans ?_ (staysOn_setRaw c 0 _ (by decide))
  split
  · exact (staysOn_logDraw c s _).trans (staysOn_setRaw c _ _ (by decide))
  · exact .refl c s

/-- The handler of a register that is not shared logs a call, or rewrites registers of its own CPU (R134). -/
theorem handle_staysOn {exe : Exe} {c : Cpu} {o : Nat} {w : Width} {v : Word} {r : LReg} {s t : State}
    (hr : r.isShared = false) (e : handle exe c o w v r s = .ok t) : StaysOn c s t := by
  cases r
  case dmaSad | dmaDad | dmaCnt | ipcSync | ipcFifoCnt | ipcFifoSend | ipcFifoRecv | mapCnt => cases hr
  case tmCntL n => cases e; exact setReload_staysOn c n _ s
  case tmCntH n => cases e; exact setControl_staysOn c n _ s
  case auxSpiData => cases e; exact writeSpiData_staysOn c o w s
  case ime => cases e; exact (setIME_rewrites c _ s).staysOn (by decide)
  case ie => cases e; exact (setIE_rewrites c _ s).staysOn (by decide)
  case iflag => cases e; exact (clearIF_rewrites c _ s).staysOn (by decide)
  case cardData | divCnt | divResult | divRemResult | sqrtCnt | sqrtResult => cases e; exact .refl c s
  all_goals cases e; exact staysOn_logCall c s _

/-- The verbatim store and the handlers of registers that are not shared, run or refused (R133, R134). -/
theorem ioWrite_staysOn {c : Cpu} {o : Nat} {w : Width} {v : Word} {s : State} (ho : o + w.bytes ≤ 2 ^ 24)
    (h : Avoids sharedRanges o w.bytes) : StaysOn c s (settle s (ioWrite execute c o w v s)) := by
  cases hres : ioWrite execute c o w v s with
  | error e => exact staysOn_refused c s e.draws
  | ok t =>
    refine forEach_keeps (P := StaysOn c s) _ (fun r hr a b ha e => ?_) _ t (staysOn_setRaw c _ s ho) hres
    exact ha.trans (handle_staysOn (touched_not_isShared h r hr) e)

/-- Settles O37: a read runs computed reads, a write the verbatim store and handlers, of registers that are not shared. -/
theorem windowAccessesStayOnTheirCpu : Obligations.WindowAccessesStayOnTheirCpu := by
  intro s i c o acc hreach havoids
  cases acc with
  | read w =>
    have hread := readRegs_staysOn c o _ (touched_not_isShared (c := c) havoids)
      (Memory.readBytes s.mem (cellKey (ioRegion c) o) w.bytes) s
    obtain ⟨hside, hbytes⟩ := hread.trans (staysOn_answer c _ (.value (ioRead c o w s).1))
    exact ⟨_, (reaches_read hreach).1, hside, hbytes⟩
  | write w v =>
    obtain ⟨hexec, -, hbound⟩ := reaches_write hreach
    obtain ⟨hside, hbytes⟩ := ioWrite_staysOn (c := c) (v := truncTo w v) (s := s) hbound havoids
    exact ⟨_, hexec, hside, hbytes⟩

end Sys2Proof.Machine
end

section
/-! RESET and construction (70_reset_and_hazards.md R290): the bytes and the tables they leave. -/

namespace Sys2Proof.Machine

/-! ### Bytes -/

/-- A byte of any region after a write of one region (10_state.md R41). -/
theorem byte_regionWrite_any (s : State) {r r' : Region} {o n j : Nat} (v : Nat) (ho : o + n ≤ 2 ^ 32)
    (hj : j < 2 ^ 32) :
    (s.regionWrite r o n v).byte r' j = if r' = r ∧ o ≤ j ∧ j < o + n then byteAt v (j - o) else s.byte r' j := by
  by_cases hr : r' = r
  · subst hr
    simp only [byte_regionWrite, true_and]
  · have hout : ¬ inBytes r o n (cellKey r' j) := by
      rintro ⟨hlo, hhi⟩
      have hkey : cellKey r' j = cellKey r (o + (cellKey r' j - cellKey r o)) := by
        rw [cellKey_add]
        omega
      exact hr (cellKey_inj _ _ _ _ hkey hj (by omega)).1
    rw [if_neg fun h => hr h.1]
    exact regionWrite_sameOutside s r o n v _ hout

/-- The bytes between the two halves of RESET. -/
theorem byte_clearedBus (s : State) (r : Region) {o : Nat} (ho : o < 2 ^ 32) :
    (clearedBus s).byte r o = if r = .cartrom then s.byte r o else 0 := by
  split
  · next hr =>
    subst hr
    refine read_filter s.mem _ _ fun _ => ?_
    simp only [cellKey_div _ o ho, decide_true, BEq.rfl]
  · next hr =>
    refine read_filter_out s.mem _ _ fun _ => ?_
    simp only [decide_eq_false (cellKey_div_ne_cartrom hr ho), Bool.false_beq, Bool.not_true]

/-- Where IPCFIFOCNT = 0x00000101 puts its two ones (44_ipc.md R236). -/
theorem byteAt_fifoCntReset (o : Nat) :
    (if 0x184 ≤ o ∧ o < 0x184 + 4 then byteAt 0x101 (o - 0x184) else 0) = if o = 0x184 ∨ o = 0x185 then 1 else 0 := by
  by_cases h : 0x184 ≤ o ∧ o < 0x184 + 4
  · obtain rfl | rfl | rfl | rfl : o = 0x184 ∨ o = 0x185 ∨ o = 0x186 ∨ o = 0x187 := by omega
    all_goals decide
  · rw [if_neg h, if_neg (by omega)]

/-- Every byte after RESET: IPCFIFOCNT of both CPUs, the cartridge's bytes, and 0 elsewhere (R290, 44_ipc.md R236). -/
theorem byte_resetBus (s : State) (r : Region) {o : Nat} (ho : o < 2 ^ 32) :
    (resetBus s).byte r o =
      if (r = .io0 ∨ r = .io1) ∧ (o = 0x184 ∨ o = 0x185) then 1 else if r = .cartrom then s.byte r o else 0 := by
  have hwrites : resetBus s =
      ((clearedBus s).regionWrite .io0 0x184 4 0x101).regionWrite .io1 0x184 4 0x101 := rfl
  rw [hwrites, byte_regionWrite_any _ _ (by decide) ho, byte_regionWrite_any _ _ (by decide) ho, byte_clearedBus s r ho]
  by_cases hio : r = .io0 ∨ r = .io1
  · rcases hio with rfl | rfl <;>
      simpa only [reduceCtorEq, false_and, true_and, true_or, or_true, if_false] using byteAt_fifoCntReset o
  · obtain ⟨h0, h1⟩ := not_or.mp hio
    simp only [h0, h1, false_and, or_false, if_false]

/-- The bytes after construction (R290, 44_ipc.md R236). -/
theorem byte_construct (g : BusConfig) (r : Region) {o : Nat} (ho : o < 2 ^ 32) :
    (State.construct g).byte r o = if (r = .io0 ∨ r = .io1) ∧ (o = 0x184 ∨ o = 0x185) then 1 else 0 := by
  rw [construct_eq_resetBus, byte_resetBus _ r ho]
  exact if_congr Iff.rfl rfl (ite_self _)

/-! ### Tables -/

/-- The table that RESET gives a CPU, entry by entry (R290, 40_decode.md R111). -/
theorem initTable_getElem (g : BusConfig) (cart : Option Word) (c : Cpu) (i : Byte) :
    (initTable g cart c)[i.toFin] = initEntryAt g cart c i := by
  cases cart with
  | none => rfl
  | some size => exact setEntries_getElem (cartEntry size) 0x20 (g.table c) 0x80 i.toFin

theorem resetBus_entry (s : State) (c : Cpu) (i : Byte) :
    (resetBus s).entry c i = initEntryAt s.config s.cart c i := by
  rw [State.entry, resetBus_side]
  exact initTable_getElem s.config s.cart c i

theorem construct_entry (g : BusConfig) (c : Cpu) (i : Byte) :
    (State.construct g).entry c i = initEntryAt g none c i := by
  rw [construct_eq_resetBus]
  exact resetBus_entry _ c i

/-- An index counted from `k`, where a run of equal entries begins, is in the run or counted from its end. -/
theorem getElem?_replicate_append_sub (e : Entry) (l : List Entry) {n : Nat} (k i : Nat) (hn : 0 < n) :
    (List.replicate n e ++ l)[i - k]? = if i < k + n then some e else l[i - (k + n)]? := by
  rw [List.getElem?_append, List.length_replicate]
  split
  · rw [if_pos (by omega), List.getElem?_replicate, if_pos (by omega)]
  · rw [if_neg (by omega), Nat.sub_sub]

/-- The default INIT_TABLE, its runs of equal entries told by their bounds (40_decode.md R111); the first begins at 0. -/
theorem defaultEntries_getElem? (c : Cpu) {i : Nat} (hi : i < 256) :
    (defaultEntries c)[i - 0]? = some (defaultEntryAt c i) := by
  cases c with
  | c0 =>
    have hlast : i - 255 < 1 := by omega
    simp only [defaultEntries, defaultEntryAt, sinkEntry, List.append_assoc, getElem?_replicate_append_sub,
      Nat.reduceAdd, Nat.reduceLT, apply_ite some, List.getElem?_eq_getElem (l := [_]) hlast, List.getElem_singleton]
  | c1 =>
    have hlast : i - 80 < 176 := by omega
    simp only [defaultEntries, defaultEntryAt, sinkEntry, List.append_assoc, getElem?_replicate_append_sub,
      Nat.reduceAdd, Nat.reduceLT, apply_ite some, List.getElem?_replicate, if_pos hlast]

/-- INIT_TABLE of the default configuration, entry by entry (R111). -/
theorem initEntryAt_default (c : Cpu) (i : Byte) :
    initEntryAt BusConfig.default none c i = defaultEntryAt c i.toNat := by
  have htable : BusConfig.default.table c = defaultTable c := by cases c <;> rfl
  rw [initEntryAt, htable]
  exact Option.some_inj.mp ((List.getElem?_eq_getElem _).symm.trans (defaultEntries_getElem? c i.isLt))

/-- The region sizes of the default configuration without a cartridge (10_state.md R23). -/
theorem regionSize_default (r : Region) : regionSize BusConfig.default none r = (defaultKiB r).map (· * 1024) := by
  cases r <;> rfl

/-! ### The two statements -/

/-- Settles O8: RESET is its own result, read byte by byte and entry by entry. -/
theorem resetRestoresConstructionValues : Obligations.ResetRestoresConstructionValues := by
  intro s
  refine ⟨resetBus s, rfl, rfl, fun c => ?_, resetBus_entry s, fun o ho => ?_, fun r o hr ho => ?_⟩
  · rw [resetBus_side, State.reset, construct_side]
    rfl
  · rw [byte_resetBus s .cartrom ho, if_neg (by simp), if_pos rfl]
  · rw [State.reset, byte_construct _ r ho, byte_resetBus s r ho, if_neg hr]

/-- Settles O7: construction is RESET of an empty bus, and the default configuration is read run by run. -/
theorem constructionValues : Obligations.ConstructionValues := by
  refine ⟨fun g => ⟨rfl, rfl, rfl, rfl, rfl, fun c => ?_, construct_entry g, fun r o ho => byte_construct g r ho⟩,
    rfl, initEntryAt_default, regionSize_default, rfl, rfl⟩
  rw [construct_side]
  rfl

end Sys2Proof.Machine
end

section
/-! The registers of the DMA channels (42_dma.md R180 to R184, R187): what a write of DMAnSAD, DMAnDAD or DMAnCNT and a
call of `ProgramChannel` do, and a burst that copies nothing. -/

namespace Sys2Proof.Machine

/-! ### The registers -/

theorem dmaSad_own (c : Cpu) : ∀ ch, OwnsBytes c (.dmaSad ch) := by cases c <;> decide

theorem dmaDad_own (c : Cpu) : ∀ ch, OwnsBytes c (.dmaDad ch) := by cases c <;> decide

theorem dmaCnt_own (c : Cpu) : ∀ ch, OwnsBytes c (.dmaCnt ch) := by cases c <;> decide

theorem dmaCnt_offset (ch : Fin 4) : (LReg.dmaCnt ch).offset = cntOffset ch := rfl

/-- An aligned write that begins in a register of whole words stores, then runs the handler of that register alone. -/
theorem reaches_write_inside {s : State} {i : Instr} {c : Cpu} {o : Nat} {w : Width} {v : Word} {r : LReg}
    (hreach : Reaches s i c o (.write w v)) (howns : OwnsBytes c r) (hwords : r.offset % 4 = 0 ∧ r.size % 4 = 0)
    (hlo : r.offset ≤ o) (hhi : o < r.offset + r.size) :
    exec i s = finish s (handle execute c o w (truncTo w v) r (stored c o w v s)) := by
  have hend := aligned_inside (reaches_write hreach).2.1 hwords.1 hwords.2 hhi
  exact reaches_write_one r hreach fun k hk => howns.regAt (by omega) (by omega)

theorem chan_of_side {s t : State} {c : Cpu} (h : t.side c = s.side c) (ch : Fin 4) : t.chan c ch = s.chan c ch := by
  rw [State.chan, State.chan, h]

/-! ### Replacing a channel -/

theorem modChan_eq_withChan (s : State) (c : Cpu) (ch : Fin 4) (f : Channel → Channel) :
    s.modChan c ch f = withChan s c ch (f (s.chan c ch)) := rfl

theorem withChan_side (s : State) (c : Cpu) (ch : Fin 4) (d : Channel) :
    (withChan s c ch d).side c = { s.side c with dma := (s.side c).dma.set ch.val d ch.isLt } := setSide_side _ _ _

theorem withChan_side_congr {s b : State} {c : Cpu} (h : b.side c = s.side c) (ch : Fin 4) (d : Channel) :
    (withChan b c ch d).side c = (withChan s c ch d).side c := by
  rw [withChan_side, withChan_side, h]

theorem withChan_chan (s : State) (c : Cpu) (ch : Fin 4) (d : Channel) : (withChan s c ch d).chan c ch = d :=
  modChan_chan_same s c ch fun _ => d

theorem withChan_chan_ne (s : State) (c : Cpu) {ch k : Fin 4} (d : Channel) (h : k ≠ ch) :
    (withChan s c ch d).chan c k = s.chan c k := by
  refine (modChan_chan s c c ch k fun _ => d).trans (if_neg fun e => h e.2)

theorem withChan_withChan (s : State) (c : Cpu) (ch : Fin 4) (d e : Channel) :
    withChan (withChan s c ch d) c ch e = withChan s c ch e := by
  rw [withChan, withChan_side, withChan, setSide_setSide, Vector.set_set]
  rfl

/-- Rewriting the raw DMAnCNT from a replaced channel (42_dma.md R184, R186). -/
theorem mirrorCnt_withChan_rewrites (s : State) (c : Cpu) (ch : Fin 4) (d : Channel) :
    Rewrites s (mirrorCnt c ch (withChan s c ch d)) c ((withChan s c ch d).side c) (cntOffset ch) 4 d.cnt.toNat := by
  rw [mirrorCnt, withChan_chan, withChan, setSide_side]
  exact rewrites_setRaw s c _ _ 4 _

/-! ### The address registers -/

/-- Settles O38: the handler of an address register masks its merged value, and its rewrite covers the verbatim store. -/
theorem dmaAddressRegistersAreMasked : Obligations.DmaAddressRegistersAreMasked := by
  intro s i c ch o w v hreach
  have hside : (stored c o w v s).side c = s.side c := setRaw_side _ _ _ _ _ _
  have ha := (reaches_write hreach).2.1
  constructor
  · intro hlo hhi
    have hend := aligned_inside (base := 0xB0 + 12 * ch.val) (size := 4) ha (by omega) rfl (by omega)
    refine ⟨_, reaches_write_inside hreach (dmaSad_own c ch) ⟨by simp only [LReg.offset]; omega, Nat.mod_self 4⟩ hlo
      (by simp only [LReg.offset, LReg.size]; omega), ?_⟩
    have hmerged : mergedValue (stored c o w v s) c (.dmaSad ch) = mergedBytes s c (0xB0 + 12 * ch.val) 4 o w v :=
      mergedValue_stored s c (.dmaSad ch) o w v
    rw [← withChan_side_congr hside, ← chan_of_side hside, ← hmerged]
    exact (writeSad_rewrites c ch _ _).of_setRaw hlo hend
  · intro hlo hhi
    have hend := aligned_inside (base := 0xB4 + 12 * ch.val) (size := 4) ha (by omega) rfl (by omega)
    refine ⟨_, reaches_write_inside hreach (dmaDad_own c ch) ⟨by simp only [LReg.offset]; omega, Nat.mod_self 4⟩ hlo
      (by simp only [LReg.offset, LReg.size]; omega), ?_⟩
    have hmerged : mergedValue (stored c o w v s) c (.dmaDad ch) = mergedBytes s c (0xB4 + 12 * ch.val) 4 o w v :=
      mergedValue_stored s c (.dmaDad ch) o w v
    rw [← withChan_side_congr hside, ← chan_of_side hside, ← hmerged]
    exact (writeDad_rewrites c ch _ _).of_setRaw hlo hend

/-! ### The fields of a control word -/

/-- Every write mask keeps the enable bit (42_dma.md R182). -/
theorem bitAt_and_cntBits (c : Cpu) (ch : Fin 4) (v : Word) : bitAt (v &&& cntBits c ch) 31 = v.getLsbD 31 := by
  have hmask : (cntBits c ch).getLsbD 31 = true := by cases c <;> fin_cases ch <;> rfl
  rw [bitAt, BitVec.getLsbD_and, hmask, Bool.and_true]

/-- The codes of a start-mode field: an immediate start is code 0, and any other waits for one event (R183, 30_encoding.md
R84). -/
theorem startMode_cases (c : Cpu) (ch : Fin 4) (v : Word) :
    (modeField c v = 0 ∧ startMode c ch v = .immediate) ∨
      ∃ e, modeField c v ≠ 0 ∧ startMode c ch v = .on e ∧ (c = .c0 → (modeField c v = 4 ↔ e = .mmDisplay)) := by
  cases c
  · have hlt : v.toNat / 2 ^ 27 % 8 < 8 := Nat.mod_lt _ (by decide)
    simp only [startMode, modeField]
    generalize v.toNat / 2 ^ 27 % 8 = m at hlt ⊢
    interval_cases m <;> simp
  · have hlt : v.toNat / 2 ^ 28 % 4 < 4 := Nat.mod_lt _ (by decide)
    simp only [startMode, modeField]
    generalize v.toNat / 2 ^ 28 % 4 = m at hlt ⊢
    interval_cases m <;> simp
    split <;> simp

theorem startMode_immediate_iff (c : Cpu) (ch : Fin 4) (v : Word) :
    startMode c ch v = .immediate ↔ modeField c v = 0 := by
  rcases startMode_cases c ch v with ⟨hm, hs⟩ | ⟨e, hm, hs, -⟩ <;> simp [hm, hs]

theorem startMode_mmDisplay_iff (ch : Fin 4) (v : Word) :
    startMode .c0 ch v = .on .mmDisplay ↔ modeField .c0 v = 4 := by
  rcases startMode_cases .c0 ch v with ⟨hm, hs⟩ | ⟨e, -, hs, hfour⟩
  · simp [hm, hs]
  · simp [hs, hfour rfl]

/-- The count a channel latches (R184). -/
theorem effCount_eq (c : Cpu) (ch : Fin 4) (v : Word) : effCount c ch v = countOf c ch v := by
  have hfield : v &&& countMask c ch =
      BitVec.ofNat 32 (v.toNat % (if c = .c0 then 2 ^ 21 else if ch = 3 then 2 ^ 16 else 2 ^ 14)) := by
    have hones : ∀ n, n ≤ 32 → v &&& BitVec.ofNat 32 (2 ^ n - 1) = BitVec.ofNat 32 (v.toNat % 2 ^ n) := fun n hn => by
      rw [← and_ones_toNat v n hn, BitVec.ofNat_toNat, BitVec.setWidth_eq]
    cases c
    · exact hones 21 (by decide)
    · by_cases h3 : ch = 3
      · simpa [countMask, h3] using hones 16 (by decide)
      · simpa [countMask, h3] using hones 14 (by decide)
  rw [effCount, countOf, hfield, mmdCount]
  cases c
  · simp only [startMode_mmDisplay_iff]
    rfl
  · rfl

/-! ### Programming a channel -/

/-- The channel after a control write, in the words of Safety.lean (R184). -/
theorem program_eq (d : Channel) (c : Cpu) (ch : Fin 4) (v : Word) :
    d.program c ch (v &&& cntMask c ch) = programmed d c ch v := by
  have hedge : (v.getLsbD 31 && !d.active) = enables d v := rfl
  simp only [Channel.program, programmed, cntMask_eq, bitAt_and_cntBits, hedge, effCount_eq]
  cases enables d v <;> rfl

section Program

variable {exe : Exe} {c : Cpu} {ch : Fin 4} {v : Word} {s : State}

/-- The channel of a running burst is not programmed (R187). -/
theorem programChannel_running (h : (s.chan c ch).executing = true) :
    programChannel exe c ch v s = refuse .dmaSelfProgram s := if_pos h

/-- Programming a channel that is not running: latch, run the burst of an Immediate enable edge, mirror (R184). -/
theorem programChannel_idle (h : (s.chan c ch).executing = false) :
    programChannel exe c ch v s =
      andThen
        (if enables (s.chan c ch) v && decide (modeField c (v &&& cntBits c ch) = 0) then
          exe c ch (withChan s c ch (programmed (s.chan c ch) c ch v))
        else .ok (withChan s c ch (programmed (s.chan c ch) c ch v)))
        fun u => .ok (mirrorCnt c ch u) := by
  simp only [programChannel, h, Bool.false_eq_true, if_false, modChan_eq_withChan, program_eq]
  simp only [cntMask_eq, bitAt_and_cntBits, startMode_immediate_iff]
  rfl

/-- Without an enable edge, or with a start mode that waits, programming starts nothing. -/
theorem programChannel_waiting (h : (s.chan c ch).executing = false)
    (hwait : enables (s.chan c ch) v = false ∨ modeField c (v &&& cntBits c ch) ≠ 0) :
    programChannel exe c ch v s = .ok (mirrorCnt c ch (withChan s c ch (programmed (s.chan c ch) c ch v))) := by
  rw [programChannel_idle h, if_neg, andThen_ok]
  rw [Bool.and_eq_true, decide_eq_true_eq]
  rintro ⟨hedge, himmediate⟩
  rcases hwait with hwait | hwait
  · rw [hedge] at hwait
    cases hwait
  · exact hwait himmediate

/-- The enable edge of an Immediate channel runs its burst before the mirror (R191). -/
theorem programChannel_starting (h : (s.chan c ch).executing = false) (hedge : enables (s.chan c ch) v = true)
    (himmediate : modeField c (v &&& cntBits c ch) = 0) :
    programChannel exe c ch v s =
      andThen (exe c ch (withChan s c ch (programmed (s.chan c ch) c ch v))) fun u => .ok (mirrorCnt c ch u) := by
  rw [programChannel_idle h, if_pos (by rw [hedge, himmediate]; rfl)]

end Program

/-- `ProgramChannel`, called or run by a write of DMAnCNT, from the verbatim store of the write on. -/
theorem calls_programChannel {s b : State} {i : Instr} {c : Cpu} {ch : Fin 4} {v : Word}
    (hcalls : Calls s i (.programChannel c ch v) c (cntOffset ch) 4 v.toNat b) :
    exec i s = finish s (programChannel execute c ch v b) := by
  rcases hcalls with ⟨rfl, rfl⟩ | ⟨o, w, u, hreach, hlo, hhi, hv, rfl⟩
  · rfl
  · have hmerged := mergedValue_stored s c (.dmaCnt ch) o w u
    rw [dmaCnt_offset, LReg.size, ← hv] at hmerged
    rw [reaches_write_one (.dmaCnt ch) hreach fun k hk =>
      (dmaCnt_own c ch).regAt (by rw [dmaCnt_offset]; omega) (by rw [dmaCnt_offset, LReg.size]; omega)]
    simp only [handle, hmerged, BitVec.ofNat_toNat, BitVec.setWidth_eq]

/-- The state an operation starts from has drawn what the request found drawn. -/
theorem calls_draws {s b : State} {i op : Instr} {c : Cpu} {base size v : Nat} (h : Calls s i op c base size v b) :
    b.draws = s.draws := by
  rcases h with ⟨-, rfl⟩ | ⟨o, w, u, -, -, -, -, rfl⟩
  · rfl
  · exact setRaw_draws _ _ _ _ _

/-- The state an operation starts from has the refused mark of the state the request found. -/
theorem calls_refused {s b : State} {i op : Instr} {c : Cpu} {base size v : Nat} (h : Calls s i op c base size v b) :
    b.refused = s.refused := by
  rcases h with ⟨-, rfl⟩ | ⟨o, w, u, -, -, -, -, rfl⟩
  · rfl
  · exact setRaw_refused _ _ _ _ _

/-- A control write of a running channel is refused, however it is made (R187). -/
theorem calls_programChannel_running {s b : State} {i : Instr} {c : Cpu} {ch : Fin 4} {v : Word}
    (hcalls : Calls s i (.programChannel c ch v) c (cntOffset ch) 4 v.toNat b)
    (h : (s.chan c ch).executing = true) : exec i s = .next { s with refused := true } := by
  rw [← chan_of_side (calls_side hcalls c)] at h
  rw [calls_programChannel hcalls, programChannel_running h, refuse, finish_error, calls_draws hcalls]

/-- Settles O39: the branches of `ProgramChannel` that run no burst. -/
theorem programChannelLatchesOnTheEnableEdge : Obligations.ProgramChannelLatchesOnTheEnableEdge := by
  intro s i c ch v b hcalls
  refine ⟨calls_programChannel_running hcalls, fun hidle hwait => ?_⟩
  have hside := calls_side hcalls c
  rw [← chan_of_side hside] at hidle hwait
  rw [← withChan_side_congr hside, ← chan_of_side hside, calls_programChannel hcalls, programChannel_waiting hidle hwait]
  exact ⟨_, finish_ok _ _, mirrorCnt_withChan_rewrites b c ch _⟩

/-! ### Bursts that copy nothing -/

theorem execute_inactive {s : State} {c : Cpu} {ch : Fin 4} (h : (s.chan c ch).active = false) :
    execute c ch s = .ok s := by
  rw [execute, burstDepth, executeDepth, executeBody]
  simp only [h, Bool.not_false, if_true]

theorem execute_degenerate {s : State} {c : Cpu} {ch : Fin 4} (hactive : (s.chan c ch).active = true)
    (h : (s.chan c ch).count = 0 ∨ (s.chan c ch).src = (s.chan c ch).dst) :
    execute c ch s = .ok (stopChannel c ch s) := by
  rw [execute, burstDepth, executeDepth, executeBody]
  simp only [hactive, Bool.not_true, Bool.false_eq_true, if_false, if_pos h]

theorem exec_execute (c : Cpu) (ch : Fin 4) (s : State) : exec (.execute c ch) s = finish s (execute c ch s) := rfl

/-- Settles O41: the two first branches of `Execute`. -/
theorem degenerateBurstsOnlyStop : Obligations.DegenerateBurstsOnlyStop := by
  intro s c ch
  constructor
  · intro hidle
    rw [exec_execute, execute_inactive hidle, finish_ok]
  · intro hactive h
    rw [exec_execute, execute_degenerate hactive h]
    exact ⟨_, finish_ok _ _, stopChannel_rewrites c ch s⟩

end Sys2Proof.Machine
end

section
/-! Where a burst starts (42_dma.md R184, R189, R191): inside the write that enables an Immediate channel, and in a
TRIGGER, which takes its channels in turn. -/

namespace Sys2Proof.Machine

/-! ### The refused mark -/

/-- No operation of the bus sets or clears the refused mark; a request that is refused ends with it (10_state.md R47). -/
theorem refusedMark_partFree (b : Bool) : PartFree fun s => s.refused = b where
  side s c p h := by rwa [setSide_refused]
  write _ _ _ h _ := h
  logCall _ _ h := h
  logDraw _ _ h := h
  answer _ _ h := h
  tcw _ _ h := h
  mount _ _ _ h _ _ := h
  unmount _ h := h
  reset _ h := h

theorem execute_refused {c : Cpu} {ch : Fin 4} {s t : State} (h : execute c ch s = .ok t) : t.refused = s.refused :=
  (refusedMark_partFree s.refused).burst.executeDepth burstDepth c ch s t rfl h

theorem memWrite_refused {c : Cpu} {a : Word} {w : Width} {v : Word} {s t : State}
    (h : memWrite execute c a w v s = .ok t) : t.refused = s.refused :=
  (refusedMark_partFree s.refused).burst.memWrite (refusedMark_partFree s.refused).burst.execute rfl h

theorem memRead_refused (c : Cpu) (a : Word) (w : Width) (s : State) : (memRead c a w s).2.refused = s.refused :=
  (refusedMark_partFree s.refused).burst.memRead c a w s rfl

/-- A state shows a result: it is the state the operation ended in, or it has the mark and the draws of the refusal. -/
def Shows (u : State) : Res → Prop
  | .ok t => u = t ∧ t.refused = false
  | .error e => u.refused = true ∧ u.draws = e.draws

/-- A request shows the result of its operation. -/
theorem shows_settle {s : State} {r : Res} (hs : s.refused = false) (hr : ∀ t, r = .ok t → t.refused = s.refused) :
    Shows (settle s r) r := by
  cases r with
  | ok t => exact ⟨rfl, (hr t rfl).trans hs⟩
  | error e => exact ⟨rfl, rfl⟩

theorem Shows.eq_ok {u : State} {r : Res} (h : Shows u r) (hu : u.refused = false) : r = .ok u := by
  cases r with
  | ok t => exact congrArg Except.ok h.1.symm
  | error e => exact absurd h.1 (by rw [hu]; decide)

theorem Shows.eq_error {u : State} {r : Res} (h : Shows u r) (hu : u.refused = true) :
    ∃ why, r = .error ⟨why, u.draws⟩ := by
  cases r with
  | ok t =>
    obtain ⟨rfl, hmark⟩ := h
    exact absurd hmark (by rw [hu]; decide)
  | error e => exact ⟨e.why, by rw [h.2]⟩

/-- A request that started in another state ends as a state that shows its result says (30_encoding.md R86). -/
theorem Shows.settle_eq {u : State} {r : Res} (h : Shows u r) (s : State) :
    settle s r = if u.refused then { s with refused := true, draws := u.draws } else u := by
  cases hu : u.refused with
  | false =>
    rw [h.eq_ok hu]
    rfl
  | true =>
    obtain ⟨why, hr⟩ := h.eq_error hu
    rw [hr]
    rfl

/-! ### Inside a write -/

/-- Rewriting the raw DMAnCNT of a channel changes its bytes alone. -/
theorem mirrorCnt_effect (c : Cpu) (ch : Fin 4) (u : State) :
    mirrorCnt c ch u = { u with mem := (mirrorCnt c ch u).mem } ∧
      HoldsAt (mirrorCnt c ch u) (ioRegion c) (cntOffset ch) 4 (u.chan c ch).cnt.toNat ∧
      SameOutside u (mirrorCnt c ch u) (inBytes (ioRegion c) (cntOffset ch) 4) :=
  ⟨rfl, regionWrite_holds _ _ _ _ _, setRaw_sameOutside _ _ _ _ _⟩

/-- Settles O40: the branch of `ProgramChannel` that runs the burst before it rewrites the control word. -/
theorem immediateChannelsRunInsideTheWrite : Obligations.ImmediateChannelsRunInsideTheWrite := by
  intro s i c ch v b hcalls hs hidle hedge himmediate
  have hside := calls_side hcalls c
  have hb : (withChan b c ch (programmed (b.chan c ch) c ch v)).refused = false :=
    (setSide_refused _ _ _).trans ((calls_refused hcalls).trans hs)
  rw [← chan_of_side hside] at hidle hedge
  rw [calls_programChannel hcalls, programChannel_starting hidle hedge himmediate, ← chan_of_side hside]
  refine ⟨_, _, rfl, exec_execute _ _ _, ?_⟩
  cases hrun : execute c ch (withChan b c ch (programmed (b.chan c ch) c ch v)) with
  | ok u =>
    have hu : u.refused = false := (execute_refused hrun).trans hb
    refine ⟨fun h => ?_, fun _ => mirrorCnt_effect c ch u⟩
    rw [settle_ok, hu] at h
    cases h
  | error e => exact ⟨fun _ => rfl, fun h => nomatch h⟩

/-! ### In a TRIGGER -/

/-- The code of an event (30_encoding.md R84). -/
def Event.code : Event → Nat
  | .vblank => 1
  | .hblank => 2
  | .dispStart => 3
  | .mmDisplay => 4
  | .cartSlot => 5
  | .gbaSlot => 6
  | .gxFifo => 7
  | .wifi => 8

/-- A valid code names an event. -/
theorem eventOfCode_valid {e : Byte} (hlo : 1 ≤ e.toNat) (hhi : e.toNat ≤ 8) :
    ∃ ev, Event.ofCode e = some ev ∧ Event.code ev = e.toNat := by
  unfold Event.ofCode
  generalize e.toNat = n at hlo hhi ⊢
  interval_cases n <;> exact ⟨_, rfl, rfl⟩

/-- A channel starts on an event where its control word waits for the event's code (42_dma.md R183). -/
theorem startsOn_eq (c : Cpu) (ch : Fin 4) (v : Word) (ev : Event) :
    startsOn c ch v ev = waitsFor c ch v (Event.code ev) := by
  cases c
  · obtain ⟨m, hm⟩ : ∃ m, v.toNat / 2 ^ 27 % 8 = m := ⟨_, rfl⟩
    have hlt : m < 8 := hm ▸ Nat.mod_lt _ (by decide)
    interval_cases m <;> simp only [startsOn, startMode, waitsFor, modeField, hm] <;> cases ev <;> rfl
  · obtain ⟨m, hm⟩ : ∃ m, v.toNat / 2 ^ 28 % 4 = m := ⟨_, rfl⟩
    have hlt : m < 4 := hm ▸ Nat.mod_lt _ (by decide)
    by_cases hpair : ch.val % 2 = 0 <;> interval_cases m <;>
      simp only [startsOn, startMode, waitsFor, modeField, hm, hpair] <;> cases ev <;> rfl

theorem exec_trigger {c : Cpu} {e : Byte} {ev : Event} (h : Event.ofCode e = some ev) (s : State) :
    exec (.trigger c e) s = finish s (trigger c ev s) := by
  change execTrigger c e s = _
  rw [execTrigger, h]

/-- A turn after a refusal does nothing. -/
theorem foldl_triggerTurn_refused (c : Cpu) (code : Nat) {s : State} (h : s.refused = true) (l : List (Fin 4)) :
    l.foldl (triggerTurn c code) s = s := by
  induction l with
  | nil => rfl
  | cons ch l ih => rw [List.foldl_cons, triggerTurn, if_pos h, ih]

/-- One turn shows what the channel's turn of `Trigger` did. -/
theorem triggerTurn_shows (c : Cpu) (ev : Event) (ch : Fin 4) {s : State} (h : s.refused = false) :
    Shows (triggerTurn c (Event.code ev) s ch) (triggerChannel c ev ch s) := by
  rw [triggerTurn, if_neg (by simp [h]), triggerChannel]
  simp only [startsOn_eq]
  split
  · exact shows_settle h fun _ => execute_refused
  · exact ⟨rfl, h⟩

/-- The turns show what the run over the channels did. -/
theorem foldl_triggerTurn_shows (c : Cpu) (ev : Event) (l : List (Fin 4)) : ∀ s : State, s.refused = false →
    Shows (l.foldl (triggerTurn c (Event.code ev)) s) (forEach (triggerChannel c ev) l s) := by
  induction l with
  | nil => exact fun _ h => ⟨rfl, h⟩
  | cons ch l ih =>
    intro s h
    have hturn := triggerTurn_shows c ev ch h
    rw [List.foldl_cons, forEach_cons]
    cases hrun : triggerChannel c ev ch s with
    | ok t =>
      rw [hrun] at hturn
      obtain ⟨heq, ht⟩ := hturn
      rw [heq, andThen_ok]
      exact ih t ht
    | error e =>
      rw [hrun] at hturn
      rw [foldl_triggerTurn_refused c _ hturn.1, andThen_error]
      exact hturn

/-- Settles O45: the turns of TRIGGER, each judged in the state the turns before it left. -/
theorem triggerRunsTheWaitingChannels : Obligations.TriggerRunsTheWaitingChannels := by
  intro s c e hlo hhi hs
  obtain ⟨ev, hev, hcode⟩ := eventOfCode_valid hlo hhi
  rw [exec_trigger hev, ← hcode]
  exact congrArg _ ((foldl_triggerTurn_shows c ev _ s hs).settle_eq s)

end Sys2Proof.Machine
end

section
/-! Nested bursts (42_dma.md R187): a burst leaves every other running channel running, with its control word, so that
each burst inside another one runs a channel that was free, and four of them exhaust the channels of a CPU. -/

namespace Sys2Proof.Machine

/-! ### Operations that leave the channels as they are -/

/-- The channels of both CPUs are as they were. -/
def SameChannels (s t : State) : Prop :=
  ∀ d, (t.side d).dma = (s.side d).dma

theorem SameChannels.refl (s : State) : SameChannels s s := fun _ => rfl

theorem SameChannels.trans {s t u : State} (h : SameChannels s t) (h' : SameChannels t u) : SameChannels s u :=
  fun d => (h' d).trans (h d)

theorem SameChannels.chan {s t : State} (h : SameChannels s t) (d : Cpu) (ch : Fin 4) : t.chan d ch = s.chan d ch := by
  rw [State.chan, State.chan, h d]

theorem sameChannels_logCall (s : State) (k : Call) : SameChannels s (s.logCall k) := fun _ => by rw [logCall_side]

theorem sameChannels_logDraw (s : State) (k : Call) : SameChannels s (s.logDraw k) := fun _ => by rw [logDraw_side]

theorem sameChannels_setRaw (s : State) (c : Cpu) (o n v : Nat) : SameChannels s (s.setRaw c o n v) := fun _ => by
  rw [setRaw_side]

theorem sameChannels_modTimer (s : State) (c : Cpu) (t : Fin 4) (f : Timer → Timer) : SameChannels s (s.modTimer c t f) :=
  fun _ => modTimer_side_dma _ _ _ _ _

theorem Rewrites.sameChannels {s t : State} {c : Cpu} {p : CpuSide} {o n v : Nat} (h : Rewrites s t c p o n v)
    (hp : p.dma = (s.side c).dma) : SameChannels s t := by
  intro d
  rcases eq_or_other c d with rfl | rfl
  · rw [h.side, hp]
  · rw [h.side_other]

/-- Setting a bit of IF leaves what does not read the latch. -/
theorem latchedIf_dma (k : Bool) (p : CpuSide) (b : Nat) : (latchedIf k p b).dma = p.dma := by cases k <;> rfl

theorem latchedIf_table (k : Bool) (p : CpuSide) (b : Nat) : (latchedIf k p b).table = p.table := by cases k <;> rfl

/-- What the interrupts leave of a part, an operation on the queues changes as its parts say. -/
theorem FifoDoneFor.field {α : Type} (g : CpuSide → α) (hg : ∀ k p b, g (latchedIf k p b) = g p) {c : Cpu} {s t : State}
    {mine other : CpuSide} (h : FifoDoneFor c s t mine other) (hmine : g mine = g (s.side c))
    (hother : g other = g (s.side c.other)) (d : Cpu) : g (t.side d) = g (s.side d) := by
  have hedges : ∀ p q p' q', g (withFifoEdges p q p' q') = g p' := fun p q p' q' => by
    rw [withFifoEdges, hg, hg]
  cases c <;> cases d <;> rw [h.state] <;> exact (hedges _ _ _ _).trans (by assumption)

theorem recv_field {α : Type} (g : CpuSide → α) (hg : ∀ k p b, g (latchedIf k p b) = g p)
    (hq : ∀ p q v, g { p with fifo := q, lastRecv := v } = g p) (c : Cpu) (s : State) (d : Cpu) :
    g ((recv c s).2.side d) = g (s.side d) := by
  cases h : (s.side c).fifo with
  | nil => rw [recv_empty c s h]
  | cons v q => exact (recv_done c s v q h).2.field g hg (hq _ _ _) rfl d

theorem sameChannels_writeSync (c : Cpu) (v : Word) (s : State) : SameChannels s (writeSync c v s) := by
  have hstate := (writeSync_effect c v s).1
  intro d
  rcases eq_or_other c d with rfl | rfl <;> rw [hstate]
  · cases d <;> rfl
  · cases c <;> exact latchedIf_dma _ _ _

theorem sameChannels_fifoControl (c : Cpu) (v : Word) (s : State) : SameChannels s (fifoControl c v s) :=
  (fifoControl_done c v s).field (·.dma) latchedIf_dma rfl rfl

theorem sameChannels_send (c : Cpu) (v : Word) (s : State) : SameChannels s (send c v s) :=
  (send_done c v s).field (·.dma) latchedIf_dma rfl rfl

theorem sameChannels_writeSpiData (c : Cpu) (o : Nat) (w : Width) (s : State) : SameChannels s (writeSpiData c o w s) := by
  refine .trans ?_ (sameChannels_setRaw _ c _ _ _)
  split
  · exact (sameChannels_logDraw s _).trans (sameChannels_setRaw _ c _ _ _)
  · exact .refl s

theorem sameChannels_mapConfigured (s : State) (k : Nat) : SameChannels s (mapConfigured s k) := by
  have hfold : ∀ (l : List Repoint) (u : State), SameChannels u (l.foldl repointed u) := by
    intro l
    induction l with
    | nil => exact .refl
    | cons p l ih => exact fun u => .trans (fun d => setEntry_side_dma u p.cpu d p.index _) (ih _)
  exact (sameChannels_logDraw s _).trans (hfold _ _)

/-! ### Running bursts -/

/-- The bursts that run on a CPU in a state still run in a later one, under the same control words. -/
def KeepsRunning (c : Cpu) (s t : State) : Prop :=
  ∀ k, (s.chan c k).executing = true → (t.chan c k).executing = true ∧ (t.chan c k).cnt = (s.chan c k).cnt

theorem KeepsRunning.refl (c : Cpu) (s : State) : KeepsRunning c s s := fun _ h => ⟨h, rfl⟩

theorem KeepsRunning.trans {c : Cpu} {s t u : State} (h : KeepsRunning c s t) (h' : KeepsRunning c t u) :
    KeepsRunning c s u := fun k hk => by
  obtain ⟨hrun, hcnt⟩ := h k hk
  obtain ⟨hrun', hcnt'⟩ := h' k hrun
  exact ⟨hrun', hcnt'.trans hcnt⟩

theorem SameChannels.keepsRunning {s t : State} (h : SameChannels s t) (c : Cpu) : KeepsRunning c s t := fun k hk => by
  rw [h.chan c k]
  exact ⟨hk, rfl⟩

/-- A change of one channel keeps the bursts of the others, and its own if it keeps the mark and the control word. -/
theorem keepsRunning_withChan {s : State} {c : Cpu} {ch : Fin 4} {d : Channel}
    (h : (s.chan c ch).executing = true → d.executing = true ∧ d.cnt = (s.chan c ch).cnt) :
    KeepsRunning c s (withChan s c ch d) := by
  intro k hk
  by_cases hkch : k = ch
  · subst hkch
    rw [withChan_chan]
    exact h hk
  · rw [withChan_chan_ne s c d hkch]
    exact ⟨hk, rfl⟩

/-- And so does an operation that replaces it and rewrites raw bytes. -/
theorem Rewrites.keepsRunning {s t : State} {c : Cpu} {ch : Fin 4} {d : Channel} {o n v : Nat}
    (h : Rewrites s t c ((withChan s c ch d).side c) o n v)
    (hd : (s.chan c ch).executing = true → d.executing = true ∧ d.cnt = (s.chan c ch).cnt) : KeepsRunning c s t := by
  intro k hk
  rw [chan_of_side h.side]
  exact keepsRunning_withChan hd k hk

/-- How many bursts run on a CPU. -/
def runningCount (c : Cpu) (s : State) : Nat :=
  (Finset.univ.filter fun k => (s.chan c k).executing = true).card

theorem KeepsRunning.count_le {c : Cpu} {s t : State} (h : KeepsRunning c s t) : runningCount c s ≤ runningCount c t :=
  Finset.card_le_card fun k hk => by
    rw [Finset.mem_filter] at hk ⊢
    exact ⟨hk.1, (h k hk.2).1⟩

/-- A channel that is free leaves at most three bursts (R187). -/
theorem runningCount_lt {c : Cpu} {ch : Fin 4} {s : State} (h : (s.chan c ch).executing = false) :
    runningCount c s < 4 := by
  have hlt := Finset.card_lt_univ_of_notMem (s := Finset.univ.filter fun k => (s.chan c k).executing = true) (x := ch)
    (by simp [h])
  rwa [Fintype.card_fin] at hlt

theorem burstStarted_executing (c : Cpu) (ch : Fin 4) (s : State) :
    ((burstStarted c ch s).chan c ch).executing = true := by
  rw [burstStarted, withChan_chan]

theorem runningCount_pos {c : Cpu} {ch : Fin 4} {s : State} (h : (s.chan c ch).executing = true) :
    1 ≤ runningCount c s :=
  Finset.card_pos.mpr ⟨ch, by simp [h]⟩

/-- A burst that starts on a free channel is one more. -/
theorem runningCount_burstStarted {c : Cpu} {ch : Fin 4} {s : State} (h : (s.chan c ch).executing = false) :
    runningCount c s + 1 ≤ runningCount c (burstStarted c ch s) := by
  refine Finset.card_lt_card (Finset.ssubset_iff_of_subset (fun k hk => ?_) |>.mpr ⟨ch, ?_, by simp [h]⟩)
  · have hkeeps := keepsRunning_withChan (d := { s.chan c ch with executing := true }) fun _ => ⟨rfl, rfl⟩
    rw [Finset.mem_filter] at hk ⊢
    exact ⟨hk.1, (hkeeps k hk.2).1⟩
  · simp [burstStarted_executing]

/-! ### Results of nested operations -/

/-- Two ways to run an operation of a CPU give one result, after which its bursts still run, or which is a refusal but not
for the depth of the nesting. -/
inductive NestsAlike (c : Cpu) (s : State) : Res → Res → Prop
  | ok {t : State} (h : KeepsRunning c s t) : NestsAlike c s (.ok t) (.ok t)
  | refused {e : Stop} (h : e.why ≠ .tooDeep) : NestsAlike c s (.error e) (.error e)

theorem NestsAlike.eq {c : Cpu} {s : State} {r r' : Res} (h : NestsAlike c s r r') : r = r' := by
  cases h <;> rfl

theorem NestsAlike.keeps {c : Cpu} {s t : State} {r' : Res} (h : NestsAlike c s (.ok t) r') : KeepsRunning c s t := by
  cases h with
  | ok h => exact h

theorem NestsAlike.not_tooDeep {c : Cpu} {s : State} {r r' : Res} (h : NestsAlike c s r r') (d : Nat) :
    r ≠ .error ⟨.tooDeep, d⟩ := by
  cases h with
  | ok h => exact fun e => nomatch e
  | refused h => exact fun e => h (congrArg Stop.why (Except.error.inj e))

theorem NestsAlike.of_keeps {c : Cpu} {s u : State} {r r' : Res} (h : KeepsRunning c s u) (h' : NestsAlike c u r r') :
    NestsAlike c s r r' := by
  cases h' with
  | ok h' => exact .ok (h.trans h')
  | refused h' => exact .refused h'

theorem NestsAlike.andThen {c : Cpu} {s : State} {r r' : Res} {f f' : State → Res} (h : NestsAlike c s r r')
    (hf : ∀ t, KeepsRunning c s t → NestsAlike c t (f t) (f' t)) :
    NestsAlike c s (Machine.andThen r f) (Machine.andThen r' f') := by
  cases h with
  | ok h => exact .of_keeps h (hf _ h)
  | refused h => exact .refused h

/-- Two ways to run the bursts inside at least `n` others, on channels that are free. -/
def ExesNestAlike (c : Cpu) (n : Nat) (exe exe' : Exe) : Prop :=
  ∀ ch s, n ≤ runningCount c s → (s.chan c ch).executing = false → NestsAlike c s (exe c ch s) (exe' c ch s)

/-! ### The burst -/

/-- The branches of `Execute` (42_dma.md R186). -/
theorem executeBody_eq (exe : Exe) (c : Cpu) (ch : Fin 4) (s : State) :
    executeBody exe c ch s =
      if (s.chan c ch).active = false then .ok s
      else if (s.chan c ch).count = 0 ∨ (s.chan c ch).src = (s.chan c ch).dst then .ok (stopChannel c ch s)
      else andThen
        (elements exe c ch (elementWidth (s.chan c ch).cnt) (s.chan c ch).count.toNat (burstStarted c ch s))
        fun u => .ok (completeBurst c ch u) := by
  simp only [executeBody, Bool.not_eq_true']
  rfl

/-- From `u`, where a burst of channel `ch` has copied its elements and `d` is the channel, to `t`, where it has ended (R186,
R188). -/
structure BurstDone (c : Cpu) (ch : Fin 4) (u : State) (d : Channel) (t : State) : Prop where
  state : t = { u.setSide c (latchedIf (d.cnt.getLsbD 30)
      { u.side c with dma := (u.side c).dma.set ch.val (burstEnded d c ch) ch.isLt } (8 + ch.val)) with mem := t.mem }
  mirror : (d.cnt.getLsbD 25 && decide (modeField c d.cnt ≠ 0)) = false →
    HoldsAt t (ioRegion c) (cntOffset ch) 4 (burstEnded d c ch).cnt.toNat
  irq : IfShown (d.cnt.getLsbD 30) t c
  frame : SameOutside u t fun k => ((d.cnt.getLsbD 25 && decide (modeField c d.cnt ≠ 0)) = false ∧
    inBytes (ioRegion c) (cntOffset ch) 4 k) ∨ ifBytes (d.cnt.getLsbD 30) c k

theorem rearm_eq (d : Channel) (c : Cpu) (ch : Fin 4) : d.rearm c ch = rearmed d c ch := by
  rw [Channel.rearm, effCount_eq]
  rfl

/-- The end of a burst replaces the channel, rewrites the raw control word of one that stops, and raises the interrupt. -/
theorem completeBurst_eq (c : Cpu) (ch : Fin 4) (u : State) :
    completeBurst c ch u = raiseIf ((u.chan c ch).cnt.getLsbD 30) c (8 + ch.val)
      (if (u.chan c ch).cnt.getLsbD 25 && decide (modeField c (u.chan c ch).cnt ≠ 0) then
        withChan u c ch (burstEnded (u.chan c ch) c ch)
      else mirrorCnt c ch (withChan u c ch (burstEnded (u.chan c ch) c ch))) := by
  simp only [completeBurst, stopChannel, modChan_eq_withChan, withChan_chan, withChan_withChan, rearm_eq, bitAt,
    ne_eq, startMode_immediate_iff, burstEnded]
  split <;> rfl

/-- Replacing a channel and, where `again` fails, rewriting its raw control word. -/
theorem replaced_effect (again : Bool) (c : Cpu) (ch : Fin 4) (d : Channel) (u v : State)
    (hv : v = if again then withChan u c ch d else mirrorCnt c ch (withChan u c ch d)) :
    v = { withChan u c ch d with mem := v.mem } ∧
      (again = false → HoldsAt v (ioRegion c) (cntOffset ch) 4 d.cnt.toNat) ∧
      SameOutside u v fun k => again = false ∧ inBytes (ioRegion c) (cntOffset ch) 4 k := by
  subst hv
  cases again with
  | true => exact ⟨rfl, (fun h => nomatch h), .of_mem (setSide_mem u c _) _⟩
  | false =>
    have h := mirrorCnt_withChan_rewrites u c ch d
    exact ⟨rfl, fun _ => h.bytes, fun k hk => h.frame k fun hb => hk ⟨rfl, hb⟩⟩

theorem completeBurst_done (c : Cpu) (ch : Fin 4) (u : State) :
    BurstDone c ch u (u.chan c ch) (completeBurst c ch u) := by
  rw [completeBurst_eq]
  generalize u.chan c ch = d
  generalize hv : (if d.cnt.getLsbD 25 && decide (modeField c d.cnt ≠ 0) then withChan u c ch (burstEnded d c ch)
    else mirrorCnt c ch (withChan u c ch (burstEnded d c ch))) = v
  obtain ⟨hstate, hmirror, hframe⟩ := replaced_effect _ c ch (burstEnded d c ch) u v hv.symm
  obtain ⟨hraised, hirq, hlatch⟩ := raiseIf_effect (d.cnt.getLsbD 30) c (8 + ch.val) v
  have hside : v.side c = { u.side c with dma := (u.side c).dma.set ch.val (burstEnded d c ch) ch.isLt } := by
    rw [hstate, ← withChan_side]
    cases c <;> rfl
  rw [hside] at hraised
  refine ⟨?_, fun hagain => (hmirror hagain).keep hlatch fun k hk hif => ?_, hirq, hframe.trans hlatch ?_ ?_⟩
  · rw [hraised]
    generalize (raiseIf (d.cnt.getLsbD 30) c (8 + ch.val) v).mem = m
    rw [hstate]
    cases c <;> rfl
  · exact inBytes_io_apart c c _ _ _ _ _ (.inr (by simp only [cntOffset]; omega)) (by simp only [cntOffset]; omega)
      (by decide) hk hif.2
  · exact fun _ => .inl
  · exact fun _ => .inr

theorem BurstDone.chan_ne {c : Cpu} {ch k : Fin 4} {u t : State} {d : Channel} (h : BurstDone c ch u d t) (hk : k ≠ ch) :
    t.chan c k = u.chan c k := by
  have hside : t.side c = latchedIf (d.cnt.getLsbD 30) ((withChan u c ch (burstEnded d c ch)).side c) (8 + ch.val) := by
    rw [h.state, withChan_side]
    cases c <;> rfl
  rw [State.chan, hside, latchedIf_dma]
  exact withChan_chan_ne u c _ hk

/-- What reads do to the state: they draw answers and receive words. -/
theorem memRead_keeps {P : State → Prop} (hdraw : ∀ s k, P s → P (s.logDraw k)) (hrecv : ∀ s c, P s → P (recv c s).2)
    (c : Cpu) (addr : Word) (w : Width) {s : State} (hs : P s) : P (memRead c addr w s).2 := by
  have hregs : ∀ (l : List LReg) (o : Nat) (bs : List Byte) (u : State), P u → P (readRegs c o l bs u).2 := by
    intro l o
    induction l with
    | nil => exact fun _ _ h => h
    | cons r l ih =>
      intro bs u h
      rw [readRegs]
      split
      · exact ih _ _ h
      · next x hx =>
        refine ih _ _ ?_
        cases r <;> simp only [computedRead, Option.some.injEq, reduceCtorEq] at hx <;> subst hx
        case ipcFifoRecv => exact hrecv u c h
        case dispCapCnt | romCtrl | cardData | gxStat => exact hdraw u _ h
        all_goals exact h
  have hpass : ∀ (n : Nat) (a : Word) (u : State), P u → P (cartPassRead c a n u).2 := by
    intro n
    induction n with
    | zero => exact fun _ _ h => h
    | succ n ih => exact fun _ _ h => ih _ _ (hdraw _ _ h)
  dsimp only [memRead]
  split
  · exact hs
  · exact hpass _ _ _ hs
  · exact hdraw _ _ hs
  · exact hs
  · exact hregs _ _ _ _ hs
  · exact hs

theorem memRead_sameChannels (c : Cpu) (addr : Word) (w : Width) (s : State) : SameChannels s (memRead c addr w s).2 :=
  memRead_keeps (P := SameChannels s) (fun u k h => h.trans (sameChannels_logDraw u k))
    (fun u d h => h.trans fun e => recv_field (·.dma) latchedIf_dma (fun _ _ _ => rfl) d u e) c addr w (.refl s)

section Nested

variable {c : Cpu} {n : Nat} {exe exe' : Exe} (hexe : ExesNestAlike c n exe exe')

include hexe

theorem programChannel_nestsAlike (ch : Fin 4) (v : Word) {s : State} (hn : n ≤ runningCount c s) :
    NestsAlike c s (programChannel exe c ch v s) (programChannel exe' c ch v s) := by
  cases hrun : (s.chan c ch).executing with
  | true =>
    rw [programChannel_running hrun, programChannel_running hrun]
    exact .refused fun h => nomatch h
  | false =>
    have hkeeps : KeepsRunning c s (withChan s c ch (programmed (s.chan c ch) c ch v)) :=
      keepsRunning_withChan fun h => by rw [hrun] at h; cases h
    rw [programChannel_idle hrun, programChannel_idle hrun]
    refine NestsAlike.andThen (.of_keeps hkeeps ?_) fun t _ => .ok ((sameChannels_setRaw t c _ _ _).keepsRunning c)
    split
    · exact hexe ch _ (hn.trans hkeeps.count_le) (by rw [withChan_chan]; exact hrun)
    · exact .ok (.refl c _)

theorem handle_nestsAlike (o : Nat) (w : Width) (v : Word) (r : LReg) {s : State} (hn : n ≤ runningCount c s) :
    NestsAlike c s (handle exe c o w v r s) (handle exe' c o w v r s) := by
  cases r
  case dmaCnt ch => exact programChannel_nestsAlike hexe ch _ hn
  case dmaSad ch => exact .ok ((writeSad_rewrites c ch _ s).keepsRunning fun h => ⟨h, rfl⟩)
  case dmaDad ch => exact .ok ((writeDad_rewrites c ch _ s).keepsRunning fun h => ⟨h, rfl⟩)
  case mapCnt k =>
    simp only [handle, writeMapControl_eq]
    split
    · exact .ok ((sameChannels_mapConfigured s _).keepsRunning c)
    · exact .refused fun h => nomatch h
  case tmCntL t => exact .ok ((sameChannels_modTimer s c t _).keepsRunning c)
  case tmCntH t => exact .ok (((sameChannels_modTimer s c t _).trans (sameChannels_setRaw _ c _ _ _)).keepsRunning c)
  case ipcSync => exact .ok ((sameChannels_writeSync c _ s).keepsRunning c)
  case ipcFifoCnt => exact .ok ((sameChannels_fifoControl c _ s).keepsRunning c)
  case ipcFifoSend => exact .ok ((sameChannels_send c _ s).keepsRunning c)
  case auxSpiData => exact .ok ((sameChannels_writeSpiData c o w s).keepsRunning c)
  case ime => exact .ok (((setIME_rewrites c _ s).sameChannels rfl).keepsRunning c)
  case ie => exact .ok (((setIE_rewrites c _ s).sameChannels rfl).keepsRunning c)
  case iflag => exact .ok (((clearIF_rewrites c _ s).sameChannels rfl).keepsRunning c)
  case ipcFifoRecv | cardData | divCnt | divResult | divRemResult | sqrtCnt | sqrtResult => exact .ok (.refl c s)
  all_goals exact .ok ((sameChannels_logCall s _).keepsRunning c)

theorem forEach_handle_nestsAlike (o : Nat) (w : Width) (v : Word) (l : List LReg) : ∀ s, n ≤ runningCount c s →
    NestsAlike c s (forEach (handle exe c o w v) l s) (forEach (handle exe' c o w v) l s) := by
  induction l with
  | nil => exact fun s _ => .ok (.refl c s)
  | cons r l ih =>
    exact fun s hn => (handle_nestsAlike hexe o w v r hn).andThen fun t ht => ih t (hn.trans ht.count_le)

/-- A bus write runs handlers only in the CPU's own window. -/
theorem memWrite_nestsAlike (addr : Word) (w : Width) (v : Word) {s : State} (hn : n ≤ runningCount c s) :
    NestsAlike c s (memWrite exe c addr w v s) (memWrite exe' c addr w v s) := by
  simp only [memWrite]
  cases resolve c (alignAddr w addr) s with
  | io o =>
    have hstore := (sameChannels_setRaw s c o w.bytes (truncTo w v).toNat).keepsRunning c
    exact .of_keeps hstore (forEach_handle_nestsAlike hexe o w _ _ _ (hn.trans hstore.count_le))
  | tcw o => exact .ok (SameChannels.keepsRunning (fun d => by rw [regionWrite_side]) c)
  | storage r o => exact .ok (SameChannels.keepsRunning (fun d => by rw [regionWrite_side]) c)
  | cartPass =>
    rw [cartPassWrite_leBytes]
    exact .ok (SameChannels.keepsRunning (fun d => by cases d <;> rfl) c)
  | wifi => exact .ok ((sameChannels_logCall s _).keepsRunning c)
  | sink => exact .ok (.refl c s)

theorem elements_nestsAlike (ch : Fin 4) (w : Width) (m : Nat) : ∀ s, n ≤ runningCount c s →
    NestsAlike c s (elements exe c ch w m s) (elements exe' c ch w m s) := by
  induction m with
  | zero => exact fun s _ => .ok (.refl c s)
  | succ m ih =>
    intro s hn
    have hread := (memRead_sameChannels c (s.chan c ch).src w s).keepsRunning c
    refine .of_keeps hread (.andThen (memWrite_nestsAlike hexe _ w _ (hn.trans hread.count_le)) fun t ht => ?_)
    have hstep : KeepsRunning c t (t.modChan c ch fun d => d.advance w) := keepsRunning_withChan fun h => ⟨h, rfl⟩
    exact .of_keeps hstep (ih _ (((hn.trans hread.count_le).trans ht.count_le).trans hstep.count_le))

/-- A burst inside at least `n - 1` others whose element writes start bursts inside at least `n`. -/
theorem executeBody_nestsAlike {ch : Fin 4} {s : State} (hn : n ≤ runningCount c s + 1)
    (hidle : (s.chan c ch).executing = false) :
    NestsAlike c s (executeBody exe c ch s) (executeBody exe' c ch s) := by
  have hfree : ∀ {p : Prop}, (s.chan c ch).executing = true → p := fun h => by rw [hidle] at h; cases h
  rw [executeBody_eq, executeBody_eq]
  split
  · exact .ok (.refl c s)
  · split
    · exact .ok ((stopChannel_rewrites c ch s).keepsRunning hfree)
    · have hburst := elements_nestsAlike hexe ch (elementWidth (s.chan c ch).cnt) (s.chan c ch).count.toNat
        (burstStarted c ch s) (hn.trans (runningCount_burstStarted hidle))
      generalize elements exe c ch _ _ (burstStarted c ch s) = r at hburst
      generalize elements exe' c ch _ _ (burstStarted c ch s) = r' at hburst
      cases hburst with
      | refused h => exact .refused h
      | @ok u h =>
        refine .ok fun k hk => ?_
        have hne : k ≠ ch := fun e => hfree (e ▸ hk)
        have hstart : (burstStarted c ch s).chan c k = s.chan c k := withChan_chan_ne s c _ hne
        rw [(completeBurst_done c ch u).chan_ne hne, ← hstart]
        exact h k (hstart ▸ hk)

end Nested

/-- A burst inside `n` others of its CPU nests no fifth, and a deeper bound would change nothing (R187). -/
theorem executeDepth_nestsAlike (c : Cpu) (m : Nat) : ∀ n, 4 ≤ m + n →
    ExesNestAlike c n (executeDepth m) (executeDepth (m + 1)) := by
  induction m with
  | zero =>
    intro n hfour ch s hn hidle
    have hfree := runningCount_lt hidle
    omega
  | succ m ih =>
    exact fun n hfour ch s hn hidle =>
      executeBody_nestsAlike (ih (n + 1) (by omega)) (Nat.succ_le_succ hn) hidle

/-- The bursts that the element writes of a burst start. -/
theorem nestedBursts_alike (c : Cpu) : ExesNestAlike c 1 (executeDepth 3) execute :=
  executeDepth_nestsAlike c 3 1 (by decide)

theorem execute_eq (c : Cpu) (ch : Fin 4) (s : State) : execute c ch s = executeBody (executeDepth 3) c ch s := rfl

/-- Settles O44: the elements run with a channel marked, and each burst inside marks one more. -/
theorem burstsNestAtMostFourDeep : Obligations.BurstsNestAtMostFourDeep := by
  intro s c ch d
  have hburst := elements_nestsAlike (nestedBursts_alike c) ch (elementWidth (s.chan c ch).cnt)
    (s.chan c ch).count.toNat (burstStarted c ch s) (runningCount_pos (burstStarted_executing c ch s))
  rw [execute_eq, executeBody_eq]
  split
  · exact fun h => nomatch h
  · split
    · exact fun h => nomatch h
    · cases hrun : elements (executeDepth 3) c ch (elementWidth (s.chan c ch).cnt) (s.chan c ch).count.toNat
        (burstStarted c ch s) with
      | ok t => exact fun h => nomatch h
      | error e => exact fun h => hburst.not_tooDeep d (hrun.trans h)

end Sys2Proof.Machine
end

section
/-! Changes of the state that an access does not see: the reply of the request around it, and, outside the register
window, the channel whose burst makes it. -/

namespace Sys2Proof.Machine

/-! ### The decode -/

theorem resolve_congr {s t : State} (htcw : t.tcwBase = s.tcwBase) (hconfig : t.config = s.config)
    (hcart : t.cart = s.cart) (htable : ∀ c, (t.side c).table = (s.side c).table) (c : Cpu) (a : Word) :
    resolve c a t = resolve c a s := by
  simp only [resolve, tcwHit, State.entry, htcw, hconfig, hcart, htable]
  rfl

/-- Every address of either CPU decodes as before. -/
def DecodesAs (s t : State) : Prop :=
  ∀ c a, resolve c a t = resolve c a s

theorem DecodesAs.trans {s t u : State} (h : DecodesAs s t) (h' : DecodesAs t u) : DecodesAs s u :=
  fun c a => (h' c a).trans (h c a)

theorem decodesAs_recv (c : Cpu) (s : State) : DecodesAs s (recv c s).2 := by
  have hframe : (recv c s).2.tcwBase = s.tcwBase ∧ (recv c s).2.config = s.config ∧ (recv c s).2.cart = s.cart := by
    cases hq : (s.side c).fifo with
    | nil => rw [recv_empty c s hq]; exact ⟨rfl, rfl, rfl⟩
    | cons v q =>
      have hdone := (recv_done c s v q hq).2
      cases c <;> rw [hdone.state] <;> exact ⟨rfl, rfl, rfl⟩
  exact resolve_congr hframe.1 hframe.2.1 hframe.2.2 (recv_field (·.table) latchedIf_table (fun _ _ _ => rfl) c s)

/-- A read changes no decode (20_memory.md R67). -/
theorem decodesAs_memRead (c : Cpu) (addr : Word) (w : Width) (s : State) : DecodesAs s (memRead c addr w s).2 :=
  memRead_keeps (P := DecodesAs s)
    (fun u k h => h.trans (resolve_congr rfl rfl rfl fun e => by rw [logDraw_side]))
    (fun u d h => h.trans (decodesAs_recv d u)) c addr w fun _ _ => rfl

/-! ### Accesses outside the window -/

/-- A change of the state that storage, the collaborators and the decode do not see, and that they leave alone. -/
structure Bystander (g : State → State) : Prop where
  resolve : ∀ c a s, resolve c a (g s) = resolve c a s
  mem : ∀ s, (g s).mem = s.mem
  log : ∀ s, (g s).log = s.log
  draws : ∀ s, (g s).draws = s.draws
  write : ∀ s m, { g s with mem := m } = g { s with mem := m }
  called : ∀ s l d, { g s with log := l, draws := d } = g { s with log := l, draws := d }

theorem Bystander.logCall {g : State → State} (h : Bystander g) (s : State) (k : Call) :
    (g s).logCall k = g (s.logCall k) := by
  change ({ g s with log := (g s).log ++ [k], draws := (g s).draws } : State) = _
  rw [h.log, h.draws]
  exact h.called s _ _

theorem Bystander.logDraw {g : State → State} (h : Bystander g) (s : State) (k : Call) :
    (g s).logDraw k = g (s.logDraw k) := by
  change ({ g s with log := (g s).log ++ [k], draws := (g s).draws + 1 } : State) = _
  rw [h.log, h.draws]
  exact h.called s _ _

theorem Bystander.regionWrite {g : State → State} (h : Bystander g) (s : State) (r : Region) (o n v : Nat) :
    (g s).regionWrite r o n v = g (s.regionWrite r o n v) := by
  change ({ g s with mem := Memory.leWrite (g s).mem _ _ _ } : State) = _
  rw [h.mem]
  exact h.write s _

theorem Bystander.cartPassWrite {g : State → State} (h : Bystander g) (c : Cpu) (bs : List Byte) :
    ∀ (a : Word) (s : State),
    cartPassWrite c a bs (g s) = g (Machine.cartPassWrite c a bs s) := by
  induction bs with
  | nil => exact fun _ _ => rfl
  | cons b bs ih => exact fun a s => (congrArg _ (h.logCall s _)).trans (ih _ _)

/-- A read outside the register window neither sees a bystander nor changes it. -/
theorem Bystander.memRead {g : State → State} (h : Bystander g) {c : Cpu} {addr : Word} {w : Width} {s : State}
    (hio : ∀ o, Machine.resolve c (alignAddr w addr) s ≠ .io o) :
    memRead c addr w (g s) = ((Machine.memRead c addr w s).1, g (Machine.memRead c addr w s).2) := by
  simp only [Machine.memRead, h.resolve]
  cases htarget : Machine.resolve c (alignAddr w addr) s with
  | io o => exact absurd htarget (hio o)
  | tcw o => simp only [State.regionRead, h.mem]
  | storage r o => simp only [State.regionRead, h.mem]
  | cartPass => simp only [cartPassRead_eq, h.log, h.draws, h.called]
  | wifi => simp only [callWifiRead, h.logDraw, h.draws]
  | sink => rfl

/-- And so with a write, which starts no burst there. -/
theorem Bystander.memWrite {g : State → State} (h : Bystander g) (exe exe' : Exe) {c : Cpu} {addr : Word} {w : Width}
    (v : Word) {s : State} (hio : ∀ o, Machine.resolve c (alignAddr w addr) s ≠ .io o) :
    memWrite exe c addr w v (g s) = Except.map g (Machine.memWrite exe' c addr w v s) := by
  simp only [Machine.memWrite, h.resolve]
  cases htarget : Machine.resolve c (alignAddr w addr) s with
  | io o => exact absurd htarget (hio o)
  | tcw o => exact congrArg _ (h.regionWrite s _ _ _ _)
  | storage r o => exact congrArg _ (h.regionWrite s _ _ _ _)
  | cartPass => exact congrArg _ (h.cartPassWrite _ _ _ _)
  | wifi => exact congrArg _ (h.logCall s _)
  | sink => rfl

/-- A write outside the register window is not refused and changes no decode. -/
theorem memWrite_outside (exe : Exe) {c : Cpu} {addr : Word} {w : Width} (v : Word) {s : State}
    (hio : ∀ o, resolve c (alignAddr w addr) s ≠ .io o) :
    ∃ t, memWrite exe c addr w v s = .ok t ∧ DecodesAs s t := by
  simp only [memWrite]
  cases htarget : resolve c (alignAddr w addr) s with
  | io o => exact absurd htarget (hio o)
  | tcw o => exact ⟨_, rfl, resolve_congr rfl rfl rfl fun _ => by rw [regionWrite_side]⟩
  | storage r o => exact ⟨_, rfl, resolve_congr rfl rfl rfl fun _ => by rw [regionWrite_side]⟩
  | cartPass =>
    rw [cartPassWrite_leBytes]
    exact ⟨_, rfl, resolve_congr rfl rfl rfl fun d => by cases d <;> rfl⟩
  | wifi => exact ⟨_, rfl, resolve_congr rfl rfl rfl fun _ => by rw [logCall_side]⟩
  | sink => exact ⟨_, rfl, fun _ _ => rfl⟩

theorem bystander_answer (r : Reply) : Bystander (·.answer r) where
  resolve c a s := resolve_congr rfl rfl rfl (fun _ => by rw [answer_side]) c a
  mem _ := rfl
  log _ := rfl
  draws _ := rfl
  write _ _ := rfl
  called _ _ _ := rfl

theorem bystander_withChan (c : Cpu) (ch : Fin 4) (d : Channel) : Bystander (withChan · c ch d) where
  resolve e a s := resolve_congr (setSide_tcwBase _ _ _) (setSide_config _ _ _) (setSide_cart _ _ _)
    (fun e => modChan_side_table s c e ch fun _ => d) e a
  mem _ := setSide_mem _ _ _
  log _ := setSide_log _ _ _
  draws _ := setSide_draws _ _ _
  write _ _ := by cases c <;> rfl
  called _ _ _ := by cases c <;> rfl

end Sys2Proof.Machine
end

section
/-! The reply of a request (30_encoding.md R83) is written when the request ends: no access reads it, so that the accesses
of a burst leave the reply of the request around them. -/

namespace Sys2Proof.Machine

/-! ### Operations on the state -/

theorem setRaw_answer (s : State) (r : Reply) (c : Cpu) (o n v : Nat) :
    (s.answer r).setRaw c o n v = (s.setRaw c o n v).answer r := rfl

theorem logDraw_answer (s : State) (r : Reply) (k : Call) : (s.answer r).logDraw k = (s.logDraw k).answer r := rfl

theorem modSide_answer (s : State) (r : Reply) (c : Cpu) (f : CpuSide → CpuSide) :
    (s.answer r).modSide c f = (s.modSide c f).answer r := by cases c <;> rfl

theorem withChan_answer (s : State) (r : Reply) (c : Cpu) (ch : Fin 4) (d : Channel) :
    withChan (s.answer r) c ch d = (withChan s c ch d).answer r := by cases c <;> rfl

theorem raiseIf_answer (k : Bool) (c : Cpu) (b : Nat) (s : State) (r : Reply) :
    raiseIf k c b (s.answer r) = (raiseIf k c b s).answer r := by cases k <;> cases c <;> rfl

theorem mirrorCnt_answer (c : Cpu) (ch : Fin 4) (s : State) (r : Reply) :
    mirrorCnt c ch (s.answer r) = (mirrorCnt c ch s).answer r := by
  rw [mirrorCnt, answer_chan, setRaw_answer, mirrorCnt]

theorem mirrorFifoCnt_answer (c : Cpu) (s : State) (r : Reply) :
    mirrorFifoCnt c (s.answer r) = (mirrorFifoCnt c s).answer r := by cases c <;> rfl

theorem mirrorSync_answer (c : Cpu) (s : State) (r : Reply) :
    mirrorSync c (s.answer r) = (mirrorSync c s).answer r := by cases c <;> rfl

theorem fifoSettle_answer (before : FifoConditions) (s : State) (r : Reply) :
    fifoSettle before (s.answer r) = (fifoSettle before s).answer r := by
  have hnow : fifoConditions (s.answer r) = fifoConditions s := rfl
  simp only [fifoSettle, fifoIrqEdges, hnow, raiseIf_answer, mirrorFifoCnt_answer]

theorem setFifo_answer (c : Cpu) (q : List Word) (s : State) (r : Reply) :
    setFifo c q (s.answer r) = (setFifo c q s).answer r := modSide_answer s r c _

/-- A step taken under a condition. -/
theorem ite_answer (p : Prop) [Decidable p] (s t : State) (r : Reply) :
    (if p then s.answer r else t.answer r) = (if p then s else t).answer r := by split <;> rfl

theorem writeSync_answer (c : Cpu) (v : Word) (s : State) (r : Reply) :
    writeSync c v (s.answer r) = (writeSync c v s).answer r := by
  simp only [writeSync, modSide_answer, answer_side, raiseIf_answer, mirrorSync_answer]

theorem fifoControl_answer (c : Cpu) (v : Word) (s : State) (r : Reply) :
    fifoControl c v (s.answer r) = (fifoControl c v s).answer r := by
  have hbefore : fifoConditions (s.answer r) = fifoConditions s := rfl
  simp only [fifoControl, hbefore, modSide_answer, answer_side, setFifo_answer, ite_answer, fifoSettle_answer]

theorem send_answer (c : Cpu) (v : Word) (s : State) (r : Reply) : send c v (s.answer r) = (send c v s).answer r := by
  have hbefore : fifoConditions (s.answer r) = fifoConditions s := rfl
  simp only [send, hbefore, answer_side, setFifo_answer, ite_answer, fifoSettle_answer]

theorem recv_answer (c : Cpu) (s : State) (r : Reply) :
    recv c (s.answer r) = ((recv c s).1, (recv c s).2.answer r) := by
  have hbefore : fifoConditions (s.answer r) = fifoConditions s := rfl
  simp only [recv, answer_side, hbefore, modSide_answer, fifoSettle_answer]
  split <;> rfl

theorem setReload_answer (c : Cpu) (t : Fin 4) (v : Half) (s : State) (r : Reply) :
    setReload c t v (s.answer r) = (setReload c t v s).answer r := by
  rw [setReload, State.modTimer, modSide_answer]
  rfl

theorem writeSpiData_answer (c : Cpu) (o : Nat) (w : Width) (s : State) (r : Reply) :
    writeSpiData c o w (s.answer r) = (writeSpiData c o w s).answer r := by
  have hraw : ∀ o n, (s.answer r).raw c o n = s.raw c o n := fun _ _ => rfl
  simp only [writeSpiData, callTransfer, hraw, answer_draws, logDraw_answer, setRaw_answer, ite_answer]

theorem mapConfigured_answer (s : State) (r : Reply) (k : Nat) :
    mapConfigured (s.answer r) k = (mapConfigured s k).answer r := by
  have hrepoint : ∀ (u : State) (p : Repoint), repointed (u.answer r) p = (repointed u p).answer r := fun u p => by
    rw [repointed, State.setEntry, modSide_answer]
    rfl
  have hfold : ∀ (l : List Repoint) (u : State), l.foldl repointed (u.answer r) = (l.foldl repointed u).answer r := by
    intro l
    induction l with
    | nil => exact fun _ => rfl
    | cons p l ih => exact fun u => by rw [List.foldl_cons, List.foldl_cons, hrepoint, ih]
  exact hfold _ (s.logDraw (.mapConfigure (BitVec.ofNat 24 k) (s.ioByte .c0 k) (Config.answerMap s.draws)))

theorem stopChannel_answer (c : Cpu) (ch : Fin 4) (s : State) (r : Reply) :
    stopChannel c ch (s.answer r) = (stopChannel c ch s).answer r := by
  simp only [stopChannel, State.modChan, modSide_answer, mirrorCnt_answer]

theorem completeBurst_answer (c : Cpu) (ch : Fin 4) (s : State) (r : Reply) :
    completeBurst c ch (s.answer r) = (completeBurst c ch s).answer r := by
  simp only [completeBurst_eq, answer_chan, withChan_answer, mirrorCnt_answer, ite_answer, raiseIf_answer]

/-! ### Results -/

/-- A result with another reply. -/
def resAnswer (r : Reply) (x : Res) : Res :=
  Except.map (·.answer r) x

theorem resAnswer_ok (r : Reply) (s : State) : resAnswer r (.ok s) = .ok (s.answer r) := rfl

theorem resAnswer_error (r : Reply) (e : Stop) : resAnswer r (.error e) = .error e := rfl

/-- An operation does not see the reply. -/
def Blind (f : State → Res) : Prop :=
  ∀ s r, f (s.answer r) = resAnswer r (f s)

theorem Blind.andThen {f g : State → Res} (hf : Blind f) (hg : Blind g) : Blind fun s => Machine.andThen (f s) g := by
  intro s r
  simp only [hf s r]
  cases f s with
  | ok t => exact hg t r
  | error e => rfl

theorem Blind.of_state {f : State → State} (h : ∀ s r, f (s.answer r) = (f s).answer r) : Blind fun s => .ok (f s) :=
  fun s r => congrArg Except.ok (h s r)

theorem blind_forEach {α : Type} {f : α → State → Res} (hf : ∀ x, Blind (f x)) (l : List α) : Blind (forEach f l) := by
  induction l with
  | nil => exact fun _ _ => rfl
  | cons x l ih => exact (hf x).andThen ih

/-- What the operation ends in has the reply it started with. -/
theorem Blind.reply {f : State → Res} (hf : Blind f) {s t : State} (h : f s = .ok t) : t.reply = s.reply := by
  have hself : f (s.answer s.reply) = .ok t := h
  rw [hf, h, resAnswer_ok] at hself
  have hreply := congrArg State.reply (Except.ok.inj hself)
  exact hreply.symm

section Burst

variable {exe : Exe} (hexe : ∀ c ch, Blind (exe c ch))

include hexe

theorem blind_programChannel (c : Cpu) (ch : Fin 4) (v : Word) : Blind (programChannel exe c ch v) := by
  intro s r
  cases hrun : (s.chan c ch).executing with
  | true => rw [programChannel_running hrun, programChannel_running (by rw [answer_chan, hrun])]; rfl
  | false =>
    rw [programChannel_idle hrun, programChannel_idle (by rw [answer_chan, hrun]), answer_chan, withChan_answer]
    split
    · exact (hexe c ch).andThen (.of_state (mirrorCnt_answer c ch)) _ r
    · exact congrArg _ (mirrorCnt_answer c ch _ r)

theorem blind_handle (c : Cpu) (o : Nat) (w : Width) (v : Word) (r : LReg) : Blind (handle exe c o w v r) := by
  cases r
  case dmaCnt ch => exact fun s a => blind_programChannel hexe c ch _ s a
  case dmaSad ch => exact fun s a => congrArg _ (congrArg (State.setRaw · c _ 4 _) (modSide_answer s a c _))
  case dmaDad ch => exact fun s a => congrArg _ (congrArg (State.setRaw · c _ 4 _) (modSide_answer s a c _))
  case mapCnt k =>
    intro s a
    simp only [handle, writeMapControl_eq, mapConfigured_answer, answer_cart, answer_draws]
    split <;> rfl
  case tmCntL t => exact fun s a => congrArg _ (setReload_answer c t _ s a)
  case tmCntH t => exact fun s a => congrArg _ (congrArg (State.setRaw · c _ 2 _) (modSide_answer s a c _))
  case ipcSync => exact fun s a => congrArg _ (writeSync_answer c _ s a)
  case ipcFifoCnt => exact fun s a => congrArg _ (fifoControl_answer c _ s a)
  case ipcFifoSend => exact fun s a => congrArg _ (send_answer c _ s a)
  case auxSpiData => exact fun s a => congrArg _ (writeSpiData_answer c o w s a)
  case ime | ie | iflag => cases c <;> exact fun _ _ => rfl
  all_goals exact fun _ _ => rfl

theorem blind_memWrite (c : Cpu) (addr : Word) (w : Width) (v : Word) : Blind (memWrite exe c addr w v) := by
  intro s r
  by_cases hio : ∃ o, resolve c (alignAddr w addr) s = .io o
  · obtain ⟨o, ho⟩ := hio
    have ho' : resolve c (alignAddr w addr) (s.answer r) = .io o := ((bystander_answer r).resolve _ _ _).trans ho
    simp only [memWrite, ho, ho']
    exact blind_forEach (blind_handle hexe c o w _) _ (s.setRaw c o w.bytes _) r
  · exact (bystander_answer r).memWrite exe exe v fun o h => hio ⟨o, h⟩

end Burst

/-! ### Reads -/

theorem computedRead_answer (c : Cpu) (l : LReg) (s : State) (r : Reply) :
    computedRead c l (s.answer r) = (computedRead c l s).map fun x => (x.1, x.2.answer r) := by
  cases l
  case ipcFifoRecv => simp only [computedRead, recv_answer, Option.map]
  case tmCntL t => cases c <;> rfl
  all_goals rfl

theorem readRegs_answer (c : Cpu) (o : Nat) (l : List LReg) (r : Reply) : ∀ (bs : List Byte) (s : State),
    readRegs c o l bs (s.answer r) = ((readRegs c o l bs s).1, (readRegs c o l bs s).2.answer r) := by
  induction l with
  | nil => exact fun _ _ => rfl
  | cons x l ih =>
    intro bs s
    simp only [readRegs, computedRead_answer]
    cases computedRead c x s with
    | none => exact ih bs s
    | some y => exact ih _ y.2

theorem memRead_answer (c : Cpu) (addr : Word) (w : Width) (s : State) (r : Reply) :
    memRead c addr w (s.answer r) = ((memRead c addr w s).1, (memRead c addr w s).2.answer r) := by
  by_cases hio : ∃ o, resolve c (alignAddr w addr) s = .io o
  · obtain ⟨o, ho⟩ := hio
    have ho' : resolve c (alignAddr w addr) (s.answer r) = .io o := ((bystander_answer r).resolve _ _ _).trans ho
    simp only [memRead, ho, ho', ioRead, answer_mem, readRegs_answer]
  · exact (bystander_answer r).memRead fun o h => hio ⟨o, h⟩

theorem memRead_reply (c : Cpu) (addr : Word) (w : Width) (s : State) : (memRead c addr w s).2.reply = s.reply := by
  have hself := congrArg (·.2.reply) (memRead_answer c addr w s s.reply)
  exact hself

/-! ### Bursts -/

theorem blind_elements {exe : Exe} (hexe : ∀ c ch, Blind (exe c ch)) (c : Cpu) (ch : Fin 4) (w : Width) (n : Nat) :
    Blind (elements exe c ch w n) := by
  induction n with
  | zero => exact fun _ _ => rfl
  | succ n ih =>
    intro s r
    have hstep : Blind fun t => elements exe c ch w n (t.modChan c ch fun d => d.advance w) := fun t a =>
      (congrArg _ (withChan_answer t a c ch _)).trans (ih _ a)
    simp only [elements, answer_chan, memRead_answer]
    exact (blind_memWrite hexe c _ w _).andThen hstep _ r

theorem blind_executeDepth (n : Nat) : ∀ c ch, Blind (executeDepth n c ch) := by
  induction n with
  | zero => exact fun _ _ _ _ => rfl
  | succ n ih =>
    intro c ch s r
    simp only [executeDepth, executeBody_eq, answer_chan, burstStarted, withChan_answer, stopChannel_answer]
    split
    · rfl
    · split
      · rfl
      · exact (blind_elements ih c ch _ _).andThen (.of_state (completeBurst_answer c ch)) _ r

theorem blind_execute (c : Cpu) (ch : Fin 4) : Blind (execute c ch) := blind_executeDepth burstDepth c ch

end Sys2Proof.Machine
end

section
/-! The elements of a burst (42_dma.md R185 to R188): the run of the model's loop is the elements in order, each one bus
read and one bus write. -/

namespace Sys2Proof.Machine

/-! ### Addresses -/

/-- The two spellings of the address step (R185). -/
theorem stepAddr_eq (a : Word) (k : BitVec 2) (w : Width) : stepAddr a k w = steppedBy k w a 1 := by
  rw [steppedBy, Nat.one_mul]
  fin_cases k <;> rfl

theorem advance_eq (d : Channel) :
    d.advance (widthOf d.cnt) = { d with
      src := steppedBy (d.cnt.extractLsb' 23 2) (widthOf d.cnt) d.src 1
      dst := steppedBy (d.cnt.extractLsb' 21 2) (widthOf d.cnt) d.dst 1 } := by
  rw [Channel.advance, stepAddr_eq, stepAddr_eq]
  rfl

/-! ### The loop -/

/-- A run of elements is a first part and a rest. -/
theorem elements_add (exe : Exe) (c : Cpu) (ch : Fin 4) (w : Width) (m n : Nat) : ∀ s,
    elements exe c ch w (m + n) s = andThen (elements exe c ch w m s) (elements exe c ch w n) := by
  induction m with
  | zero => intro s; rw [Nat.zero_add, elements, andThen_ok]
  | succ m ih =>
    intro s
    rw [Nat.succ_add, elements, elements]
    cases memWrite exe c _ w _ (memRead c (s.chan c ch).src w s).2 with
    | ok t => exact ih _
    | error e => rfl

theorem elements_one (exe : Exe) (c : Cpu) (ch : Fin 4) (w : Width) (s : State) :
    elements exe c ch w 1 s =
      andThen (memWrite exe c (s.chan c ch).dst w (memRead c (s.chan c ch).src w s).1 (memRead c (s.chan c ch).src w s).2)
        fun t => .ok (t.modChan c ch fun d => d.advance w) := by
  rw [elements, (memRead_sameChannels c _ w s).chan]
  rfl

section Running

variable {c : Cpu} {ch : Fin 4} {s : State} (hrun : (s.chan c ch).executing = true)

include hrun

theorem memWrite_keepsRunning {a : Word} {w : Width} {v : Word} {t : State} (h : memWrite execute c a w v s = .ok t) :
    KeepsRunning c s t := by
  have halike := memWrite_nestsAlike (nestedBursts_alike c) a w v (runningCount_pos hrun)
  rw [halike.eq, h] at halike
  exact halike.keeps

theorem elements_keepsRunning {w : Width} {n : Nat} {t : State} (h : elements execute c ch w n s = .ok t) :
    KeepsRunning c s t := by
  have halike := elements_nestsAlike (nestedBursts_alike c) ch w n s (runningCount_pos hrun)
  rw [halike.eq, h] at halike
  exact halike.keeps

end Running

/-- `Execute` of an active channel whose burst is not degenerate: its elements, each with the bursts its write starts, then
the end. -/
theorem execute_running {c : Cpu} {ch : Fin 4} {s : State} (hactive : (s.chan c ch).active = true)
    (hcount : (s.chan c ch).count ≠ 0) (hne : (s.chan c ch).src ≠ (s.chan c ch).dst) :
    execute c ch s =
      andThen (elements execute c ch (widthOf (s.chan c ch).cnt) (s.chan c ch).count.toNat (burstStarted c ch s)) fun u =>
        .ok (completeBurst c ch u) := by
  have halike := elements_nestsAlike (nestedBursts_alike c) ch (widthOf (s.chan c ch).cnt) (s.chan c ch).count.toNat
    (burstStarted c ch s) (runningCount_pos (burstStarted_executing c ch s))
  rw [execute_eq, executeBody_eq, if_neg (by simp [hactive]), if_neg (not_or.mpr ⟨hcount, hne⟩), ← halike.eq]
  rfl

/-! ### An element as two bus accesses -/

/-- The two accesses of an element leave the reply of the request around the burst. -/
theorem elementCopied_eq (c : Cpu) (w : Width) (src dst : Word) (s : State) :
    elementCopied c w src dst s =
      settle (memRead c src w s).2 (memWrite execute c dst w (memRead c src w s).1 (memRead c src w s).2) := by
  simp only [elementCopied, exec_readInstr, finishValue, answer_reply, exec_writeInstr, finish]
  have hreply := memRead_reply c src w s
  generalize memRead c src w s = x at hreply
  rw [blind_memWrite blind_execute]
  cases hwrite : memWrite execute c dst w x.1 x.2 with
  | ok t =>
    have ht := (blind_memWrite blind_execute c dst w x.1).reply hwrite
    rw [resAnswer_ok, settle_ok, settle_ok, ← hreply, ← ht]
    rfl
  | error e =>
    rw [resAnswer_error, settle_error, settle_error, ← hreply]
    rfl

/-- One element of a running burst shows what one turn of the loop did. -/
theorem burstElement_shows {c : Cpu} {ch : Fin 4} {s : State} (hs : s.refused = false)
    (hrun : (s.chan c ch).executing = true) :
    Shows (burstElement c ch s) (elements execute c ch (widthOf (s.chan c ch).cnt) 1 s) := by
  have hread := memRead_sameChannels c (s.chan c ch).src (widthOf (s.chan c ch).cnt) s
  have hmark := (memRead_refused c (s.chan c ch).src (widthOf (s.chan c ch).cnt) s).trans hs
  rw [elements_one]
  simp only [burstElement, elementCopied_eq]
  rw [← hread.chan c ch] at hrun
  have hcnt := congrArg Channel.cnt (hread.chan c ch)
  generalize memRead c (s.chan c ch).src (widthOf (s.chan c ch).cnt) s = x at hrun hmark hcnt
  cases hwrite : memWrite execute c (s.chan c ch).dst (widthOf (s.chan c ch).cnt) x.1 x.2 with
  | ok t =>
    have hkept := ((memWrite_keepsRunning hrun hwrite) ch hrun).2.trans hcnt
    rw [settle_ok, andThen_ok, ← hkept, ← advance_eq]
    exact ⟨rfl, ((setSide_refused _ _ _).trans (memWrite_refused hwrite)).trans hmark⟩
  | error e => exact ⟨setSide_refused _ _ _, setSide_draws _ _ _⟩

/-- The elements of a running burst show what the loop did. -/
theorem burstElements_shows {c : Cpu} {ch : Fin 4} {s : State} (hs : s.refused = false)
    (hrun : (s.chan c ch).executing = true) (n : Nat) :
    Shows (burstElements c ch n s) (elements execute c ch (widthOf (s.chan c ch).cnt) n s) := by
  induction n with
  | zero => exact ⟨rfl, hs⟩
  | succ n ih =>
    rw [elements_add, burstElements]
    cases hbefore : elements execute c ch (widthOf (s.chan c ch).cnt) n s with
    | ok t =>
      rw [hbefore] at ih
      obtain ⟨heq, ht⟩ := ih
      obtain ⟨hrun', hcnt⟩ := elements_keepsRunning hrun hbefore ch hrun
      rw [heq, if_neg (by simp [ht]), andThen_ok, ← hcnt]
      exact burstElement_shows ht hrun'
    | error e =>
      rw [hbefore] at ih
      rw [if_pos ih.1]
      exact ih

/-! ### An element that writes the burst's own control word -/

/-- A bus write into the DMAnCNT of a running channel is refused (R187). -/
theorem memWrite_ownControlWord {exe : Exe} {c : Cpu} {ch : Fin 4} {s : State} {w : Width} {addr v : Word} {o : Nat}
    (hrun : (s.chan c ch).executing = true) (hio : resolve c (alignAddr w addr) s = .io o) (ha : o % w.bytes = 0)
    (hlo : o < cntOffset ch + 4) (hhi : cntOffset ch < o + w.bytes) :
    memWrite exe c addr w v s = .error ⟨.dmaSelfProgram, s.draws⟩ := by
  have hwords : cntOffset ch % 4 = 0 := by simp only [cntOffset]; omega
  have hbegin : cntOffset ch ≤ o := by
    rcases width_bytes_cases w with hw | hw | hw <;> rw [hw] at ha hhi <;> omega
  have htouched : touched c w o = [.dmaCnt ch] :=
    (dmaCnt_own c ch).touched hbegin (aligned_inside ha hwords (Nat.mod_self 4) hlo)
  have hstored : ((s.setRaw c o w.bytes (truncTo w v).toNat).chan c ch).executing = true := by rw [setRaw_chan, hrun]
  simp only [memWrite, hio, ioWrite, onRegisterWrite, htouched, forEach_cons, handle, programChannel_running hstored, refuse,
    andThen_error, setRaw_draws]

/-- The element of a running burst that writes the burst's own control word is refused, once its source was read. -/
theorem element_ownControlWord {c : Cpu} {ch : Fin 4} {u : State} {w : Width} {o : Nat}
    (hrun : (u.chan c ch).executing = true) (hwindow : AtWindow u c (alignTo w (u.chan c ch).dst.toNat) o)
    (hlo : o < cntOffset ch + 4) (hhi : cntOffset ch < o + w.bytes) :
    elements execute c ch w 1 u = .error ⟨.dmaSelfProgram, (memRead c (u.chan c ch).src w u).2.draws⟩ := by
  have ha := (atWindow_bound w c _ u o hwindow).1
  rw [← alignAddr_alignTo] at hwindow
  have hio := (decodesAs_memRead c (u.chan c ch).src w u c _).trans (resolve_io c _ u o hwindow)
  rw [← (memRead_sameChannels c (u.chan c ch).src w u).chan c ch] at hrun
  rw [elements_one, memWrite_ownControlWord hrun hio ha hlo hhi, andThen_error]

/-- Settles O43: the elements show what the loop of `Execute` did, and a write of the own control word ends it. -/
theorem burstsRunElementByElement : Obligations.BurstsRunElementByElement := by
  intro s c ch hs hactive hcount hne
  have hstart : (burstStarted c ch s).refused = false := (setSide_refused _ _ _).trans hs
  have hrun := burstStarted_executing c ch s
  have hshows := burstElements_shows hstart hrun
  have hcnt : ((burstStarted c ch s).chan c ch).cnt = (s.chan c ch).cnt := by rw [burstStarted, withChan_chan]
  rw [hcnt] at hshows
  rw [exec_execute, execute_running hactive hcount hne]
  constructor
  · intro u d again irq
    cases hu : u.refused with
    | true =>
      obtain ⟨why, hloop⟩ := (hshows _).eq_error hu
      rw [hloop]
      exact ⟨_, rfl, fun _ => rfl, nofun⟩
    | false =>
      have hdone := completeBurst_done c ch u
      rw [(hshows _).eq_ok hu]
      exact ⟨_, rfl, nofun, fun _ => ⟨hdone.state, hdone.mirror, hdone.irq, hdone.frame⟩⟩
  · intro k o hk u w hu hwindow hlo hhi
    have hbefore := (hshows k).eq_ok hu
    obtain ⟨hrun', hcnt'⟩ := elements_keepsRunning hrun hbefore ch hrun
    have hw : widthOf (s.chan c ch).cnt = w := by rw [← hcnt, ← hcnt']
    obtain ⟨m, hm⟩ : ∃ m, (s.chan c ch).count.toNat = k + (1 + m) := ⟨(s.chan c ch).count.toNat - k - 1, by omega⟩
    rw [hm, hw, elements_add, ← hw, hbefore, andThen_ok, elements_add, hw, element_ownControlWord hrun' hwindow hlo hhi,
      andThen_error, andThen_error, finish_error, exec_readInstr]
    rfl

end Sys2Proof.Machine
end

section
/-! Bursts outside the register window (42_dma.md R186, 20_memory.md R76): no access runs a handler or moves a window, so
that the elements are copies at the addresses of the state before the burst. -/

namespace Sys2Proof.Machine

/-! ### Addresses -/

theorem steppedBy_steppedBy (k : BitVec 2) (w : Width) (a : Word) (n : Nat) :
    steppedBy k w (steppedBy k w a n) 1 = steppedBy k w a (n + 1) := by
  simp only [steppedBy, Nat.add_mul, BitVec.ofNat_add]
  split
  · ring
  · split
    · rfl
    · ring

/-- An address outside the register window does not decode to it. -/
theorem NotWindow.resolve_ne_io {s : State} {c : Cpu} {w : Width} {a : Word} (h : NotWindow s c w a) (o : Nat) :
    resolve c (alignAddr w a) s ≠ .io o := by
  rw [NotWindow, ← alignAddr_alignTo] at h
  by_cases htcw : InTcw s c (alignAddr w a).toNat
  · rw [resolve_tcw c _ s htcw]
    exact nofun
  · by_cases hpass : InPass s (alignAddr w a).toNat
    · rw [resolve_pass c _ s htcw hpass]
      exact nofun
    · by_cases hwireless : InWireless c (alignAddr w a).toNat
      · rw [resolve_wifi c _ s htcw hpass hwireless]
        exact nofun
      · rw [resolve_table c _ s ⟨htcw, hpass, hwireless⟩, if_neg (h ⟨htcw, hpass, hwireless⟩)]
        split <;> exact nofun

/-! ### The elements -/

/-- The channel of a running burst after `n` elements. -/
def runningAt (d : Channel) (n : Nat) : Channel :=
  { d with executing := true, src := srcAt d n, dst := dstAt d n }

theorem runningAt_zero (d : Channel) : runningAt d 0 = { d with executing := true } := by
  simp [runningAt, srcAt, dstAt, steppedBy]

theorem runningAt_advance (d : Channel) (n : Nat) : (runningAt d n).advance (widthOf d.cnt) = runningAt d (n + 1) := by
  refine (advance_eq (runningAt d n)).trans ?_
  simp only [runningAt, srcAt, dstAt, steppedBy_steppedBy]

/-- An element outside the window is a copy, which the channel that runs it is not part of. -/
theorem element_outside {c : Cpu} {ch : Fin 4} {d : Channel} {w : Width} {u : State}
    (hsrc : ∀ o, resolve c (alignAddr w d.src) u ≠ .io o) (hdst : ∀ o, resolve c (alignAddr w d.dst) u ≠ .io o) :
    elements execute c ch w 1 (withChan u c ch d) =
        .ok (withChan (elementCopied c w d.src d.dst u) c ch (d.advance w)) ∧
      DecodesAs u (elementCopied c w d.src d.dst u) := by
  have hdecodes := decodesAs_memRead c d.src w u
  have hdst' : ∀ o, resolve c (alignAddr w d.dst) (memRead c d.src w u).2 ≠ .io o := fun o => by
    rw [hdecodes]
    exact hdst o
  obtain ⟨t, hwrite, ht⟩ := memWrite_outside execute (memRead c d.src w u).1 hdst'
  rw [elements_one, withChan_chan, (bystander_withChan c ch d).memRead hsrc,
    (bystander_withChan c ch d).memWrite execute execute _ hdst', elementCopied_eq, hwrite, settle_ok]
  refine ⟨?_, hdecodes.trans ht⟩
  change Except.ok ((withChan t c ch d).modChan c ch fun d => d.advance w) = _
  rw [modChan_eq_withChan, withChan_chan, withChan_withChan]

/-- A burst outside the window is its copies, in order. -/
theorem elements_outside {s : State} {c : Cpu} {ch : Fin 4} {d : Channel} (n : Nat)
    (h : ∀ k, k < n → NotWindow s c (widthOf d.cnt) (srcAt d k) ∧ NotWindow s c (widthOf d.cnt) (dstAt d k)) :
    elements execute c ch (widthOf d.cnt) n (withChan s c ch { d with executing := true }) =
        .ok (withChan (elementsCopied c d s n) c ch (runningAt d n)) ∧
      DecodesAs s (elementsCopied c d s n) := by
  induction n with
  | zero => exact ⟨by rw [runningAt_zero]; rfl, fun _ _ => rfl⟩
  | succ n ih =>
    obtain ⟨hrun, hdecodes⟩ := ih fun k hk => h k (by omega)
    obtain ⟨hsrc, hdst⟩ := h n (by omega)
    have helement := element_outside (ch := ch) (d := runningAt d n) (w := widthOf d.cnt) (u := elementsCopied c d s n)
      (fun o => by rw [hdecodes]; exact hsrc.resolve_ne_io o) (fun o => by rw [hdecodes]; exact hdst.resolve_ne_io o)
    rw [runningAt_advance] at helement
    rw [elements_add, hrun, andThen_ok]
    exact ⟨helement.1, hdecodes.trans helement.2⟩

/-- The end of a burst does not depend on the channel it replaces. -/
theorem BurstDone.of_withChan {c : Cpu} {ch : Fin 4} {u t : State} {d e : Channel}
    (h : BurstDone c ch (withChan u c ch e) d t) : BurstDone c ch u d t where
  state := by
    rw [h.state, withChan_side, Vector.set_set, withChan, setSide_setSide]
  mirror := h.mirror
  irq := h.irq
  frame := fun k hk => (h.frame k hk).trans (by rw [withChan, setSide_mem])

/-- Settles O42: the loop of `Execute` makes the copies, and its end replaces the channel they did not see. -/
theorem burstCopiesItsElements : Obligations.BurstCopiesItsElements := by
  intro s c ch d n hactive hcount hne h u again after irq
  obtain ⟨hloop, -⟩ := elements_outside (ch := ch) n h
  have hdone := (completeBurst_done c ch (withChan u c ch (runningAt d n))).of_withChan
  rw [withChan_chan] at hdone
  rw [exec_execute, execute_running hactive hcount hne, burstStarted, hloop, andThen_ok]
  exact ⟨_, finish_ok _ _, hdone.state, hdone.mirror, hdone.irq, hdone.frame⟩

end Sys2Proof.Machine
end
